-- ==== Sys2Proof/Word.lean ====
section
/-! DEFINITION. The widths of the Huffman codec core: what the spec treats as bits (00_scope.md R8, R9, R11; 10_state.md R22). -/

namespace Sys2Proof

/-- A byte, 8 bits, always unsigned (00_scope.md R11). -/
abbrev Byte := BitVec 8

/-- A count (a FREQ entry, a node frequency, ORIG_SIZE, RP, WP, SD_CNT): unsigned, 64 bits, sums modulo 2^64 (R9, R23). -/
abbrev Count := BitVec 64

/-- A tree-node index, 9 bits, or NIL (R9, R37). -/
abbrev NodeIx := BitVec 9

/-- A trie-node index, 16 bits, or TNIL (R9, R40). -/
abbrev TrieIx := BitVec 16

/-- A command word (30_encoding.md R90). -/
abbrev CmdWord := BitVec 32

/-- A Code: an ordered sequence of bits, the first the edge that leaves the root (R12, R39). `false` is the bit 0, `true` the bit 1. -/
abbrev Code := List Bool

end Sys2Proof
end

