-- ==== Sys2Proof/Syntax.lean ====
section
/-! DEFINITION. The 22 commands of spec/opcode_table.json, one constructor a row (30_encoding.md R93). -/

namespace Sys2Proof

/-- A command. Only PQ_INS has an operand, the node index `n = w[16:8]` (R96). -/
inductive Instr where
  | nop
  | rst
  | rwd
  | fcScan
  | pqClr
  | pqIns (n : Nat)
  | pqExt
  | tbMerge
  | tbBuild
  | cgGen
  | ctWr4
  | ctWr8
  | ctRd4
  | ctRd8
  | ctWrx4
  | ctWrx8
  | ctRdx
  | cfWrh
  | bpEnc
  | dtBuild
  | cfRdh
  | sdRun
  deriving DecidableEq, Repr

end Sys2Proof
end

