-- ==== Sys2Proof/WellFormed.lean ====
section
/-! DEFINITION. Which commands have a word: the operand of PQ_INS must fit its 9-bit field (30_encoding.md R92). A well-formed operand above 255 is a word all the same; the command then faults (41_priority_queue.md R146). -/

namespace Sys2Proof

/-- The operand fits the field `w[16:8]` of format N (R92); format Z has no operand to check (R91). -/
def Instr.wellFormed : Instr → Bool
  | .pqIns n => decide (n < 512)
  | .nop | .rst | .rwd | .fcScan | .pqClr | .pqExt | .tbMerge | .tbBuild | .cgGen => true
  | .ctWr4 | .ctWr8 | .ctRd4 | .ctRd8 | .ctWrx4 | .ctWrx8 | .ctRdx => true
  | .cfWrh | .bpEnc | .dtBuild | .cfRdh | .sdRun => true

end Sys2Proof
end

