-- ==== Sys2Proof/Decode.lean ====
section
/-! DEFINITION. From a command word to a command and back (30_encoding.md R90 to R97). Decoding is total: a word is a command or is refused by name. -/

namespace Sys2Proof

/-- Why a word is no command (R94 steps 3 to 5). Both are reported as BadCommand (R95). -/
inductive DecodeError where
  /-- Step 3: `w[7:0]` is no opcode of R93. -/
  | unknownOpcode
  /-- Steps 4 and 5: the opcode is listed, and a reserved bit is not zero. -/
  | reservedNotZero
  deriving DecidableEq, Repr

/-- One row of the opcode map (R93): the word selects the command when `w & mask = pattern`. -/
structure OpcodeRow where
  pattern : CmdWord
  mask : CmdWord
  command : Nat → Instr

/-- The mask of format Z: every bit is fixed (R91). -/
def maskZ : CmdWord := 0xFFFFFFFF#32

/-- The mask of format N: every bit but the operand field `w[16:8]` is fixed (R92). -/
def maskN : CmdWord := 0xFFFE00FF#32

/-- The opcode map, in the order of R93. -/
def opcodeMap : List OpcodeRow :=
  [ ⟨0x00000000#32, maskZ, fun _ => .nop⟩,
    ⟨0x00000001#32, maskZ, fun _ => .rst⟩,
    ⟨0x00000002#32, maskZ, fun _ => .rwd⟩,
    ⟨0x00000010#32, maskZ, fun _ => .fcScan⟩,
    ⟨0x00000020#32, maskZ, fun _ => .pqClr⟩,
    ⟨0x00000021#32, maskN, fun n => .pqIns n⟩,
    ⟨0x00000022#32, maskZ, fun _ => .pqExt⟩,
    ⟨0x00000030#32, maskZ, fun _ => .tbMerge⟩,
    ⟨0x00000031#32, maskZ, fun _ => .tbBuild⟩,
    ⟨0x00000040#32, maskZ, fun _ => .cgGen⟩,
    ⟨0x00000050#32, maskZ, fun _ => .ctWr4⟩ ] ++
  [ ⟨0x00000051#32, maskZ, fun _ => .ctWr8⟩,
    ⟨0x00000052#32, maskZ, fun _ => .ctRd4⟩,
    ⟨0x00000053#32, maskZ, fun _ => .ctRd8⟩,
    ⟨0x00000054#32, maskZ, fun _ => .ctWrx4⟩,
    ⟨0x00000055#32, maskZ, fun _ => .ctWrx8⟩,
    ⟨0x00000056#32, maskZ, fun _ => .ctRdx⟩,
    ⟨0x00000060#32, maskZ, fun _ => .cfWrh⟩,
    ⟨0x00000061#32, maskZ, fun _ => .bpEnc⟩,
    ⟨0x00000070#32, maskZ, fun _ => .dtBuild⟩,
    ⟨0x00000080#32, maskZ, fun _ => .cfRdh⟩,
    ⟨0x00000081#32, maskZ, fun _ => .sdRun⟩ ]

/-- The opcode field `w[7:0]` (R90). -/
def opcodeField (w : CmdWord) : BitVec 8 := w.extractLsb' 0 8

/-- The operand field `w[16:8]`, an unsigned node index (R90, R96). -/
def operandField (w : CmdWord) : BitVec 9 := w.extractLsb' 8 9

/-- Decoding, in the order of R94: first the opcode, then the reserved bits. -/
def decode (w : CmdWord) : Except DecodeError Instr :=
  match opcodeMap.find? (fun r => opcodeField r.pattern == opcodeField w) with
  | none => .error .unknownOpcode
  | some r => if w &&& r.mask = r.pattern then .ok (r.command (operandField w).toNat) else .error .reservedNotZero

/-- A word of format Z (R91). -/
def wordZ (opcode : BitVec 8) : CmdWord := opcode.setWidth 32

/-- A word of format N (R92). -/
def wordN (opcode : BitVec 8) (n : Nat) : CmdWord := opcode.setWidth 32 ||| BitVec.ofNat 32 n <<< 8

/-- The word of a well-formed command (R91 to R93). -/
def encode : Instr → CmdWord
  | .nop => wordZ 0x00#8
  | .rst => wordZ 0x01#8
  | .rwd => wordZ 0x02#8
  | .fcScan => wordZ 0x10#8
  | .pqClr => wordZ 0x20#8
  | .pqIns n => wordN 0x21#8 n
  | .pqExt => wordZ 0x22#8
  | .tbMerge => wordZ 0x30#8
  | .tbBuild => wordZ 0x31#8
  | .cgGen => wordZ 0x40#8
  | .ctWr4 => wordZ 0x50#8
  | .ctWr8 => wordZ 0x51#8
  | .ctRd4 => wordZ 0x52#8
  | .ctRd8 => wordZ 0x53#8
  | .ctWrx4 => wordZ 0x54#8
  | .ctWrx8 => wordZ 0x55#8
  | .ctRdx => wordZ 0x56#8
  | .cfWrh => wordZ 0x60#8
  | .bpEnc => wordZ 0x61#8
  | .dtBuild => wordZ 0x70#8
  | .cfRdh => wordZ 0x80#8
  | .sdRun => wordZ 0x81#8

/-- The command in a table word: a command is exactly one 32-bit word, bit 0 its least significant bit (R90, R97); bits at and above `nbits` are zero (log 16). -/
def decodeTableWord (nbits w : Nat) : Option Instr :=
  match decode (BitVec.ofNat 32 (w % 2 ^ nbits)) with
  | .ok i => some i
  | .error _ => none

end Sys2Proof
end

