-- ==== Sys2Proof/Config.lean ====
section
/-! DEFINITION. The fixed parameters of the block (00_scope.md R8, R9). The spec leaves no value of the block free: its only open parameters, SRC, SRC_FAIL and SNK_LIMIT (R10), are set by host actions and stand in State. -/

namespace Sys2Proof.Config

/-- NSYM: the number of symbols, FREQ, INS and CT cells (R8). -/
def nsym : Nat := 256

/-- LMAX: the longest code, in bits (R8). -/
def lmax : Nat := 255

/-- HDR_C: the width in bytes of the compressed file's header (R8). -/
def hdrC : Nat := 8

/-- NODE_CAP: the number of NODE cells (R9). -/
def nodeCap : Nat := 511

/-- HEAP_CAP: the number of HEAP cells (R9). -/
def heapCap : Nat := 256

/-- TRIE_CAP: the number of TRIE cells, 1 root + 256 codes of 255 bits (R9). -/
def trieCap : Nat := 65281

/-- NIL: the absent tree-node index (R9). -/
def nil : NodeIx := 0x1FF#9

/-- TNIL: the absent trie-node index (R9). -/
def tnil : TrieIx := 0xFFFF#16

/-- LEN_MAX: the longest source or sink a host may present (R9, R41). -/
def lenMax : Nat := 2 ^ 64 - 1

end Sys2Proof.Config
end

