-- ==== Sys2Proof/Machine/State.lean ====
section
/-! DEFINITION. The state of the block and of its two host-owned streams as plain data (10_state.md R21 to R47), the reasons a step can stop, and the state after power-on reset. -/

namespace Sys2Proof.Machine

/-- The error kinds held in ERR (60_exceptions.md R310). ERR = 0 is the absence of one. -/
inductive ErrKind where
  | ioError
  | malformedTable
  | ambiguousCode
  | unknownSymbol
  | corruptStream
  | truncatedInput
  | badCommand
  deriving DecidableEq, Repr

/-- The decoder's states (10_state.md R33). Code 3 never occurs, so no fourth name stands here. -/
inductive SdState where
  | walking
  | emitted
  | done
  deriving DecidableEq, Repr

/-- A cell of NODE (R37). -/
structure TreeNode where
  freq : Count
  tb : Byte
  left : NodeIx
  right : NodeIx
  deriving DecidableEq, Repr

/-- A cell of TRIE (R40). -/
structure TrieNode where
  c0 : TrieIx
  c1 : TrieIx
  leaf : Bool
  sym : Byte
  deriving DecidableEq, Repr

/-- An internal memory: the cells that differ from what an unlisted cell reads as, by rising index (log 11). -/
abbrev Cells (α : Type) := List (Nat × α)

/-- Everything the host can do, each an atomic step between commands (48_system.md R294), and the register write of R22. -/
inductive HostAction where
  /-- `H_CMD w`: write w to CMD (R293). -/
  | cmd (w : CmdWord)
  /-- `H_ATTACH bytes [fail=f]`. -/
  | attach (bytes : List Byte) (fail : Option Count)
  /-- `H_LIMIT n`. -/
  | limit (n : Option Count)
  /-- `H_DRAIN`. -/
  | drain
  /-- `H_SIZE v`. -/
  | size (v : Count)
  /-- `H_READ r`. -/
  | read (r : Nat)
  /-- A write of a register by its number (R22; log 14). -/
  | write (r : Nat) (v : Count)
  /-- The block's reset input (70_reset_and_hazards.md R340). -/
  | hardReset
  deriving DecidableEq, Repr

/-- What a host action gave back to the host (R294; log 2). -/
inductive Observation where
  /-- `H_DRAIN` returned the sink's bytes. -/
  | drained (bytes : List Byte)
  /-- `H_READ r` returned a value. -/
  | value (r : Nat) (v : Count)
  deriving DecidableEq, Repr

/-- The state (10_state.md R21): registers, internal memories, streams, and the model's own record of the host. -/
structure State where
  /-- ERR (R25): `none` is code 0. -/
  err : Option ErrKind
  /-- STATUS.EMPTY, the one STATUS bit that is state (R24). -/
  empty : Bool
  /-- RES (R26). -/
  res : NodeIx
  /-- ORIG_SIZE (R27). -/
  origSize : Count
  /-- RP (R28). -/
  rp : Count
  /-- ROOT (R30). -/
  root : NodeIx
  /-- HEAP_N (R30). -/
  heapN : BitVec 9
  /-- NODE_NEXT (R30). -/
  nodeNext : BitVec 10
  /-- TRIE_N (R32). -/
  trieN : BitVec 17
  /-- SD_STATE (R33). -/
  sdState : SdState
  /-- SD_CUR (R33). -/
  sdCur : TrieIx
  /-- SD_CNT (R33). -/
  sdCnt : Count
  /-- DEC_ONE (R34): bit 8 is `one`, bits 7:0 are `sym`. -/
  decOne : BitVec 9
  /-- FREQ (R35); an unlisted cell reads 0. -/
  freq : Cells Count
  /-- INS (R36); an unlisted cell reads 0. -/
  ins : Cells Bool
  /-- NODE (R37); an unlisted cell holds no value (R46). -/
  node : Cells (Option TreeNode)
  /-- HEAP (R38); an unlisted cell holds no value (R46). -/
  heap : Cells (Option NodeIx)
  /-- CT (R39); an unlisted cell is absent. -/
  ct : Cells (Option Code)
  /-- TRIE (R40); an unlisted cell holds no value (R46). -/
  trie : Cells (Option TrieNode)
  /-- SRC (R41). -/
  src : List Byte
  /-- SRC_FAIL (R41). -/
  srcFail : Option Count
  /-- SNK (R42). -/
  snk : List Byte
  /-- SNK_LIMIT (R42). -/
  snkLimit : Option Count
  /-- The model's own: the host actions still to come, oldest first (log 1). -/
  host : List HostAction
  /-- The model's own: what the host was given, newest last (log 2). -/
  seen : List Observation
  deriving DecidableEq, Repr

/-- The names of the memories whose cells can lack a value or fall outside the capacity (R37, R38, R40). -/
inductive MemName where
  | node
  | heap
  | trie
  deriving DecidableEq, Repr

/-- The stops of the MODEL. The spec's own errors are no stops: they enter the fault state, a next state (R318). A host that keeps to R9 reaches none of these from reset. -/
inductive Fault where
  /-- Raised by a command that reads a NODE, HEAP or TRIE cell that holds no value (R46, U4; log 4). Safe: the model stops where the spec gives no value. -/
  | unwrittenCell (m : MemName) (i : Nat)
  /-- Raised by a command that writes a NODE, HEAP or TRIE cell the memory does not have (R9; log 5). Safe: no such cell exists. -/
  | noSuchCell (m : MemName) (i : Nat)
  /-- Raised by CG_GEN on nodes that form a cycle and by a source loop past LEN_MAX: a loop the pseudocode would not leave (log 6). Safe: a stuck state. -/
  | endlessLoop
  /-- Raised by SrcRead with no byte left, which R62 leaves without a meaning (log 7). Safe: no caller does it. -/
  | readPastEnd
  /-- Raised by SnkWrite on a sink without a limit that holds LEN_MAX bytes: no host may present a longer one (R9, R60; log 9). Safe: the model stops where the spec has no sink. -/
  | sinkTooLong
  deriving DecidableEq, Repr

/-- Why the model gives a request no transition. -/
inductive Refusal where
  /-- An instruction that has no meaning yet, refused in exec's arm. Safe. -/
  | notModelled (mnemonic : String)
  /-- Raised by an attach of more than LEN_MAX bytes, which no host may present (R9, R41, R300; log 8). Safe. -/
  | sourceTooLong
  deriving DecidableEq, Repr

/-- The machine at power-on: the reset values of R22 and R45, no value in NODE, HEAP and TRIE (R46), the streams empty and unlimited (R47), no host action yet. -/
def State.reset : State where
  err := none
  empty := false
  res := Config.nil
  origSize := 0#64
  rp := 0#64
  root := Config.nil
  heapN := 0#9
  nodeNext := 256#10
  trieN := 0#17
  sdState := .walking
  sdCur := 0#16
  sdCnt := 0#64
  decOne := 0#9
  freq := []
  ins := []
  node := []
  heap := []
  ct := []
  trie := []
  src := []
  srcFail := none
  snk := []
  snkLimit := none
  host := []
  seen := []

end Sys2Proof.Machine
end

