-- ==== Sys2Proof/Machine/Ops.lean ====
section
/-! DEFINITION. The operations every command is made of: cells of the internal memories, the two stream primitives, fault entry and the way back from it. -/

namespace Sys2Proof.Machine

/-- How a command, or a part of one, ends: normally with a value, at a `raise` (R318), or at a stop of the model. -/
inductive Run (α : Type) where
  | ok (a : α) (s : State)
  | raise (k : ErrKind) (s : State)
  | stop (f : Fault)
  deriving DecidableEq, Repr

/-- One part after another: no statement after a `raise` runs (00_scope.md R13). -/
def Run.andThen {α β : Type} (r : Run α) (f : α → State → Run β) : Run β :=
  match r with
  | .ok a s => f a s
  | .raise k s => .raise k s
  | .stop e => .stop e

/-- Fault entry (60_exceptions.md R318): ERR gets the kind and nothing else is written. -/
def enterFault (k : ErrKind) (s : State) : State := { s with err := some k }

/-- The end of a command: normal, or by fault entry. -/
def finish (r : Run Unit) : Host.Outcome State Fault Refusal :=
  match r with
  | .ok _ s => .next s
  | .raise k s => .next (enterFault k s)
  | .stop e => .fault e

/-- The only way out of the fault state (R321), the effect of RST and of hard reset (48_system.md R291, R340): the reset values, but for the host-owned streams (R47) and the model's record of the host. -/
def softReset (s : State) : State :=
  { State.reset with
    src := s.src, srcFail := s.srcFail, snk := s.snk, snkLimit := s.snkLimit, host := s.host, seen := s.seen }

/-! The cells of an internal memory. -/

/-- Cell `i` of a memory whose unlisted cells read `d`. -/
def readCell {α : Type} (d : α) : Cells α → Nat → α
  | [], _ => d
  | (j, w) :: c, i => if i < j then d else if i = j then w else readCell d c i

/-- `M[i] <- v`. A cell that comes to read `d` is not listed, so equal memories are equal lists. -/
def writeCell {α : Type} [DecidableEq α] (d : α) : Cells α → Nat → α → Cells α
  | [], i, v => if v = d then [] else [(i, v)]
  | (j, w) :: c, i, v =>
    if i < j then (if v = d then (j, w) :: c else (i, v) :: (j, w) :: c)
    else if i = j then (if v = d then c else (i, v) :: c)
    else (j, w) :: writeCell d c i v

/-- The canonical form of a memory of `n` cells: indices below `n` and strictly rising, no listed cell reads `d`. -/
def cellsWf {α : Type} [DecidableEq α] (d : α) (n : Nat) : Cells α → Bool
  | [] => true
  | (i, v) :: c => decide (i < n) && decide (v ≠ d) && c.all (fun e => decide (i < e.1)) && cellsWf d n c

/-- FREQ[b] (R35). -/
def freqOf (s : State) (b : Nat) : Count := readCell 0#64 s.freq b

/-- INS[b] (R36). -/
def insOf (s : State) (b : Nat) : Bool := readCell false s.ins b

/-- CT[b] (R39): absent or a code. -/
def ctOf (s : State) (b : Nat) : Option Code := readCell none s.ct b

/-- What NODE cell `i` holds, if anything (R37, R46). -/
def nodeOf (s : State) (i : Nat) : Option TreeNode := readCell none s.node i

/-- What HEAP cell `k` holds, if anything (R38, R46). -/
def heapOf (s : State) (k : Nat) : Option NodeIx := readCell none s.heap k

/-- What TRIE cell `i` holds, if anything (R40, R46). -/
def trieOf (s : State) (i : Nat) : Option TrieNode := readCell none s.trie i

/-- A value read from a cell, or the model's stop where the cell holds none (R46; log 4). -/
def cellValue {α : Type} (m : MemName) (i : Nat) (v : Option α) (s : State) : Run α :=
  match v with
  | some a => .ok a s
  | none => .stop (.unwrittenCell m i)

/-- A command's read of `NODE[i]`. -/
def nodeAt (i : NodeIx) (s : State) : Run TreeNode := cellValue .node i.toNat (nodeOf s i.toNat) s

/-- A command's read of `HEAP[k]`. -/
def heapAt (k : Nat) (s : State) : Run NodeIx := cellValue .heap k (heapOf s k) s

/-- A command's read of `TRIE[i]`. -/
def trieAt (i : TrieIx) (s : State) : Run TrieNode := cellValue .trie i.toNat (trieOf s i.toNat) s

/-- `NODE[i] <- v`; the arena has 511 cells (R9, R37; log 5). -/
def setNode (i : Nat) (v : TreeNode) (s : State) : Run Unit :=
  if i < Config.nodeCap then .ok () { s with node := writeCell none s.node i (some v) } else .stop (.noSuchCell .node i)

/-- `HEAP[k] <- v`; the array has 256 cells (R9, R38; log 5). -/
def setHeap (k : Nat) (v : NodeIx) (s : State) : Run Unit :=
  if k < Config.heapCap then .ok () { s with heap := writeCell none s.heap k (some v) } else .stop (.noSuchCell .heap k)

/-- `TRIE[i] <- v`; the arena has 65281 cells (R9, R40; log 5). -/
def setTrie (i : Nat) (v : TrieNode) (s : State) : Run Unit :=
  if i < Config.trieCap then .ok () { s with trie := writeCell none s.trie i (some v) } else .stop (.noSuchCell .trie i)

/-- `CT[b] <- code`. -/
def setCt (b : Nat) (code : Code) (s : State) : State := { s with ct := writeCell none s.ct b (some code) }

/-! The streams (20_memory.md R62, R63). -/

/-- `SrcEof()` (R62). -/
def srcEof (s : State) : Bool := decide (s.rp.toNat = s.src.length)

/-- The number of source bytes left, `|SRC| - RP`. -/
def srcLeft (s : State) : Nat := s.src.length - s.rp.toNat

/-- The host's stream fails at the read position: `RP >= SRC_FAIL` (R62). -/
def srcFails (s : State) : Bool :=
  match s.srcFail with
  | none => false
  | some f => decide (f ≤ s.rp)

/-- `SrcRead()` (R62); with no byte left it has no meaning (log 7). -/
def srcRead (s : State) : Run Byte :=
  match s.src[s.rp.toNat]? with
  | none => .stop .readPastEnd
  | some b => if srcFails s then .raise .ioError s else .ok b { s with rp := s.rp + 1#64 }

/-- How many bytes the host's sink holds: SNK_LIMIT, and LEN_MAX where there is none (R9, R42, R60). -/
def snkCap (s : State) : Nat :=
  match s.snkLimit with
  | none => Config.lenMax
  | some n => n.toNat

/-- The sink takes no further byte. -/
def snkFull (s : State) : Bool := decide (snkCap s ≤ s.snk.length)

/-- A write to a full sink: IOError at SNK_LIMIT (R63); past LEN_MAX there is no sink (R9; log 9). -/
def snkEnd (s : State) : Run Unit :=
  match s.snkLimit with
  | none => .stop .sinkTooLong
  | some _ => .raise .ioError s

/-- `SnkWrite(b)` (R63). -/
def snkWrite (b : Byte) (s : State) : Run Unit :=
  if snkFull s then snkEnd s else .ok () { s with snk := s.snk ++ [b] }

/-- `SnkWrite` of each byte in order. -/
def snkWriteAll : List Byte → State → Run Unit
  | [], s => .ok () s
  | b :: bs, s => (snkWrite b s).andThen fun _ s => snkWriteAll bs s

/-- `n` source bytes in order, where the end of input before the last of them raises `k`. -/
def srcTake (k : ErrKind) : Nat → State → Run (List Byte)
  | 0, s => .ok [] s
  | n + 1, s =>
    if srcEof s then .raise k s
    else (srcRead s).andThen fun b s => (srcTake k n s).andThen fun bs s => .ok (b :: bs) s

/-- `while not SrcEof(): body`, the loop of FC_SCAN, BP_ENC and the table readers, carrying a transient value. Each pass consumes a byte, so as many passes as bytes are left are enough (R301); a loop that goes on has no end (log 6). -/
def whileSrc {α : Type} (body : α → State → Run α) : Nat → α → State → Run α
  | 0, a, s => if srcEof s then .ok a s else .stop .endlessLoop
  | n + 1, a, s => if srcEof s then .ok a s else (body a s).andThen fun a s => whileSrc body n a s

end Sys2Proof.Machine
end

