-- ==== Sys2Proof/Machine/Operands.lean ====
section
/-! DEFINITION. The forms data takes on its way in and out: integers, bit sequences, table records and hex text (00_scope.md R11, R12; 30_encoding.md R100 to R112). -/

namespace Sys2Proof.Machine

/-- `ceil8(L)` (R11). -/
def ceil8 (n : Nat) : Nat := (n + 7) / 8

/-- `le_n(v)`: the n low bytes of v, least significant first (R12). -/
def le (n : Nat) (v : Count) : List Byte := (List.range n).map fun i => (v >>> (8 * i)).setWidth 8

/-- `from_le(bytes)`, zero-extended to 64 bits (R12). -/
def fromLe : List Byte → Count
  | [] => 0#64
  | b :: bs => b.setWidth 64 ||| fromLe bs <<< 8

/-- `pack8(b)`: bit 7 is `b[0]`, and so on; positions beyond the sequence are 0 (R12). -/
def pack8 (b : List Bool) : Byte :=
  BitVec.ofNat 8 ((List.range 8).foldl (fun v i => 2 * v + (b.getD i false).toNat) 0)

/-- `packbits(c)`: the bytes of a bit sequence, the last one padded with zeros (R12). -/
def packbits (c : List Bool) : List Byte := (List.range (ceil8 c.length)).map fun k => pack8 ((c.drop (8 * k)).take 8)

/-- The bits of a byte, most significant first (R66). -/
def bitsOf (b : Byte) : List Bool := (List.range 8).map fun i => b.getMsbD i

/-- `unpackbits(bytes, L)` (R12). -/
def unpackbits (bytes : List Byte) (n : Nat) : List Bool := (bytes.flatMap bitsOf).take n

/-- The byte L of a record (R102); every code has 1 to 255 bits (R39; log 12). -/
def lengthByte (code : Code) : Byte := BitVec.ofNat 8 code.length

/-- A table record: symbol, L, packed bits (R102). -/
def record (b : Nat) (code : Code) : List Byte := BitVec.ofNat 8 b :: lengthByte code :: packbits code

/-- The records of a table in ascending symbol order (R104). -/
def records (s : State) : List (List Byte) :=
  (List.range Config.nsym).filterMap fun b => (ctOf s b).map (record b)

/-- The upper-case hex digit of a value below 16, in ASCII (R107). -/
def hexDigit (d : Byte) : Byte := if d < 10#8 then d + 0x30#8 else d + 0x37#8

/-- `hexval(c)` (44_code_table_codec.md R202): both cases are read; anything else is no digit. -/
def hexval (c : Byte) : Option Byte :=
  if 0x30#8 ≤ c ∧ c ≤ 0x39#8 then some (c - 0x30#8)
  else if 0x41#8 ≤ c ∧ c ≤ 0x46#8 then some (c - 0x37#8)
  else if 0x61#8 ≤ c ∧ c ≤ 0x66#8 then some (c - 0x57#8)
  else none

/-- A token: two digits, the high nibble first (R107). -/
def hexToken (b : Byte) : List Byte := [hexDigit (b >>> 4), hexDigit (b &&& 0x0F#8)]

/-- The line feed that ends every line (R107). -/
def lineFeed : Byte := 0x0A#8

/-- The space between tokens (R107). -/
def space : Byte := 0x20#8

/-- The text line of a byte list: tokens with one space between them, and a line feed (R199). -/
def hexLine : List Byte → List Byte
  | [] => [lineFeed]
  | [b] => hexToken b ++ [lineFeed]
  | b :: bs => hexToken b ++ space :: hexLine bs

end Sys2Proof.Machine
end

