-- ==== Sys2Proof/Machine/BitPacker.lean ====
section
/-! DEFINITION. The BitPacker's commands CF_WRH and BP_ENC (45_bit_packer.md R230 to R235). -/

namespace Sys2Proof.Machine

/-- `while |acc| >= 8: SnkWrite(pack8(acc[0..8))); acc <- acc[8..)` (R233); each pass takes 8 bits away. -/
def flushBytes : Nat → List Bool → State → Run (List Bool)
  | 0, acc, s => .ok acc s
  | n + 1, acc, s =>
    if 8 ≤ acc.length then (snkWrite (pack8 (acc.take 8)) s).andThen fun _ s => flushBytes n (acc.drop 8) s
    else .ok acc s

/-- One pass of the packer's loop (R233): the accumulator is the transient value. -/
def packSymbol (acc : List Bool) (s : State) : Run (List Bool) :=
  (srcRead s).andThen fun b s =>
    match ctOf s b.toNat with
    | none => .raise .unknownSymbol s
    | some code => flushBytes (acc ++ code).length (acc ++ code) s

/-- `if |acc| > 0: SnkWrite(pack8(acc))` (R233). -/
def flushRest (acc : List Bool) (s : State) : Run Unit :=
  if acc.length = 0 then .ok () s else snkWrite (pack8 acc) s

/-- The effect of BP_ENC (R233). -/
def packSource (s : State) : Run Unit :=
  (whileSrc packSymbol (srcLeft s) [] s).andThen fun acc s => flushRest acc s

/-- CF_WRH (R231): `le_8(ORIG_SIZE)`. -/
def execCfWrh (s : State) : Host.Outcome State Fault Refusal := finish (snkWriteAll (le Config.hdrC s.origSize) s)

/-- BP_ENC (R233). -/
def execBpEnc (s : State) : Host.Outcome State Fault Refusal := finish (packSource s)

end Sys2Proof.Machine
end

