-- ==== Sys2Proof/Machine/CodeGen.lean ====
section
/-! DEFINITION. The CodeTableGenerator's command CG_GEN (43_code_table_generator.md R180 to R183). -/

namespace Sys2Proof.Machine

/-- `Walk(i, path)` (R181): a leaf's index is its byte value; left appends 0, right appends 1. A path through more nodes than there are internal cells has met one twice and has no end (log 6). -/
def walkTree : Nat → NodeIx → Code → State → Run Unit
  | 0, i, path, s => if i.toNat < 256 then .ok () (setCt i.toNat path s) else .stop .endlessLoop
  | n + 1, i, path, s =>
    if i.toNat < 256 then .ok () (setCt i.toNat path s)
    else (nodeAt i s).andThen fun c s =>
      (walkTree n c.left (path ++ [false]) s).andThen fun _ s => walkTree n c.right (path ++ [true]) s

/-- The number of internal NODE cells, 256 to 510 (R37). -/
def internalCells : Nat := Config.nodeCap - Config.nsym

/-- The effect of CG_GEN (R181); a single leaf gets the code 0 (R182). -/
def generateCodes (s : State) : Run Unit :=
  if s.root = Config.nil then .raise .badCommand s
  else if s.root.toNat < 256 then .ok () (setCt s.root.toNat [false] { s with ct := [] })
  else walkTree internalCells s.root [] { s with ct := [] }

/-- CG_GEN (R181). -/
def execCgGen (s : State) : Host.Outcome State Fault Refusal := finish (generateCodes s)

end Sys2Proof.Machine
end

