-- ==== Sys2Proof/Machine/DecodeTrie.lean ====
section
/-! DEFINITION. The DecodeTrie's command DT_BUILD (46_decode_trie.md R250 to R254). -/

namespace Sys2Proof.Machine

/-- The child of a trie node for a bit: bit 0 is left, bit 1 is right (R40, R252). -/
def childOf (bit : Bool) (c : TrieNode) : TrieIx := if bit then c.c1 else c.c0

/-- A trie node with one child replaced. -/
def withChild (bit : Bool) (i : TrieIx) (c : TrieNode) : TrieNode := if bit then { c with c1 := i } else { c with c0 := i }

/-- The cell TrieNew makes (R251). -/
def freshTrieNode : TrieNode := ⟨Config.tnil, Config.tnil, false, 0#8⟩

/-- `TrieNew()` (R251). -/
def trieNew (s : State) : Run TrieIx :=
  (setTrie s.trieN.toNat freshTrieNode s).andThen fun _ t => .ok (s.trieN.setWidth 16) { t with trieN := t.trieN + 1#17 }

/-- One step of TrieAdd's loop (R252): case (a), then the child for the bit, made if absent. -/
def trieStep (bit : Bool) (cur : TrieIx) (s : State) : Run TrieIx :=
  (trieAt cur s).andThen fun c s =>
    if c.leaf then .raise .ambiguousCode s
    else if childOf bit c = Config.tnil then
      (trieNew s).andThen fun i s => (setTrie cur.toNat (withChild bit i c) s).andThen fun _ s => .ok i s
    else .ok (childOf bit c) s

/-- TrieAdd's loop over the bits of a code (R252). -/
def trieWalk : Code → TrieIx → State → Run TrieIx
  | [], cur, s => .ok cur s
  | bit :: bits, cur, s => (trieStep bit cur s).andThen fun cur s => trieWalk bits cur s

/-- The end of TrieAdd (R252): cases (b) and (c), then the leaf. -/
def trieMark (sym : Byte) (cur : TrieIx) (s : State) : Run Unit :=
  (trieAt cur s).andThen fun c s =>
    if c.leaf then .raise .ambiguousCode s
    else if c.c0 ≠ Config.tnil ∨ c.c1 ≠ Config.tnil then .raise .ambiguousCode s
    else setTrie cur.toNat { c with leaf := true, sym := sym } s

/-- `TrieAdd(sym, code)` (R252). -/
def trieAdd (sym : Byte) (code : Code) (s : State) : Run Unit :=
  (trieWalk code 0#16 s).andThen fun cur s => trieMark sym cur s

/-- DT_BUILD's loop over the symbols, carrying `cnt` and `last` (R253). -/
def trieAddAll : List Nat → Nat × Nat → State → Run (Nat × Nat)
  | [], p, s => .ok p s
  | b :: bs, p, s =>
    match ctOf s b with
    | none => trieAddAll bs p s
    | some code => (trieAdd (BitVec.ofNat 8 b) code s).andThen fun _ s => trieAddAll bs (p.1 + 1, b) s

/-- The value DEC_ONE takes when exactly one pair was added (R34, R253). -/
def oneSymbol (b : Nat) : BitVec 9 := 0x100#9 ||| BitVec.ofNat 9 b

/-- The effect of DT_BUILD (R253). -/
def buildTrie (s : State) : Run Unit :=
  (trieNew { s with trieN := 0#17, decOne := 0#9 }).andThen fun _ s =>
    (trieAddAll (List.range Config.nsym) (0, 0) s).andThen fun p s =>
      .ok () (if p.1 = 1 then { s with decOne := oneSymbol p.2 } else s)

/-- DT_BUILD (R253). -/
def execDtBuild (s : State) : Host.Outcome State Fault Refusal := finish (buildTrie s)

end Sys2Proof.Machine
end

