-- ==== Sys2Proof/Machine/FrequencyCounter.lean ====
section
/-! DEFINITION. The FrequencyCounter's command FC_SCAN (40_frequency_counter.md R131). -/

namespace Sys2Proof.Machine

/-- One pass of the scan: `FREQ[s] <- FREQ[s] + 1; n <- n + 1`. -/
def countByte (n : Count) (s : State) : Run Count :=
  (srcRead s).andThen fun b s =>
    .ok (n + 1#64) { s with freq := writeCell 0#64 s.freq b.toNat (freqOf s b.toNat + 1#64) }

/-- The scan (R131): FREQ is zeroed first, ORIG_SIZE is written last. -/
def scanSource (s : State) : Run Unit :=
  (whileSrc countByte (srcLeft s) 0#64 { s with freq := [] }).andThen fun n s => .ok () { s with origSize := n }

/-- FC_SCAN (R131). -/
def execFcScan (s : State) : Host.Outcome State Fault Refusal := finish (scanSource s)

end Sys2Proof.Machine
end

