-- ==== Sys2Proof/Machine/PriorityQueue.lean ====
section
/-! DEFINITION. The PriorityStructure and its commands PQ_CLR, PQ_INS and PQ_EXT (41_priority_queue.md R140 to R148). -/

namespace Sys2Proof.Machine

/-- The order of two nodes by their keys (R142), both compares unsigned. -/
def keyLess (a b : TreeNode) : Bool := decide (a.freq < b.freq) || (decide (a.freq = b.freq) && decide (a.tb < b.tb))

/-- `less(i, j)` (R142). -/
def less (i j : NodeIx) (s : State) : Run Bool :=
  (nodeAt i s).andThen fun a s => (nodeAt j s).andThen fun b s => .ok (keyLess a b) s

/-- `less(HEAP[p], HEAP[q])`. -/
def lessAt (p q : Nat) (s : State) : Run Bool :=
  (heapAt p s).andThen fun i s => (heapAt q s).andThen fun j s => less i j s

/-- `swap HEAP[p], HEAP[q]`. -/
def swapHeap (p q : Nat) (s : State) : Run Unit :=
  (heapAt p s).andThen fun i s => (heapAt q s).andThen fun j s =>
    (setHeap p j s).andThen fun _ s => setHeap q i s

/-- The sift-up loop of R143 from position `k`; `k` falls at every pass, so `k` passes are enough. -/
def siftUp : Nat → Nat → State → Run Unit
  | 0, _, s => .ok () s
  | n + 1, k, s =>
    if k = 0 then .ok () s
    else (lessAt k ((k - 1) / 2) s).andThen fun b s =>
      if b then (swapHeap k ((k - 1) / 2) s).andThen fun _ s => siftUp n ((k - 1) / 2) s else .ok () s

/-- `HeapInsert(n)` (R143). -/
def heapInsert (i : NodeIx) (s : State) : Run Unit :=
  (setHeap s.heapN.toNat i s).andThen fun _ t => siftUp s.heapN.toNat s.heapN.toNat { t with heapN := t.heapN + 1#9 }

/-- One compare of the sift-down: the child `c` if it is live and less than position `m`, else `m` (R144). -/
def smallerOf (c m : Nat) (s : State) : Run Nat :=
  if c < s.heapN.toNat then (lessAt c m s).andThen fun b s => .ok (if b then c else m) s else .ok m s

/-- The sift-down loop of R144 from position `k`; `k` rises at every pass and stays below HEAP_N, so HEAP_N passes are enough. -/
def siftDown : Nat → Nat → State → Run Unit
  | 0, _, s => .ok () s
  | n + 1, k, s =>
    (smallerOf (2 * k + 1) k s).andThen fun m s => (smallerOf (2 * k + 2) m s).andThen fun m s =>
      if m = k then .ok () s else (swapHeap k m s).andThen fun _ s => siftDown n m s

/-- `HeapExtract()` (R144): the node at the root, or NIL of an empty heap. -/
def heapExtract (s : State) : Run NodeIx :=
  if s.heapN = 0#9 then .ok Config.nil s
  else (heapAt 0 s).andThen fun m s => (swapHeap 0 (s.heapN.toNat - 1) s).andThen fun _ s =>
    (siftDown (s.heapN.toNat - 1) 0 { s with heapN := s.heapN - 1#9 }).andThen fun _ s => .ok m s

/-- The effect of PQ_CLR (R145): an empty heap and a new epoch. -/
def pqClear (s : State) : State :=
  { s with heapN := 0#9, ins := [], nodeNext := 256#10, root := Config.nil, res := Config.nil, empty := false }

/-- The leaf PQ_INS makes for symbol `n` (R37, R146). -/
def leafNode (n : Nat) (s : State) : TreeNode := ⟨freqOf s n, BitVec.ofNat 8 n, Config.nil, Config.nil⟩

/-- The effect of `PQ_INS n` (R146). -/
def pqInsert (n : Nat) (s : State) : Run Unit :=
  if 255 < n ∨ insOf s n = true then .raise .badCommand s
  else (setNode n (leafNode n s) s).andThen fun _ s =>
    heapInsert (BitVec.ofNat 9 n) { s with ins := writeCell false s.ins n true }

/-- The effect of PQ_EXT (R147). -/
def pqExtract (s : State) : Run Unit :=
  (heapExtract s).andThen fun m s => .ok () { s with res := m, empty := decide (m = Config.nil) }

/-- PQ_CLR (R145). -/
def execPqClr (s : State) : Host.Outcome State Fault Refusal := .next (pqClear s)

/-- PQ_INS (R146). -/
def execPqIns (n : Nat) (s : State) : Host.Outcome State Fault Refusal := finish (pqInsert n s)

/-- PQ_EXT (R147). -/
def execPqExt (s : State) : Host.Outcome State Fault Refusal := finish (pqExtract s)

end Sys2Proof.Machine
end

