-- ==== Sys2Proof/Machine/Flags.lean ====
section
/-! DEFINITION. The views a host reads: the STATUS bits, the codes of ERR and SD_STATE, the counts WP and CT_N, and the register file (10_state.md R22 to R34). -/

namespace Sys2Proof.Machine

/-- The code of an error kind in ERR (R25, R310). -/
def ErrKind.code : ErrKind → BitVec 3
  | .ioError => 1#3
  | .malformedTable => 2#3
  | .ambiguousCode => 3#3
  | .unknownSymbol => 4#3
  | .corruptStream => 5#3
  | .truncatedInput => 6#3
  | .badCommand => 7#3

/-- ERR (R25). -/
def errReg (s : State) : BitVec 3 :=
  match s.err with
  | none => 0#3
  | some k => k.code

/-- The code of a decoder state (R33). -/
def SdState.code : SdState → BitVec 2
  | .walking => 0#2
  | .emitted => 1#2
  | .done => 2#2

/-- STATUS.BUSY (R24): commands are atomic to the host, so every read sees 0 (R70; log 3). -/
def busyFlag (_ : State) : Bool := false

/-- STATUS.ERRF (R24). -/
def errFlag (s : State) : Bool := s.err.isSome

/-- STATUS.TREE_V (R24). -/
def treeFlag (s : State) : Bool := decide (s.root ≠ Config.nil)

/-- STATUS.TRIE_V (R24). -/
def trieFlag (s : State) : Bool := decide (s.trieN ≠ 0#17)

/-- STATUS.DONE (R24). -/
def doneFlag (s : State) : Bool := decide (s.sdState = .done)

/-- STATUS (R24), bit 5 first. -/
def statusReg (s : State) : BitVec 6 :=
  BitVec.ofBool (doneFlag s) ++ BitVec.ofBool (trieFlag s) ++ BitVec.ofBool (treeFlag s) ++
    BitVec.ofBool s.empty ++ BitVec.ofBool (errFlag s) ++ BitVec.ofBool (busyFlag s)

/-- WP, the number of bytes in the sink (R29), at most LEN_MAX (R9). -/
def wpReg (s : State) : Count := BitVec.ofNat 64 s.snk.length

/-- CT_N, the number of symbols present in CT (R31). -/
def ctCount (s : State) : Nat := ((List.range Config.nsym).filter fun b => (ctOf s b).isSome).length

/-- DEC_ONE.one (R34). -/
def decOneFlag (s : State) : Bool := s.decOne.getLsbD 8

/-- DEC_ONE.sym (R34). -/
def decOneSym (s : State) : Byte := s.decOne.extractLsb' 0 8

/-- A read of register `r`, zero-extended to 64 bits (R22): CMD reads 0, and so do the numbers that do not exist. -/
def readReg (r : Nat) (s : State) : Count :=
  match r with
  | 0 => 0#64
  | 1 => (statusReg s).setWidth 64
  | 2 => (errReg s).setWidth 64
  | 3 => s.res.setWidth 64
  | 4 => s.origSize
  | 5 => s.rp
  | 6 => wpReg s
  | 7 => s.root.setWidth 64
  | 8 => s.heapN.setWidth 64
  | 9 => s.nodeNext.setWidth 64
  | 10 => BitVec.ofNat 64 (ctCount s)
  | 11 => s.trieN.setWidth 64
  | 12 => s.sdState.code.setWidth 64
  | 13 => s.sdCur.setWidth 64
  | 14 => s.sdCnt
  | 15 => s.decOne.setWidth 64
  | _ => 0#64

end Sys2Proof.Machine
end

