-- ==== Sys2Proof/Machine/StreamDecoder.lean ====
section
/-! DEFINITION. The StreamDecoder's commands CF_RDH and SD_RUN (47_stream_decoder.md R265 to R275). -/

namespace Sys2Proof.Machine

/-- The effect of CF_RDH (R266): ORIG_SIZE is written last. -/
def readHeader (s : State) : Run Unit :=
  (srcTake .truncatedInput Config.hdrC s).andThen fun bytes s => .ok () { s with origSize := fromLe bytes }

/-- The emit part of SdBit (R268): EMITTED at once re-enters WALKING at the root. -/
def emitSymbol (sym : Byte) (s : State) : Run Unit :=
  (snkWrite sym s).andThen fun _ s =>
    let emitted := { s with sdCnt := s.sdCnt + 1#64, sdState := .emitted }
    .ok () { emitted with sdCur := 0#16, sdState := .walking }

/-- The last line of SdBit (R268): `if SD_CNT = ORIG_SIZE: SD_STATE <- DONE`. -/
def checkDone (s : State) : State := if s.sdCnt = s.origSize then { s with sdState := .done } else s

/-- `SdBit(bit)` (R268). -/
def sdBit (bit : Bool) (s : State) : Run Unit :=
  (trieAt s.sdCur s).andThen fun c s =>
    if childOf bit c = Config.tnil then .raise .corruptStream s
    else (trieAt (childOf bit c) { s with sdCur := childOf bit c }).andThen fun d s =>
      if d.leaf then (emitSymbol d.sym s).andThen fun _ s => .ok () (checkDone s)
      else .ok () (checkDone s)

/-- The bits of one byte, until DONE (R270). -/
def sdBits : List Bool → State → Run Unit
  | [], s => .ok () s
  | bit :: bits, s => (sdBit bit s).andThen fun _ s => if s.sdState = .done then .ok () s else sdBits bits s

/-- The walking loop of SD_RUN (R270), a byte at a time; each pass consumes one. -/
def sdLoop : Nat → State → Run Unit
  | 0, s => if srcEof s then .raise .truncatedInput s else .stop .endlessLoop
  | n + 1, s =>
    if srcEof s then .raise .truncatedInput s
    else (srcRead s).andThen fun b s => (sdBits (bitsOf b) s).andThen fun _ s =>
      if s.sdState = .done then .ok () s else sdLoop n s

/-- How many more bytes the sink takes, of `n` (R63). -/
def snkRoom (n : Nat) (s : State) : Nat := min n (snkCap s - s.snk.length)

/-- The single-symbol path (R272) as one append (R274; log 15): ORIG_SIZE copies, or as many as the sink takes and then the end of the sink. -/
def repeatSymbol (sym : Byte) (s : State) : Run Unit :=
  let n := snkRoom s.origSize.toNat s
  let t := { s with snk := s.snk ++ List.replicate n sym, sdCnt := BitVec.ofNat 64 n }
  if n < s.origSize.toNat then snkEnd t else .ok () { t with sdState := .done }

/-- The effect of SD_RUN (R270), with target zero (R271) before everything else. -/
def runDecoder (s : State) : Run Unit :=
  if s.trieN = 0#17 then .raise .badCommand s
  else
    let t := { s with sdState := .walking, sdCur := 0#16, sdCnt := 0#64 }
    if t.origSize = 0#64 then .ok () { t with sdState := .done }
    else if decOneFlag t then repeatSymbol (decOneSym t) t
    else sdLoop (srcLeft t) t

/-- CF_RDH (R266). -/
def execCfRdh (s : State) : Host.Outcome State Fault Refusal := finish (readHeader s)

/-- SD_RUN (R270). -/
def execSdRun (s : State) : Host.Outcome State Fault Refusal := finish (runDecoder s)

end Sys2Proof.Machine
end

