-- ==== Sys2Proof/Machine/System.lean ====
section
/-! DEFINITION. The system commands NOP, RST and RWD (48_system.md R290 to R292). -/

namespace Sys2Proof.Machine

/-- NOP (R290). -/
def execNop (s : State) : Host.Outcome State Fault Refusal := .next s

/-- RST (R291). -/
def execRst (s : State) : Host.Outcome State Fault Refusal := .next (softReset s)

/-- RWD (R292): `RP <- 0`. -/
def execRwd (s : State) : Host.Outcome State Fault Refusal := .next { s with rp := 0#64 }

end Sys2Proof.Machine
end

