-- ==== Sys2Proof/Machine/TableCodec.lean ====
section
/-! DEFINITION. The CodeTableCodec's seven commands (44_code_table_codec.md R190 to R205). -/

namespace Sys2Proof.Machine

/-- ORIG_SIZE does not fit a header of `w` bytes; only the 4-byte header can be too short (R191, R199). -/
def sizeTooBig (w : Nat) (s : State) : Bool := decide (w = 4 ∧ 2 ^ 32 ≤ s.origSize.toNat)

/-- The bytes `WrTable(w)` writes (R191). -/
def tableBytes (w : Nat) (s : State) : List Byte := le w s.origSize ++ (records s).flatten

/-- `WrTable(w)` (R191). -/
def writeTable (w : Nat) (s : State) : Run Unit :=
  if sizeTooBig w s then .raise .badCommand s else snkWriteAll (tableBytes w s) s

/-- The bytes `WrTableX(w)` writes (R199). -/
def tableText (w : Nat) (s : State) : List Byte := hexLine (le w s.origSize) ++ (records s).flatMap hexLine

/-- `WrTableX(w)` (R199). -/
def writeTableText (w : Nat) (s : State) : Run Unit :=
  if sizeTooBig w s then .raise .badCommand s else snkWriteAll (tableText w s) s

/-- `if CT[sym] present: raise MalformedTable; CT[sym] <- code` (R195, R203). -/
def addRecord (sym : Byte) (code : Code) (s : State) : Run Unit :=
  if (ctOf s sym.toNat).isSome then .raise .malformedTable s else .ok () (setCt sym.toNat code s)

/-- One record of `RdTable` (R195), its checks in the order of R198. -/
def readRecord (_ : Unit) (s : State) : Run Unit :=
  (srcRead s).andThen fun sym s =>
    if srcEof s then .raise .malformedTable s
    else (srcRead s).andThen fun len s =>
      if len = 0#8 then .raise .malformedTable s
      else if srcLeft s < ceil8 len.toNat then .raise .malformedTable s
      else (srcTake .malformedTable (ceil8 len.toNat) s).andThen fun bytes s =>
        addRecord sym (unpackbits bytes len.toNat) s

/-- `RdTable(w)` (R195). -/
def readTable (w : Nat) (s : State) : Run Unit :=
  (srcTake .malformedTable w { s with ct := [] }).andThen fun header s =>
    whileSrc readRecord (srcLeft s) () { s with origSize := fromLe header }

/-- A hex digit of the text, or MalformedTable (R202). -/
def readDigit (s : State) : Run Byte :=
  if srcEof s then .raise .malformedTable s
  else (srcRead s).andThen fun c s =>
    match hexval c with
    | some d => .ok d s
    | none => .raise .malformedTable s

/-- `RdLine()` (R202). Each pass consumes three bytes, so as many passes as bytes are left are enough; with none left a token cannot start. -/
def readLine : Nat → List Byte → State → Run (List Byte)
  | 0, _, s => if srcEof s then .raise .malformedTable s else .stop .endlessLoop
  | n + 1, toks, s =>
    (readDigit s).andThen fun h s => (readDigit s).andThen fun l s =>
      if srcEof s then .raise .malformedTable s
      else (srcRead s).andThen fun c s =>
        if c = lineFeed then .ok (toks ++ [h <<< 4 ||| l]) s
        else if c = space then readLine n (toks ++ [h <<< 4 ||| l]) s
        else .raise .malformedTable s

/-- What a record line must be once its line feed is read (R203), its checks in the order of R323. -/
def takeRecordLine (toks : List Byte) (s : State) : Run Unit :=
  match toks with
  | sym :: len :: bytes =>
    if len = 0#8 then .raise .malformedTable s
    else if bytes.length ≠ ceil8 len.toNat then .raise .malformedTable s
    else addRecord sym (unpackbits bytes len.toNat) s
  | _ => .raise .malformedTable s

/-- One record line of `RdTableX` (R203). -/
def readRecordLine (_ : Unit) (s : State) : Run Unit :=
  (readLine (srcLeft s) [] s).andThen fun toks s => takeRecordLine toks s

/-- `RdTableX()` (R203). -/
def readTableText (s : State) : Run Unit :=
  if srcEof s then .raise .malformedTable { s with ct := [] }
  else (readLine (srcLeft s) [] { s with ct := [] }).andThen fun toks s =>
    if toks.length ≠ 4 ∧ toks.length ≠ 8 then .raise .malformedTable s
    else whileSrc readRecordLine (srcLeft s) () { s with origSize := fromLe toks }

/-- CT_WR4 (R192). -/
def execCtWr4 (s : State) : Host.Outcome State Fault Refusal := finish (writeTable 4 s)

/-- CT_WR8 (R193). -/
def execCtWr8 (s : State) : Host.Outcome State Fault Refusal := finish (writeTable 8 s)

/-- CT_RD4 (R196). -/
def execCtRd4 (s : State) : Host.Outcome State Fault Refusal := finish (readTable 4 s)

/-- CT_RD8 (R197). -/
def execCtRd8 (s : State) : Host.Outcome State Fault Refusal := finish (readTable 8 s)

/-- CT_WRX4 (R200). -/
def execCtWrx4 (s : State) : Host.Outcome State Fault Refusal := finish (writeTableText 4 s)

/-- CT_WRX8 (R201). -/
def execCtWrx8 (s : State) : Host.Outcome State Fault Refusal := finish (writeTableText 8 s)

/-- CT_RDX (R204). -/
def execCtRdx (s : State) : Host.Outcome State Fault Refusal := finish (readTableText s)

end Sys2Proof.Machine
end

