-- ==== Sys2Proof/Machine/TreeBuilder.lean ====
section
/-! DEFINITION. The TreeBuilder's commands TB_MERGE and TB_BUILD (42_tree_builder.md R160 to R165). -/

namespace Sys2Proof.Machine

/-- `max` of two tie-break bytes, unsigned (R37, R161). -/
def maxByte (a b : Byte) : Byte := if a < b then b else a

/-- The parent of the extracted nodes `a` and `b`, whose cells are `x` and `y` (R161): the strictly smaller one is the left child, and `a` when neither is. -/
def parentNode (a b : NodeIx) (x y : TreeNode) : TreeNode :=
  { freq := x.freq + y.freq
    tb := maxByte x.tb y.tb
    left := if keyLess y x then b else a
    right := if keyLess y x then a else b }

/-- The effect of TB_MERGE (R161). -/
def mergeStep (s : State) : Run Unit :=
  if s.heapN.toNat < 2 then .raise .badCommand s
  else (heapExtract s).andThen fun a s => (heapExtract s).andThen fun b s =>
    (nodeAt a s).andThen fun x s => (nodeAt b s).andThen fun y s =>
      (setNode s.nodeNext.toNat (parentNode a b x y) s).andThen fun _ t =>
        (heapInsert (s.nodeNext.setWidth 9) { t with nodeNext := t.nodeNext + 1#10 }).andThen fun _ t =>
          .ok () { t with res := s.nodeNext.setWidth 9, empty := false }

/-- `for b in …: if FREQ[b] > 0: PQ_INS b` (R162). -/
def insertLeaves : List Nat → State → Run Unit
  | [], s => .ok () s
  | b :: bs, s =>
    if freqOf s b = 0#64 then insertLeaves bs s
    else (pqInsert b s).andThen fun _ s => insertLeaves bs s

/-- `while HEAP_N > 1: TB_MERGE` (R162); HEAP_N falls at every pass (R163). -/
def mergeAll : Nat → State → Run Unit
  | 0, s => .ok () s
  | n + 1, s => if 1 < s.heapN.toNat then (mergeStep s).andThen fun _ s => mergeAll n s else .ok () s

/-- `FREQ[b] = 0 for every b`. -/
def freqEmpty (s : State) : Bool := (List.range Config.nsym).all fun b => decide (freqOf s b = 0#64)

/-- The effect of TB_BUILD (R162). -/
def buildTree (s : State) : Run Unit :=
  if freqEmpty s then .raise .badCommand s
  else (insertLeaves (List.range Config.nsym) (pqClear s)).andThen fun _ s =>
    (mergeAll s.heapN.toNat s).andThen fun _ s =>
      (heapExtract s).andThen fun m s => .ok () { s with root := m, res := m, empty := false }

/-- TB_MERGE (R161). -/
def execTbMerge (s : State) : Host.Outcome State Fault Refusal := finish (mergeStep s)

/-- TB_BUILD (R162). -/
def execTbBuild (s : State) : Host.Outcome State Fault Refusal := finish (buildTree s)

end Sys2Proof.Machine
end

