-- ==== Sys2Proof/Machine/Dispatch.lean ====
section
/-! DEFINITION. Step 6 of 30_encoding.md R94: each command's rule, one arm a constructor. -/

namespace Sys2Proof.Machine

/-- The rule of a command, run on a state whose ERR has already been looked at (R94 step 1). -/
def exec (i : Instr) (s : State) : Host.Outcome State Fault Refusal :=
  match i with
  | .nop => Sys2Proof.Machine.execNop s
  | .rst => Sys2Proof.Machine.execRst s
  | .rwd => Sys2Proof.Machine.execRwd s
  | .fcScan => Sys2Proof.Machine.execFcScan s
  | .pqClr => Sys2Proof.Machine.execPqClr s
  | .pqIns n => Sys2Proof.Machine.execPqIns n s
  | .pqExt => Sys2Proof.Machine.execPqExt s
  | .tbMerge => Sys2Proof.Machine.execTbMerge s
  | .tbBuild => Sys2Proof.Machine.execTbBuild s
  | .cgGen => Sys2Proof.Machine.execCgGen s
  | .ctWr4 => Sys2Proof.Machine.execCtWr4 s
  | .ctWr8 => Sys2Proof.Machine.execCtWr8 s
  | .ctRd4 => Sys2Proof.Machine.execCtRd4 s
  | .ctRd8 => Sys2Proof.Machine.execCtRd8 s
  | .ctWrx4 => Sys2Proof.Machine.execCtWrx4 s
  | .ctWrx8 => Sys2Proof.Machine.execCtWrx8 s
  | .ctRdx => Sys2Proof.Machine.execCtRdx s
  | .cfWrh => Sys2Proof.Machine.execCfWrh s
  | .bpEnc => Sys2Proof.Machine.execBpEnc s
  | .dtBuild => Sys2Proof.Machine.execDtBuild s
  | .cfRdh => Sys2Proof.Machine.execCfRdh s
  | .sdRun => Sys2Proof.Machine.execSdRun s

end Sys2Proof.Machine
end

