-- ==== Sys2Proof/Machine/HostPort.lean ====
section
/-! DEFINITION. The host's actions (48_system.md R293, R294): the write of CMD with its decoding (30_encoding.md R94), the streams, the registers, hard reset. -/

namespace Sys2Proof.Machine

/-- The exact word RST, the only one accepted in the fault state (R94 step 1, R319). -/
def rstWord : CmdWord := 0x00000001#32

/-- A write of `w` to CMD (R94): in the fault state every word but RST is ignored; a word that is no command raises BadCommand; else the command's rule runs. -/
def writeCmd (w : CmdWord) (s : State) : Host.Outcome State Fault Refusal :=
  if s.err.isSome then (if w = rstWord then exec .rst s else .next s)
  else
    match decode w with
    | .error _ => .next (enterFault .badCommand s)
    | .ok i => exec i s

/-- `H_ATTACH bytes [fail=f]` (R294); a host may present at most LEN_MAX bytes (R41, R300; log 8). -/
def attachSource (bytes : List Byte) (fail : Option Count) (s : State) : Host.Outcome State Fault Refusal :=
  if Config.lenMax < bytes.length then .refused .sourceTooLong
  else .next { s with src := bytes, srcFail := fail, rp := 0#64 }

/-- `H_SIZE v` (R294, R319): ignored in the fault state. -/
def writeSize (v : Count) (s : State) : State := if s.err.isSome then s else { s with origSize := v }

/-- A host write of register `r` (R22): CMD and ORIG_SIZE are writable; a write of any other number is ignored (log 14). -/
def writeReg (r : Nat) (v : Count) (s : State) : Host.Outcome State Fault Refusal :=
  if r = 0 then writeCmd (v.setWidth 32) s else if r = 4 then .next (writeSize v s) else .next s

/-- One action of the host (R294). -/
def perform (a : HostAction) (s : State) : Host.Outcome State Fault Refusal :=
  match a with
  | .cmd w => writeCmd w s
  | .attach bytes fail => attachSource bytes fail s
  | .limit n => .next { s with snkLimit := n }
  | .drain => .next { s with snk := [], seen := s.seen ++ [.drained s.snk] }
  | .size v => .next (writeSize v s)
  | .read r => .next { s with seen := s.seen ++ [.value r (readReg r s)] }
  | .write r v => writeReg r v s
  | .hardReset => .next (softReset s)

/-- The oldest action still to come is taken and performed; with none, the block is idle and keeps all state (R335, R343; log 1). -/
def takeAction (s : State) : Host.Outcome State Fault Refusal :=
  match s.host with
  | [] => .next s
  | a :: rest => perform a { s with host := rest }

end Sys2Proof.Machine
end

