-- ==== Sys2Proof/Machine/Step.lean ====
section
/-! DEFINITION. One step of the machine: one host action, between commands (10_state.md R20; 20_memory.md R70). -/

namespace Sys2Proof.Machine

/-- One step: the oldest host action still to come; a command word among them runs to its end in this one step (R70). -/
def step (s : State) : Host.Outcome State Fault Refusal := takeAction s

/-- `s` with a command word as the host's next action: there is no instruction memory, the host writes each word to CMD (R74, R293; log 1). The word is the one `decodeTableWord` reads. -/
def State.withFetchWord (s : State) (nbits w : Nat) : State :=
  { s with host := .cmd (BitVec.ofNat 32 (w % 2 ^ nbits)) :: s.host }

end Sys2Proof.Machine
end

