-- ==== Sys2Proof/Machine/Flows.lean ====
section
/-! DEFINITION. The pseudo-instructions: TC's two data flows and the conversions as fixed sequences of host actions (30_encoding.md R99; 48_system.md R297 to R299). -/

namespace Sys2Proof.Machine

/-- `H_CMD` of a command. -/
def command (i : Instr) : HostAction := .cmd (encode i)

/-- COMPRESS4 and COMPRESS8 (R297), which differ in the table command. -/
def compressFlow (tableWriter : Instr) (input : List Byte) : List HostAction :=
  [ command .rst, .attach input none, command .fcScan, command .tbBuild, command .cgGen, command tableWriter, .drain,
    command .rwd, command .cfWrh, command .bpEnc, .drain ]

/-- COMPRESS4 (R297). -/
def compress4 (input : List Byte) : List HostAction := compressFlow .ctWr4 input

/-- COMPRESS8 (R297). -/
def compress8 (input : List Byte) : List HostAction := compressFlow .ctWr8 input

/-- DECOMPRESS4, DECOMPRESS8 and DECOMPRESSX (R298), which differ in the table command. -/
def decompressFlow (tableReader : Instr) (table file : List Byte) : List HostAction :=
  [ command .rst, .attach table none, command tableReader, command .dtBuild, .attach file none, command .cfRdh,
    command .sdRun, .drain ]

/-- DECOMPRESS4 (R298). -/
def decompress4 (table file : List Byte) : List HostAction := decompressFlow .ctRd4 table file

/-- DECOMPRESS8 (R298). -/
def decompress8 (table file : List Byte) : List HostAction := decompressFlow .ctRd8 table file

/-- DECOMPRESSX (R298). -/
def decompressX (table file : List Byte) : List HostAction := decompressFlow .ctRdx table file

/-- A conversion between the two table forms (R299): read with one command, write with another. -/
def convertFlow (tableReader tableWriter : Instr) (table : List Byte) : List HostAction :=
  [ command .rst, .attach table none, command tableReader, command tableWriter, .drain ]

/-- A sequence of host actions, aborting at the first fault (R99): no action follows one that left `ERR ≠ 0`. -/
def runActions : List HostAction → State → Host.Outcome State Fault Refusal
  | [], s => .next s
  | a :: rest, s =>
    match perform a s with
    | .next t => if t.err.isSome then .next t else runActions rest t
    | .fault f => .fault f
    | .refused r => .refused r

end Sys2Proof.Machine
end

