-- ==== Sys2Proof/Safety.lean ====
section
/-! DEFINITION. What holds of every state a host can bring the block to, in the terms the statements use: the invariant `Inv` and its parts. -/

namespace Sys2Proof.Machine

/-- Every internal memory is in canonical form: no cell beyond its capacity, no listed cell that reads as an unlisted one (log 11). -/
def memoriesWf (s : State) : Bool :=
  cellsWf 0#64 Config.nsym s.freq && cellsWf false Config.nsym s.ins && cellsWf none Config.nodeCap s.node &&
    cellsWf none Config.heapCap s.heap && cellsWf none Config.nsym s.ct && cellsWf none Config.trieCap s.trie

/-- The read position lies in the source, and the source is one a host may present (10_state.md R28, R41). -/
structure StreamsOk (s : State) : Prop where
  pos : s.rp.toNat ≤ s.src.length
  len : s.src.length ≤ Config.lenMax

/-- The node index in heap cell `k` (NIL where the cell holds none). -/
def heapIx (s : State) (k : Nat) : NodeIx := (heapOf s k).getD Config.nil

/-- The node at heap position `k`, if the cell and the node it names hold values. -/
def liveAt (s : State) (k : Nat) : Option TreeNode := (heapOf s k).bind fun i => nodeOf s i.toNat

/-- The tie-break byte of node `i` (0 where its cell holds no value). -/
def tbOf (s : State) (i : NodeIx) : Nat := ((nodeOf s i.toNat).map fun x => x.tb.toNat).getD 0

/-- The live nodes, in heap order (R38). -/
def liveNodes (s : State) : List NodeIx := (List.range s.heapN.toNat).map (heapIx s)

/-- Both nodes exist and the first is not less than the second (R142). -/
def notLess (a b : Option TreeNode) : Bool :=
  match a, b with
  | some x, some y => !keyLess x y
  | _, _ => false

/-- `less(i, j)` as a property of the state: both nodes exist and the first is less than the second (R142). -/
def nodeLess (s : State) (i j : NodeIx) : Bool :=
  match nodeOf s i.toNat, nodeOf s j.toNat with
  | some x, some y => keyLess x y
  | _, _ => false

/-- The heap property (R38): no live node but the root is less than its parent. -/
def HeapProperty (s : State) : Prop := ∀ k < s.heapN.toNat, 0 < k → notLess (liveAt s k) (liveAt s ((k - 1) / 2)) = true

/-- How many leaves have entered the heap in this epoch (R36). -/
def insCount (s : State) : Nat := ((List.range Config.nsym).filter (insOf s)).length

/-- The heap (R36 to R38): its live cells and their nodes hold values, the heap property holds, a live leaf's tie-break byte is its own index, no two live nodes have the same tie-break byte, each such byte is the byte of a leaf entered in this epoch, and the epoch's leaves bound what is live and what is allocated. -/
structure HeapOk (s : State) : Prop where
  written : ∀ k < s.heapN.toNat, (liveAt s k).isSome = true
  index : ∀ i ∈ liveNodes s, i.toNat < s.nodeNext.toNat
  heap : HeapProperty s
  leaf : ∀ i ∈ liveNodes s, i.toNat < 256 → tbOf s i = i.toNat
  entered : ∀ i ∈ liveNodes s, insOf s (tbOf s i) = true
  distinct : ((liveNodes s).map (tbOf s)).Nodup
  room : s.heapN.toNat + s.nodeNext.toNat ≤ 256 + insCount s

/-- The node cell `i` holds a value and both its children have smaller indices (R37: the tree is acyclic and finite). -/
def childrenBelow (s : State) (i : Nat) : Bool :=
  match nodeOf s i with
  | some x => decide (x.left.toNat < i) && decide (x.right.toNat < i)
  | none => false

/-- The arena (R30, R37): internal nodes occupy 256 up to NODE_NEXT, each above its children, and ROOT is NIL or one of the nodes. -/
structure TreeOk (s : State) : Prop where
  low : 256 ≤ s.nodeNext.toNat
  high : s.nodeNext.toNat ≤ Config.nodeCap
  cells : ∀ i < s.nodeNext.toNat, 256 ≤ i → childrenBelow s i = true
  root : s.root = Config.nil ∨ s.root.toNat < s.nodeNext.toNat

/-- A code of 1 to 255 bits, or none (R39). -/
def codeOk (c : Option Code) : Bool :=
  match c with
  | some code => decide (1 ≤ code.length) && decide (code.length ≤ Config.lmax)
  | none => true

/-- Every code in CT has 1 to 255 bits (R39). -/
def CodesOk (s : State) : Prop := ∀ b < Config.nsym, codeOk (ctOf s b) = true

/-- A child index of the trie: TNIL or an allocated node (R40). -/
def childOk (s : State) (i : TrieIx) : Bool := decide (i = Config.tnil) || decide (i.toNat < s.trieN.toNat)

/-- The trie cell `i` holds a value and its children are TNIL or allocated. -/
def trieCellOk (s : State) (i : Nat) : Bool :=
  match trieOf s i with
  | some c => childOk s c.c0 && childOk s c.c1
  | none => false

/-- The trie (R32, R40): trie nodes occupy 0 up to TRIE_N, at most the capacity. -/
structure TrieOk (s : State) : Prop where
  cap : s.trieN.toNat ≤ Config.trieCap
  cells : ∀ i < s.trieN.toNat, trieCellOk s i = true

/-- A host action a host may take: an attach of at most LEN_MAX bytes (R41, R300). -/
def actionOk (a : HostAction) : Bool :=
  match a with
  | .attach bytes _ => decide (bytes.length ≤ Config.lenMax)
  | .cmd _ | .limit _ | .drain | .size _ | .read _ | .write _ _ | .hardReset => true

/-- What holds at power-on and after every step of a host that keeps its duty (R300). -/
structure Inv (s : State) : Prop where
  memories : memoriesWf s = true
  streams : StreamsOk s
  heap : HeapOk s
  tree : TreeOk s
  codes : CodesOk s
  trie : TrieOk s
  sink : s.snk.length ≤ Config.lenMax
  host : s.host.all actionOk = true

/-- The next `n` source bytes are there and none of their reads fails (20_memory.md R62). -/
def SourceGives (n : Nat) (s : State) : Prop :=
  s.rp.toNat + n ≤ s.src.length ∧ ∀ f, s.srcFail = some f → n = 0 ∨ s.rp.toNat + n ≤ f.toNat

/-- `n` source bytes are there and can be read, and the read of the byte after them fails (20_memory.md R62). -/
def SourceFailsAfter (n : Nat) (s : State) : Prop :=
  s.rp.toNat + n < s.src.length ∧ ∃ f, s.srcFail = some f ∧ max s.rp.toNat f.toNat = s.rp.toNat + n

/-- The source bytes from RP to the end. -/
def sourceRest (s : State) : List Byte := s.src.drop s.rp.toNat

/-- The sink takes `n` more bytes (00_scope.md R9, 20_memory.md R63). -/
def SinkTakes (n : Nat) (s : State) : Prop := n = 0 ∨ s.snk.length + n ≤ snkCap s

/-- `n` more bytes meet the end of no sink the host may not present: the sink has a limit, or stays within LEN_MAX (00_scope.md R9). -/
def SinkFits (n : Nat) (s : State) : Prop := s.snkLimit ≠ none ∨ s.snk.length + n ≤ Config.lenMax

/-- The bits of a code lead from node `i` to a node, bit 0 left and bit 1 right, through internal nodes only (43_code_table_generator.md R181). -/
def followTree (s : State) : NodeIx → Code → Option NodeIx
  | i, [] => some i
  | i, bit :: bits =>
    if i.toNat < 256 then none
    else match nodeOf s i.toNat with
      | some x => followTree s (if bit then x.right else x.left) bits
      | none => none

/-- The trie node the bits of a path lead to from node `i`, bit 0 left and bit 1 right, through nodes that are no leaves (47_stream_decoder.md R268). -/
def walkTrie (s : State) : TrieIx → Code → Option TrieIx
  | i, [] => some i
  | i, bit :: bits =>
    match trieOf s i.toNat with
    | some c => if c.leaf || decide (childOf bit c = Config.tnil) then none else walkTrie s (childOf bit c) bits
    | none => none

/-- What the node holds that the bits of a code lead to from node `i`. -/
def followTrie (s : State) (i : TrieIx) (bits : Code) : Option TrieNode := (walkTrie s i bits).bind fun j => trieOf s j.toNat

/-- No code of CT is a proper or improper prefix of the code of another symbol (00_scope.md R14). -/
def PrefixFree (s : State) : Prop :=
  ∀ a < Config.nsym, ∀ b < Config.nsym, ∀ x y, a ≠ b → ctOf s a = some x → ctOf s b = some y → ¬ x <+: y

/-- The code of a byte in CT, empty where it has none. -/
def codeOf (s : State) (b : Byte) : Code := (ctOf s b.toNat).getD []

/-- The code bits of a message (30_encoding.md R112). -/
def codeBits (s : State) (msg : List Byte) : List Bool := msg.flatMap (codeOf s)

/-- Every byte of the message has a code in CT. -/
def Encodable (s : State) (msg : List Byte) : Prop := ∀ b ∈ msg, (ctOf s b.toNat).isSome = true

/-! What a command may touch (20_memory.md R61; 10_state.md R22). -/

/-- `s` with what command `i` may write taken from `t`, whatever the command's ending: the columns W and C of R61 and the register column "written by the engine" of R22. ERR is written by fault entry (R318). -/
def writtenBy (i : Instr) (s t : State) : State :=
  match i with
  | .nop => { s with err := t.err }
  | .rst => { t with src := s.src, srcFail := s.srcFail, snk := s.snk, snkLimit := s.snkLimit, host := s.host, seen := s.seen }
  | .rwd => { s with err := t.err, rp := t.rp }
  | .fcScan => { s with err := t.err, freq := t.freq, origSize := t.origSize, rp := t.rp }
  | .pqClr =>
    { s with err := t.err, heapN := t.heapN, ins := t.ins, nodeNext := t.nodeNext, root := t.root, res := t.res, empty := t.empty }
  | .pqIns _ => { s with err := t.err, node := t.node, ins := t.ins, heap := t.heap, heapN := t.heapN }
  | .pqExt => { s with err := t.err, heap := t.heap, heapN := t.heapN, res := t.res, empty := t.empty }
  | .tbMerge =>
    { s with err := t.err, node := t.node, heap := t.heap, heapN := t.heapN, nodeNext := t.nodeNext, res := t.res, empty := t.empty }
  | .tbBuild =>
    { s with err := t.err, node := t.node, ins := t.ins, heap := t.heap, heapN := t.heapN, nodeNext := t.nodeNext, root := t.root, res := t.res, empty := t.empty }
  | .cgGen => { s with err := t.err, ct := t.ct }
  | .ctWr4 | .ctWr8 | .ctWrx4 | .ctWrx8 | .cfWrh => { s with err := t.err, snk := t.snk }
  | .ctRd4 | .ctRd8 | .ctRdx => { s with err := t.err, origSize := t.origSize, rp := t.rp, ct := t.ct }
  | .bpEnc => { s with err := t.err, rp := t.rp, snk := t.snk }
  | .dtBuild => { s with err := t.err, trie := t.trie, trieN := t.trieN, decOne := t.decOne }
  | .cfRdh => { s with err := t.err, rp := t.rp, origSize := t.origSize }
  | .sdRun => { s with err := t.err, rp := t.rp, snk := t.snk, sdState := t.sdState, sdCur := t.sdCur, sdCnt := t.sdCnt }

/-- How many bytes command `i` appends to a sink that takes them all, at most. -/
def mayAppend (i : Instr) (s : State) : Nat :=
  match i with
  | .ctWr4 => (tableBytes 4 s).length
  | .ctWr8 => (tableBytes 8 s).length
  | .ctWrx4 => (tableText 4 s).length
  | .ctWrx8 => (tableText 8 s).length
  | .cfWrh => 8
  | .bpEnc => ceil8 (codeBits s (sourceRest s)).length
  | .sdRun => s.origSize.toNat
  | .nop | .rst | .rwd | .fcScan | .pqClr | .pqIns _ | .pqExt | .tbMerge | .tbBuild | .cgGen | .ctRd4 | .ctRd8 | .ctRdx | .dtBuild | .cfRdh => 0

/-- The host presents command `i` a sink it may present (00_scope.md R9). -/
def SinkHolds (i : Instr) (s : State) : Prop := SinkFits (mayAppend i s) s

/-- The command a host action writes to CMD, if it writes one (48_system.md R293; log 14). -/
def commandOf (a : HostAction) : Option Instr :=
  match a with
  | .cmd w => (decode w).toOption
  | .write r v => if r = 0 then (decode (v.setWidth 32)).toOption else none
  | .attach _ _ | .limit _ | .drain | .size _ | .read _ | .hardReset => none

/-- The host presents the command of its next action a sink it may present (00_scope.md R9). -/
def StepHolds (s : State) : Prop := s.err = none → ∀ a ∈ s.host.head?, ∀ i ∈ commandOf a, SinkHolds i s

/-- Commands one after another, whatever ERR holds. -/
def runCommands : List Instr → State → Host.Outcome State Fault Refusal
  | [], s => .next s
  | i :: rest, s =>
    match exec i s with
    | .next t => runCommands rest t
    | .fault f => .fault f
    | .refused r => .refused r

/-- The byte values with a non-zero count, ascending. -/
def usedBytes (s : State) : List Nat := (List.range Config.nsym).filter fun b => decide (freqOf s b ≠ 0#64)

/-- The error kinds command `i` can raise (60_exceptions.md R310 to R317). -/
def mayRaise : Instr → List ErrKind
  | .nop | .rst | .rwd | .pqClr | .pqExt => []
  | .fcScan => [.ioError]
  | .pqIns _ | .tbMerge | .tbBuild | .cgGen => [.badCommand]
  | .ctWr4 | .ctWrx4 => [.badCommand, .ioError]
  | .ctWr8 | .ctWrx8 | .cfWrh => [.ioError]
  | .ctRd4 | .ctRd8 | .ctRdx => [.malformedTable, .ioError]
  | .bpEnc => [.unknownSymbol, .ioError]
  | .dtBuild => [.ambiguousCode]
  | .cfRdh => [.truncatedInput, .ioError]
  | .sdRun => [.badCommand, .corruptStream, .truncatedInput, .ioError]

/-- The host actions that reset the block: RST, by CMD or by register number 0, and hard reset (48_system.md R291, R340). -/
def resets : HostAction → Bool
  | .cmd w => decide (w = rstWord)
  | .write r v => decide (r = 0 ∧ v.setWidth 32 = rstWord)
  | .hardReset => true
  | .attach _ _ | .limit _ | .drain | .size _ | .read _ => false

/-! The artifacts a reader accepts (30_encoding.md R102, R103, R107 to R109). -/

/-- A record as a table file holds it: symbol, bit length, packed bytes, padding bits of any value. -/
structure RawRecord where
  sym : Byte
  len : Byte
  bits : List Byte
  deriving DecidableEq, Repr

/-- A record a reader accepts: L is not 0, and `ceil8(L)` packed bytes follow it (R102, R109). -/
def RawRecord.ok (r : RawRecord) : Bool := decide (r.len ≠ 0#8) && decide (r.bits.length = ceil8 r.len.toNat)

/-- The bytes of a record in the binary form (R102). -/
def RawRecord.bytes (r : RawRecord) : List Byte := r.sym :: r.len :: r.bits

/-- The code a record gives its symbol (R103). -/
def RawRecord.code (r : RawRecord) : Code := unpackbits r.bits r.len.toNat

/-- The code a list of records gives symbol `b`, if one of them is b's (R39). -/
def recordedCode (recs : List RawRecord) (b : Nat) : Option Code :=
  (recs.find? fun r => decide (r.sym.toNat = b)).map RawRecord.code

/-- CT after the records of a table have been read into an empty store. -/
def HoldsRecords (t : State) (recs : List RawRecord) : Prop := ∀ b, ctOf t b = recordedCode recs b

/-- After the records `recs`, what follows is no further record: how many bytes of it the reader consumes before it raises MalformedTable, in the order of 44_code_table_codec.md R198. -/
def badRecord (recs : List RawRecord) (tail : List Byte) : Option Nat :=
  match tail with
  | [] => none
  | [_] => some 1
  | sym :: len :: rest =>
    if len = 0#8 ∨ rest.length < ceil8 len.toNat then some 2
    else if sym ∈ recs.map RawRecord.sym then some (2 + ceil8 len.toNat)
    else none

/-- The source fails within a record that is not refused so far: `part` is what there is of the record, `left` more bytes follow it (44_code_table_codec.md R195). -/
def startsRecord (part : List Byte) (left : Nat) : Bool :=
  match part with
  | [] => true
  | [_] => true
  | _ :: len :: bits => decide (len ≠ 0#8) && decide (bits.length < ceil8 len.toNat) && decide (ceil8 len.toNat ≤ bits.length + left)

/-- Two hexadecimal digits, of either case, that spell byte `b` (R107). -/
def SpellsByte (b : Byte) (text : List Byte) : Prop :=
  ∃ h l x y, text = [h, l] ∧ hexval h = some x ∧ hexval l = some y ∧ b = x <<< 4 ||| y

/-- A text line that spells the byte list: tokens with one space between them, a line feed at the end (R107). -/
def SpellsLine : List Byte → List Byte → Prop
  | [], _ => False
  | [b], text => ∃ tok, SpellsByte b tok ∧ text = tok ++ [lineFeed]
  | b :: bs, text => ∃ tok rest, SpellsByte b tok ∧ SpellsLine bs rest ∧ text = tok ++ space :: rest

/-- A text that spells the byte lists, one a line. -/
def SpellsLines : List (List Byte) → List Byte → Prop
  | [], text => text = []
  | bs :: rest, text => ∃ line more, SpellsLine bs line ∧ SpellsLines rest more ∧ text = line ++ more

/-- The start of a text line: tokens that spell the byte list, a space after each (R107). -/
def SpellsStart : List Byte → List Byte → Prop
  | [], text => text = []
  | b :: bs, text => ∃ tok rest, SpellsByte b tok ∧ SpellsStart bs rest ∧ text = tok ++ space :: rest

/-- Where a token and its separator must stand, a text in which they do not: how many bytes of it the reader consumes before it raises MalformedTable (44_code_table_codec.md R202). -/
def badToken (text : List Byte) : Option Nat :=
  match text with
  | [] => some 0
  | [_] => some 1
  | [h, _] => some (if hexval h = none then 1 else 2)
  | h :: l :: c :: _ => if hexval h = none then some 1 else if hexval l = none then some 2 else if c = lineFeed ∨ c = space then none else some 3

/-- A text line as far as the end of one of its tokens, or the middle of it (R107). -/
def StartsLine (part : List Byte) : Prop :=
  ∃ toks start digits, SpellsStart toks start ∧ digits.length ≤ 2 ∧ (∀ c ∈ digits, (hexval c).isSome = true) ∧ part = start ++ digits

/-- A byte code every symbol of which leads from the trie's root to its own leaf (46_decode_trie.md R252). -/
def TrieDecodes (s : State) (coder : Byte → Code) (msg : List Byte) : Prop :=
  ∀ b ∈ msg, coder b ≠ [] ∧ ∃ c, followTrie s 0#16 (coder b) = some c ∧ c.leaf = true ∧ c.sym = b

/-- How many symbols have a non-zero count: the leaf count of the tree (40_frequency_counter.md R132). -/
def usedSymbols (s : State) : Nat := (usedBytes s).length

/-- `Σ FREQ[b]`, modulo 2^64 (10_state.md R23). -/
def freqSum (s : State) : Count := ((List.range Config.nsym).map (freqOf s)).sum

end Sys2Proof.Machine
end

