-- ==== Sys2Proof/Certificates/Slice0/Obligations.lean ====
section
/-! DEFINITION. The statements for the provers, in the order of spec/: the command word, the host's side, each component's commands, the errors, what a command may touch, the invariant, and the spec's round trip. -/

open Sys2Proof Sys2Proof.Machine

/-! ## The command word -/

/-- 30_encoding.md R93: `w & mask = match` selects the command, row by row; the operand is `w[16:8]` (R96). -/
def Obligations.OpcodeMapSelects : Prop := ∀ w : CmdWord,
  (decode w = .ok .nop ↔ w &&& 0xFFFFFFFF#32 = 0x00000000#32) ∧
  (decode w = .ok .rst ↔ w &&& 0xFFFFFFFF#32 = 0x00000001#32) ∧
  (decode w = .ok .rwd ↔ w &&& 0xFFFFFFFF#32 = 0x00000002#32) ∧
  (decode w = .ok .fcScan ↔ w &&& 0xFFFFFFFF#32 = 0x00000010#32) ∧
  (decode w = .ok .pqClr ↔ w &&& 0xFFFFFFFF#32 = 0x00000020#32) ∧
  (∀ n, decode w = .ok (.pqIns n) ↔ w &&& 0xFFFE00FF#32 = 0x00000021#32 ∧ n = (w.extractLsb' 8 9).toNat) ∧
  (decode w = .ok .pqExt ↔ w &&& 0xFFFFFFFF#32 = 0x00000022#32) ∧
  (decode w = .ok .tbMerge ↔ w &&& 0xFFFFFFFF#32 = 0x00000030#32) ∧
  (decode w = .ok .tbBuild ↔ w &&& 0xFFFFFFFF#32 = 0x00000031#32) ∧
  (decode w = .ok .cgGen ↔ w &&& 0xFFFFFFFF#32 = 0x00000040#32) ∧
  (decode w = .ok .ctWr4 ↔ w &&& 0xFFFFFFFF#32 = 0x00000050#32) ∧
  (decode w = .ok .ctWr8 ↔ w &&& 0xFFFFFFFF#32 = 0x00000051#32) ∧
  (decode w = .ok .ctRd4 ↔ w &&& 0xFFFFFFFF#32 = 0x00000052#32) ∧
  (decode w = .ok .ctRd8 ↔ w &&& 0xFFFFFFFF#32 = 0x00000053#32) ∧
  (decode w = .ok .ctWrx4 ↔ w &&& 0xFFFFFFFF#32 = 0x00000054#32) ∧
  (decode w = .ok .ctWrx8 ↔ w &&& 0xFFFFFFFF#32 = 0x00000055#32) ∧
  (decode w = .ok .ctRdx ↔ w &&& 0xFFFFFFFF#32 = 0x00000056#32) ∧
  (decode w = .ok .cfWrh ↔ w &&& 0xFFFFFFFF#32 = 0x00000060#32) ∧
  (decode w = .ok .bpEnc ↔ w &&& 0xFFFFFFFF#32 = 0x00000061#32) ∧
  (decode w = .ok .dtBuild ↔ w &&& 0xFFFFFFFF#32 = 0x00000070#32) ∧
  (decode w = .ok .cfRdh ↔ w &&& 0xFFFFFFFF#32 = 0x00000080#32) ∧
  (decode w = .ok .sdRun ↔ w &&& 0xFFFFFFFF#32 = 0x00000081#32)

/-- 30_encoding.md R90 to R93: the word of a well-formed command decodes to that command, for every operand. -/
def Obligations.EncodeDecodeRoundTrip : Prop := ∀ i : Instr, i.wellFormed = true → decode (encode i) = .ok i

/-- 30_encoding.md R91, R92, R95: a word that is a command is that command's only word, and the command is well-formed. -/
def Obligations.DecodedWordReencodes : Prop := ∀ (w : CmdWord) (i : Instr), decode w = .ok i → encode i = w ∧ i.wellFormed = true

/-- Words written out bit by bit from 30_encoding.md R91 to R93, one of each component, and R98's `PQ_INS 0x41`: they decode to what they stand for. A sanity statement. -/
def Obligations.SpecWordsDecode : Prop :=
  decodeTableWord 32 0b00000000000000000000000000000010 = some .rwd ∧
  decodeTableWord 32 0b00000000000000000000000000010000 = some .fcScan ∧
  decodeTableWord 32 0b00000000000000000100000100100001 = some (.pqIns 0x41) ∧
  decodeTableWord 32 0b00000000000000011111111100100001 = some (.pqIns 511) ∧
  decodeTableWord 32 0b00000000000000000000000000110001 = some .tbBuild ∧
  decodeTableWord 32 0b00000000000000000000000001000000 = some .cgGen ∧
  decodeTableWord 32 0b00000000000000000000000001010110 = some .ctRdx ∧
  decodeTableWord 32 0b00000000000000000000000001100001 = some .bpEnc ∧
  decodeTableWord 32 0b00000000000000000000000001110000 = some .dtBuild ∧
  decodeTableWord 32 0b00000000000000000000000010000001 = some .sdRun ∧
  decodeTableWord 32 0b00000000000000100000000000100001 = none ∧
  decodeTableWord 32 0b00000000000000000000000100000001 = none

/-- 30_encoding.md R94: the six steps of decoding a write of `w` to CMD. -/
def Obligations.CmdWriteDecoding : Prop := ∀ (w : CmdWord) (s : State),
  let op := w.extractLsb' 0 8
  let opcodes : List (BitVec 8) :=
    [0x00, 0x01, 0x02, 0x10, 0x20, 0x21, 0x22, 0x30, 0x31, 0x40, 0x50, 0x51, 0x52, 0x53, 0x54, 0x55, 0x56, 0x60, 0x61, 0x70, 0x80, 0x81]
  (s.err ≠ none → writeCmd w s = if w = 0x00000001#32 then exec .rst s else .next s) ∧
  (s.err = none → op ∉ opcodes → writeCmd w s = .next { s with err := some .badCommand }) ∧
  (s.err = none → op = 0x21#8 → w.extractLsb' 17 15 ≠ 0 → writeCmd w s = .next { s with err := some .badCommand }) ∧
  (s.err = none → op ∈ opcodes → op ≠ 0x21#8 → w.extractLsb' 8 24 ≠ 0 → writeCmd w s = .next { s with err := some .badCommand }) ∧
  (s.err = none → op ∈ opcodes → (op = 0x21#8 → w.extractLsb' 17 15 = 0) → (op ≠ 0x21#8 → w.extractLsb' 8 24 = 0) →
    ∃ i, i.wellFormed = true ∧ encode i = w ∧ writeCmd w s = exec i s)

/-! ## The host's side -/

/-- 48_system.md R293, R294: a step performs the host's next action, whichever it is and in every state, on the state without that action; where it is the word of a well-formed command and ERR = 0, the step is the command's rule. With no action left the block is idle (60_exceptions.md R335). That the actions stand in State is the model's choice (log 1). -/
def Obligations.StepRunsDecodedCommand : Prop := ∀ (s : State) (rest : List HostAction),
  (∀ a, s.host = a :: rest → step s = perform a { s with host := rest }) ∧
  (∀ i, i.wellFormed = true → s.err = none → s.host = .cmd (encode i) :: rest → step s = exec i { s with host := rest }) ∧
  (s.host = [] → step s = .next s)

/-- 60_exceptions.md R319: in the fault state every CMD word but RST, and H_SIZE, change nothing; no action but a reset changes ERR; reads, attach and drain go on. That what the host is given stands in `seen` is the model's choice (log 2), not the rule's. -/
def Obligations.FaultStateQuiescent : Prop := ∀ s : State, s.err ≠ none →
  (∀ w, w ≠ 0x00000001#32 → perform (.cmd w) s = .next s) ∧
  (∀ v, perform (.size v) s = .next s) ∧
  (∀ a t, resets a = false → perform a s = .next t → t.err = s.err) ∧
  (∀ r, perform (.read r) s = .next { s with seen := s.seen ++ [.value r (readReg r s)] }) ∧
  (∀ bytes f, bytes.length < 2 ^ 64 → perform (.attach bytes f) s = .next { s with src := bytes, srcFail := f, rp := 0#64 }) ∧
  perform .drain s = .next { s with snk := [], seen := s.seen ++ [.drained s.snk] }

/-- 48_system.md R291, 70_reset_and_hazards.md R340: RST and hard reset, in every state, the fault state included, give every register and memory its reset value and leave the streams as they are (10_state.md R47). That hard reset leaves the streams, and both the model's lists `host` and `seen`, is the model's reading (log 18; the lists are log 1 and log 2). -/
def Obligations.ResetsGiveResetState : Prop := ∀ s : State,
  let t : State :=
    { err := none, empty := false, res := 0x1FF#9, origSize := 0#64, rp := 0#64, root := 0x1FF#9, heapN := 0#9, nodeNext := 256#10,
      trieN := 0#17, sdState := .walking, sdCur := 0#16, sdCnt := 0#64, decOne := 0#9,
      freq := [], ins := [], node := [], heap := [], ct := [], trie := [],
      src := s.src, srcFail := s.srcFail, snk := s.snk, snkLimit := s.snkLimit, host := s.host, seen := s.seen }
  exec .rst s = .next t ∧ writeCmd 0x00000001#32 s = .next t ∧ perform .hardReset s = .next t ∧
  (∀ b, freqOf t b = 0#64 ∧ insOf t b = false ∧ ctOf t b = none ∧ nodeOf t b = none ∧ heapOf t b = none ∧ trieOf t b = none)

/-- 10_state.md R22, R25, R33, 60_exceptions.md R310: every register reads as its value, zero-extended, ERR as 0 to 7 and SD_STATE as 0 to 2; CMD and the numbers above 15 read 0; only CMD and ORIG_SIZE are writable, ORIG_SIZE not in the fault state. WP is the number of bytes in the sink, of which no host may present more than LEN_MAX (00_scope.md R9). Two clauses are the model's choice: that a write of register 0 writes CMD with the low 32 bits, and that a write of any other number is ignored (log 14). -/
def Obligations.RegisterFile : Prop := ∀ s : State,
  readReg 0 s = 0#64 ∧ (readReg 1 s).toNat = (statusReg s).toNat ∧
  (readReg 2 s = match s.err with
    | none => 0#64
    | some .ioError => 1#64
    | some .malformedTable => 2#64
    | some .ambiguousCode => 3#64
    | some .unknownSymbol => 4#64
    | some .corruptStream => 5#64
    | some .truncatedInput => 6#64
    | some .badCommand => 7#64) ∧
  (readReg 3 s).toNat = s.res.toNat ∧ readReg 4 s = s.origSize ∧ readReg 5 s = s.rp ∧
  (s.snk.length < 2 ^ 64 → (readReg 6 s).toNat = s.snk.length) ∧ (readReg 7 s).toNat = s.root.toNat ∧ (readReg 8 s).toNat = s.heapN.toNat ∧
  (readReg 9 s).toNat = s.nodeNext.toNat ∧ (readReg 10 s).toNat = ctCount s ∧ (readReg 11 s).toNat = s.trieN.toNat ∧
  (readReg 12 s = match s.sdState with
    | .walking => 0#64
    | .emitted => 1#64
    | .done => 2#64) ∧
  (readReg 13 s).toNat = s.sdCur.toNat ∧ readReg 14 s = s.sdCnt ∧
  (readReg 15 s).toNat = s.decOne.toNat ∧ (∀ r, 15 < r → readReg r s = 0#64) ∧
  (∀ v, perform (.write 0 v) s = writeCmd (v.setWidth 32) s) ∧
  (∀ v, perform (.write 4 v) s = .next (if s.err = none then { s with origSize := v } else s)) ∧
  (∀ r v, r ≠ 0 → r ≠ 4 → perform (.write r v) s = .next s)

/-- 10_state.md R24: the value of each STATUS bit. -/
def Obligations.StatusBits : Prop := ∀ s : State,
  (readReg 1 s).getLsbD 0 = false ∧ (readReg 1 s).getLsbD 1 = decide (readReg 2 s ≠ 0#64) ∧
  (readReg 1 s).getLsbD 2 = s.empty ∧ (readReg 1 s).getLsbD 3 = decide (s.root ≠ 0x1FF#9) ∧
  (readReg 1 s).getLsbD 4 = decide (s.trieN ≠ 0#17) ∧ (readReg 1 s).getLsbD 5 = decide (readReg 12 s = 2#64) ∧
  (∀ k, 5 < k → (readReg 1 s).getLsbD k = false)

/-- 20_memory.md R62: SrcEof, and SrcRead with a byte left. -/
def Obligations.SrcReadTakesNextByte : Prop := ∀ s : State,
  (srcEof s = true ↔ s.rp.toNat = s.src.length) ∧
  ∀ h : s.rp.toNat < s.src.length,
    (∀ f, s.srcFail = some f → f.toNat ≤ s.rp.toNat → srcRead s = .raise .ioError s) ∧
    ((∀ f, s.srcFail = some f → s.rp.toNat < f.toNat) → srcRead s = .ok s.src[s.rp.toNat] { s with rp := s.rp + 1#64 })

/-- 20_memory.md R63, 00_scope.md R9: SnkWrite raises at SNK_LIMIT and appends below it, and without a limit below LEN_MAX, the longest sink a host may present; that a write past LEN_MAX stops is the model's choice (log 9). -/
def Obligations.SnkWriteAppends : Prop := ∀ (b : Byte) (s : State),
  (∀ n, s.snkLimit = some n → n.toNat ≤ s.snk.length → snkWrite b s = .raise .ioError s) ∧
  (∀ n, s.snkLimit = some n → s.snk.length < n.toNat → snkWrite b s = .ok () { s with snk := s.snk ++ [b] }) ∧
  (s.snkLimit = none → s.snk.length < 2 ^ 64 - 1 → snkWrite b s = .ok () { s with snk := s.snk ++ [b] }) ∧
  (s.snkLimit = none → 2 ^ 64 - 1 ≤ s.snk.length → snkWrite b s = .stop .sinkTooLong)

/-- 48_system.md R294: what each host action does. What the host is given stands in `seen`, the model's choice (log 2). -/
def Obligations.HostActionEffects : Prop := ∀ s : State,
  (∀ w, perform (.cmd w) s = writeCmd w s) ∧
  (∀ bytes f, bytes.length < 2 ^ 64 → perform (.attach bytes f) s = .next { s with src := bytes, srcFail := f, rp := 0#64 }) ∧
  (∀ n, perform (.limit n) s = .next { s with snkLimit := n }) ∧
  perform .drain s = .next { s with snk := [], seen := s.seen ++ [.drained s.snk] } ∧
  (∀ v, perform (.size v) s = .next (if s.err = none then { s with origSize := v } else s)) ∧
  (∀ r, perform (.read r) s = .next { s with seen := s.seen ++ [.value r (readReg r s)] })

/-- 48_system.md R290, R292: NOP changes nothing, RWD rewinds the source and nothing else. -/
def Obligations.SystemCommands : Prop := ∀ s : State,
  exec .nop s = .next s ∧ exec .rwd s = .next { s with rp := 0#64 }

/-! ## FrequencyCounter -/

/-- 40_frequency_counter.md R131, R132: a fault-free FC_SCAN completes; FREQ counts the bytes from RP to the end, the counts sum to ORIG_SIZE, and the non-zero cells are as many as the distinct bytes. -/
def Obligations.FcScanCounts : Prop := ∀ s : State, StreamsOk s → SourceGives (srcLeft s) s →
  ∃ f, exec .fcScan s =
      .next { s with freq := f, origSize := BitVec.ofNat 64 (srcLeft s), rp := BitVec.ofNat 64 s.src.length } ∧
    (∀ b : Byte, (readCell 0#64 f b.toNat).toNat = (sourceRest s).count b) ∧
    ((List.range 256).map fun b => (readCell 0#64 f b).toNat).sum = srcLeft s ∧
    (BitVec.ofNat 64 (srcLeft s)).toNat = srcLeft s ∧
    ((List.range 256).filter fun b => decide (readCell 0#64 f b ≠ 0#64)).length = (sourceRest s).dedup.length

/-- 40_frequency_counter.md R131, Faults: on IOError FREQ holds the counts of the bytes read so far, RP stands at the failing byte, ORIG_SIZE keeps its value. -/
def Obligations.FcScanStopsAtFailingByte : Prop := ∀ (s : State) (f : Count), StreamsOk s → s.srcFail = some f →
  let k := max s.rp.toNat f.toNat
  k < s.src.length →
  ∃ c, exec .fcScan s = .next { s with err := some .ioError, freq := c, rp := BitVec.ofNat 64 k } ∧
    ∀ b : Byte, (readCell 0#64 c b.toNat).toNat = ((sourceRest s).take (k - s.rp.toNat)).count b

/-! ## PriorityStructure -/

/-- 41_priority_queue.md R142: the order of two keys, both compares unsigned, and that on the live nodes it is strict and total. -/
def Obligations.HeapOrderStrictTotal : Prop :=
  (∀ x y : TreeNode, keyLess x y = true ↔ x.freq.toNat < y.freq.toNat ∨ (x.freq = y.freq ∧ x.tb.toNat < y.tb.toNat)) ∧
  ∀ s : State, Inv s → ∀ i ∈ liveNodes s, ∀ j ∈ liveNodes s, i ≠ j → (nodeLess s i j = true ↔ nodeLess s j i = false)

/-- 41_priority_queue.md R145: PQ_CLR completes in every state, with exactly these writes. -/
def Obligations.PqClrEmpties : Prop := ∀ s : State,
  let t : State := { s with heapN := 0#9, ins := [], nodeNext := 256#10, root := 0x1FF#9, res := 0x1FF#9, empty := false }
  exec .pqClr s = .next t ∧ (∀ b, insOf t b = false) ∧ (readReg 1 t).getLsbD 3 = false

/-- 41_priority_queue.md R146: `PQ_INS n` of an index above 255, or of a leaf already entered, is BadCommand; otherwise it completes, the leaf is made and is live beside the others, and the heap property holds. -/
def Obligations.PqInsEntersLeaf : Prop := ∀ (s : State) (n : Nat), Inv s →
  (255 < n ∨ insOf s n = true → exec (.pqIns n) s = .next { s with err := some .badCommand }) ∧
  (n ≤ 255 → insOf s n = false →
    ∃ t, exec (.pqIns n) s = .next t ∧
      t = { s with node := t.node, ins := t.ins, heap := t.heap, heapN := s.heapN + 1#9 } ∧
      t.heapN.toNat = s.heapN.toNat + 1 ∧
      (∀ i, nodeOf t i = if i = n then some ⟨freqOf s n, BitVec.ofNat 8 n, 0x1FF#9, 0x1FF#9⟩ else nodeOf s i) ∧
      (∀ b, insOf t b = (decide (b = n) || insOf s b)) ∧
      (liveNodes t).Perm (BitVec.ofNat 9 n :: liveNodes s) ∧ HeapProperty t)

/-- 41_priority_queue.md R147: PQ_EXT of an empty heap says so and changes nothing else; otherwise it completes, RES is the least live node, it is live no longer, and the heap property holds. -/
def Obligations.PqExtRemovesLeast : Prop := ∀ s : State, Inv s →
  (s.heapN = 0#9 → exec .pqExt s = .next { s with res := 0x1FF#9, empty := true }) ∧
  (s.heapN ≠ 0#9 →
    ∃ m t, exec .pqExt s = .next t ∧ t = { s with heap := t.heap, heapN := s.heapN - 1#9, res := m, empty := false } ∧
      t.heapN.toNat + 1 = s.heapN.toNat ∧ (liveNodes s).Perm (m :: liveNodes t) ∧
      (∀ j ∈ liveNodes t, nodeLess s m j = true) ∧ HeapProperty t)

/-- 41_priority_queue.md R148: what PQ_EXT returns depends on the set of live nodes and their keys alone, not on the array's layout. -/
def Obligations.PqExtSeesLiveSetOnly : Prop := ∀ s u : State, Inv s → Inv u → (liveNodes s).Perm (liveNodes u) →
  (∀ i ∈ liveNodes s, nodeOf s i.toNat = nodeOf u i.toNat) →
  ∃ t v, exec .pqExt s = .next t ∧ exec .pqExt u = .next v ∧ t.res = v.res ∧ t.empty = v.empty ∧ (liveNodes t).Perm (liveNodes v)

/-! ## TreeBuilder -/

/-- 42_tree_builder.md R161: TB_MERGE with fewer than two live nodes is BadCommand; otherwise it completes: the two least nodes leave, the first is the left child, their parent gets the sum, the larger tie-break byte and the next index, and becomes live. -/
def Obligations.TbMergeJoinsTwoLeast : Prop := ∀ s : State, Inv s →
  (s.heapN.toNat < 2 → exec .tbMerge s = .next { s with err := some .badCommand }) ∧
  (2 ≤ s.heapN.toNat →
    ∃ t a b x y rest, exec .tbMerge s = .next t ∧
      t = { s with node := t.node, heap := t.heap, heapN := s.heapN - 1#9, nodeNext := s.nodeNext + 1#10, res := t.res, empty := false } ∧
      t.res.toNat = s.nodeNext.toNat ∧ t.nodeNext.toNat = s.nodeNext.toNat + 1 ∧ t.heapN.toNat + 1 = s.heapN.toNat ∧
      (liveNodes s).Perm (a :: b :: rest) ∧ nodeLess s a b = true ∧ (∀ j ∈ rest, nodeLess s b j = true) ∧
      nodeOf s a.toNat = some x ∧ nodeOf s b.toNat = some y ∧
      (∀ i, nodeOf t i =
        if i = s.nodeNext.toNat then some ⟨x.freq + y.freq, if x.tb.toNat < y.tb.toNat then y.tb else x.tb, a, b⟩ else nodeOf s i) ∧
      (liveNodes t).Perm (t.res :: rest) ∧ HeapProperty t)

/-- 42_tree_builder.md R162, R163, 10_state.md R49: TB_BUILD on an all-zero FREQ is BadCommand; otherwise it completes. Its result is that of the commands R162 names, one after another: PQ_CLR, PQ_INS of each byte of non-zero count in ascending order, TB_MERGE until one node is live, and an extraction, whose node becomes ROOT; so the statements about those commands say which tree it is. ROOT and RES are the root of a tree with exactly the bytes of non-zero count as leaves, each under the root exactly once, at a depth below their number, and the root's frequency is the sum of FREQ. -/
def Obligations.TbBuildBuildsTree : Prop := ∀ s : State, Inv s →
  (usedSymbols s = 0 → exec .tbBuild s = .next { s with err := some .badCommand }) ∧
  (usedSymbols s ≠ 0 →
    ∃ t, exec .tbBuild s = .next t ∧
      (∃ u, runCommands (.pqClr :: (usedBytes s).map .pqIns ++ List.replicate (usedSymbols s - 1) .tbMerge ++ [.pqExt]) s = .next u ∧
        t = { u with root := u.res }) ∧
      t = { s with node := t.node, ins := t.ins, heap := t.heap, heapN := 0#9, nodeNext := t.nodeNext, root := t.root, res := t.root, empty := false } ∧
      t.nodeNext.toNat + 1 = 256 + usedSymbols s ∧
      (usedSymbols s = 1 → t.root.toNat < 256 ∧ freqOf s t.root.toNat ≠ 0#64) ∧
      (2 ≤ usedSymbols s → t.root.toNat + 1 = t.nodeNext.toNat) ∧
      (∀ b < 256, insOf t b = decide (freqOf s b ≠ 0#64)) ∧
      (∃ x, nodeOf t t.root.toNat = some x ∧ x.freq = freqSum s) ∧
      (∀ b < 256, freqOf s b ≠ 0#64 → ∃! path, followTree t t.root path = some (BitVec.ofNat 9 b)) ∧
      (∀ b < 256, ∀ path, followTree t t.root path = some (BitVec.ofNat 9 b) → freqOf s b ≠ 0#64 ∧ path.length < usedSymbols s))

/-- 42_tree_builder.md R164: the tree TB_BUILD makes and the table CG_GEN makes from it are functions of FREQ alone. -/
def Obligations.TreeAndTableAreFunctionsOfFreq : Prop := ∀ s u : State, Inv s → Inv u →
  (∀ b < 256, freqOf s b = freqOf u b) → usedSymbols s ≠ 0 →
  ∃ t v t' v', exec .tbBuild s = .next t ∧ exec .tbBuild u = .next v ∧ exec .cgGen t = .next t' ∧ exec .cgGen v = .next v' ∧
    t.root = v.root ∧ t.nodeNext = v.nodeNext ∧
    (∀ i < t.nodeNext.toNat, (i < 256 → freqOf s i ≠ 0#64) → nodeOf t i = nodeOf v i) ∧ t'.ct = v'.ct

/-! ## CodeTableGenerator -/

/-- 43_code_table_generator.md R181, R182: CG_GEN without a tree is BadCommand; on a single leaf it gives that byte the code `0`; otherwise every code it writes is the path of its byte's leaf, and a byte with one path gets it. -/
def Obligations.CgGenRecordsPaths : Prop := ∀ s : State, Inv s →
  (s.root = 0x1FF#9 → exec .cgGen s = .next { s with err := some .badCommand }) ∧
  (s.root.toNat < 256 →
    ∃ t, exec .cgGen s = .next t ∧ t = { s with ct := t.ct } ∧ ∀ b, ctOf t b = if b = s.root.toNat then some [false] else none) ∧
  (256 ≤ s.root.toNat → s.root ≠ 0x1FF#9 →
    ∃ t, exec .cgGen s = .next t ∧ t = { s with ct := t.ct } ∧
      (∀ b code, ctOf t b = some code →
        b < 256 ∧ 1 ≤ code.length ∧ code.length ≤ 255 ∧ followTree s s.root code = some (BitVec.ofNat 9 b)) ∧
      (∀ b < 256, ∀ code, followTree s s.root code = some (BitVec.ofNat 9 b) →
        (∀ other, followTree s s.root other = some (BitVec.ofNat 9 b) → other = code) → ctOf t b = some code))

/-- 43_code_table_generator.md R183: no code of a table CG_GEN wrote is a prefix of another. -/
def Obligations.CgGenCodesPrefixFree : Prop := ∀ s t : State, Inv s → s.err = none → exec .cgGen s = .next t → t.err = none → PrefixFree t

/-- 10_state.md R49, 43_code_table_generator.md R183: after TB_BUILD and CG_GEN exactly the bytes of non-zero count have a code, CT_N is their number, and the codes are prefix-free. -/
def Obligations.TreeCodesCoverSymbols : Prop := ∀ s : State, Inv s → usedSymbols s ≠ 0 →
  ∃ t u, exec .tbBuild s = .next t ∧ exec .cgGen t = .next u ∧ u = { t with ct := u.ct } ∧
    (∀ b < 256, (ctOf u b).isSome = decide (freqOf s b ≠ 0#64)) ∧ ctCount u = usedSymbols s ∧ PrefixFree u

/-! ## CodeTableCodec -/

/-- 44_code_table_codec.md R191 to R193: CT_WR4 (for a size below 2^32) and CT_WR8 complete and append the header and the records in ascending symbol order. The bits of the packed bytes: DataForms. -/
def Obligations.CtWrAppendsTable : Prop := ∀ (s : State) (i : Instr) (w : Nat), (i, w) ∈ [(Instr.ctWr4, 4), (Instr.ctWr8, 8)] →
  (w = 4 → s.origSize.toNat < 2 ^ 32) →
  let file := le w s.origSize ++
    ((List.range 256).filterMap fun b => (ctOf s b).map fun code => BitVec.ofNat 8 b :: BitVec.ofNat 8 code.length :: packbits code).flatten
  SinkTakes file.length s → exec i s = .next { s with snk := s.snk ++ file }

/-- 44_code_table_codec.md R199 to R201: CT_WRX4 (for a size below 2^32) and CT_WRX8 complete and append the same bytes as text lines. The characters of a line: DataForms. -/
def Obligations.CtWrxAppendsText : Prop := ∀ (s : State) (i : Instr) (w : Nat), (i, w) ∈ [(Instr.ctWrx4, 4), (Instr.ctWrx8, 8)] →
  (w = 4 → s.origSize.toNat < 2 ^ 32) →
  let text := hexLine (le w s.origSize) ++
    ((List.range 256).filterMap fun b =>
      (ctOf s b).map fun code => hexLine (BitVec.ofNat 8 b :: BitVec.ofNat 8 code.length :: packbits code)).flatten
  SinkTakes text.length s → exec i s = .next { s with snk := s.snk ++ text }

/-- 44_code_table_codec.md R192, R200, Precondition: a size of 2^32 or more is refused before any byte is written. -/
def Obligations.FourByteHeaderRefusesLargeSize : Prop := ∀ s : State, 2 ^ 32 ≤ s.origSize.toNat →
  exec .ctWr4 s = .next { s with err := some .badCommand } ∧ exec .ctWrx4 s = .next { s with err := some .badCommand }

/-- 44_code_table_codec.md R191, R199, 45_bit_packer.md R231, Faults: a writer whose bytes the sink does not all take raises IOError; the bytes before the failing one stay in SNK. -/
def Obligations.WritersStopAtSinkLimit : Prop := ∀ (s : State) (m : Count) (i : Instr) (file : List Byte),
  (i, file) ∈ [(Instr.ctWr4, tableBytes 4 s), (Instr.ctWr8, tableBytes 8 s), (Instr.ctWrx4, tableText 4 s), (Instr.ctWrx8, tableText 8 s),
    (Instr.cfWrh, le 8 s.origSize)] →
  (i = .ctWr4 ∨ i = .ctWrx4 → s.origSize.toNat < 2 ^ 32) → s.snkLimit = some m → m.toNat < s.snk.length + file.length →
  exec i s = .next { s with err := some .ioError, snk := s.snk ++ file.take (m.toNat - s.snk.length) }

/-- 44_code_table_codec.md R194: the size of a written table, and its bound. -/
def Obligations.TableFileSize : Prop := ∀ (s : State) (w : Nat), CodesOk s →
  (tableBytes w s).length =
      w + ((List.range 256).map fun b => match ctOf s b with | some code => 2 + (code.length + 7) / 8 | none => 0).sum ∧
    (w ≤ 8 → (tableBytes w s).length ≤ 8712)

/-- 44_code_table_codec.md R195 to R197: CT_RD4 and CT_RD8 complete on a header of their width and records with distinct symbols, in any order and with any padding bits: ORIG_SIZE is the header, CT holds the records' codes and nothing else, RP is at the end. The bits of a code: DataForms. -/
def Obligations.CtRdReadsRecords : Prop := ∀ (s : State) (i : Instr) (w : Nat) (header : List Byte) (recs : List RawRecord),
  (i, w) ∈ [(Instr.ctRd4, 4), (Instr.ctRd8, 8)] → StreamsOk s → SourceGives (srcLeft s) s → header.length = w →
  (∀ r ∈ recs, r.ok = true) → (recs.map RawRecord.sym).Nodup → sourceRest s = header ++ recs.flatMap RawRecord.bytes →
  ∃ t, exec i s = .next t ∧ t = { s with origSize := fromLe header, rp := BitVec.ofNat 64 s.src.length, ct := t.ct } ∧ HoldsRecords t recs

/-- 44_code_table_codec.md R195, R198: where CT_RD4 and CT_RD8 raise MalformedTable (a short header; after good records, what `badRecord` says) and where a failing byte makes them raise IOError; CT then holds the records accepted so far, ORIG_SIZE the header if it was complete, and RP is after the bytes read. -/
def Obligations.CtRdRefusesBadRecords : Prop := ∀ (s : State) (i : Instr) (w : Nat), (i, w) ∈ [(Instr.ctRd4, 4), (Instr.ctRd8, 8)] →
  StreamsOk s →
  (srcLeft s < w → SourceGives (srcLeft s) s →
    exec i s = .next { s with err := some .malformedTable, ct := [], rp := BitVec.ofNat 64 s.src.length }) ∧
  (∀ n < w, SourceFailsAfter n s → exec i s = .next { s with err := some .ioError, ct := [], rp := s.rp + BitVec.ofNat 64 n }) ∧
  (∀ (header : List Byte) (recs : List RawRecord), header.length = w → (∀ r ∈ recs, r.ok = true) → (recs.map RawRecord.sym).Nodup →
    let text := header ++ recs.flatMap RawRecord.bytes
    (∀ tail n, sourceRest s = text ++ tail → badRecord recs tail = some n → SourceGives (text.length + n) s →
      ∃ t, exec i s = .next t ∧
        t = { s with err := some .malformedTable, origSize := fromLe header, ct := t.ct, rp := s.rp + BitVec.ofNat 64 (text.length + n) } ∧
        HoldsRecords t recs) ∧
    (∀ part more, sourceRest s = text ++ (part ++ more) → startsRecord part more.length = true → SourceFailsAfter (text ++ part).length s →
      ∃ t, exec i s = .next t ∧
        t = { s with err := some .ioError, origSize := fromLe header, ct := t.ct, rp := s.rp + BitVec.ofNat 64 (text ++ part).length } ∧
        HoldsRecords t recs))

/-- 44_code_table_codec.md R203, R204: CT_RDX completes on a text whose first line spells a header of 4 or 8 bytes and whose other lines spell records with distinct symbols, in digits of either case. The values of the digits: DataForms. -/
def Obligations.CtRdxReadsLines : Prop := ∀ (s : State) (header : List Byte) (recs : List RawRecord), StreamsOk s →
  SourceGives (srcLeft s) s → header.length = 4 ∨ header.length = 8 → (∀ r ∈ recs, r.ok = true) → (recs.map RawRecord.sym).Nodup →
  SpellsLines (header :: recs.map RawRecord.bytes) (sourceRest s) →
  ∃ t, exec .ctRdx s = .next t ∧
    t = { s with origSize := fromLe header, rp := BitVec.ofNat 64 s.src.length, ct := t.ct } ∧ HoldsRecords t recs

/-- 44_code_table_codec.md R202, R203: where CT_RDX raises MalformedTable (in the first line or after good lines: a place where a token or its separator does not stand as it must, by `badToken`; a header line of another length than 4 or 8; a line that is no record, or one of a symbol already read) and where a failing byte makes it raise IOError; CT then holds the records accepted so far, ORIG_SIZE the header once its line is accepted, and RP is after the bytes read. -/
def Obligations.CtRdxRefusesBadLines : Prop := ∀ s : State, StreamsOk s →
  (∀ toks start tail n, sourceRest s = start ++ tail → SpellsStart toks start → badToken tail = some n → SourceGives (start.length + n) s →
    exec .ctRdx s = .next { s with err := some .malformedTable, ct := [], rp := s.rp + BitVec.ofNat 64 (start.length + n) }) ∧
  (∀ toks line rest, sourceRest s = line ++ rest → SpellsLine toks line → toks.length ≠ 4 → toks.length ≠ 8 → SourceGives line.length s →
    exec .ctRdx s = .next { s with err := some .malformedTable, ct := [], rp := s.rp + BitVec.ofNat 64 line.length }) ∧
  (∀ part more, sourceRest s = part ++ more → StartsLine part → SourceFailsAfter part.length s →
    exec .ctRdx s = .next { s with err := some .ioError, ct := [], rp := s.rp + BitVec.ofNat 64 part.length }) ∧
  (∀ (header : List Byte) (recs : List RawRecord) (text : List Byte), header.length = 4 ∨ header.length = 8 → (∀ r ∈ recs, r.ok = true) →
    (recs.map RawRecord.sym).Nodup → SpellsLines (header :: recs.map RawRecord.bytes) text →
    (∀ toks start tail n, sourceRest s = text ++ (start ++ tail) → start ++ tail ≠ [] → SpellsStart toks start → badToken tail = some n →
      SourceGives (text.length + (start.length + n)) s →
      ∃ t, exec .ctRdx s = .next t ∧
        t = { s with err := some .malformedTable, origSize := fromLe header, ct := t.ct,
                     rp := s.rp + BitVec.ofNat 64 (text.length + (start.length + n)) } ∧
        HoldsRecords t recs) ∧
    (∀ toks line rest, sourceRest s = text ++ (line ++ rest) → SpellsLine toks line →
      (∀ r : RawRecord, r.ok = true → toks = r.bytes → r.sym ∈ recs.map RawRecord.sym) → SourceGives (text ++ line).length s →
      ∃ t, exec .ctRdx s = .next t ∧
        t = { s with err := some .malformedTable, origSize := fromLe header, ct := t.ct, rp := s.rp + BitVec.ofNat 64 (text ++ line).length } ∧
        HoldsRecords t recs) ∧
    (∀ part more, sourceRest s = text ++ (part ++ more) → StartsLine part → SourceFailsAfter (text ++ part).length s →
      ∃ t, exec .ctRdx s = .next t ∧
        t = { s with err := some .ioError, origSize := fromLe header, ct := t.ct, rp := s.rp + BitVec.ofNat 64 (text ++ part).length } ∧
        HoldsRecords t recs))

/-- 44_code_table_codec.md R205: reading back what a writer wrote restores ORIG_SIZE and CT, in the binary and in the text form. -/
def Obligations.TableRoundTrip : Prop := ∀ (s t u : State) (wr rd : Instr),
  (wr, rd) ∈ [(Instr.ctWr4, Instr.ctRd4), (Instr.ctWr8, Instr.ctRd8), (Instr.ctWrx4, Instr.ctRdx), (Instr.ctWrx8, Instr.ctRdx)] →
  Inv s → Inv u → s.err = none → exec wr s = .next t → t.err = none → t.snk = s.snk ++ sourceRest u → SourceGives (srcLeft u) u →
  exec rd u = .next { u with origSize := s.origSize, ct := s.ct, rp := BitVec.ofNat 64 u.src.length }

/-! ## BitPacker -/

/-- 45_bit_packer.md R231, 30_encoding.md R111: CF_WRH completes and appends the eight bytes of ORIG_SIZE, least significant first. -/
def Obligations.CfWrhAppendsHeader : Prop := ∀ s : State, SinkTakes 8 s →
  exec .cfWrh s = .next { s with snk := s.snk ++
    [s.origSize.extractLsb' 0 8, s.origSize.extractLsb' 8 8, s.origSize.extractLsb' 16 8, s.origSize.extractLsb' 24 8,
     s.origSize.extractLsb' 32 8, s.origSize.extractLsb' 40 8, s.origSize.extractLsb' 48 8, s.origSize.extractLsb' 56 8] }

/-- 45_bit_packer.md R233, 30_encoding.md R112: a fault-free BP_ENC completes and appends the packed code bits of the bytes from RP to the end. The bits of the packed bytes: DataForms. -/
def Obligations.BpEncPacksCodes : Prop := ∀ s : State, StreamsOk s → SourceGives (srcLeft s) s → Encodable s (sourceRest s) →
  let out := packbits (codeBits s (sourceRest s))
  SinkTakes out.length s →
  exec .bpEnc s = .next { s with rp := BitVec.ofNat 64 s.src.length, snk := s.snk ++ out } ∧
    out.length = (((sourceRest s).map fun b => (codeOf s b).length).sum + 7) / 8 ∧ (sourceRest s = [] → out = [])

/-- 45_bit_packer.md R233, Faults: after bytes that have codes, where BP_ENC raises UnknownSymbol (a byte without a code) and where IOError (a failing source byte; a sink full within a byte's code bits, or at the padded last byte): RP is after the last byte read, SNK holds the whole bytes the sink took, the buffered bits are lost. -/
def Obligations.BpEncStopsAtUnknownSymbol : Prop := ∀ (s : State) (before after : List Byte), StreamsOk s →
  sourceRest s = before ++ after → Encodable s before →
  let bits := codeBits s before
  let out := (packbits bits).take (bits.length / 8)
  (∀ b rest, after = b :: rest → ctOf s b.toNat = none → SourceGives (before.length + 1) s → SinkTakes out.length s →
    exec .bpEnc s =
      .next { s with err := some .unknownSymbol, rp := s.rp + BitVec.ofNat 64 (before.length + 1), snk := s.snk ++ out }) ∧
  (SourceFailsAfter before.length s → SinkTakes out.length s →
    exec .bpEnc s = .next { s with err := some .ioError, rp := s.rp + BitVec.ofNat 64 before.length, snk := s.snk ++ out }) ∧
  (∀ m, s.snkLimit = some m →
    let room := m.toNat - s.snk.length
    (∀ b rest code, after = b :: rest → ctOf s b.toNat = some code → SourceGives (before.length + 1) s →
      bits.length / 8 ≤ room → room < (bits ++ code).length / 8 →
      exec .bpEnc s =
        .next { s with err := some .ioError, rp := s.rp + BitVec.ofNat 64 (before.length + 1),
                       snk := s.snk ++ (packbits (bits ++ code)).take room }) ∧
    (after = [] → SourceGives before.length s → bits.length % 8 ≠ 0 → room = bits.length / 8 →
      exec .bpEnc s = .next { s with err := some .ioError, rp := s.rp + BitVec.ofNat 64 before.length, snk := s.snk ++ out }))

/-! ## DecodeTrie -/

/-- 46_decode_trie.md R252, R253: DT_BUILD completes exactly when the codes are prefix-free; then each code leads from the root to its symbol's leaf and DEC_ONE names the only symbol if there is one. Otherwise it raises AmbiguousCode. -/
def Obligations.DtBuildIffPrefixFree : Prop := ∀ s : State, Inv s →
  (PrefixFree s →
    ∃ t, exec .dtBuild s = .next t ∧ t = { s with trie := t.trie, trieN := t.trieN, decOne := t.decOne } ∧ 1 ≤ t.trieN.toNat ∧
      (∀ b < 256, ∀ code, ctOf s b = some code →
        ∃ c, followTrie t 0#16 code = some c ∧ c.leaf = true ∧ c.sym = BitVec.ofNat 8 b) ∧
      (ctCount s ≠ 1 → t.decOne = 0#9) ∧ (∀ b < 256, ctCount s = 1 → (ctOf s b).isSome = true → t.decOne = 0x100#9 ||| BitVec.ofNat 9 b)) ∧
  (¬ PrefixFree s →
    ∃ t, exec .dtBuild s = .next t ∧
      t = { s with err := some .ambiguousCode, trie := t.trie, trieN := t.trieN, decOne := 0#9 } ∧ 1 ≤ t.trieN.toNat)

/-- 46_decode_trie.md R254: the finished trie has one node for each distinct prefix of a code and the root, a leaf exactly at the codes, and no leaf has a child. -/
def Obligations.DtBuildTrieShape : Prop := ∀ s t : State, Inv s → s.err = none → exec .dtBuild s = .next t → t.err = none →
  t.trieN.toNat =
      1 + (((List.range 256).flatMap fun b => match ctOf s b with | some code => code.inits | none => []).filter (· ≠ [])).dedup.length ∧
  (∀ code c, followTrie t 0#16 code = some c → c.leaf = true →
    c.c0 = 0xFFFF#16 ∧ c.c1 = 0xFFFF#16 ∧ ctOf s c.sym.toNat = some code)

/-! ## StreamDecoder -/

/-- 47_stream_decoder.md R266: CF_RDH takes eight bytes, least significant first, into ORIG_SIZE; with fewer left it is TruncatedInput with RP at the end; a failing byte among them is IOError with RP at that byte. -/
def Obligations.CfRdhReadsHeader : Prop := ∀ s : State, StreamsOk s →
  (SourceGives 8 s → ∃ b0 b1 b2 b3 b4 b5 b6 b7, (sourceRest s).take 8 = [b0, b1, b2, b3, b4, b5, b6, b7] ∧
    exec .cfRdh s = .next { s with origSize := b7 ++ b6 ++ b5 ++ b4 ++ b3 ++ b2 ++ b1 ++ b0, rp := s.rp + 8#64 }) ∧
  (srcLeft s < 8 → SourceGives (srcLeft s) s →
    exec .cfRdh s = .next { s with err := some .truncatedInput, rp := BitVec.ofNat 64 s.src.length }) ∧
  (∀ f, s.srcFail = some f → max s.rp.toNat f.toNat < s.src.length → max s.rp.toNat f.toNat < s.rp.toNat + 8 →
    exec .cfRdh s = .next { s with err := some .ioError, rp := BitVec.ofNat 64 (max s.rp.toNat f.toNat) })

/-- 47_stream_decoder.md R270 to R272: SD_RUN without a trie is BadCommand; with target zero it is DONE at once; with a one-pair trie it writes that symbol ORIG_SIZE times and reads nothing, or as many as the sink takes and then IOError. -/
def Obligations.SdRunWithoutWalking : Prop := ∀ s : State,
  (s.trieN = 0#17 → exec .sdRun s = .next { s with err := some .badCommand }) ∧
  (s.trieN ≠ 0#17 → s.origSize = 0#64 → exec .sdRun s = .next { s with sdState := .done, sdCur := 0#16, sdCnt := 0#64 }) ∧
  (s.trieN ≠ 0#17 → s.origSize ≠ 0#64 → ∀ sym : Byte, s.decOne = 0x100#9 ||| sym.setWidth 9 →
    (SinkTakes s.origSize.toNat s →
      exec .sdRun s = .next { s with sdState := .done, sdCur := 0#16, sdCnt := s.origSize, snk := s.snk ++ List.replicate s.origSize.toNat sym }) ∧
    (∀ m, s.snkLimit = some m → m.toNat < s.snk.length + s.origSize.toNat →
      exec .sdRun s = .next { s with err := some .ioError, sdState := .walking, sdCur := 0#16, sdCnt := BitVec.ofNat 64 (m.toNat - s.snk.length),
                                     snk := s.snk ++ List.replicate (m.toNat - s.snk.length) sym }))

/-- 47_stream_decoder.md R268 to R270: where each symbol's code leads from the root to its leaf, SD_RUN over the packed codes of a message of ORIG_SIZE symbols completes with the message in the sink and RP after the byte of the last used bit, whatever follows. -/
def Obligations.SdRunDecodesCodes : Prop := ∀ (s : State) (coder : Byte → Code) (msg rest : List Byte), Inv s →
  s.trieN ≠ 0#17 → s.decOne.getLsbD 8 = false → msg ≠ [] → msg.length = s.origSize.toNat → TrieDecodes s coder msg →
  let bits := msg.flatMap coder
  sourceRest s = packbits bits ++ rest → SourceGives (packbits bits).length s → SinkTakes msg.length s →
  exec .sdRun s = .next { s with sdState := .done, sdCur := 0#16, sdCnt := s.origSize, snk := s.snk ++ msg,
                                 rp := s.rp + BitVec.ofNat 64 (packbits bits).length }

/-- 47_stream_decoder.md R274: SD_CNT counts the bytes this run appended, never more than ORIG_SIZE; a run that ends without fault is DONE with exactly ORIG_SIZE of them. -/
def Obligations.SdRunAppendsExactlyTarget : Prop := ∀ s t : State, Inv s → s.err = none → s.trieN ≠ 0#17 → exec .sdRun s = .next t →
  ∃ out, t.snk = s.snk ++ out ∧ out.length ≤ s.origSize.toNat ∧ t.sdCnt.toNat = out.length ∧
    (t.err = none → out.length = s.origSize.toNat ∧ t.sdState = .done ∧ t.sdCur = 0#16) ∧ (t.err ≠ none → t.sdState = .walking)

/-- 47_stream_decoder.md R268, R270, Faults: after the bytes `taken`, whose bits are the codes of the symbols `out`, fewer than ORIG_SIZE, and a path from the root: an exhausted source is TruncatedInput and a failing next byte IOError; within the last byte taken, a bit without an edge is CorruptStream with SD_CUR at the node the walk stood on, and a leaf whose symbol meets SNK_LIMIT is IOError with SD_CUR at that leaf. SD_CNT counts the symbols emitted, SNK has them, RP is after the bytes taken. -/
def Obligations.SdRunFaults : Prop := ∀ (s : State) (coder : Byte → Code) (out taken rest : List Byte) (path : Code) (cur : TrieIx) (c : TrieNode),
  Inv s → s.trieN ≠ 0#17 → s.decOne.getLsbD 8 = false → out.length < s.origSize.toNat → TrieDecodes s coder out → SinkTakes out.length s →
  sourceRest s = taken ++ rest → SourceGives taken.length s → walkTrie s 0#16 path = some cur → trieOf s cur.toNat = some c →
  let bits := taken.flatMap bitsOf
  let faulted (k : ErrKind) : State :=
    { s with err := some k, rp := s.rp + BitVec.ofNat 64 taken.length, snk := s.snk ++ out,
             sdState := .walking, sdCur := cur, sdCnt := BitVec.ofNat 64 out.length }
  (bits = out.flatMap coder ++ path → (path ≠ [] → c.leaf = false) → rest = [] → exec .sdRun s = .next (faulted .truncatedInput)) ∧
  (bits = out.flatMap coder ++ path → (path ≠ [] → c.leaf = false) → SourceFailsAfter taken.length s → exec .sdRun s = .next (faulted .ioError)) ∧
  (∀ bit more, bits = out.flatMap coder ++ path ++ bit :: more → more.length < 8 → (path ≠ [] → c.leaf = false) → childOf bit c = 0xFFFF#16 →
    exec .sdRun s = .next (faulted .corruptStream)) ∧
  (∀ m more, bits = out.flatMap coder ++ path ++ more → more.length < 8 → path ≠ [] → c.leaf = true →
    s.snkLimit = some m → m.toNat ≤ s.snk.length + out.length → exec .sdRun s = .next (faulted .ioError))

/-! ## Errors and what a command may touch -/

/-- 60_exceptions.md R310 to R317: a command raises no error kind but those the table gives it. -/
def Obligations.CommandsRaiseOnlyTheirKinds : Prop := ∀ (i : Instr) (s t : State), s.err = none → exec i s = .next t →
  t.err = none ∨ ∃ k ∈ mayRaise i, t.err = some k

/-- 60_exceptions.md R317: a command word that ends in BadCommand, be it no command or a command whose precondition fails, changes no state except the fault entry itself. -/
def Obligations.BadCommandChangesNothingElse : Prop := ∀ (w : CmdWord) (s t : State), s.err = none → writeCmd w s = .next t →
  t.err = some .badCommand → t = { s with err := some .badCommand }

/-- 20_memory.md R61, 10_state.md R22: a command, ending normally or by fault, writes the registers and memories the tables give it and nothing else; the streams' host side and the model's own fields never change. -/
def Obligations.CommandFootprint : Prop := ∀ (i : Instr) (s t : State), exec i s = .next t → t = writtenBy i s t

/-- 41_priority_queue.md R143 to R147, 42_tree_builder.md R161, R162, 46_decode_trie.md R251: which cells of the memories a command leaves alone. -/
def Obligations.CellFootprint : Prop := ∀ s t : State, memoriesWf s = true →
  (∀ n, exec (.pqIns n) s = .next t →
    (∀ i, i ≠ n → nodeOf t i = nodeOf s i ∧ insOf t i = insOf s i) ∧ ∀ k, s.heapN.toNat < k → heapOf t k = heapOf s k) ∧
  (exec .pqExt s = .next t → ∀ k, s.heapN.toNat ≤ k → heapOf t k = heapOf s k) ∧
  (exec .tbMerge s = .next t →
    (∀ i, i ≠ s.nodeNext.toNat → nodeOf t i = nodeOf s i) ∧ ∀ k, s.heapN.toNat ≤ k → heapOf t k = heapOf s k) ∧
  (exec .tbBuild s = .next t →
    (∀ i < 256, freqOf s i = 0#64 → nodeOf t i = nodeOf s i) ∧ (∀ i, 256 ≤ i → t.nodeNext.toNat ≤ i → nodeOf t i = nodeOf s i) ∧
      ∀ k, usedSymbols s ≤ k → heapOf t k = heapOf s k) ∧
  (exec .dtBuild s = .next t → ∀ i, t.trieN.toNat ≤ i → trieOf t i = trieOf s i)

/-- 10_state.md R42, 20_memory.md R63, 00_scope.md R9: a command only appends to SNK, and never past SNK_LIMIT or LEN_MAX. -/
def Obligations.SinkOnlyAppended : Prop := ∀ (i : Instr) (s t : State), exec i s = .next t →
  s.snk <+: t.snk ∧ (∀ m, s.snkLimit = some m → t.snk.length ≤ max s.snk.length m.toNat) ∧ t.snk.length ≤ max s.snk.length (2 ^ 64 - 1)

/-- 10_state.md R28, R41, 20_memory.md R62, R64: but for RST and RWD a command moves RP forward only, within the source and not past a failing byte. -/
def Obligations.SourceReadInOrder : Prop := ∀ (i : Instr) (s t : State), StreamsOk s → i ≠ .rst → i ≠ .rwd → exec i s = .next t →
  s.rp.toNat ≤ t.rp.toNat ∧ t.rp.toNat ≤ s.src.length ∧ ∀ f, s.srcFail = some f → t.rp.toNat ≤ max s.rp.toNat f.toNat

/-! ## The invariant -/

/-- 10_state.md R36 to R40, R45, R47, 00_scope.md R9: the invariant holds at power-on. -/
def Obligations.InvAtReset : Prop := Inv State.reset

/-- 48_system.md R300, 10_state.md R46: in every state of the invariant every command, well-formed or not, gives a next state, in which the invariant holds: no command reads a cell that holds no value, leaves a memory's capacity or runs for ever. The one premise is the host's own bound: the sink has a limit, or what the command can append stays within LEN_MAX (00_scope.md R9); past it the command may stop at the sink's end (log 9), and nowhere else. -/
def Obligations.NoCommandStops : Prop := ∀ (i : Instr) (s : State), Inv s →
  (SinkHolds i s → ∃ t, exec i s = .next t ∧ Inv t) ∧
  ((∃ t, exec i s = .next t ∧ Inv t) ∨ exec i s = .fault .sinkTooLong)

/-- 48_system.md R294, R300, 10_state.md R36 to R40: every step of a host that keeps its duty gives a next state and keeps the invariant; where the host presents no sink long enough for the command of its next action (00_scope.md R9) the step may stop at the sink's end (log 9), and nowhere else. -/
def Obligations.StepKeepsInv : Prop := ∀ s : State, Inv s →
  (StepHolds s → ∃ t, step s = .next t ∧ Inv t) ∧
  ((∃ t, step s = .next t ∧ Inv t) ∨ step s = .fault .sinkTooLong)

/-- Every step, from any state whose memories are canonical, keeps them so (log 11). -/
def Obligations.MemoriesStayCanonical : Prop := ∀ s t : State, memoriesWf s = true → step s = .next t → memoriesWf t = true

/-! ## Round trips -/

/-- 47_stream_decoder.md R275, its decoding half: after a DT_BUILD that completed, SD_RUN over the packed codes of a message gives the message back, whatever follows the packed bytes. -/
def Obligations.DecoderInvertsPacker : Prop := ∀ (s t : State) (msg rest : List Byte), Inv s → s.err = none →
  exec .dtBuild s = .next t → t.err = none → Encodable s msg → (packbits (codeBits s msg) ++ rest).length < 2 ^ 64 → msg.length < 2 ^ 64 →
  let u : State := { t with src := packbits (codeBits s msg) ++ rest, srcFail := none, rp := 0#64, origSize := BitVec.ofNat 64 msg.length }
  SinkTakes msg.length u → ∃ v, exec .sdRun u = .next v ∧ v.err = none ∧ v.snk = t.snk ++ msg ∧ v.sdState = .done

/-- 47_stream_decoder.md R275: what COMPRESS made of a non-empty byte sequence, DECOMPRESS turns back into exactly that sequence, without fault. That the drained artifacts stand in `seen` is the model's choice (log 2); the launch premises are those of 48_system.md R295. -/
def Obligations.FlowsRoundTrip : Prop := ∀ (input table file : List Byte) (s t u : State) (wr rd : Instr),
  (wr, rd) ∈ [(Instr.ctWr4, Instr.ctRd4), (Instr.ctWr8, Instr.ctRd8)] → input ≠ [] → Inv s → s.snk = [] →
  runActions (compressFlow wr input) s = .next t → t.err = none → t.seen = s.seen ++ [.drained table, .drained file] →
  Inv u → u.snk = [] → u.snkLimit = none → table.length < 2 ^ 64 → file.length < 2 ^ 64 →
  ∃ v, runActions (decompressFlow rd table file) u = .next v ∧ v.err = none ∧ v.seen = u.seen ++ [.drained input]

/-! ## The forms of data -/

/-- 00_scope.md R12, 20_memory.md R66, 30_encoding.md R107, 44_code_table_codec.md R199, R202: the functions the statements above use for bits, integers and text, by bit and byte index and by ASCII code: bits go most significant first, integers least significant byte first, text is two upper-case digits a byte, one 0x20 between bytes, 0x0A at the end of a line, and is read in either case. -/
def Obligations.DataForms : Prop :=
  (∀ b : List Bool, b.length ≤ 8 → ∀ i < 8, (pack8 b).getLsbD (7 - i) = b.getD i false) ∧
  (∀ c : List Bool, (packbits c).length = (c.length + 7) / 8 ∧
    ∀ k < (c.length + 7) / 8, ∀ i < 8, ((packbits c).getD k 0#8).getLsbD (7 - i) = c.getD (8 * k + i) false) ∧
  (∀ (bytes : List Byte) (n : Nat), n ≤ 8 * bytes.length → (unpackbits bytes n).length = n ∧
    ∀ k, ∀ i < 8, 8 * k + i < n → (unpackbits bytes n).getD (8 * k + i) false = (bytes.getD k 0#8).getLsbD (7 - i)) ∧
  (∀ b : Byte, (bitsOf b).length = 8 ∧ ∀ i < 8, (bitsOf b).getD i false = b.getLsbD (7 - i)) ∧
  (∀ (n : Nat) (v : Count), (le n v).length = n ∧ ∀ k < n, ((le n v).getD k 0#8).toNat = v.toNat / 256 ^ k % 256) ∧
  (∀ bytes : List Byte, bytes.length ≤ 8 →
    (fromLe bytes).toNat = ((List.range bytes.length).map fun k => (bytes.getD k 0#8).toNat * 256 ^ k).sum) ∧
  (∀ b : Byte, hexToken b = [hexDigit (BitVec.ofNat 8 (b.toNat / 16)), hexDigit (BitVec.ofNat 8 (b.toNat % 16))]) ∧
  (∀ d < 16, (hexDigit (BitVec.ofNat 8 d)).toNat = if d < 10 then 48 + d else 65 + (d - 10)) ∧
  (∀ bs : List Byte, bs ≠ [] → hexLine bs = ((bs.map hexToken).intersperse [0x20#8]).flatten ++ [0x0A#8]) ∧
  (∀ c v : Byte, hexval c = some v ↔
    (48 ≤ c.toNat ∧ c.toNat ≤ 57 ∧ v.toNat = c.toNat - 48) ∨ (65 ≤ c.toNat ∧ c.toNat ≤ 70 ∧ v.toNat = c.toNat - 65 + 10) ∨
      (97 ≤ c.toNat ∧ c.toNat ≤ 102 ∧ v.toNat = c.toNat - 97 + 10)) ∧
  lineFeed = 0x0A#8 ∧ space = 0x20#8
end

