-- ==== Sys2Proof/Laws/Bits.lean ====
section
/-! SUPPORT. The data forms are inverse to each other: integers in little-endian bytes, bit sequences in packed bytes, bytes in hex tokens (00_scope.md R12; 30_encoding.md R107). -/

namespace Sys2Proof.Machine

/-! Integers. -/

@[simp] theorem length_le (n : Nat) (v : Count) : (le n v).length = n := by simp [le]

theorem le_succ (n : Nat) (v : Count) : le (n + 1) v = v.setWidth 8 :: le n (v >>> 8) := by
  simp only [le, List.range_succ_eq_map, List.map_cons, List.map_map]
  congr 1
  refine List.map_congr_left fun i _ => ?_
  simp only [Function.comp, Nat.succ_eq_add_one, ← BitVec.shiftRight_add, show 8 * (i + 1) = 8 + 8 * i by omega]

theorem fromLe_lt (bs : List Byte) (h : bs.length ≤ 8) : (fromLe bs).toNat < 256 ^ bs.length := by
  induction bs with
  | nil => simp [fromLe]
  | cons b bs ih =>
    have ih := ih (by simp at h; omega)
    have hb := b.isLt
    have hp : 256 ^ bs.length ≤ 256 ^ 7 := Nat.pow_le_pow_right (by decide) (by simp at h; omega)
    simp only [fromLe, BitVec.toNat_or, BitVec.toNat_setWidth, BitVec.toNat_shiftLeft, List.length_cons, Nat.shiftLeft_eq]
    rw [Nat.mod_eq_of_lt (by omega), Nat.mod_eq_of_lt (by omega), Nat.or_comm, Nat.mul_comm, ← Nat.two_pow_add_eq_or_of_lt hb]
    omega

/-- The integer of some bytes, least significant first. -/
theorem toNat_fromLe_cons (b : Byte) (bs : List Byte) (h : bs.length ≤ 7) :
    (fromLe (b :: bs)).toNat = b.toNat + 256 * (fromLe bs).toNat := by
  have ih := fromLe_lt bs (by omega)
  have hb := b.isLt
  have hp : 256 ^ bs.length ≤ 256 ^ 7 := Nat.pow_le_pow_right (by decide) h
  simp only [fromLe, BitVec.toNat_or, BitVec.toNat_setWidth, BitVec.toNat_shiftLeft, Nat.shiftLeft_eq]
  rw [Nat.mod_eq_of_lt (by omega), Nat.mod_eq_of_lt (by omega), Nat.or_comm, Nat.mul_comm, ← Nat.two_pow_add_eq_or_of_lt hb]
  omega

/-- `from_le(le_n(v))` keeps the n low bytes of v (R12). -/
theorem toNat_fromLe_le (n : Nat) (v : Count) (h : n ≤ 8) : (fromLe (le n v)).toNat = v.toNat % 256 ^ n := by
  induction n generalizing v with
  | zero => simp [le, fromLe]; omega
  | succ n ih =>
    rw [le_succ, toNat_fromLe_cons _ _ (by simp; omega), ih _ (by omega)]
    simp only [BitVec.toNat_setWidth, BitVec.toNat_ushiftRight, Nat.shiftRight_eq_div_pow]
    rw [Nat.pow_succ 256 n, Nat.mul_comm (256 ^ n), Nat.mod_mul]

/-- An 8-byte header gives back the size. -/
theorem fromLe_le_eight (v : Count) : fromLe (le 8 v) = v := by
  apply BitVec.eq_of_toNat_eq
  rw [toNat_fromLe_le 8 v (by omega), Nat.mod_eq_of_lt (by have := v.isLt; omega)]

/-- A 4-byte header gives back a size below 2^32 (30_encoding.md R101). -/
theorem fromLe_le_four (v : Count) (h : v.toNat < 2 ^ 32) : fromLe (le 4 v) = v := by
  apply BitVec.eq_of_toNat_eq
  rw [toNat_fromLe_le 4 v (by omega), Nat.mod_eq_of_lt (by omega)]

/-! Bit sequences. -/

theorem bitsOf_pack8_eight : ∀ a b c d e f g h : Bool, bitsOf (pack8 [a, b, c, d, e, f, g, h]) = [a, b, c, d, e, f, g, h] := by
  decide

/-- The packed byte of up to 8 bits holds them first, then zeros. -/
theorem bitsOf_pack8 {c : List Bool} (h : c.length ≤ 8) : bitsOf (pack8 c) = c ++ List.replicate (8 - c.length) false := by
  have hp : pack8 c = pack8 (c ++ List.replicate (8 - c.length) false) := by
    have hg : ∀ i, c.getD i false = (c ++ List.replicate (8 - c.length) false).getD i false := fun i => by
      rcases Nat.lt_or_ge i c.length with hi | hi
      · simp [List.getD_eq_getElem?_getD, List.getElem?_append_left hi]
      · rw [List.getD_eq_getElem?_getD, List.getD_eq_getElem?_getD, List.getElem?_append_right hi, List.getElem?_eq_none hi,
          List.getElem?_replicate]
        split <;> rfl
    unfold pack8; simp only [hg]
  rw [hp]
  have hl : (c ++ List.replicate (8 - c.length) false).length = 8 := by simp; omega
  generalize c ++ List.replicate (8 - c.length) false = l at hl ⊢
  obtain ⟨a, b, c, d, e, f, g, h, rfl⟩ : ∃ a b c d e f g h, l = [a, b, c, d, e, f, g, h] := by
    match l, hl with
    | [a, b, c, d, e, f, g, h], _ => exact ⟨a, b, c, d, e, f, g, h, rfl⟩
  exact bitsOf_pack8_eight a b c d e f g h

@[simp] theorem length_bitsOf (b : Byte) : (bitsOf b).length = 8 := by simp [bitsOf]

theorem length_flatMap_bitsOf (bs : List Byte) : (bs.flatMap bitsOf).length = 8 * bs.length := by
  induction bs with
  | nil => rfl
  | cons b bs ih => rw [List.flatMap_cons, List.length_append, ih, length_bitsOf, List.length_cons]; omega

@[simp] theorem packbits_nil : packbits [] = [] := rfl

/-- A full byte is packed first. -/
theorem packbits_of_full {c : List Bool} (h : 8 ≤ c.length) : packbits c = pack8 (c.take 8) :: packbits (c.drop 8) := by
  have hn : ceil8 c.length = ceil8 (c.drop 8).length + 1 := by simp [ceil8]; omega
  simp only [packbits, hn, List.range_succ_eq_map, List.map_cons, List.map_map]
  congr 1
  refine List.map_congr_left fun i _ => ?_
  simp [Function.comp, List.drop_drop, Nat.mul_add, Nat.add_comm]

/-- One to seven bits make one byte. -/
theorem packbits_of_rest {c : List Bool} (h : 0 < c.length) (h' : c.length < 8) : packbits c = [pack8 c] := by
  have hn : ceil8 c.length = 1 := by simp [ceil8]; omega
  simp [packbits, hn, List.take_of_length_le (Nat.le_of_lt h')]

@[simp] theorem length_packbits (c : List Bool) : (packbits c).length = ceil8 c.length := by simp [packbits]

/-- The bits of the packed bytes are the sequence and then fewer than 8 zeros (R66). -/
theorem flatMap_bitsOf_packbits (c : List Bool) :
    (packbits c).flatMap bitsOf = c ++ List.replicate (8 * ceil8 c.length - c.length) false := by
  induction hn : c.length using Nat.strongRecOn generalizing c with
  | ind n ih =>
    rcases Nat.lt_or_ge c.length 8 with h | h
    · rcases Nat.eq_zero_or_pos c.length with h0 | h0
      · rw [List.length_eq_zero_iff.1 h0] at hn ⊢; subst hn; rfl
      · rw [packbits_of_rest h0 h]
        simp [bitsOf_pack8 (Nat.le_of_lt h), ← hn, show ceil8 c.length = 1 by simp [ceil8]; omega]
    · rw [packbits_of_full h, List.flatMap_cons, bitsOf_pack8 (by simp), ih (c.drop 8).length (by simp; omega) _ rfl]
      simp only [List.length_take, Nat.min_eq_left h, Nat.sub_self, List.replicate_zero, List.append_nil, List.length_drop]
      rw [← List.append_assoc, List.take_append_drop]
      congr 2
      simp [ceil8]; omega

/-- `unpackbits(packbits(c), |c|) = c` (R12). -/
theorem unpackbits_packbits (c : List Bool) : unpackbits (packbits c) c.length = c := by
  simp [unpackbits, flatMap_bitsOf_packbits]

/-- `unpackbits` gives as many bits as asked for where the bytes hold that many. -/
theorem length_unpackbits {bytes : List Byte} {n : Nat} (h : n ≤ 8 * bytes.length) : (unpackbits bytes n).length = n := by
  have : (bytes.flatMap bitsOf).length = 8 * bytes.length := by
    induction bytes with
    | nil => rfl
    | cons b bs ih => simp [List.flatMap_cons] at ih ⊢; omega
  simp [unpackbits, this, h]

theorem le_eight_mul_ceil8 (n : Nat) : n ≤ 8 * ceil8 n := by simp [ceil8]; omega

theorem ceil8_add_eight (n : Nat) : ceil8 (n + 8) = ceil8 n + 1 := by simp only [ceil8]; omega

/-- A first part of whole bytes is packed on its own. -/
theorem packbits_append {c d : List Bool} (h : 8 ∣ c.length) : packbits (c ++ d) = packbits c ++ packbits d := by
  induction hn : c.length using Nat.strongRecOn generalizing c with
  | ind n ih =>
    rcases Nat.eq_zero_or_pos c.length with h0 | h0
    · simp [List.length_eq_zero_iff.1 h0]
    · have h8 : 8 ≤ c.length := Nat.le_of_dvd h0 h
      rw [packbits_of_full (c := c ++ d) (by simp; omega), packbits_of_full h8, List.take_append_of_le_length h8,
        List.drop_append_of_le_length h8, ih (c.drop 8).length (by simp; omega) (by simpa using (Nat.dvd_sub h (Nat.dvd_refl 8))) rfl]
      rfl

/-! Hex text. -/

theorem hexval_hexDigit_high : ∀ b : Byte, hexval (hexDigit (b >>> 4)) = some (b >>> 4) := by decide +kernel
theorem hexval_hexDigit_low : ∀ b : Byte, hexval (hexDigit (b &&& 0x0F#8)) = some (b &&& 0x0F#8) := by decide +kernel

/-- The two nibbles of a token give the byte back. -/
theorem token_value : ∀ b : Byte, (b >>> 4) <<< 4 ||| (b &&& 0x0F#8) = b := by decide +kernel

end Sys2Proof.Machine
end

