-- ==== Sys2Proof/Laws/State.lean ====
section
/-! SUPPORT. One lemma per field per named update of the state, so that no later proof unfolds a record update; and that the reset state's memories are canonical. -/

namespace Sys2Proof.Machine

/-! Fault entry (60_exceptions.md R318). -/

@[simp] theorem enterFault_err (k : ErrKind) (s : State) : (enterFault k s).err = some k := rfl
@[simp] theorem enterFault_empty (k : ErrKind) (s : State) : (enterFault k s).empty = s.empty := rfl
@[simp] theorem enterFault_res (k : ErrKind) (s : State) : (enterFault k s).res = s.res := rfl
@[simp] theorem enterFault_origSize (k : ErrKind) (s : State) : (enterFault k s).origSize = s.origSize := rfl
@[simp] theorem enterFault_rp (k : ErrKind) (s : State) : (enterFault k s).rp = s.rp := rfl
@[simp] theorem enterFault_root (k : ErrKind) (s : State) : (enterFault k s).root = s.root := rfl
@[simp] theorem enterFault_heapN (k : ErrKind) (s : State) : (enterFault k s).heapN = s.heapN := rfl
@[simp] theorem enterFault_nodeNext (k : ErrKind) (s : State) : (enterFault k s).nodeNext = s.nodeNext := rfl
@[simp] theorem enterFault_trieN (k : ErrKind) (s : State) : (enterFault k s).trieN = s.trieN := rfl
@[simp] theorem enterFault_sdState (k : ErrKind) (s : State) : (enterFault k s).sdState = s.sdState := rfl
@[simp] theorem enterFault_sdCur (k : ErrKind) (s : State) : (enterFault k s).sdCur = s.sdCur := rfl
@[simp] theorem enterFault_sdCnt (k : ErrKind) (s : State) : (enterFault k s).sdCnt = s.sdCnt := rfl
@[simp] theorem enterFault_decOne (k : ErrKind) (s : State) : (enterFault k s).decOne = s.decOne := rfl
@[simp] theorem enterFault_freq (k : ErrKind) (s : State) : (enterFault k s).freq = s.freq := rfl
@[simp] theorem enterFault_ins (k : ErrKind) (s : State) : (enterFault k s).ins = s.ins := rfl
@[simp] theorem enterFault_node (k : ErrKind) (s : State) : (enterFault k s).node = s.node := rfl
@[simp] theorem enterFault_heap (k : ErrKind) (s : State) : (enterFault k s).heap = s.heap := rfl
@[simp] theorem enterFault_ct (k : ErrKind) (s : State) : (enterFault k s).ct = s.ct := rfl
@[simp] theorem enterFault_trie (k : ErrKind) (s : State) : (enterFault k s).trie = s.trie := rfl
@[simp] theorem enterFault_src (k : ErrKind) (s : State) : (enterFault k s).src = s.src := rfl
@[simp] theorem enterFault_srcFail (k : ErrKind) (s : State) : (enterFault k s).srcFail = s.srcFail := rfl
@[simp] theorem enterFault_snk (k : ErrKind) (s : State) : (enterFault k s).snk = s.snk := rfl
@[simp] theorem enterFault_snkLimit (k : ErrKind) (s : State) : (enterFault k s).snkLimit = s.snkLimit := rfl
@[simp] theorem enterFault_host (k : ErrKind) (s : State) : (enterFault k s).host = s.host := rfl
@[simp] theorem enterFault_seen (k : ErrKind) (s : State) : (enterFault k s).seen = s.seen := rfl

/-! Reset (10_state.md R45 to R47). -/

@[simp] theorem softReset_err (s : State) : (softReset s).err = none := rfl
@[simp] theorem softReset_empty (s : State) : (softReset s).empty = false := rfl
@[simp] theorem softReset_res (s : State) : (softReset s).res = Config.nil := rfl
@[simp] theorem softReset_origSize (s : State) : (softReset s).origSize = 0#64 := rfl
@[simp] theorem softReset_rp (s : State) : (softReset s).rp = 0#64 := rfl
@[simp] theorem softReset_root (s : State) : (softReset s).root = Config.nil := rfl
@[simp] theorem softReset_heapN (s : State) : (softReset s).heapN = 0#9 := rfl
@[simp] theorem softReset_nodeNext (s : State) : (softReset s).nodeNext = 256#10 := rfl
@[simp] theorem softReset_trieN (s : State) : (softReset s).trieN = 0#17 := rfl
@[simp] theorem softReset_sdState (s : State) : (softReset s).sdState = .walking := rfl
@[simp] theorem softReset_sdCur (s : State) : (softReset s).sdCur = 0#16 := rfl
@[simp] theorem softReset_sdCnt (s : State) : (softReset s).sdCnt = 0#64 := rfl
@[simp] theorem softReset_decOne (s : State) : (softReset s).decOne = 0#9 := rfl
@[simp] theorem softReset_freq (s : State) : (softReset s).freq = [] := rfl
@[simp] theorem softReset_ins (s : State) : (softReset s).ins = [] := rfl
@[simp] theorem softReset_node (s : State) : (softReset s).node = [] := rfl
@[simp] theorem softReset_heap (s : State) : (softReset s).heap = [] := rfl
@[simp] theorem softReset_ct (s : State) : (softReset s).ct = [] := rfl
@[simp] theorem softReset_trie (s : State) : (softReset s).trie = [] := rfl
@[simp] theorem softReset_src (s : State) : (softReset s).src = s.src := rfl
@[simp] theorem softReset_srcFail (s : State) : (softReset s).srcFail = s.srcFail := rfl
@[simp] theorem softReset_snk (s : State) : (softReset s).snk = s.snk := rfl
@[simp] theorem softReset_snkLimit (s : State) : (softReset s).snkLimit = s.snkLimit := rfl
@[simp] theorem softReset_host (s : State) : (softReset s).host = s.host := rfl
@[simp] theorem softReset_seen (s : State) : (softReset s).seen = s.seen := rfl

/-! PQ_CLR (41_priority_queue.md R145). -/

@[simp] theorem pqClear_err (s : State) : (pqClear s).err = s.err := rfl
@[simp] theorem pqClear_empty (s : State) : (pqClear s).empty = false := rfl
@[simp] theorem pqClear_res (s : State) : (pqClear s).res = Config.nil := rfl
@[simp] theorem pqClear_origSize (s : State) : (pqClear s).origSize = s.origSize := rfl
@[simp] theorem pqClear_rp (s : State) : (pqClear s).rp = s.rp := rfl
@[simp] theorem pqClear_root (s : State) : (pqClear s).root = Config.nil := rfl
@[simp] theorem pqClear_heapN (s : State) : (pqClear s).heapN = 0#9 := rfl
@[simp] theorem pqClear_nodeNext (s : State) : (pqClear s).nodeNext = 256#10 := rfl
@[simp] theorem pqClear_trieN (s : State) : (pqClear s).trieN = s.trieN := rfl
@[simp] theorem pqClear_sdState (s : State) : (pqClear s).sdState = s.sdState := rfl
@[simp] theorem pqClear_sdCur (s : State) : (pqClear s).sdCur = s.sdCur := rfl
@[simp] theorem pqClear_sdCnt (s : State) : (pqClear s).sdCnt = s.sdCnt := rfl
@[simp] theorem pqClear_decOne (s : State) : (pqClear s).decOne = s.decOne := rfl
@[simp] theorem pqClear_freq (s : State) : (pqClear s).freq = s.freq := rfl
@[simp] theorem pqClear_ins (s : State) : (pqClear s).ins = [] := rfl
@[simp] theorem pqClear_node (s : State) : (pqClear s).node = s.node := rfl
@[simp] theorem pqClear_heap (s : State) : (pqClear s).heap = s.heap := rfl
@[simp] theorem pqClear_ct (s : State) : (pqClear s).ct = s.ct := rfl
@[simp] theorem pqClear_trie (s : State) : (pqClear s).trie = s.trie := rfl
@[simp] theorem pqClear_src (s : State) : (pqClear s).src = s.src := rfl
@[simp] theorem pqClear_srcFail (s : State) : (pqClear s).srcFail = s.srcFail := rfl
@[simp] theorem pqClear_snk (s : State) : (pqClear s).snk = s.snk := rfl
@[simp] theorem pqClear_snkLimit (s : State) : (pqClear s).snkLimit = s.snkLimit := rfl
@[simp] theorem pqClear_host (s : State) : (pqClear s).host = s.host := rfl
@[simp] theorem pqClear_seen (s : State) : (pqClear s).seen = s.seen := rfl

/-! One code written. -/

@[simp] theorem setCt_err (b : Nat) (code : Code) (s : State) : (setCt b code s).err = s.err := rfl
@[simp] theorem setCt_empty (b : Nat) (code : Code) (s : State) : (setCt b code s).empty = s.empty := rfl
@[simp] theorem setCt_res (b : Nat) (code : Code) (s : State) : (setCt b code s).res = s.res := rfl
@[simp] theorem setCt_origSize (b : Nat) (code : Code) (s : State) : (setCt b code s).origSize = s.origSize := rfl
@[simp] theorem setCt_rp (b : Nat) (code : Code) (s : State) : (setCt b code s).rp = s.rp := rfl
@[simp] theorem setCt_root (b : Nat) (code : Code) (s : State) : (setCt b code s).root = s.root := rfl
@[simp] theorem setCt_heapN (b : Nat) (code : Code) (s : State) : (setCt b code s).heapN = s.heapN := rfl
@[simp] theorem setCt_nodeNext (b : Nat) (code : Code) (s : State) : (setCt b code s).nodeNext = s.nodeNext := rfl
@[simp] theorem setCt_trieN (b : Nat) (code : Code) (s : State) : (setCt b code s).trieN = s.trieN := rfl
@[simp] theorem setCt_sdState (b : Nat) (code : Code) (s : State) : (setCt b code s).sdState = s.sdState := rfl
@[simp] theorem setCt_sdCur (b : Nat) (code : Code) (s : State) : (setCt b code s).sdCur = s.sdCur := rfl
@[simp] theorem setCt_sdCnt (b : Nat) (code : Code) (s : State) : (setCt b code s).sdCnt = s.sdCnt := rfl
@[simp] theorem setCt_decOne (b : Nat) (code : Code) (s : State) : (setCt b code s).decOne = s.decOne := rfl
@[simp] theorem setCt_freq (b : Nat) (code : Code) (s : State) : (setCt b code s).freq = s.freq := rfl
@[simp] theorem setCt_ins (b : Nat) (code : Code) (s : State) : (setCt b code s).ins = s.ins := rfl
@[simp] theorem setCt_node (b : Nat) (code : Code) (s : State) : (setCt b code s).node = s.node := rfl
@[simp] theorem setCt_heap (b : Nat) (code : Code) (s : State) : (setCt b code s).heap = s.heap := rfl
@[simp] theorem setCt_ct (b : Nat) (code : Code) (s : State) : (setCt b code s).ct = writeCell none s.ct b (some code) := rfl
@[simp] theorem setCt_trie (b : Nat) (code : Code) (s : State) : (setCt b code s).trie = s.trie := rfl
@[simp] theorem setCt_src (b : Nat) (code : Code) (s : State) : (setCt b code s).src = s.src := rfl
@[simp] theorem setCt_srcFail (b : Nat) (code : Code) (s : State) : (setCt b code s).srcFail = s.srcFail := rfl
@[simp] theorem setCt_snk (b : Nat) (code : Code) (s : State) : (setCt b code s).snk = s.snk := rfl
@[simp] theorem setCt_snkLimit (b : Nat) (code : Code) (s : State) : (setCt b code s).snkLimit = s.snkLimit := rfl
@[simp] theorem setCt_host (b : Nat) (code : Code) (s : State) : (setCt b code s).host = s.host := rfl
@[simp] theorem setCt_seen (b : Nat) (code : Code) (s : State) : (setCt b code s).seen = s.seen := rfl

/-! The decoder's test for DONE (47_stream_decoder.md R268). -/

@[simp] theorem checkDone_err (s : State) : (checkDone s).err = s.err := by unfold checkDone; split <;> rfl
@[simp] theorem checkDone_empty (s : State) : (checkDone s).empty = s.empty := by unfold checkDone; split <;> rfl
@[simp] theorem checkDone_res (s : State) : (checkDone s).res = s.res := by unfold checkDone; split <;> rfl
@[simp] theorem checkDone_origSize (s : State) : (checkDone s).origSize = s.origSize := by unfold checkDone; split <;> rfl
@[simp] theorem checkDone_rp (s : State) : (checkDone s).rp = s.rp := by unfold checkDone; split <;> rfl
@[simp] theorem checkDone_root (s : State) : (checkDone s).root = s.root := by unfold checkDone; split <;> rfl
@[simp] theorem checkDone_heapN (s : State) : (checkDone s).heapN = s.heapN := by unfold checkDone; split <;> rfl
@[simp] theorem checkDone_nodeNext (s : State) : (checkDone s).nodeNext = s.nodeNext := by unfold checkDone; split <;> rfl
@[simp] theorem checkDone_trieN (s : State) : (checkDone s).trieN = s.trieN := by unfold checkDone; split <;> rfl
@[simp] theorem checkDone_sdState (s : State) : (checkDone s).sdState = if s.sdCnt = s.origSize then .done else s.sdState := by unfold checkDone; split <;> rfl
@[simp] theorem checkDone_sdCur (s : State) : (checkDone s).sdCur = s.sdCur := by unfold checkDone; split <;> rfl
@[simp] theorem checkDone_sdCnt (s : State) : (checkDone s).sdCnt = s.sdCnt := by unfold checkDone; split <;> rfl
@[simp] theorem checkDone_decOne (s : State) : (checkDone s).decOne = s.decOne := by unfold checkDone; split <;> rfl
@[simp] theorem checkDone_freq (s : State) : (checkDone s).freq = s.freq := by unfold checkDone; split <;> rfl
@[simp] theorem checkDone_ins (s : State) : (checkDone s).ins = s.ins := by unfold checkDone; split <;> rfl
@[simp] theorem checkDone_node (s : State) : (checkDone s).node = s.node := by unfold checkDone; split <;> rfl
@[simp] theorem checkDone_heap (s : State) : (checkDone s).heap = s.heap := by unfold checkDone; split <;> rfl
@[simp] theorem checkDone_ct (s : State) : (checkDone s).ct = s.ct := by unfold checkDone; split <;> rfl
@[simp] theorem checkDone_trie (s : State) : (checkDone s).trie = s.trie := by unfold checkDone; split <;> rfl
@[simp] theorem checkDone_src (s : State) : (checkDone s).src = s.src := by unfold checkDone; split <;> rfl
@[simp] theorem checkDone_srcFail (s : State) : (checkDone s).srcFail = s.srcFail := by unfold checkDone; split <;> rfl
@[simp] theorem checkDone_snk (s : State) : (checkDone s).snk = s.snk := by unfold checkDone; split <;> rfl
@[simp] theorem checkDone_snkLimit (s : State) : (checkDone s).snkLimit = s.snkLimit := by unfold checkDone; split <;> rfl
@[simp] theorem checkDone_host (s : State) : (checkDone s).host = s.host := by unfold checkDone; split <;> rfl
@[simp] theorem checkDone_seen (s : State) : (checkDone s).seen = s.seen := by unfold checkDone; split <;> rfl

/-! The host's write of ORIG_SIZE (48_system.md R294). -/

@[simp] theorem writeSize_err (v : Count) (s : State) : (writeSize v s).err = s.err := by unfold writeSize; split <;> rfl
@[simp] theorem writeSize_empty (v : Count) (s : State) : (writeSize v s).empty = s.empty := by unfold writeSize; split <;> rfl
@[simp] theorem writeSize_res (v : Count) (s : State) : (writeSize v s).res = s.res := by unfold writeSize; split <;> rfl
@[simp] theorem writeSize_origSize (v : Count) (s : State) : (writeSize v s).origSize = if s.err.isSome then s.origSize else v := by unfold writeSize; split <;> rfl
@[simp] theorem writeSize_rp (v : Count) (s : State) : (writeSize v s).rp = s.rp := by unfold writeSize; split <;> rfl
@[simp] theorem writeSize_root (v : Count) (s : State) : (writeSize v s).root = s.root := by unfold writeSize; split <;> rfl
@[simp] theorem writeSize_heapN (v : Count) (s : State) : (writeSize v s).heapN = s.heapN := by unfold writeSize; split <;> rfl
@[simp] theorem writeSize_nodeNext (v : Count) (s : State) : (writeSize v s).nodeNext = s.nodeNext := by unfold writeSize; split <;> rfl
@[simp] theorem writeSize_trieN (v : Count) (s : State) : (writeSize v s).trieN = s.trieN := by unfold writeSize; split <;> rfl
@[simp] theorem writeSize_sdState (v : Count) (s : State) : (writeSize v s).sdState = s.sdState := by unfold writeSize; split <;> rfl
@[simp] theorem writeSize_sdCur (v : Count) (s : State) : (writeSize v s).sdCur = s.sdCur := by unfold writeSize; split <;> rfl
@[simp] theorem writeSize_sdCnt (v : Count) (s : State) : (writeSize v s).sdCnt = s.sdCnt := by unfold writeSize; split <;> rfl
@[simp] theorem writeSize_decOne (v : Count) (s : State) : (writeSize v s).decOne = s.decOne := by unfold writeSize; split <;> rfl
@[simp] theorem writeSize_freq (v : Count) (s : State) : (writeSize v s).freq = s.freq := by unfold writeSize; split <;> rfl
@[simp] theorem writeSize_ins (v : Count) (s : State) : (writeSize v s).ins = s.ins := by unfold writeSize; split <;> rfl
@[simp] theorem writeSize_node (v : Count) (s : State) : (writeSize v s).node = s.node := by unfold writeSize; split <;> rfl
@[simp] theorem writeSize_heap (v : Count) (s : State) : (writeSize v s).heap = s.heap := by unfold writeSize; split <;> rfl
@[simp] theorem writeSize_ct (v : Count) (s : State) : (writeSize v s).ct = s.ct := by unfold writeSize; split <;> rfl
@[simp] theorem writeSize_trie (v : Count) (s : State) : (writeSize v s).trie = s.trie := by unfold writeSize; split <;> rfl
@[simp] theorem writeSize_src (v : Count) (s : State) : (writeSize v s).src = s.src := by unfold writeSize; split <;> rfl
@[simp] theorem writeSize_srcFail (v : Count) (s : State) : (writeSize v s).srcFail = s.srcFail := by unfold writeSize; split <;> rfl
@[simp] theorem writeSize_snk (v : Count) (s : State) : (writeSize v s).snk = s.snk := by unfold writeSize; split <;> rfl
@[simp] theorem writeSize_snkLimit (v : Count) (s : State) : (writeSize v s).snkLimit = s.snkLimit := by unfold writeSize; split <;> rfl
@[simp] theorem writeSize_host (v : Count) (s : State) : (writeSize v s).host = s.host := by unfold writeSize; split <;> rfl
@[simp] theorem writeSize_seen (v : Count) (s : State) : (writeSize v s).seen = s.seen := by unfold writeSize; split <;> rfl

/-! The cells that fault entry and PQ_CLR leave alone. -/

@[simp] theorem freqOf_enterFault (k : ErrKind) (s : State) (i : Nat) : freqOf (enterFault k s) i = freqOf s i := rfl
@[simp] theorem insOf_enterFault (k : ErrKind) (s : State) (i : Nat) : insOf (enterFault k s) i = insOf s i := rfl
@[simp] theorem ctOf_enterFault (k : ErrKind) (s : State) (i : Nat) : ctOf (enterFault k s) i = ctOf s i := rfl
@[simp] theorem nodeOf_enterFault (k : ErrKind) (s : State) (i : Nat) : nodeOf (enterFault k s) i = nodeOf s i := rfl
@[simp] theorem heapOf_enterFault (k : ErrKind) (s : State) (i : Nat) : heapOf (enterFault k s) i = heapOf s i := rfl
@[simp] theorem trieOf_enterFault (k : ErrKind) (s : State) (i : Nat) : trieOf (enterFault k s) i = trieOf s i := rfl
@[simp] theorem freqOf_pqClear (s : State) (i : Nat) : freqOf (pqClear s) i = freqOf s i := rfl
@[simp] theorem ctOf_pqClear (s : State) (i : Nat) : ctOf (pqClear s) i = ctOf s i := rfl
@[simp] theorem nodeOf_pqClear (s : State) (i : Nat) : nodeOf (pqClear s) i = nodeOf s i := rfl
@[simp] theorem heapOf_pqClear (s : State) (i : Nat) : heapOf (pqClear s) i = heapOf s i := rfl
@[simp] theorem trieOf_pqClear (s : State) (i : Nat) : trieOf (pqClear s) i = trieOf s i := rfl
@[simp] theorem insOf_pqClear (s : State) (i : Nat) : insOf (pqClear s) i = false := rfl

end Sys2Proof.Machine
end

