-- ==== Sys2Proof/Laws/Cells.lean ====
section
/-! SUPPORT. The laws of the cells of an internal memory: read after write, a write leaves the other cells alone, the canonical form is kept, and equal memories are equal lists. -/

namespace Sys2Proof.Machine

variable {α : Type} {d : α} {n : Nat} {c : Cells α}

@[simp] theorem readCell_nil (d : α) (i : Nat) : readCell d [] i = d := rfl

/-- Below the first listed cell every cell reads `d`. -/
theorem readCell_of_below {i : Nat} (h : ∀ e ∈ c, i < e.1) : readCell d c i = d := by
  cases c with
  | nil => rfl
  | cons e c => obtain ⟨j, w⟩ := e; simp [readCell, h (j, w) (by simp)]

variable [DecidableEq α]

theorem cellsWf_cons {i : Nat} {v : α} :
    cellsWf d n ((i, v) :: c) = true ↔ i < n ∧ v ≠ d ∧ (∀ e ∈ c, i < e.1) ∧ cellsWf d n c = true := by
  simp [cellsWf, and_assoc]

/-- A write leaves every other cell alone. -/
theorem readCell_writeCell_other {i j : Nat} (v : α) (h : j ≠ i) (hwf : cellsWf d n c = true) :
    readCell d (writeCell d c i v) j = readCell d c j := by
  induction c with
  | nil => by_cases hv : v = d <;> simp [writeCell, readCell, hv, h]
  | cons e c ih =>
    obtain ⟨k, w⟩ := e
    obtain ⟨-, -, hlt, hwf'⟩ := cellsWf_cons.1 hwf
    simp only [writeCell]
    split
    · split
      · rfl
      · by_cases hji : j < i
        · simp [readCell, hji, show j < k by omega]
        · simp [readCell, hji, h]
    · split
      · subst_vars
        split
        · by_cases hjk : j < k
          · rw [readCell_of_below fun e he => hjk.trans (hlt e he)]; simp [readCell, hjk]
          · simp [readCell, hjk, h]
        · simp [readCell, h]
      · simp only [readCell, ih hwf']

/-- A read after a write to the same cell gives the value written. -/
theorem readCell_writeCell_same {i : Nat} (v : α) (hwf : cellsWf d n c = true) : readCell d (writeCell d c i v) i = v := by
  induction c with
  | nil => by_cases hv : v = d <;> simp [writeCell, readCell, hv]
  | cons e c ih =>
    obtain ⟨k, w⟩ := e
    obtain ⟨-, -, hlt, hwf'⟩ := cellsWf_cons.1 hwf
    simp only [writeCell]
    split
    · rename_i hik
      split
      · simp [readCell, *]
      · simp [readCell]
    · split
      · subst_vars
        split
        · rw [readCell_of_below hlt, ‹v = d›]
        · simp [readCell]
      · simp [readCell, *]

/-- Every write at once: the cell written holds the value, every other cell is as it was. -/
theorem readCell_writeCell (i j : Nat) (v : α) (hwf : cellsWf d n c = true) :
    readCell d (writeCell d c i v) j = if j = i then v else readCell d c j := by
  split
  · subst_vars; exact readCell_writeCell_same v hwf
  · exact readCell_writeCell_other v ‹_› hwf

theorem writeCell_keys {i : Nat} {v : α} {e : Nat × α} (h : e ∈ writeCell d c i v) : e.1 = i ∨ e ∈ c := by
  induction c with
  | nil => by_cases hv : v = d <;> simp_all [writeCell]
  | cons f c ih =>
    obtain ⟨k, w⟩ := f
    simp only [writeCell] at h
    split at h
    · split at h
      · exact .inr h
      · rcases List.mem_cons.1 h with rfl | h
        · exact .inl rfl
        · exact .inr h
    · split at h
      · split at h
        · exact .inr (List.mem_cons_of_mem _ h)
        · rcases List.mem_cons.1 h with rfl | h
          · exact .inl rfl
          · exact .inr (List.mem_cons_of_mem _ h)
      · rcases List.mem_cons.1 h with rfl | h
        · exact .inr (List.mem_cons_self ..)
        · exact (ih h).imp_right (List.mem_cons_of_mem _)

/-- A write keeps the canonical form. -/
theorem cellsWf_writeCell {i : Nat} (v : α) (hi : i < n) (hwf : cellsWf d n c = true) :
    cellsWf d n (writeCell d c i v) = true := by
  induction c with
  | nil => by_cases hv : v = d <;> simp [writeCell, cellsWf, hv, hi]
  | cons e c ih =>
    obtain ⟨k, w⟩ := e
    have hwf₀ := hwf
    obtain ⟨hk, hw, hlt, hwf'⟩ := cellsWf_cons.1 hwf
    simp only [writeCell]
    split
    · rename_i hik
      split
      · exact hwf₀
      · refine cellsWf_cons.2 ⟨hi, ‹_›, fun e he => ?_, hwf₀⟩
        rcases List.mem_cons.1 he with rfl | he
        · exact hik
        · exact hik.trans (hlt e he)
    · split
      · subst_vars
        split
        · exact hwf'
        · exact cellsWf_cons.2 ⟨hi, ‹_›, hlt, hwf'⟩
      · refine cellsWf_cons.2 ⟨hk, hw, fun e he => ?_, ih hwf'⟩
        rcases writeCell_keys he with h | h
        · omega
        · exact hlt e h

/-- Outside its `n` cells a memory in canonical form reads `d`. -/
theorem readCell_of_le {i : Nat} (hwf : cellsWf d n c = true) (hi : n ≤ i) : readCell d c i = d := by
  induction c with
  | nil => rfl
  | cons e c ih =>
    obtain ⟨k, w⟩ := e
    obtain ⟨hk, -, -, hwf'⟩ := cellsWf_cons.1 hwf
    rw [readCell, if_neg (by omega), if_neg (by omega), ih hwf']

/-- Equal memories are equal lists: in canonical form the cells alone fix the list. -/
theorem cells_ext {c' : Cells α} (hwf : cellsWf d n c = true) (hwf' : cellsWf d n c' = true)
    (h : ∀ i, readCell d c i = readCell d c' i) : c = c' := by
  induction c generalizing c' with
  | nil =>
    cases c' with
    | nil => rfl
    | cons e c' =>
      obtain ⟨k, w⟩ := e
      have := h k
      simp [readCell, (cellsWf_cons.1 hwf').2.1.symm] at this
  | cons e c ih =>
    obtain ⟨i, v⟩ := e
    obtain ⟨-, hv, hlt, hwf₁⟩ := cellsWf_cons.1 hwf
    cases c' with
    | nil => have := h i; simp [readCell, hv] at this
    | cons e' c' =>
      obtain ⟨j, w⟩ := e'
      obtain ⟨-, hw, hlt', hwf₁'⟩ := cellsWf_cons.1 hwf'
      have hij : i = j := by
        rcases Nat.lt_trichotomy i j with hl | he | hl
        · have := h i; simp [readCell, hl, hv] at this
        · exact he
        · have := h j; simp [readCell, hl, hw.symm] at this
      subst hij
      have hvw : v = w := by simpa [readCell] using h i
      subst hvw
      rw [ih hwf₁ hwf₁' fun k => ?_]
      rcases Nat.lt_trichotomy k i with hk | rfl | hk
      · rw [readCell_of_below fun e he => hk.trans (hlt e he), readCell_of_below fun e he => hk.trans (hlt' e he)]
      · rw [readCell_of_below hlt, readCell_of_below hlt']
      · simpa [readCell, show ¬ k < i by omega, show k ≠ i by omega] using h k

end Sys2Proof.Machine
end

