-- ==== Sys2Proof/Laws/Run.lean ====
section
/-! SUPPORT. How parts of a command are put together: what `andThen` and `finish` can end in, and two ways to say what a part leads to. -/

namespace Sys2Proof.Machine

variable {α β : Type}

@[simp] theorem Run.andThen_ok (a : α) (s : State) (f : α → State → Run β) : (Run.ok a s).andThen f = f a s := rfl
@[simp] theorem Run.andThen_raise (k : ErrKind) (s : State) (f : α → State → Run β) :
    (Run.raise k s : Run α).andThen f = .raise k s := rfl
@[simp] theorem Run.andThen_stop (e : Fault) (f : α → State → Run β) : (Run.stop e : Run α).andThen f = .stop e := rfl

/-- A sequence ends normally exactly when both parts do. -/
theorem Run.andThen_eq_ok {r : Run α} {f : α → State → Run β} {b : β} {t : State} :
    r.andThen f = .ok b t ↔ ∃ a s, r = .ok a s ∧ f a s = .ok b t := by
  cases r <;> simp

/-- A sequence raises exactly when its first part does, or its second part does after a normal first. -/
theorem Run.andThen_eq_raise {r : Run α} {f : α → State → Run β} {k : ErrKind} {t : State} :
    r.andThen f = .raise k t ↔ r = .raise k t ∨ ∃ a s, r = .ok a s ∧ f a s = .raise k t := by
  cases r <;> simp

theorem Run.andThen_assoc {γ : Type} (r : Run α) (f : α → State → Run β) (g : β → State → Run γ) :
    (r.andThen f).andThen g = r.andThen fun a s => (f a s).andThen g := by
  cases r <;> rfl

@[simp] theorem finish_ok (u : Unit) (s : State) : finish (.ok u s) = .next s := rfl
@[simp] theorem finish_raise (k : ErrKind) (s : State) : finish (.raise k s) = .next (enterFault k s) := rfl
@[simp] theorem finish_stop (e : Fault) : finish (.stop e) = .fault e := rfl

/-- A command gives a next state exactly when it ends normally or at a `raise` (R318). -/
theorem finish_eq_next {r : Run Unit} {t : State} :
    finish r = .next t ↔ r = .ok () t ∨ ∃ k s, r = .raise k s ∧ t = enterFault k s := by
  cases r with
  | ok a s => simp [finish]
  | raise k s => simp [finish, eq_comm]
  | stop e => simp [finish]

/-- Wherever a part ends, normally or at a `raise`, the state meets `P`. Says nothing of a stop. -/
def Run.Leaves (r : Run α) (P : State → Prop) : Prop :=
  match r with
  | .ok _ t => P t
  | .raise _ t => P t
  | .stop _ => True

@[simp] theorem Run.leaves_ok (a : α) (s : State) (P : State → Prop) : (Run.ok a s).Leaves P ↔ P s := Iff.rfl
@[simp] theorem Run.leaves_raise (k : ErrKind) (s : State) (P : State → Prop) : (Run.raise k s : Run α).Leaves P ↔ P s := Iff.rfl
@[simp] theorem Run.leaves_stop (e : Fault) (P : State → Prop) : (Run.stop e : Run α).Leaves P ↔ True := Iff.rfl

theorem Run.Leaves.mono {r : Run α} {P Q : State → Prop} (h : r.Leaves P) (hPQ : ∀ t, P t → Q t) : r.Leaves Q := by
  cases r <;> first | exact hPQ _ h | trivial

/-- A sequence leaves `P` if its first part does and its second keeps it. -/
theorem Run.Leaves.andThen {r : Run α} {f : α → State → Run β} {P : State → Prop}
    (h : r.Leaves P) (hf : ∀ a t, P t → (f a t).Leaves P) : (r.andThen f).Leaves P := by
  cases r <;> first | exact hf _ _ h | exact h

/-- What a command leaves, apart from ERR, its parts leave. -/
theorem finish_leaves {r : Run Unit} {P : State → Prop} {t : State} (h : r.Leaves P)
    (hP : ∀ k u, P u → P (enterFault k u)) (ht : finish r = .next t) : P t := by
  rcases finish_eq_next.1 ht with rfl | ⟨k, u, rfl, rfl⟩
  · exact h
  · exact hP k u h

/-- A part ends normally in `P` or raises in `Q`. It stops nowhere but at a sink of LEN_MAX bytes (log 9), and there only if `S`. -/
def Run.Ends (r : Run α) (P : α → State → Prop) (Q : ErrKind → State → Prop) (S : Prop := False) : Prop :=
  match r with
  | .ok a t => P a t
  | .raise k t => Q k t
  | .stop e => S ∧ e = .sinkTooLong

@[simp] theorem Run.ends_ok (a : α) (s : State) (P : α → State → Prop) (Q : ErrKind → State → Prop) (S : Prop) :
    (Run.ok a s).Ends P Q S ↔ P a s := Iff.rfl
@[simp] theorem Run.ends_raise (k : ErrKind) (s : State) (P : α → State → Prop) (Q : ErrKind → State → Prop) (S : Prop) :
    (Run.raise k s : Run α).Ends P Q S ↔ Q k s := Iff.rfl
@[simp] theorem Run.ends_stop (e : Fault) (P : α → State → Prop) (Q : ErrKind → State → Prop) (S : Prop) :
    (Run.stop e : Run α).Ends P Q S ↔ S ∧ e = .sinkTooLong := Iff.rfl

theorem Run.Ends.mono {r : Run α} {P P' : α → State → Prop} {Q Q' : ErrKind → State → Prop} {S : Prop} (h : r.Ends P Q S)
    (hP : ∀ a t, P a t → P' a t) (hQ : ∀ k t, Q k t → Q' k t) : r.Ends P' Q' S := by
  cases r <;> first | exact hP _ _ h | exact hQ _ _ h | exact h

/-- A part that stops only if `S` stops only if what `S` gives. -/
theorem Run.Ends.stops {r : Run α} {P : α → State → Prop} {Q : ErrKind → State → Prop} {S S' : Prop} (h : r.Ends P Q S)
    (hS : S → S') : r.Ends P Q S' := by
  cases r <;> first | exact ⟨hS h.1, h.2⟩ | exact h

/-- A sequence stops only where its first part does, or its second where the first ends. -/
theorem Run.Ends.andThen {r : Run α} {f : α → State → Run β} {P : α → State → Prop} {P' : β → State → Prop}
    {Q : ErrKind → State → Prop} {S : Prop} (h : r.Ends P Q S) (hf : ∀ a t, P a t → (f a t).Ends P' Q S) :
    (r.andThen f).Ends P' Q S := by
  cases r <;> first | exact hf _ _ h | exact h

/-- A part that neither raises nor stops ends normally. -/
theorem Run.Ends.ok_of_no_raise {r : Run α} {P : α → State → Prop} (h : r.Ends P fun _ _ => False) :
    ∃ a t, r = .ok a t ∧ P a t := by
  cases r with
  | ok a t => exact ⟨a, t, rfl, h⟩
  | raise k t => exact h.elim
  | stop e => exact h.1.elim

/-- A command gives a next state, or stops where its parts do. -/
theorem finish_of_ends {r : Run Unit} {P : Unit → State → Prop} {Q : ErrKind → State → Prop} {S : Prop} (h : r.Ends P Q S) :
    (∃ t, finish r = .next t ∧ (P () t ∨ ∃ k u, Q k u ∧ t = enterFault k u)) ∨ S ∧ finish r = .fault .sinkTooLong := by
  cases r with
  | ok a t => exact .inl ⟨t, rfl, .inl h⟩
  | raise k u => exact .inl ⟨enterFault k u, rfl, .inr ⟨k, u, h, rfl⟩⟩
  | stop e => exact .inr ⟨h.1, by rw [h.2]; rfl⟩

/-- A command whose parts never stop gives a next state. -/
theorem finish_next_of_ends {r : Run Unit} {P : Unit → State → Prop} {Q : ErrKind → State → Prop} (h : r.Ends P Q) :
    ∃ t, finish r = .next t ∧ (P () t ∨ ∃ k u, Q k u ∧ t = enterFault k u) :=
  (finish_of_ends h).resolve_right fun h => h.1

end Sys2Proof.Machine
end

