-- ==== Sys2Proof/Laws/Heap.lean ====
section
/-! SUPPORT. What the heap's procedures do (41_priority_queue.md R142 to R144): they permute the live cells, keep the heap property, and the extraction returns a minimum. -/

namespace Sys2Proof.Machine

/-! The order as an order on numbers (R142). -/

/-- The key (freq, tb) as one number. -/
def keyRank (x : TreeNode) : Nat := x.freq.toNat * 256 + x.tb.toNat

theorem keyLess_iff (x y : TreeNode) : keyLess x y = true ↔ keyRank x < keyRank y := by
  have hx := x.tb.isLt
  have hy := y.tb.isLt
  have he : x.freq = y.freq ↔ x.freq.toNat = y.freq.toNat := ⟨fun h => by rw [h], BitVec.eq_of_toNat_eq⟩
  simp only [keyLess, keyRank, Bool.or_eq_true, Bool.and_eq_true, decide_eq_true_eq, BitVec.lt_def, he]
  omega

/-- The key at a heap position (0 where there is none). -/
def rankAt (s : State) (k : Nat) : Nat := ((liveAt s k).map keyRank).getD 0

theorem notLess_iff {s : State} {k j : Nat} (hk : (liveAt s k).isSome = true) (hj : (liveAt s j).isSome = true) :
    notLess (liveAt s k) (liveAt s j) = true ↔ rankAt s j ≤ rankAt s k := by
  obtain ⟨x, hx⟩ := Option.isSome_iff_exists.1 hk
  obtain ⟨y, hy⟩ := Option.isSome_iff_exists.1 hj
  have h := keyLess_iff x y
  simp only [rankAt, hx, hy, notLess, Option.map_some, Option.getD_some, Bool.not_eq_true']
  cases hl : keyLess x y <;> simp_all

/-! One cell at a time. -/

/-- What the heap's procedures need: a heap in canonical form whose live cells and their nodes hold values. -/
structure HeapReady (s : State) : Prop where
  wf : cellsWf none Config.heapCap s.heap = true
  cap : s.heapN.toNat ≤ Config.heapCap
  live : ∀ k < s.heapN.toNat, (liveAt s k).isSome = true

theorem heapOf_of_live {s : State} {k : Nat} (h : (liveAt s k).isSome = true) : heapOf s k = some (heapIx s k) := by
  unfold liveAt at h; unfold heapIx
  cases hh : heapOf s k <;> simp_all

theorem nodeOf_of_live {s : State} {k : Nat} (h : (liveAt s k).isSome = true) : nodeOf s (heapIx s k).toNat = liveAt s k := by
  simp [liveAt, heapOf_of_live h]

theorem heapAt_live {s : State} {k : Nat} (h : (liveAt s k).isSome = true) : heapAt k s = .ok (heapIx s k) s := by
  simp [heapAt, cellValue, heapOf_of_live h]

/-- The compare of two live positions. -/
theorem lessAt_live {s : State} {p q : Nat} (hp : (liveAt s p).isSome = true) (hq : (liveAt s q).isSome = true) :
    lessAt p q s = .ok (decide (rankAt s p < rankAt s q)) s := by
  have hp' := nodeOf_of_live hp
  have hq' := nodeOf_of_live hq
  obtain ⟨x, hx⟩ := Option.isSome_iff_exists.1 hp
  obtain ⟨y, hy⟩ := Option.isSome_iff_exists.1 hq
  have h : keyLess x y = decide (keyRank x < keyRank y) := by
    rcases hb : keyLess x y with _ | _
    · have := mt (keyLess_iff x y).2 (by simp [hb]); simp [this]
    · simp [(keyLess_iff x y).1 hb]
  simp [lessAt, less, heapAt_live hp, heapAt_live hq, nodeAt, cellValue, hp', hq', hx, hy, h, rankAt]

theorem setHeap_ok {s : State} {k : Nat} (v : NodeIx) (h : k < Config.heapCap) :
    setHeap k v s = .ok () { s with heap := writeCell none s.heap k (some v) } := by simp [setHeap, h]

/-- The heap of `t` is the heap of `s` with its first `n` cells permuted; nothing else differs. -/
def Rearranged (n : Nat) (s t : State) : Prop :=
  t = { s with heap := t.heap } ∧ cellsWf none Config.heapCap t.heap = true ∧
    ∃ p : Equiv.Perm Nat, (∀ k, n ≤ k → p k = k) ∧ ∀ k, heapOf t k = heapOf s (p k)

theorem Rearranged.refl {n : Nat} {s : State} (h : cellsWf none Config.heapCap s.heap = true) : Rearranged n s s :=
  ⟨rfl, h, 1, fun _ _ => rfl, fun _ => rfl⟩

theorem Rearranged.trans {n : Nat} {s t u : State} (h : Rearranged n s t) (h' : Rearranged n t u) : Rearranged n s u := by
  obtain ⟨h1, -, p, hp, hp'⟩ := h
  obtain ⟨g1, g2, q, hq, hq'⟩ := h'
  refine ⟨by rw [g1, h1], g2, q.trans p, fun k hk => ?_, fun k => ?_⟩
  · simp [hq k hk, hp k hk]
  · simp [hq' k, hp']

theorem liveAt_of_nodes {s t : State} (hn : t.node = s.node) {j k : Nat} (h : heapOf t k = heapOf s j) : liveAt t k = liveAt s j := by
  simp [liveAt, nodeOf, h, hn]

theorem rankAt_of_live {s t : State} {j k : Nat} (h : liveAt t k = liveAt s j) : rankAt t k = rankAt s j := by simp [rankAt, h]

theorem heapIx_of_cell {s t : State} {j k : Nat} (h : heapOf t k = heapOf s j) : heapIx t k = heapIx s j := by simp [heapIx, h]

/-- Swapping two live cells swaps what is read there. -/
theorem swapHeap_ok {s : State} (h : HeapReady s) {p q : Nat} (hp : p < s.heapN.toNat) (hq : q < s.heapN.toNat) :
    ∃ t, swapHeap p q s = .ok () t ∧ t = { s with heap := t.heap } ∧ cellsWf none Config.heapCap t.heap = true ∧
      ∀ k, heapOf t k = heapOf s (Equiv.swap p q k) := by
  have hc := h.cap
  have w1 := cellsWf_writeCell (some (heapIx s q)) (show p < Config.heapCap by omega) h.wf
  have w2 := cellsWf_writeCell (some (heapIx s p)) (show q < Config.heapCap by omega) w1
  refine ⟨{ s with heap := writeCell none (writeCell none s.heap p (some (heapIx s q))) q (some (heapIx s p)) }, ?_, rfl, w2, ?_⟩
  · simp [swapHeap, heapAt_live (h.live p hp), heapAt_live (h.live q hq), setHeap_ok _ (show p < Config.heapCap by omega),
      setHeap_ok _ (show q < Config.heapCap by omega)]
  · intro k
    simp only [heapOf, readCell_writeCell _ _ _ w1, readCell_writeCell _ _ _ h.wf]
    rw [Equiv.swap_apply_def]
    by_cases hkq : k = q
    · subst hkq
      by_cases hkp : k = p
      · subst hkp; simpa [heapOf] using (heapOf_of_live (h.live k hp)).symm
      · simpa [hkp, heapOf] using (heapOf_of_live (h.live p hp)).symm
    · by_cases hkp : k = p
      · subst hkp; simpa [hkq, heapOf] using (heapOf_of_live (h.live q hq)).symm
      · simp [hkp, hkq]

theorem Rearranged.of_swap {s t : State} {n p q : Nat} (hp : p < n) (hq : q < n) (h1 : t = { s with heap := t.heap })
    (h2 : cellsWf none Config.heapCap t.heap = true) (h3 : ∀ k, heapOf t k = heapOf s (Equiv.swap p q k)) : Rearranged n s t :=
  ⟨h1, h2, Equiv.swap p q, fun k hk => Equiv.swap_apply_of_ne_of_ne (by omega) (by omega), h3⟩

theorem Rearranged.heapN {n : Nat} {s t : State} (h : Rearranged n s t) : t.heapN = s.heapN := by rw [h.1]
theorem Rearranged.node {n : Nat} {s t : State} (h : Rearranged n s t) : t.node = s.node := by rw [h.1]

theorem perm_lt {n : Nat} {p : Equiv.Perm Nat} (hp : ∀ k, n ≤ k → p k = k) {k : Nat} (hk : k < n) : p k < n := by
  by_contra hge
  have := p.injective (hp (p k) (by omega)); omega

theorem Rearranged.ready {s t : State} (h : Rearranged s.heapN.toNat s t) (hs : HeapReady s) : HeapReady t := by
  obtain ⟨h1, h2, p, hp, hp'⟩ := h
  refine ⟨h2, by rw [h1]; exact hs.cap, fun k hk => ?_⟩
  rw [liveAt_of_nodes (by rw [h1]) (hp' k)]
  exact hs.live _ (perm_lt hp (by rw [h1] at hk; exact hk))

theorem map_perm_range {n : Nat} {p : Equiv.Perm Nat} (hp : ∀ k, n ≤ k → p k = k) : ((List.range n).map p).Perm (List.range n) := by
  rw [List.perm_ext_iff_of_nodup (List.nodup_range.map p.injective) List.nodup_range]
  intro a
  simp only [List.mem_map, List.mem_range]
  constructor
  · rintro ⟨k, hk, rfl⟩; exact perm_lt hp hk
  · intro ha
    refine ⟨p.symm a, ?_, by simp⟩
    by_contra hge
    have := hp (p.symm a) (by omega)
    simp at this; omega

/-- Permuting the live cells permutes the live nodes. -/
theorem Rearranged.live_perm {s t : State} (h : Rearranged s.heapN.toNat s t) : (liveNodes t).Perm (liveNodes s) := by
  have hN := h.heapN
  obtain ⟨-, -, p, hp, hp'⟩ := h
  have : (List.range s.heapN.toNat).map (heapIx t) = ((List.range s.heapN.toNat).map p).map (heapIx s) := by
    rw [List.map_map]; exact List.map_congr_left fun k _ => heapIx_of_cell (hp' k)
  rw [liveNodes, liveNodes, hN, this]
  exact (map_perm_range hp).map _

/-! The sifts. -/

/-- The heap property (R38). -/
def HeapOrdered (s : State) : Prop := ∀ k < s.heapN.toNat, 0 < k → rankAt s ((k - 1) / 2) ≤ rankAt s k

/-- The sift-up restores the heap property when only its starting position breaks it (R143). -/
theorem siftUp_ok (n k : Nat) {s : State} (hs : HeapReady s) (hk : k < s.heapN.toNat) (hn : k ≤ n)
    (hord : ∀ j < s.heapN.toNat, 0 < j → j ≠ k → rankAt s ((j - 1) / 2) ≤ rankAt s j)
    (hkid : ∀ j < s.heapN.toNat, 0 < j → (j - 1) / 2 = k → 0 < k → rankAt s ((k - 1) / 2) ≤ rankAt s j) :
    ∃ t, siftUp n k s = .ok () t ∧ Rearranged s.heapN.toNat s t ∧ HeapOrdered t := by
  induction n generalizing k s with
  | zero =>
    obtain rfl : k = 0 := by omega
    exact ⟨s, rfl, .refl hs.wf, fun j hj h0 => hord j hj h0 (by omega)⟩
  | succ n ih =>
    rw [siftUp]
    split
    · subst_vars
      exact ⟨s, rfl, .refl hs.wf, fun j hj h0 => hord j hj h0 (by omega)⟩
    · rename_i hk0
      have hp : (k - 1) / 2 < s.heapN.toNat := by omega
      rw [lessAt_live (hs.live k hk) (hs.live _ hp), Run.andThen_ok]
      by_cases hl : rankAt s k < rankAt s ((k - 1) / 2)
      · obtain ⟨t, ht, h1, h2, h3⟩ := swapHeap_ok hs hk hp
        have hR : Rearranged s.heapN.toNat s t := .of_swap hk hp h1 h2 h3
        have hN : t.heapN = s.heapN := hR.heapN
        have hrk : ∀ j, rankAt t j = rankAt s (Equiv.swap k ((k - 1) / 2) j) := fun j =>
          rankAt_of_live (liveAt_of_nodes hR.node (h3 j))
        have hrk1 : rankAt t k = rankAt s ((k - 1) / 2) := by rw [hrk, Equiv.swap_apply_left]
        have hrk2 : rankAt t ((k - 1) / 2) = rankAt s k := by rw [hrk, Equiv.swap_apply_right]
        have hrk3 : ∀ j, j ≠ k → j ≠ (k - 1) / 2 → rankAt t j = rankAt s j := fun j h h' => by
          rw [hrk, Equiv.swap_apply_of_ne_of_ne h h']
        obtain ⟨u, hu, hRu, hord'⟩ := ih ((k - 1) / 2) (hR.ready hs) (by rw [hN]; exact hp) (by omega)
          (by
            intro j hj h0 hjp
            rw [hN] at hj
            by_cases hjk : j = k
            · subst hjk; rw [hrk1, hrk2]; omega
            · rw [hrk3 j hjk hjp]
              by_cases hpk : (j - 1) / 2 = k
              · rw [hpk, hrk1]; exact hkid j hj h0 hpk (by omega)
              · by_cases hpp : (j - 1) / 2 = (k - 1) / 2
                · rw [hpp, hrk2]
                  have := hord j hj h0 hjk; rw [hpp] at this; omega
                · rw [hrk3 _ hpk hpp]; exact hord j hj h0 hjk)
          (by
            intro j hj h0 hjp h0p
            rw [hN] at hj
            have hgp : rankAt t (((k - 1) / 2 - 1) / 2) = rankAt s (((k - 1) / 2 - 1) / 2) := hrk3 _ (by omega) (by omega)
            have hpo := hord ((k - 1) / 2) hp h0p (by omega)
            rw [hgp]
            by_cases hjk : j = k
            · subst hjk; rw [hrk1]; exact hpo
            · rw [hrk3 j hjk (by omega)]
              have := hord j hj h0 hjk
              rw [hjp] at this; omega)
        refine ⟨u, ?_, hR.trans (hN ▸ hRu), hord'⟩
        simp [hl, ht, hu]
      · refine ⟨s, by simp [hl], .refl hs.wf, fun j hj h0 => ?_⟩
        by_cases hjk : j = k
        · subst hjk; omega
        · exact hord j hj h0 hjk

/-- One compare of the sift-down gives the position of the smaller key, the first where neither is smaller (R144). -/
theorem smallerOf_ok {s : State} (hs : HeapReady s) {c m : Nat} (hm : m < s.heapN.toNat) :
    smallerOf c m s = .ok (if c < s.heapN.toNat ∧ rankAt s c < rankAt s m then c else m) s := by
  unfold smallerOf
  split
  · rename_i hc
    rw [lessAt_live (hs.live c hc) (hs.live m hm), Run.andThen_ok]
    simp [hc]
  · simp [*]

/-- The sift-down restores the heap property when only the children of its starting position break it (R144). -/
theorem siftDown_ok (n k : Nat) {s : State} (hs : HeapReady s) (hk : k < s.heapN.toNat) (hn : s.heapN.toNat ≤ k + n)
    (hord : ∀ j < s.heapN.toNat, 0 < j → (j - 1) / 2 ≠ k → rankAt s ((j - 1) / 2) ≤ rankAt s j)
    (hkid : ∀ j < s.heapN.toNat, 0 < j → (j - 1) / 2 = k → 0 < k → rankAt s ((k - 1) / 2) ≤ rankAt s j) :
    ∃ t, siftDown n k s = .ok () t ∧ Rearranged s.heapN.toNat s t ∧ HeapOrdered t := by
  induction n generalizing k s with
  | zero => omega
  | succ n ih =>
    obtain ⟨m₁, hm₁, hm₁N, hm₁c⟩ : ∃ m, smallerOf (2 * k + 1) k s = .ok m s ∧ m < s.heapN.toNat ∧
        (m = k ∨ m = 2 * k + 1) ∧ rankAt s m ≤ rankAt s k ∧ (2 * k + 1 < s.heapN.toNat → rankAt s m ≤ rankAt s (2 * k + 1)) ∧
        (m ≠ k → rankAt s m < rankAt s k) := by
      refine ⟨_, smallerOf_ok hs hk, ?_⟩
      split <;> refine ⟨by omega, by omega, by omega, by omega, by omega⟩
    obtain ⟨m₂, hm₂, hm₂N, hm₂c⟩ : ∃ m, smallerOf (2 * k + 2) m₁ s = .ok m s ∧ m < s.heapN.toNat ∧
        (m = m₁ ∨ m = 2 * k + 2) ∧ rankAt s m ≤ rankAt s m₁ ∧ (2 * k + 2 < s.heapN.toNat → rankAt s m ≤ rankAt s (2 * k + 2)) ∧
        (m ≠ m₁ → rankAt s m < rankAt s m₁) := by
      refine ⟨_, smallerOf_ok hs hm₁N, ?_⟩
      split <;> refine ⟨by omega, by omega, by omega, by omega, by omega⟩
    have hmin : ∀ j < s.heapN.toNat, 0 < j → (j - 1) / 2 = k → rankAt s m₂ ≤ rankAt s j := by
      intro j hj h0 hjk
      obtain rfl | rfl : j = 2 * k + 1 ∨ j = 2 * k + 2 := by omega
      · have := hm₁c.2.2.1 hj; omega
      · exact hm₂c.2.2.1 hj
    rw [siftDown, hm₁, Run.andThen_ok, hm₂, Run.andThen_ok]
    by_cases hmk : m₂ = k
    · refine ⟨s, by simp [hmk], .refl hs.wf, fun j hj h0 => ?_⟩
      by_cases hjk : (j - 1) / 2 = k
      · rw [hjk]; have := hmin j hj h0 hjk; rw [hmk] at this; exact this
      · exact hord j hj h0 hjk
    · have hmc : m₂ = 2 * k + 1 ∨ m₂ = 2 * k + 2 := by omega
      have hlt : rankAt s m₂ < rankAt s k := by
        rcases eq_or_ne m₂ m₁ with h | h
        · rw [h] at hmk ⊢; exact hm₁c.2.2.2 hmk
        · have := hm₂c.2.2.2 h; omega
      obtain ⟨t, ht, h1, h2, h3⟩ := swapHeap_ok hs hk hm₂N
      have hR : Rearranged s.heapN.toNat s t := .of_swap hk hm₂N h1 h2 h3
      have hN : t.heapN = s.heapN := hR.heapN
      have hrk : ∀ j, rankAt t j = rankAt s (Equiv.swap k m₂ j) := fun j => rankAt_of_live (liveAt_of_nodes hR.node (h3 j))
      have hrk1 : rankAt t k = rankAt s m₂ := by rw [hrk, Equiv.swap_apply_left]
      have hrk2 : rankAt t m₂ = rankAt s k := by rw [hrk, Equiv.swap_apply_right]
      have hrk3 : ∀ j, j ≠ k → j ≠ m₂ → rankAt t j = rankAt s j := fun j h h' => by
        rw [hrk, Equiv.swap_apply_of_ne_of_ne h h']
      obtain ⟨u, hu, hRu, hord'⟩ := ih m₂ (hR.ready hs) (by rw [hN]; exact hm₂N) (by rw [hN]; omega)
        (by
          intro j hj h0 hjp
          rw [hN] at hj
          by_cases hjm : j = m₂
          · subst hjm
            rw [show (j - 1) / 2 = k by omega, hrk1, hrk2]; omega
          · by_cases hjk : j = k
            · subst hjk
              rw [hrk1, hrk3 _ (by omega) (by omega)]
              exact hkid m₂ hm₂N (by omega) (by omega) h0
            · rw [hrk3 j hjk hjm]
              by_cases hpk : (j - 1) / 2 = k
              · rw [hpk, hrk1]; exact hmin j hj h0 hpk
              · rw [hrk3 _ hpk hjp]; exact hord j hj h0 hpk)
        (by
          intro j hj h0 hjp _
          rw [hN] at hj
          rw [show (m₂ - 1) / 2 = k by omega, hrk1, hrk3 j (by omega) (by omega)]
          have := hord j hj h0 (by omega)
          rw [hjp] at this; exact this)
      refine ⟨u, ?_, hR.trans (hN ▸ hRu), hord'⟩
      simp [hmk, ht, hu]

/-- In a heap the root's key is the least (R148). -/
theorem rankAt_root_le {s : State} (h : HeapOrdered s) (k : Nat) (hk : k < s.heapN.toNat) : rankAt s 0 ≤ rankAt s k := by
  induction k using Nat.strongRecOn with
  | ind k ih =>
    rcases Nat.eq_zero_or_pos k with rfl | h0
    · exact Nat.le_refl _
    · exact (ih ((k - 1) / 2) (by omega) (by omega)).trans (h k hk h0)

/-! HeapInsert and HeapExtract. -/

/-- HeapInsert (R143) on a heap with room, of a node that holds a value: it becomes live beside the others, and the heap property is kept. -/
theorem heapInsert_ok {s : State} (hs : HeapReady s) (ho : HeapOrdered s) (hroom : s.heapN.toNat < Config.heapCap) {i : NodeIx}
    (hi : (nodeOf s i.toNat).isSome = true) :
    ∃ t, heapInsert i s = .ok () t ∧ t = { s with heap := t.heap, heapN := s.heapN + 1#9 } ∧ HeapReady t ∧ HeapOrdered t ∧
      (liveNodes t).Perm (i :: liveNodes s) := by
  have hroom' : s.heapN.toNat < 256 := hroom
  have hN : (s.heapN + 1#9).toNat = s.heapN.toNat + 1 := by rw [BitVec.toNat_add]; simp; omega
  have w := cellsWf_writeCell (some i) hroom hs.wf
  let u : State := { s with heap := writeCell none s.heap s.heapN.toNat (some i), heapN := s.heapN + 1#9 }
  have hu : ∀ k, heapOf u k = if k = s.heapN.toNat then some i else heapOf s k := fun k => by
    simp only [u, heapOf, readCell_writeCell _ _ _ hs.wf]
  have hlive : ∀ k, k ≠ s.heapN.toNat → liveAt u k = liveAt s k := fun k hk =>
    liveAt_of_nodes (s := s) (t := u) rfl (by rw [hu, if_neg hk])
  have huN : u.heapN.toNat = s.heapN.toNat + 1 := hN
  have hready : HeapReady u := by
    refine ⟨w, by rw [huN]; exact hroom, fun k hk => ?_⟩
    by_cases hkN : k = s.heapN.toNat
    · subst hkN; simpa [liveAt, hu, nodeOf, u] using hi
    · rw [hlive k hkN]; exact hs.live k (by omega)
  obtain ⟨t, ht, hR, hord⟩ := siftUp_ok s.heapN.toNat s.heapN.toNat hready (by omega) (Nat.le_refl _)
    (fun j hj h0 hjk => by
      rw [rankAt_of_live (hlive j hjk), rankAt_of_live (hlive _ (by omega))]
      exact ho j (by omega) h0)
    (fun j hj h0 hjp h0' => by omega)
  refine ⟨t, ?_, ?_, hR.ready hready, hord, hR.live_perm.trans ?_⟩
  · simp only [heapInsert, setHeap_ok i hroom, Run.andThen_ok]; exact ht
  · rw [hR.1]
  · have : liveNodes u = liveNodes s ++ [i] := by
      rw [liveNodes, huN, List.range_succ, List.map_append]
      congr 1
      · refine List.map_congr_left fun k hk => heapIx_of_cell ?_
        rw [hu, if_neg (by have := List.mem_range.1 hk; omega)]
      · simp [heapIx, hu]
    rw [this]; exact List.perm_append_comm

/-- HeapExtract (R144) on an empty heap. -/
theorem heapExtract_empty {s : State} (h : s.heapN = 0#9) : heapExtract s = .ok Config.nil s := by simp [heapExtract, h]

/-- HeapExtract (R144) on a live heap: it returns the root, a node of least key, and takes it from the live nodes; the heap property is kept. -/
theorem heapExtract_ok {s : State} (hs : HeapReady s) (ho : HeapOrdered s) (hN : 0 < s.heapN.toNat) :
    ∃ t, heapExtract s = .ok (heapIx s 0) t ∧ t = { s with heap := t.heap, heapN := s.heapN - 1#9 } ∧ HeapReady t ∧ HeapOrdered t ∧
      (liveNodes s).Perm (heapIx s 0 :: liveNodes t) := by
  have hne : s.heapN ≠ 0#9 := fun h => by rw [h] at hN; exact absurd hN (by decide)
  have hN1 : (s.heapN - 1#9).toNat = s.heapN.toNat - 1 := by
    have := s.heapN.isLt
    rw [BitVec.toNat_sub]; simp; omega
  obtain ⟨u, hu, h1, h2, h3⟩ := swapHeap_ok hs hN (show s.heapN.toNat - 1 < s.heapN.toNat by omega)
  have hR : Rearranged s.heapN.toNat s u := .of_swap hN (by omega) h1 h2 h3
  have hru := hR.ready hs
  let v : State := { u with heapN := u.heapN - 1#9 }
  have hvN : v.heapN.toNat = s.heapN.toNat - 1 := by
    show (u.heapN - 1#9).toNat = _
    rw [hR.heapN, hN1]
  have hlive : ∀ k, liveAt v k = liveAt u k := fun k => rfl
  have hvready : HeapReady v := ⟨h2, by have := hs.cap; omega, fun k hk => hru.live k (by rw [hR.heapN]; omega)⟩
  have hlive0 : ∀ k, 0 < k → k < s.heapN.toNat - 1 → liveAt v k = liveAt s k := fun k h0 hk => by
    rw [hlive, liveAt_of_nodes hR.node (h3 k), Equiv.swap_apply_of_ne_of_ne (by omega) (by omega)]
  have hsift : ∃ t, siftDown (s.heapN.toNat - 1) 0 v = .ok () t ∧ Rearranged v.heapN.toNat v t ∧ HeapOrdered t := by
    rcases Nat.eq_zero_or_pos (s.heapN.toNat - 1) with h0 | h0
    · refine ⟨v, by rw [h0]; rfl, .refl h2, fun k hk _ => by omega⟩
    · refine siftDown_ok _ 0 hvready (by omega) (by omega) (fun j hj h0' hjk => ?_) (fun _ _ _ _ h => absurd h (by omega))
      rw [rankAt_of_live (hlive0 j h0' (by omega)), rankAt_of_live (hlive0 _ (by omega) (by omega))]
      exact ho j (by omega) h0'
  obtain ⟨t, ht, hRt, hord⟩ := hsift
  refine ⟨t, ?_, ?_, hRt.ready hvready, hord, ?_⟩
  · simp only [heapExtract, if_neg hne, heapAt_live (hs.live 0 hN), Run.andThen_ok, hu]
    show ((siftDown (u.heapN.toNat - 1) 0 v).andThen fun _ w => Run.ok (heapIx s 0) w) = _
    rw [hR.heapN, ht]; rfl
  · rw [hRt.1]; show _ = _; simp only [v]; rw [h1]
  · have hlast : liveNodes u = liveNodes v ++ [heapIx s 0] := by
      rw [liveNodes, hR.heapN, liveNodes, hvN, show s.heapN.toNat = (s.heapN.toNat - 1) + 1 by omega, List.range_succ, List.map_append]
      congr 1
      simp only [List.map_cons, List.map_nil, List.cons.injEq, and_true]
      apply heapIx_of_cell
      have := h3 (s.heapN.toNat - 1)
      rw [Equiv.swap_apply_right] at this
      simpa using this
    exact hR.live_perm.symm.trans (hlast ▸ (List.perm_append_comm.trans (hRt.live_perm.symm.cons _)))

end Sys2Proof.Machine
end

