-- ==== Sys2Proof/Laws/Tree.lean ====
section
/-! SUPPORT. What the commands of the PriorityStructure and the TreeBuilder do in every state that meets their part of the invariant (41_priority_queue.md R145 to R147; 42_tree_builder.md R161, R162). -/

namespace Sys2Proof.Machine

/-- The memories and the two parts of the invariant the heap and the tree builder need. -/
structure QueueOk (s : State) : Prop where
  memories : memoriesWf s = true
  heap : HeapOk s
  tree : TreeOk s

theorem memoriesWf_iff {s : State} : memoriesWf s = true ↔
    cellsWf 0#64 Config.nsym s.freq = true ∧ cellsWf false Config.nsym s.ins = true ∧ cellsWf none Config.nodeCap s.node = true ∧
      cellsWf none Config.heapCap s.heap = true ∧ cellsWf none Config.nsym s.ct = true ∧ cellsWf none Config.trieCap s.trie = true := by
  simp [memoriesWf, and_assoc]

theorem Inv.queue {s : State} (h : Inv s) : QueueOk s := ⟨h.memories, h.heap, h.tree⟩

/-! Counting the leaves of the epoch. -/

theorem insCount_eq_card (s : State) : insCount s = ((Finset.range Config.nsym).filter fun b => insOf s b = true).card := by
  rw [insCount, ← List.toFinset_card_of_nodup (List.nodup_range.filter _)]
  congr 1
  ext b
  simp

theorem insCount_le (s : State) : insCount s ≤ 256 := by
  rw [insCount_eq_card]
  exact (Finset.card_filter_le _ _).trans (by simp [Config.nsym])

/-- A leaf that has not entered is one more when it enters. -/
theorem insCount_insert {s t : State} {n : Nat} (hn : n < 256) (h0 : insOf s n = false)
    (h : ∀ b, insOf t b = if b = n then true else insOf s b) : insCount t = insCount s + 1 := by
  rw [insCount_eq_card, insCount_eq_card]
  have : ((Finset.range Config.nsym).filter fun b => insOf t b = true) =
      insert n ((Finset.range Config.nsym).filter fun b => insOf s b = true) := by
    ext b
    simp only [Finset.mem_filter, Finset.mem_range, Finset.mem_insert, h, Config.nsym]
    by_cases hb : b = n <;> simp [hb, hn]
  rw [this, Finset.card_insert_of_notMem (by simp [h0])]

theorem HeapOk.ready {s : State} (hm : memoriesWf s = true) (h : HeapOk s) (ht : TreeOk s) : HeapReady s :=
  ⟨(memoriesWf_iff.1 hm).2.2.2.1, by have := h.room; have := insCount_le s; have := ht.low; simp [Config.heapCap]; omega, h.written⟩

theorem QueueOk.ready {s : State} (h : QueueOk s) : HeapReady s := h.heap.ready h.memories h.tree

theorem HeapOk.ordered {s : State} (h : HeapOk s) : HeapOrdered s := fun k hk h0 =>
  (notLess_iff (h.written k hk) (h.written _ (by omega))).1 (h.heap k hk h0)

theorem HeapOrdered.notLess {s : State} (hl : ∀ k < s.heapN.toNat, (liveAt s k).isSome = true) (h : HeapOrdered s) :
    ∀ k < s.heapN.toNat, 0 < k → notLess (liveAt s k) (liveAt s ((k - 1) / 2)) = true := fun k hk h0 =>
  (notLess_iff (hl k hk) (hl _ (by omega))).2 (h k hk h0)

theorem mem_liveNodes {s : State} {i : NodeIx} : i ∈ liveNodes s ↔ ∃ k < s.heapN.toNat, heapIx s k = i := by
  simp [liveNodes]

@[simp] theorem length_liveNodes (s : State) : (liveNodes s).length = s.heapN.toNat := by simp [liveNodes]

/-- A live node's cell holds a value. -/
theorem HeapReady.node_isSome {s : State} (h : HeapReady s) {i : NodeIx} (hi : i ∈ liveNodes s) : (nodeOf s i.toNat).isSome = true := by
  obtain ⟨k, hk, rfl⟩ := mem_liveNodes.1 hi
  rw [nodeOf_of_live (h.live k hk)]; exact h.live k hk

/-- The heap's part of the invariant depends on the live nodes as a set, their nodes, INS and the counts. -/
theorem HeapOk.of_perm {t : State} {l : List NodeIx} (hr : HeapReady t) (ho : HeapOrdered t) (hp : (liveNodes t).Perm l)
    (hidx : ∀ i ∈ l, i.toNat < t.nodeNext.toNat) (hleaf : ∀ i ∈ l, i.toNat < 256 → tbOf t i = i.toNat)
    (hent : ∀ i ∈ l, insOf t (tbOf t i) = true) (hd : (l.map (tbOf t)).Nodup)
    (hroom : t.heapN.toNat + t.nodeNext.toNat ≤ 256 + insCount t) : HeapOk t where
  written := hr.live
  index i hi := hidx i (hp.subset hi)
  heap := ho.notLess hr.live
  leaf i hi := hleaf i (hp.subset hi)
  entered i hi := hent i (hp.subset hi)
  distinct := (hp.map _).nodup_iff.2 hd
  room := hroom

/-- PQ_CLR (R145) starts an epoch in which nothing is live. -/
theorem pqClear_ok {s : State} (h : memoriesWf s = true) : QueueOk (pqClear s) where
  memories := by
    obtain ⟨h1, -, h3, h4, h5, h6⟩ := memoriesWf_iff.1 h
    exact memoriesWf_iff.2 ⟨h1, rfl, h3, h4, h5, h6⟩
  heap := ⟨fun k hk => absurd hk (by simp [pqClear]), fun i hi => absurd hi (by simp [pqClear, liveNodes]),
    fun k hk => absurd hk (by simp [pqClear]), fun i hi => absurd hi (by simp [pqClear, liveNodes]),
    fun i hi => absurd hi (by simp [pqClear, liveNodes]), by simp [pqClear, liveNodes], by simp [pqClear]⟩
  tree := ⟨by simp [pqClear], by simp [pqClear, Config.nodeCap], fun i hi h => absurd hi (by simp [pqClear]; omega), .inl rfl⟩

theorem tbOf_congr {s t : State} {i : NodeIx} (h : nodeOf t i.toNat = nodeOf s i.toNat) : tbOf t i = tbOf s i := by simp [tbOf, h]

theorem childrenBelow_congr {s t : State} {i : Nat} (h : nodeOf t i = nodeOf s i) : childrenBelow t i = childrenBelow s i := by
  simp [childrenBelow, h]

/-- `PQ_INS n` (R146) for a byte whose leaf has not entered: the leaf is made and becomes live beside the others. -/
theorem pqInsert_ok {s : State} (h : QueueOk s) {n : Nat} (hn : n ≤ 255) (h0 : insOf s n = false) :
    ∃ t, pqInsert n s = .ok () t ∧ QueueOk t ∧
      t = { s with node := t.node, ins := t.ins, heap := t.heap, heapN := s.heapN + 1#9 } ∧
      (s.heapN + 1#9).toNat = s.heapN.toNat + 1 ∧
      (∀ i, nodeOf t i = if i = n then some (leafNode n s) else nodeOf s i) ∧
      (∀ b, insOf t b = if b = n then true else insOf s b) ∧
      (liveNodes t).Perm (BitVec.ofNat 9 n :: liveNodes s) := by
  obtain ⟨w1, w2, w3, w4, w5, w6⟩ := memoriesWf_iff.1 h.memories
  have hr := h.ready
  have hin : ∀ i ∈ liveNodes s, i.toNat ≠ n := fun i hi hin => by
    have h1 := h.heap.leaf i hi (by omega)
    have h2 := h.heap.entered i hi
    rw [h1, hin, h0] at h2; cases h2
  let u : State := { s with node := writeCell none s.node n (some (leafNode n s)), ins := writeCell false s.ins n true }
  have hun : ∀ i, nodeOf u i = if i = n then some (leafNode n s) else nodeOf s i := fun i => by
    simp only [u, nodeOf, readCell_writeCell _ _ _ w3]
  have hui : ∀ b, insOf u b = if b = n then true else insOf s b := fun b => by
    simp only [u, insOf, readCell_writeCell _ _ _ w2]
  have hulive : ∀ k < s.heapN.toNat, liveAt u k = liveAt s k := fun k hk => by
    have := hin _ (mem_liveNodes.2 ⟨k, hk, rfl⟩)
    have hh : heapOf u k = heapOf s k := rfl
    rw [liveAt, liveAt, hh, heapOf_of_live (hr.live k hk)]
    simp [hun, this]
  have hur : HeapReady u := ⟨w4, hr.cap, fun k hk => (hulive k hk) ▸ hr.live k hk⟩
  have huo : HeapOrdered u := fun k hk hk0 => by
    rw [rankAt_of_live (hulive k hk), rankAt_of_live (hulive _ (by show _ < s.heapN.toNat; have : k < s.heapN.toNat := hk; omega))]
    exact h.heap.ordered k hk hk0
  have hcount : insCount u = insCount s + 1 := insCount_insert (by omega) h0 hui
  have hroom := h.heap.room
  have hic := insCount_le u
  have hlow := h.tree.low
  have hof : (BitVec.ofNat 9 n).toNat = n := by simp; omega
  obtain ⟨t, ht, ht1, hrt, hot, hpt⟩ := heapInsert_ok hur huo (i := BitVec.ofNat 9 n)
    (by show s.heapN.toNat < 256; omega) (by rw [hun, hof]; simp)
  have htN : (s.heapN + 1#9).toNat = s.heapN.toNat + 1 := by
    rw [BitVec.toNat_add]; simp; omega
  have htn : ∀ i, nodeOf t i = if i = n then some (leafNode n s) else nodeOf s i := fun i => by
    rw [← hun]; simp only [nodeOf]; rw [ht1]
  have hti : ∀ b, insOf t b = if b = n then true else insOf s b := fun b => by
    rw [← hui]; simp only [insOf]; rw [ht1]
  have htb : ∀ i ∈ liveNodes s, tbOf t i = tbOf s i := fun i hi => tbOf_congr (by rw [htn, if_neg (hin i hi)])
  have htb' : tbOf t (BitVec.ofNat 9 n) = n := by simp [tbOf, htn, hof, leafNode]; omega
  have hpt' : (liveNodes t).Perm (BitVec.ofNat 9 n :: liveNodes s) := hpt
  refine ⟨t, ?_, ⟨?_, ?_, ?_⟩, ?_, htN, htn, hti, hpt'⟩
  · have hc : ¬ (255 < n ∨ insOf s n = true) := by simp [h0]; omega
    rw [pqInsert, if_neg hc, setNode, if_pos (by simp [Config.nodeCap]; omega), Run.andThen_ok]
    exact ht
  · rw [ht1]
    exact memoriesWf_iff.2 ⟨w1, cellsWf_writeCell _ (by simp [Config.nsym]; omega) w2,
      cellsWf_writeCell _ (by simp [Config.nodeCap]; omega) w3, hrt.wf, w5, w6⟩
  · have hnext : t.nodeNext = s.nodeNext := by rw [ht1]
    refine .of_perm hrt hot hpt' ?_ ?_ ?_ ?_ ?_
    · intro i hi
      rw [hnext]
      rcases List.mem_cons.1 hi with rfl | hi
      · rw [hof]; omega
      · exact h.heap.index i hi
    · intro i hi hi'
      rcases List.mem_cons.1 hi with rfl | hi
      · rw [htb', hof]
      · rw [htb i hi]; exact h.heap.leaf i hi hi'
    · intro i hi
      rcases List.mem_cons.1 hi with rfl | hi
      · rw [htb', hti]; simp
      · rw [htb i hi, hti]; simp [h.heap.entered i hi]
    · rw [List.map_cons, htb', List.map_congr_left htb, List.nodup_cons]
      refine ⟨fun hmem => ?_, h.heap.distinct⟩
      obtain ⟨i, hi, hin'⟩ := List.mem_map.1 hmem
      have := h.heap.entered i hi
      rw [hin', h0] at this; cases this
    · have h1 : t.heapN = s.heapN + 1#9 := by rw [ht1]
      have h2 : insCount t = insCount u := by unfold insCount insOf; rw [ht1]
      rw [h1, htN, hnext, h2, hcount]; omega
  · refine ⟨by rw [ht1]; exact hlow, by rw [ht1]; exact h.tree.high, fun i hi hi' => ?_, by rw [ht1]; exact h.tree.root⟩
    rw [childrenBelow_congr (s := s) (by rw [htn, if_neg (by omega)])]
    exact h.tree.cells i (by rw [ht1] at hi; exact hi) hi'
  · rw [ht1]

/-- `PQ_INS n` (R146) otherwise: BadCommand and nothing else. -/
theorem pqInsert_bad {s : State} {n : Nat} (h : 255 < n ∨ insOf s n = true) : pqInsert n s = .raise .badCommand s := by
  rw [pqInsert, if_pos h]

/-- The least of some nodes (R142): none of them is less. -/
def LeastOf (s : State) (i : NodeIx) (l : List NodeIx) : Prop :=
  ∀ j ∈ l, ∀ x y, nodeOf s i.toNat = some x → nodeOf s j.toNat = some y → keyLess y x = false

theorem leastOf_root {s : State} (hr : HeapReady s) (ho : HeapOrdered s) (hN : 0 < s.heapN.toNat) :
    LeastOf s (heapIx s 0) (liveNodes s) := by
  intro j hj x y hx hy
  obtain ⟨k, hk, rfl⟩ := mem_liveNodes.1 hj
  rw [nodeOf_of_live (hr.live 0 hN)] at hx
  rw [nodeOf_of_live (hr.live k hk)] at hy
  have h := rankAt_root_le ho k hk
  simp only [rankAt, hx, hy, Option.map_some, Option.getD_some] at h
  by_contra hl
  have := (keyLess_iff y x).1 (by simpa using hl)
  omega

/-- Two live nodes never have the same tie-break byte (10_state.md R36). -/
theorem QueueOk.tbOf_ne {s : State} (h : QueueOk s) {i j : NodeIx} (hi : i ∈ liveNodes s) (hj : j ∈ liveNodes s) (hij : i ≠ j) :
    tbOf s i ≠ tbOf s j := fun e => hij (List.inj_on_of_nodup_map h.heap.distinct hi hj e)

/-- A least node is less than every other live node it is compared with (R142). -/
theorem nodeLess_of_least {s : State} (h : QueueOk s) {a b : NodeIx} {l : List NodeIx} (ha : a ∈ liveNodes s) (hb : b ∈ liveNodes s)
    (hbl : b ∈ l) (hab : a ≠ b) (hle : LeastOf s a l) : nodeLess s a b = true := by
  obtain ⟨x, hx⟩ := Option.isSome_iff_exists.1 (h.ready.node_isSome ha)
  obtain ⟨y, hy⟩ := Option.isSome_iff_exists.1 (h.ready.node_isSome hb)
  have h1 := hle b hbl x y hx hy
  have htb := h.tbOf_ne ha hb hab
  simp only [tbOf, hx, hy, Option.map_some, Option.getD_some] at htb
  have hx' := x.tb.isLt
  have hy' := y.tb.isLt
  have e1 := keyLess_iff x y
  have e2 := keyLess_iff y x
  simp only [h1, Bool.false_eq_true, false_iff] at e2
  simp only [nodeLess, hx, hy, e1]
  simp only [keyRank] at *
  omega

/-- HeapExtract under the invariant: the least live node leaves, the rest stay, the invariant is kept. -/
theorem heapExtract_queue {s : State} (h : QueueOk s) (hN : 0 < s.heapN.toNat) :
    ∃ m t, heapExtract s = .ok m t ∧ QueueOk t ∧ t = { s with heap := t.heap, heapN := s.heapN - 1#9 } ∧
      (s.heapN - 1#9).toNat = s.heapN.toNat - 1 ∧ (liveNodes s).Perm (m :: liveNodes t) ∧ LeastOf s m (liveNodes s) := by
  have hr := h.ready
  obtain ⟨t, ht, ht1, hrt, hot, hp⟩ := heapExtract_ok hr h.heap.ordered hN
  have hN1 : (s.heapN - 1#9).toNat = s.heapN.toNat - 1 := by
    have := s.heapN.isLt
    rw [BitVec.toNat_sub]; simp; omega
  obtain ⟨w1, w2, w3, -, w5, w6⟩ := memoriesWf_iff.1 h.memories
  have hsub : ∀ i ∈ liveNodes t, i ∈ liveNodes s := fun i hi => hp.symm.subset (List.mem_cons_of_mem _ hi)
  have hnode : ∀ i, nodeOf t i = nodeOf s i := fun i => by unfold nodeOf; rw [ht1]
  have hins : ∀ i, insOf t i = insOf s i := fun i => by unfold insOf; rw [ht1]
  have htb : ∀ i, tbOf t i = tbOf s i := fun i => tbOf_congr (hnode _)
  refine ⟨heapIx s 0, t, ht, ⟨?_, ?_, ?_⟩, ht1, hN1, hp, leastOf_root hr h.heap.ordered hN⟩
  · rw [ht1]; exact memoriesWf_iff.2 ⟨w1, w2, w3, hrt.wf, w5, w6⟩
  · refine .of_perm hrt hot (.refl _) (fun i hi => ?_) (fun i hi => ?_) (fun i hi => ?_) ?_ ?_
    · rw [ht1]; exact h.heap.index i (hsub i hi)
    · rw [htb]; exact h.heap.leaf i (hsub i hi)
    · rw [htb, hins]; exact h.heap.entered i (hsub i hi)
    · have := (hp.map (tbOf s)).nodup_iff.1 h.heap.distinct
      rw [List.map_cons, List.nodup_cons] at this
      rw [List.map_congr_left fun i _ => htb i]; exact this.2
    · have h2 : insCount t = insCount s := by unfold insCount insOf; rw [ht1]
      have h3 : t.heapN = s.heapN - 1#9 := by rw [ht1]
      have h4 : t.nodeNext = s.nodeNext := by rw [ht1]
      have := h.heap.room
      rw [h2, h3, h4, hN1]; omega
  · refine ⟨by rw [ht1]; exact h.tree.low, by rw [ht1]; exact h.tree.high, fun i hi hi' => ?_, by rw [ht1]; exact h.tree.root⟩
    rw [childrenBelow_congr (s := s) (hnode i)]
    exact h.tree.cells i (by rw [ht1] at hi; exact hi) hi'

theorem QueueOk.of_frame {s t : State} (h : QueueOk s) (h1 : t.freq = s.freq) (h2 : t.ins = s.ins) (h3 : t.node = s.node)
    (h4 : t.heap = s.heap) (h5 : t.ct = s.ct) (h6 : t.trie = s.trie) (h7 : t.heapN = s.heapN) (h8 : t.nodeNext = s.nodeNext)
    (h9 : t.root = Config.nil ∨ t.root.toNat < s.nodeNext.toNat) : QueueOk t := by
  have e1 : liveNodes t = liveNodes s := by simp [liveNodes, heapIx, heapOf, h4, h7]
  have e2 : ∀ k, liveAt t k = liveAt s k := fun k => by simp [liveAt, heapOf, nodeOf, h3, h4]
  have e3 : ∀ i, tbOf t i = tbOf s i := fun i => by simp [tbOf, nodeOf, h3]
  have e4 : ∀ b, insOf t b = insOf s b := fun b => by simp [insOf, h2]
  have e5 : insCount t = insCount s := by unfold insCount; rw [funext e4]
  refine ⟨?_, ⟨?_, ?_, ?_, ?_, ?_, ?_, ?_⟩, ⟨?_, ?_, ?_, ?_⟩⟩
  · simpa [memoriesWf, h1, h2, h3, h4, h5, h6] using h.memories
  · simpa [h7, e2] using h.heap.written
  · simpa [e1, h8] using h.heap.index
  · simpa [HeapProperty, h7, e2] using h.heap.heap
  · simpa [e1, e3] using h.heap.leaf
  · simpa [e1, e3, e4] using h.heap.entered
  · rw [e1, funext e3]; exact h.heap.distinct
  · rw [h7, h8, e5]; exact h.heap.room
  · rw [h8]; exact h.tree.low
  · rw [h8]; exact h.tree.high
  · intro i hi hi'
    rw [childrenBelow_congr (s := s) (by simp [nodeOf, h3])]
    exact h.tree.cells i (h8 ▸ hi) hi'
  · rw [h8]; exact h9

/-- What one merge does (R161): `a` and `b` are the two least live nodes, `x` and `y` their cells, `rest` the other live nodes; the first extracted is the left child. -/
structure Merged (s t : State) (a b : NodeIx) (x y : TreeNode) (rest : List NodeIx) : Prop where
  frame : t = { s with node := t.node, heap := t.heap, heapN := s.heapN - 1#9, nodeNext := s.nodeNext + 1#10,
                       res := s.nodeNext.setWidth 9, empty := false }
  heapN : (s.heapN - 1#9).toNat = s.heapN.toNat - 1
  nodeNext : (s.nodeNext + 1#10).toNat = s.nodeNext.toNat + 1
  parent : (s.nodeNext.setWidth 9).toNat = s.nodeNext.toNat
  before : (liveNodes s).Perm (a :: b :: rest)
  least : LeastOf s a (liveNodes s)
  next : LeastOf s b (b :: rest)
  left : nodeOf s a.toNat = some x
  right : nodeOf s b.toNat = some y
  node : ∀ i, nodeOf t i = if i = s.nodeNext.toNat then some ⟨x.freq + y.freq, maxByte x.tb y.tb, a, b⟩ else nodeOf s i
  after : (liveNodes t).Perm (s.nodeNext.setWidth 9 :: rest)

/-- TB_MERGE (R161) with two live nodes merges the two least. -/
theorem mergeStep_ok {s : State} (h : QueueOk s) (hN : 2 ≤ s.heapN.toNat) :
    ∃ t a b x y rest, mergeStep s = .ok () t ∧ QueueOk t ∧ Merged s t a b x y rest := by
  obtain ⟨a, s₁, he1, hq1, hf1, hN1, hp1, hl1⟩ := heapExtract_queue h (by omega)
  have hN1' : s₁.heapN.toNat = s.heapN.toNat - 1 := by rw [hf1]; exact hN1
  obtain ⟨b, s₂, he2, hq2, hf2, hN2, hp2, hl2⟩ := heapExtract_queue hq1 (by omega)
  have hN2' : s₂.heapN.toNat = s.heapN.toNat - 2 := by rw [hf2]; show (s₁.heapN - 1#9).toNat = _; omega
  have hnode1 : s₁.node = s.node := by rw [hf1]
  have hnode2 : s₂.node = s.node := by rw [hf2]; exact hnode1
  have hnext2 : s₂.nodeNext = s.nodeNext := by rw [hf2, hf1]
  have hno1 : ∀ i, nodeOf s₁ i = nodeOf s i := fun i => by unfold nodeOf; rw [hnode1]
  have hno2 : ∀ i, nodeOf s₂ i = nodeOf s i := fun i => by unfold nodeOf; rw [hnode2]
  have hp : (liveNodes s).Perm (a :: b :: liveNodes s₂) := hp1.trans (hp2.cons a)
  have ha : a ∈ liveNodes s := hp.symm.subset (by simp)
  have hb : b ∈ liveNodes s := hp.symm.subset (by simp)
  have hrest : ∀ i ∈ liveNodes s₂, i ∈ liveNodes s := fun i hi => hp.symm.subset (by simp [hi])
  obtain ⟨x, hx⟩ := Option.isSome_iff_exists.1 (h.ready.node_isSome ha)
  obtain ⟨y, hy⟩ := Option.isSome_iff_exists.1 (h.ready.node_isSome hb)
  have hkl : keyLess y x = false := hl1 b hb x y hx hy
  have hroom := h.heap.room
  have hic := insCount_le s
  have hlow := h.tree.low
  have hpn : s.nodeNext.toNat ≤ 510 := by omega
  have hp9 : (s.nodeNext.setWidth 9).toNat = s.nodeNext.toNat := by simp; omega
  have hn1 : (s.nodeNext + 1#10).toNat = s.nodeNext.toNat + 1 := by rw [BitVec.toNat_add]; simp; omega
  have hNN : s.heapN - 1#9 - 1#9 + 1#9 = s.heapN - 1#9 := by rw [BitVec.sub_add_cancel]
  obtain ⟨w1, w2, w3, w4, w5, w6⟩ := memoriesWf_iff.1 hq2.memories
  let par : TreeNode := ⟨x.freq + y.freq, maxByte x.tb y.tb, a, b⟩
  let u : State := { s₂ with node := writeCell none s₂.node s.nodeNext.toNat (some par), nodeNext := s.nodeNext + 1#10 }
  have hun : ∀ i, nodeOf u i = if i = s.nodeNext.toNat then some par else nodeOf s i := fun i => by
    rw [← hno2]; simp only [u, nodeOf, readCell_writeCell _ _ _ w3]
  have hidx : ∀ i ∈ liveNodes s₂, i.toNat ≠ s.nodeNext.toNat := fun i hi => by
    have := h.heap.index i (hrest i hi); omega
  have hulive : ∀ k < s₂.heapN.toNat, liveAt u k = liveAt s₂ k := fun k hk => by
    have := hidx _ (mem_liveNodes.2 ⟨k, hk, rfl⟩)
    have hh : heapOf u k = heapOf s₂ k := rfl
    rw [liveAt, liveAt, hh, heapOf_of_live (hq2.ready.live k hk)]
    simp [hun, this, hno2]
  have hur : HeapReady u := ⟨w4, hq2.ready.cap, fun k hk => (hulive k hk) ▸ hq2.ready.live k hk⟩
  have huo : HeapOrdered u := fun k hk hk0 => by
    have hk' : k < s₂.heapN.toNat := hk
    rw [rankAt_of_live (hulive k hk'), rankAt_of_live (hulive _ (by omega))]
    exact hq2.heap.ordered k hk' hk0
  obtain ⟨v, hv, hv1, hrv, hov, hpv⟩ := heapInsert_ok hur huo (i := s.nodeNext.setWidth 9)
    (by show s₂.heapN.toNat < 256; omega) (by rw [hun, hp9]; simp)
  have hpv' : (liveNodes v).Perm (s.nodeNext.setWidth 9 :: liveNodes s₂) := hpv
  have hvn : ∀ i, nodeOf v i = if i = s.nodeNext.toNat then some par else nodeOf s i := fun i => by
    rw [← hun]; simp only [nodeOf]; rw [hv1]
  have hvi : ∀ i, insOf v i = insOf s i := fun i => by
    unfold insOf; rw [hv1]; show readCell false s₂.ins i = _; rw [hf2, hf1]
  have htb : ∀ i ∈ liveNodes s₂, tbOf v i = tbOf s i := fun i hi => tbOf_congr (by rw [hvn, if_neg (hidx i hi)])
  have htbp : tbOf v (s.nodeNext.setWidth 9) = tbOf s a ∨ tbOf v (s.nodeNext.setWidth 9) = tbOf s b := by
    have hm : maxByte x.tb y.tb = x.tb ∨ maxByte x.tb y.tb = y.tb := by unfold maxByte; split <;> simp
    simp only [tbOf, hvn, hp9, hx, hy, par]
    rcases hm with e | e <;> simp [e]
  have hd := (hp.map (tbOf s)).nodup_iff.1 h.heap.distinct
  simp only [List.map_cons, List.nodup_cons, List.mem_cons, not_or] at hd
  have hfin : QueueOk v := by
    refine ⟨?_, .of_perm hrv hov hpv' ?_ ?_ ?_ ?_ ?_, ?_⟩
    · rw [hv1]
      exact memoriesWf_iff.2 ⟨w1, w2, cellsWf_writeCell _ (by simp [Config.nodeCap]; omega) w3, hrv.wf, w5, w6⟩
    · intro i hi
      have : v.nodeNext = s.nodeNext + 1#10 := by rw [hv1]
      rw [this, hn1]
      rcases List.mem_cons.1 hi with rfl | hi
      · omega
      · have := h.heap.index i (hrest i hi); omega
    · intro i hi hi'
      rcases List.mem_cons.1 hi with rfl | hi
      · omega
      · rw [htb i hi]; exact h.heap.leaf i (hrest i hi) hi'
    · intro i hi
      rw [hvi]
      rcases List.mem_cons.1 hi with rfl | hi
      · rcases htbp with e | e <;> rw [e]
        · exact h.heap.entered a ha
        · exact h.heap.entered b hb
      · rw [htb i hi]; exact h.heap.entered i (hrest i hi)
    · rw [List.map_cons, List.map_congr_left htb, List.nodup_cons]
      refine ⟨?_, hd.2.2⟩
      rcases htbp with e | e <;> rw [e]
      · exact hd.1.2
      · exact hd.2.1
    · have e1 : insCount v = insCount s := by unfold insCount; rw [funext hvi]
      have e2 : v.heapN.toNat = s₂.heapN.toNat + 1 := by
        rw [hv1]; show (s₂.heapN + 1#9).toNat = _
        rw [BitVec.toNat_add]; simp; omega
      have e3 : v.nodeNext = s.nodeNext + 1#10 := by rw [hv1]
      rw [e1, e2, e3, hn1]; omega
    · have e3 : v.nodeNext = s.nodeNext + 1#10 := by rw [hv1]
      have e4 : v.root = s.root := by rw [hv1]; show s₂.root = _; rw [hf2, hf1]
      refine ⟨by rw [e3, hn1]; omega, by rw [e3, hn1]; simp [Config.nodeCap]; omega, fun i hi hi' => ?_, ?_⟩
      · rw [e3, hn1] at hi
        by_cases hip : i = s.nodeNext.toNat
        · have h1 := h.heap.index a ha
          have h2 := h.heap.index b hb
          simp [childrenBelow, hvn, hip, par, h1, h2]
        · rw [childrenBelow_congr (s := s) (by rw [hvn, if_neg hip])]
          exact h.tree.cells i (by omega) hi'
      · rw [e4, e3, hn1]
        exact h.tree.root.imp_right fun h => by omega
  refine ⟨{ v with res := s.nodeNext.setWidth 9, empty := false }, a, b, x, y, liveNodes s₂, ?_, ?_, ⟨?_, hN1, hn1, hp9, hp, hl1, ?_, hx, hy, hvn, hpv'⟩⟩
  · have hx' : nodeAt a s₂ = .ok x s₂ := by simp [nodeAt, cellValue, hno2, hx]
    have hy' : nodeAt b s₂ = .ok y s₂ := by simp [nodeAt, cellValue, hno2, hy]
    have hpar : parentNode a b x y = par := by simp [parentNode, hkl, par]
    have hset : setNode s₂.nodeNext.toNat par s₂ = .ok () { s₂ with node := writeCell none s₂.node s.nodeNext.toNat (some par) } := by
      rw [setNode, hnext2, if_pos (by simp [Config.nodeCap]; omega)]
    have hu : ({ s₂ with node := writeCell none s₂.node s.nodeNext.toNat (some par), nodeNext := s₂.nodeNext + 1#10 } : State) = u := by
      rw [hnext2]
    rw [mergeStep, if_neg (by omega), he1, Run.andThen_ok, he2, Run.andThen_ok, hx', Run.andThen_ok, hy', Run.andThen_ok, hpar,
      hset, Run.andThen_ok]
    dsimp only
    rw [hu, hnext2, hv]
    rfl
  · exact hfin.of_frame rfl rfl rfl rfl rfl rfl rfl rfl hfin.tree.root
  · have e2 : v.heapN = s.heapN - 1#9 := by
      rw [hv1]; show s₂.heapN + 1#9 = _; rw [hf2]; show s₁.heapN - 1#9 + 1#9 = _; rw [BitVec.sub_add_cancel, hf1]
    rw [← e2]
    rw [hv1]; simp only [u]; rw [hf2]; rw [hf1]
  · intro j hj x' y' hx' hy'
    refine hl2 j (hp2.symm.subset hj) x' y' ?_ ?_
    · rw [hno1]; exact hx'
    · rw [hno1]; exact hy'

/-- TB_MERGE (R161) otherwise: BadCommand and nothing else. -/
theorem mergeStep_bad {s : State} (h : s.heapN.toNat < 2) : mergeStep s = .raise .badCommand s := by rw [mergeStep, if_pos h]

end Sys2Proof.Machine
end

