-- ==== Sys2Proof/Laws/Build.lean ====
section
/-! SUPPORT. What TB_BUILD's parts do under the invariant: the used leaves enter, the merges keep a forest over them, one tree is left (42_tree_builder.md R162, R163). -/

namespace Sys2Proof.Machine

/-! Paths in the arena. -/

theorem childrenBelow_iff {s : State} {i : Nat} :
    childrenBelow s i = true ↔ ∃ x, nodeOf s i = some x ∧ x.left.toNat < i ∧ x.right.toNat < i := by
  unfold childrenBelow
  cases nodeOf s i <;> simp

theorem TreeOk.node {s : State} (h : TreeOk s) {i : NodeIx} (h1 : 256 ≤ i.toNat) (h2 : i.toNat < s.nodeNext.toNat) :
    ∃ x, nodeOf s i.toNat = some x ∧ x.left.toNat < i.toNat ∧ x.right.toNat < i.toNat :=
  childrenBelow_iff.1 (h.cells _ h2 h1)

@[simp] theorem followTree_nil (s : State) (i : NodeIx) : followTree s i [] = some i := by
  unfold followTree; rfl

theorem followTree_leaf {s : State} {i : NodeIx} (h : i.toNat < 256) (bit : Bool) (bits : Code) : followTree s i (bit :: bits) = none := by
  rw [followTree, if_pos h]

theorem followTree_cons {s : State} {i : NodeIx} {x : TreeNode} (h : 256 ≤ i.toNat) (hx : nodeOf s i.toNat = some x) (bit : Bool) (bits : Code) :
    followTree s i (bit :: bits) = followTree s (if bit then x.right else x.left) bits := by
  rw [followTree, if_neg (by omega), hx]

/-- Paths depend only on the allocated internal nodes. -/
theorem followTree_congr {s t : State} (h : TreeOk s) (hn : ∀ i < s.nodeNext.toNat, 256 ≤ i → nodeOf t i = nodeOf s i) {i : NodeIx}
    (hi : i.toNat < s.nodeNext.toNat) (path : Code) : followTree t i path = followTree s i path := by
  induction path generalizing i with
  | nil => simp
  | cons bit bits ih =>
    rcases Nat.lt_or_ge i.toNat 256 with hl | hl
    · rw [followTree_leaf hl, followTree_leaf hl]
    · obtain ⟨x, hx, h1, h2⟩ := h.node hl hi
      rw [followTree_cons hl hx, followTree_cons hl ((hn _ hi hl).trans hx)]
      exact ih (by cases bit <;> simp <;> omega)

/-- A path is no longer than the number of internal nodes up to where it starts. -/
theorem followTree_length {s : State} (h : TreeOk s) {i j : NodeIx} (hi : i.toNat < s.nodeNext.toNat) {path : Code}
    (hp : followTree s i path = some j) : path.length + 255 ≤ max i.toNat 255 := by
  induction path generalizing i with
  | nil => simp
  | cons bit bits ih =>
    rcases Nat.lt_or_ge i.toNat 256 with hl | hl
    · rw [followTree_leaf hl] at hp; cases hp
    · obtain ⟨x, hx, h1, h2⟩ := h.node hl hi
      rw [followTree_cons hl hx] at hp
      have := ih (by cases bit <;> simp <;> omega) hp
      have : (if bit then x.right else x.left).toNat < i.toNat := by cases bit <;> simp <;> omega
      simp only [List.length_cons]
      omega

/-- No path leads from a leaf of the tree to another, so a path to a leaf is a beginning of another path to a leaf only if it is that path. -/
theorem followTree_unique_end {s : State} {i j k : NodeIx} (hj : j.toNat < 256) {p q : Code} (hp : followTree s i p = some j)
    (hq : followTree s i q = some k) (hpq : p <+: q) : p = q := by
  induction p generalizing i q with
  | nil =>
    simp only [followTree_nil, Option.some.injEq] at hp
    subst hp
    cases q with
    | nil => rfl
    | cons b q => rw [followTree_leaf hj] at hq; cases hq
  | cons b p ih =>
    obtain ⟨r, rfl⟩ := hpq
    rw [List.cons_append] at hq ⊢
    rcases Nat.lt_or_ge i.toNat 256 with hl | hl
    · rw [followTree_leaf hl] at hp; cases hp
    · cases hx : nodeOf s i.toNat with
      | none => rw [followTree, if_neg (by omega), hx] at hp; cases hp
      | some x =>
        rw [followTree_cons hl hx] at hp hq
        exact congrArg (b :: ·) (ih hp hq (List.prefix_append _ _))

/-! Forests over the used leaves. -/

/-- The frequency of a node (0 where its cell holds none). -/
def freqAt (s : State) (i : NodeIx) : Count := ((nodeOf s i.toNat).map TreeNode.freq).getD 0#64

/-- The live nodes are the roots of a forest: each used byte is a leaf of it on one path, no other byte is, and the roots' frequencies sum to the total. -/
structure Forest (used : Nat → Prop) (total : Count) (s : State) : Prop where
  cover : ∀ b < 256, used b → ∃ i ∈ liveNodes s, ∃ path, followTree s i path = some (BitVec.ofNat 9 b)
  single : ∀ b < 256, ∀ i ∈ liveNodes s, ∀ j ∈ liveNodes s, ∀ p q, followTree s i p = some (BitVec.ofNat 9 b) →
    followTree s j q = some (BitVec.ofNat 9 b) → i = j ∧ p = q
  only : ∀ b < 256, ∀ i ∈ liveNodes s, ∀ p, followTree s i p = some (BitVec.ofNat 9 b) → used b
  sum : ((liveNodes s).map (freqAt s)).sum = total

theorem toNat_ofNat_byte {b : Nat} (h : b < 256) : (BitVec.ofNat 9 b).toNat = b := by simp; omega

theorem QueueOk.live_nodup {s : State} (h : QueueOk s) : (liveNodes s).Nodup := h.heap.distinct.of_map _

/-- A merge keeps the forest. -/
theorem Forest.merge {used : Nat → Prop} {total : Count} {s t : State} {a b : NodeIx} {x y : TreeNode} {rest : List NodeIx}
    (h : Forest used total s) (hs : QueueOk s) (hm : Merged s t a b x y rest) : Forest used total t := by
  have hmem : ∀ i, i ∈ liveNodes s ↔ i = a ∨ i = b ∨ i ∈ rest := fun i => by rw [hm.before.mem_iff]; simp
  have hmem' : ∀ i, i ∈ liveNodes t ↔ i = s.nodeNext.setWidth 9 ∨ i ∈ rest := fun i => by rw [hm.after.mem_iff]; simp
  have hnd := (hm.before.nodup_iff.1 hs.live_nodup)
  simp only [List.nodup_cons, List.mem_cons, not_or] at hnd
  obtain ⟨⟨hab, har⟩, hbr, -⟩ := hnd
  have hidx : ∀ i ∈ liveNodes s, i.toNat < s.nodeNext.toNat := hs.heap.index
  have hold : ∀ i ∈ liveNodes s, ∀ path, followTree t i path = followTree s i path := fun i hi path =>
    followTree_congr hs.tree (fun j hj _ => by rw [hm.node, if_neg (by omega)]) (hidx i hi) path
  have hlow := hs.tree.low
  have hpar : nodeOf t (s.nodeNext.setWidth 9).toNat = some ⟨x.freq + y.freq, maxByte x.tb y.tb, a, b⟩ := by
    rw [hm.parent, hm.node, if_pos rfl]
  have ha : a ∈ liveNodes s := (hmem a).2 (.inl rfl)
  have hb : b ∈ liveNodes s := (hmem b).2 (.inr (.inl rfl))
  have hcons : ∀ bit bits, followTree t (s.nodeNext.setWidth 9) (bit :: bits) = followTree s (if bit then b else a) bits := fun bit bits => by
    rw [followTree_cons (by rw [hm.parent]; exact hlow) hpar]
    cases bit
    · exact hold a ha bits
    · exact hold b hb bits
  -- every path of `t` to a byte is a path of `s` from one of the old roots, and says which
  have hback : ∀ c < 256, ∀ i ∈ liveNodes t, ∀ p, followTree t i p = some (BitVec.ofNat 9 c) →
      (i ∈ rest ∧ followTree s i p = some (BitVec.ofNat 9 c)) ∨
      (i = s.nodeNext.setWidth 9 ∧ ∃ bit bits, p = bit :: bits ∧ followTree s (if bit then b else a) bits = some (BitVec.ofNat 9 c)) := by
    intro c hc i hi p hp
    rcases (hmem' i).1 hi with rfl | hi
    · right
      refine ⟨rfl, ?_⟩
      cases p with
      | nil =>
        simp only [followTree_nil, Option.some.injEq] at hp
        have := congrArg BitVec.toNat hp
        rw [hm.parent, toNat_ofNat_byte hc] at this; omega
      | cons bit bits => exact ⟨bit, bits, rfl, hcons bit bits ▸ hp⟩
    · exact .inl ⟨hi, hold i ((hmem i).2 (.inr (.inr hi))) p ▸ hp⟩
  have hchild : ∀ bit : Bool, (if bit then b else a) ∈ liveNodes s := fun bit => by cases bit <;> assumption
  refine ⟨fun c hc hu => ?_, fun c hc i hi j hj p q hp hq => ?_, fun c hc i hi p hp => ?_, ?_⟩
  · obtain ⟨i, hi, path, hp⟩ := h.cover c hc hu
    rcases (hmem i).1 hi with rfl | rfl | hr
    · exact ⟨_, (hmem' _).2 (.inl rfl), false :: path, (hcons false path).trans hp⟩
    · exact ⟨_, (hmem' _).2 (.inl rfl), true :: path, (hcons true path).trans hp⟩
    · exact ⟨i, (hmem' i).2 (.inr hr), path, (hold i hi path).trans hp⟩
  · rcases hback c hc i hi p hp with ⟨hi', hp'⟩ | ⟨rfl, bit, bits, rfl, hp'⟩ <;>
      rcases hback c hc j hj q hq with ⟨hj', hq'⟩ | ⟨rfl, bit', bits', rfl, hq'⟩
    · exact h.single c hc i ((hmem i).2 (.inr (.inr hi'))) j ((hmem j).2 (.inr (.inr hj'))) p q hp' hq'
    · obtain ⟨he, -⟩ := h.single c hc i ((hmem i).2 (.inr (.inr hi'))) _ (hchild bit') p bits' hp' hq'
      exfalso; cases bit' <;> simp at he <;> subst he <;> contradiction
    · obtain ⟨he, -⟩ := h.single c hc _ (hchild bit) j ((hmem j).2 (.inr (.inr hj'))) bits q hp' hq'
      exfalso; cases bit <;> simp at he <;> subst he <;> contradiction
    · obtain ⟨he, rfl⟩ := h.single c hc _ (hchild bit) _ (hchild bit') bits bits' hp' hq'
      refine ⟨rfl, ?_⟩
      cases bit <;> cases bit' <;> simp at he <;> first | rfl | exact absurd he hab | exact absurd he.symm hab
  · rcases hback c hc i hi p hp with ⟨hi', hp'⟩ | ⟨-, bit, bits, -, hp'⟩
    · exact h.only c hc i ((hmem i).2 (.inr (.inr hi'))) p hp'
    · exact h.only c hc _ (hchild bit) bits hp'
  · have hsum := h.sum
    rw [(hm.before.map (freqAt s)).sum_eq] at hsum
    rw [(hm.after.map (freqAt t)).sum_eq]
    have e1 : freqAt t (s.nodeNext.setWidth 9) = x.freq + y.freq := by simp only [freqAt, hpar, Option.map_some, Option.getD_some]
    have e2 : rest.map (freqAt t) = rest.map (freqAt s) := List.map_congr_left fun i hi => by
      have := hidx i ((hmem i).2 (.inr (.inr hi)))
      simp only [freqAt, hm.node]
      rw [if_neg (by omega)]
    have e3 : freqAt s a = x.freq := by simp [freqAt, hm.left]
    have e4 : freqAt s b = y.freq := by simp [freqAt, hm.right]
    simp only [List.map_cons, List.sum_cons, e1, e2, e3, e4, BitVec.add_assoc] at hsum ⊢
    exact hsum

/-! The leaves. -/

/-- The symbols of a list with a non-zero count. -/
def usedOf (s : State) (bs : List Nat) : List Nat := bs.filter fun b => decide (freqOf s b ≠ 0#64)

/-- The insertion loop of TB_BUILD (R162) over leaves none of which has entered: those of non-zero count enter, each with its count. -/
theorem insertLeaves_ok {bs : List Nat} {s : State} (h : QueueOk s) (hnd : bs.Nodup) (hlt : ∀ b ∈ bs, b < 256)
    (h0 : ∀ b ∈ bs, insOf s b = false) :
    ∃ t, insertLeaves bs s = .ok () t ∧ QueueOk t ∧ t = { s with node := t.node, ins := t.ins, heap := t.heap, heapN := t.heapN } ∧
      t.heapN.toNat = s.heapN.toNat + (usedOf s bs).length ∧
      (liveNodes t).Perm ((usedOf s bs).map (BitVec.ofNat 9) ++ liveNodes s) ∧
      (∀ i, nodeOf t i = if i ∈ usedOf s bs then some (leafNode i s) else nodeOf s i) ∧
      (∀ b, insOf t b = (decide (b ∈ usedOf s bs) || insOf s b)) := by
  induction bs generalizing s with
  | nil => exact ⟨s, rfl, h, rfl, by simp [usedOf], by simp [usedOf], by simp [usedOf], by simp [usedOf]⟩
  | cons b bs ih =>
    obtain ⟨hb, hnd⟩ := List.nodup_cons.1 hnd
    have hlt' : ∀ c ∈ bs, c < 256 := fun c hc => hlt c (List.mem_cons_of_mem _ hc)
    by_cases hf : freqOf s b = 0#64
    · have hu : usedOf s (b :: bs) = usedOf s bs := by simp [usedOf, hf]
      obtain ⟨t, ht, hrest⟩ := ih h hnd hlt' fun c hc => h0 c (List.mem_cons_of_mem _ hc)
      exact ⟨t, by rw [insertLeaves, if_pos hf]; exact ht, hu ▸ hrest⟩
    · obtain ⟨u, hu, hqu, hfu, hNu, hnu, hiu, hpu⟩ :=
        pqInsert_ok h (n := b) (by have := hlt b (by simp); omega) (h0 b (by simp))
      have hfreq : ∀ c, freqOf u c = freqOf s c := fun c => by unfold freqOf; rw [hfu]
      have huse : usedOf u bs = usedOf s bs := by unfold usedOf; simp only [hfreq]
      have hleaf : ∀ c, leafNode c u = leafNode c s := fun c => by simp [leafNode, hfreq]
      have hcons : usedOf s (b :: bs) = b :: usedOf s bs := by simp [usedOf, hf]
      have hbu : b ∉ usedOf s bs := fun hm => hb (List.mem_filter.1 hm).1
      obtain ⟨t, ht, hqt, hft, hNt, hpt, hnt, hit⟩ := ih hqu hnd hlt' fun c hc => by
        rw [hiu, if_neg fun e : c = b => hb (e ▸ hc)]; exact h0 c (List.mem_cons_of_mem _ hc)
      refine ⟨t, by rw [insertLeaves, if_neg hf, hu, Run.andThen_ok]; exact ht, hqt, ?_, ?_, ?_, fun i => ?_, fun c => ?_⟩
      · rw [hft]; rw [hfu]
      · have hNu' : u.heapN.toNat = s.heapN.toNat + 1 := by rw [hfu]; exact hNu
        rw [hNt, hNu', huse, hcons, List.length_cons]; omega
      · rw [huse] at hpt
        rw [hcons]
        refine hpt.trans ((List.Perm.append_left _ hpu).trans ?_)
        rw [List.map_cons, List.cons_append]
        exact List.perm_middle
      · rw [hnt, huse, hcons, hleaf, hnu]
        by_cases hib : i = b
        · subst hib; simp [hbu]
        · simp [hib]
      · rw [hit, huse, hcons, hiu]
        by_cases hcb : c = b
        · subst hcb; simp
        · simp [hcb]

/-! The merges. -/

/-- The merge loop of TB_BUILD (R162, R163): one node is left live, every merge allocates one node, and whatever every merge keeps holds at the end. -/
theorem mergeAll_ok {P : State → Prop} (hP : ∀ s t a b x y rest, QueueOk s → P s → Merged s t a b x y rest → P t) (n : Nat) {s : State}
    (h : QueueOk s) (hp : P s) (h1 : 1 ≤ s.heapN.toNat) (hn : s.heapN.toNat ≤ n + 1) :
    ∃ t, mergeAll n s = .ok () t ∧ QueueOk t ∧ P t ∧
      t = { s with node := t.node, heap := t.heap, heapN := t.heapN, nodeNext := t.nodeNext, res := t.res, empty := t.empty } ∧
      t.heapN.toNat = 1 ∧ t.nodeNext.toNat + 1 = s.nodeNext.toNat + s.heapN.toNat ∧
      (2 ≤ s.heapN.toNat → ∀ r ∈ liveNodes t, r.toNat + 1 = t.nodeNext.toNat) ∧
      (s.heapN.toNat = 1 → t = s) ∧ (∀ i < 256, nodeOf t i = nodeOf s i) := by
  induction n generalizing s with
  | zero =>
    have : s.heapN.toNat = 1 := by omega
    exact ⟨s, rfl, h, hp, rfl, this, by omega, fun h2 => by omega, fun _ => rfl, fun _ _ => rfl⟩
  | succ n ih =>
    by_cases hN : 1 < s.heapN.toNat
    · obtain ⟨u, a, b, x, y, rest, hu, hqu, hm⟩ := mergeStep_ok h hN
      have hNu : u.heapN.toNat = s.heapN.toNat - 1 := by rw [hm.frame]; exact hm.heapN
      have hnu : u.nodeNext.toNat = s.nodeNext.toNat + 1 := by rw [hm.frame]; exact hm.nodeNext
      obtain ⟨t, ht, hqt, hpt, hft, hNt, hnt, hlast, hsame, hleaf⟩ := ih hqu (hP _ _ _ _ _ _ _ h hp hm) (by omega) (by omega)
      refine ⟨t, by rw [mergeAll, if_pos hN, hu, Run.andThen_ok]; exact ht, hqt, hpt, ?_, hNt, by omega, fun _ => ?_, fun h1 => by omega,
        fun i hi => ?_⟩
      · rw [hft]; rw [hm.frame]
      · rcases Nat.lt_or_ge 1 u.heapN.toNat with h2 | h2
        · exact hlast h2
        · have hu1 : u.heapN.toNat = 1 := by omega
          rw [hsame hu1]
          intro r hr
          have hlen := hm.after.length_eq
          rw [length_liveNodes, hu1, List.length_cons] at hlen
          have hrest : rest = [] := List.length_eq_zero_iff.1 (by omega)
          have := hm.after.subset hr
          rw [hrest, List.mem_singleton] at this
          rw [this, hm.parent, hnu]
      · rw [hleaf i hi, hm.node, if_neg (by have := h.tree.low; omega)]
    · have : s.heapN.toNat = 1 := by omega
      exact ⟨s, by rw [mergeAll, if_neg hN], h, hp, rfl, this, by omega, fun h2 => by omega, fun _ => rfl, fun _ _ => rfl⟩

theorem freqEmpty_iff {s : State} : freqEmpty s = true ↔ usedSymbols s = 0 := by
  simp [freqEmpty, usedSymbols, usedBytes, List.filter_eq_nil_iff]

theorem usedSymbols_eq (s : State) : usedSymbols s = (usedOf s (List.range Config.nsym)).length := rfl

theorem usedSymbols_le (s : State) : usedSymbols s ≤ 256 := (List.length_filter_le _ _).trans (by simp [Config.nsym])

/-- Leaving out the zero counts does not change the sum. -/
theorem sum_usedOf (s : State) (bs : List Nat) : ((usedOf s bs).map (freqOf s)).sum = (bs.map (freqOf s)).sum := by
  induction bs with
  | nil => rfl
  | cons b bs ih =>
    by_cases hf : freqOf s b = 0#64
    · have : usedOf s (b :: bs) = usedOf s bs := by simp [usedOf, hf]
      rw [this, ih, List.map_cons, List.sum_cons, hf, BitVec.zero_add]
    · have : usedOf s (b :: bs) = b :: usedOf s bs := by simp [usedOf, hf]
      rw [this, List.map_cons, List.map_cons, List.sum_cons, List.sum_cons, ih]

/-- The state after the leaves of TB_BUILD have entered: the forest of single leaves. -/
theorem insertLeaves_forest {s : State} (hm : memoriesWf s = true) :
    ∃ t, insertLeaves (List.range Config.nsym) (pqClear s) = .ok () t ∧ QueueOk t ∧
      t = { pqClear s with node := t.node, ins := t.ins, heap := t.heap, heapN := t.heapN } ∧ t.heapN.toNat = usedSymbols s ∧
      (liveNodes t).Perm ((usedOf s (List.range Config.nsym)).map (BitVec.ofNat 9)) ∧
      (∀ i < 256, nodeOf t i = if freqOf s i ≠ 0#64 then some (leafNode i s) else nodeOf s i) ∧
      (∀ b < 256, insOf t b = decide (freqOf s b ≠ 0#64)) ∧
      Forest (fun b => freqOf s b ≠ 0#64) (freqSum s) t := by
  obtain ⟨t, ht, hq, hf, hN, hp, hn, hi⟩ := insertLeaves_ok (bs := List.range Config.nsym) (pqClear_ok hm) List.nodup_range
    (fun b hb => by simpa [Config.nsym] using hb) (fun b _ => rfl)
  have huse : usedOf (pqClear s) (List.range Config.nsym) = usedOf s (List.range Config.nsym) := rfl
  have hlive : liveNodes (pqClear s) = [] := rfl
  rw [huse, hlive, List.append_nil] at hp
  have hmem : ∀ b < 256, b ∈ usedOf s (List.range Config.nsym) ↔ freqOf s b ≠ 0#64 := fun b hb => by simp [usedOf, Config.nsym, hb]
  have hn' : ∀ i < 256, nodeOf t i = if freqOf s i ≠ 0#64 then some (leafNode i s) else nodeOf s i := fun i hi' => by
    rw [hn, huse]; simp only [hmem i hi']; rfl
  refine ⟨t, ht, hq, hf, ?_, hp, hn', fun b hb => ?_, ?_⟩
  · rw [hN, huse, ← usedSymbols_eq]; simp
  · rw [hi, huse]; simp only [hmem b hb, insOf_pqClear, Bool.or_false]
  · have hback : ∀ i ∈ liveNodes t, ∃ b < 256, freqOf s b ≠ 0#64 ∧ i = BitVec.ofNat 9 b := fun i hi' => by
      obtain ⟨b, hb, rfl⟩ := List.mem_map.1 (hp.subset hi')
      have hb' : b < 256 := by simpa [Config.nsym] using List.mem_range.1 (List.mem_filter.1 hb).1
      exact ⟨b, hb', (hmem b hb').1 hb, rfl⟩
    have hpath : ∀ b < 256, ∀ p j, followTree t (BitVec.ofNat 9 b) p = some j → p = [] ∧ j = BitVec.ofNat 9 b := fun b hb p j hj => by
      cases p with
      | nil => simp only [followTree_nil, Option.some.injEq] at hj; exact ⟨rfl, hj.symm⟩
      | cons bit bits => rw [followTree_leaf (by rw [toNat_ofNat_byte hb]; exact hb)] at hj; cases hj
    refine ⟨fun b hb hu => ?_, fun b hb i hi' j hj p q hp' hq' => ?_, fun b hb i hi' p hp' => ?_, ?_⟩
    · exact ⟨_, hp.symm.subset (List.mem_map.2 ⟨b, (hmem b hb).2 hu, rfl⟩), [], by simp⟩
    · obtain ⟨c, hc, -, rfl⟩ := hback i hi'
      obtain ⟨d, hd, -, rfl⟩ := hback j hj
      obtain ⟨rfl, e1⟩ := hpath c hc p _ hp'
      obtain ⟨rfl, e2⟩ := hpath d hd q _ hq'
      exact ⟨e1.symm.trans e2, rfl⟩
    · obtain ⟨c, hc, hu, rfl⟩ := hback i hi'
      obtain ⟨rfl, e1⟩ := hpath c hc p _ hp'
      have := congrArg BitVec.toNat e1
      rw [toNat_ofNat_byte hb, toNat_ofNat_byte hc] at this
      rwa [this]
    · rw [(hp.map (freqAt t)).sum_eq, List.map_map, freqSum, ← sum_usedOf]
      congr 1
      refine List.map_congr_left fun b hb => ?_
      have hb' : b < 256 := by simpa [Config.nsym] using List.mem_range.1 (List.mem_filter.1 hb).1
      simp only [Function.comp, freqAt, toNat_ofNat_byte hb', hn' b hb', (hmem b hb').1 hb, ne_eq, not_false_eq_true, if_true,
        Option.map_some, Option.getD_some, leafNode]

/-- TB_BUILD (R162) on a FREQ that is not all zero: one tree over the used bytes. -/
theorem buildTree_ok {s : State} (hm : memoriesWf s = true) (hu : usedSymbols s ≠ 0) :
    ∃ t, buildTree s = .ok () t ∧ QueueOk t ∧
      t = { s with node := t.node, ins := t.ins, heap := t.heap, heapN := 0#9, nodeNext := t.nodeNext, root := t.root, res := t.root, empty := false } ∧
      t.nodeNext.toNat + 1 = 256 + usedSymbols s ∧ t.root.toNat < t.nodeNext.toNat ∧
      (2 ≤ usedSymbols s → t.root.toNat + 1 = t.nodeNext.toNat) ∧
      (∀ b < 256, insOf t b = decide (freqOf s b ≠ 0#64)) ∧
      (∀ i < 256, nodeOf t i = if freqOf s i ≠ 0#64 then some (leafNode i s) else nodeOf s i) ∧
      (∃ x, nodeOf t t.root.toNat = some x ∧ x.freq = freqSum s) ∧
      (∀ b < 256, freqOf s b ≠ 0#64 → ∃ path, followTree t t.root path = some (BitVec.ofNat 9 b)) ∧
      (∀ b < 256, ∀ p q, followTree t t.root p = some (BitVec.ofNat 9 b) → followTree t t.root q = some (BitVec.ofNat 9 b) → p = q) ∧
      (∀ b < 256, ∀ path, followTree t t.root path = some (BitVec.ofNat 9 b) → freqOf s b ≠ 0#64) := by
  obtain ⟨u, hu1, hqu, hfu, hNu, -, hnu, hiu, hFu⟩ := insertLeaves_forest hm
  have hle := usedSymbols_le s
  obtain ⟨v, hv, hqv, hFv, hfv, hNv, hnv, hlast, hsame, hleafv⟩ :=
    mergeAll_ok (P := Forest (fun b => freqOf s b ≠ 0#64) (freqSum s)) (fun _ _ _ _ _ _ _ hs hp hm => hp.merge hs hm)
      u.heapN.toNat hqu hFu (by omega) (by omega)
  obtain ⟨m, w, hw, hqw, hfw, hNw, hpw, -⟩ := heapExtract_queue hqv (by omega)
  have hlen : (liveNodes w).length = 0 := by have := hpw.length_eq; simp only [length_liveNodes, List.length_cons] at this ⊢; omega
  have hnil : liveNodes w = [] := List.length_eq_zero_iff.1 hlen
  rw [hnil] at hpw
  have hm1 : m ∈ liveNodes v := hpw.symm.subset (by simp)
  have honly : ∀ i ∈ liveNodes v, i = m := fun i hi => by simpa using hpw.subset hi
  have hNw0 : v.heapN - 1#9 = 0#9 := BitVec.eq_of_toNat_eq (by rw [hNw, hNv]; rfl)
  have hnext : u.nodeNext = 256#10 := by rw [hfu]; rfl
  have hnodew : ∀ i, nodeOf w i = nodeOf v i := fun i => by unfold nodeOf; rw [hfw]
  have hpath : ∀ i p, followTree w i p = followTree v i p := fun i p => by
    have : w.node = v.node := by rw [hfw]
    induction p generalizing i with
    | nil => simp
    | cons b p ih => simp only [followTree, hnodew, ih]
  have hmlt := hqv.heap.index m hm1
  let t : State := { w with root := m, res := m, empty := false }
  have htp : ∀ i p, followTree t i p = followTree v i p := fun i p => by
    rw [← hpath]
    induction p generalizing i with
    | nil => simp
    | cons b p ih => simp only [followTree, ih]; rfl
  have hvn : w.nodeNext = v.nodeNext := by rw [hfw]
  refine ⟨t, ?_, ?_, ?_, ?_, ?_, ?_, ?_, ?_, ?_, ?_, ?_, ?_⟩
  · have : freqEmpty s = false := by
      have := mt freqEmpty_iff.1 hu; simpa using this
    rw [buildTree, this, if_neg (by simp), hu1, Run.andThen_ok, hv, Run.andThen_ok, hw, Run.andThen_ok]
  · exact hqw.of_frame rfl rfl rfl rfl rfl rfl rfl rfl (.inr (hvn ▸ hmlt))
  · show t = _
    simp only [t]
    rw [hfw]; simp only [hNw0]
    rw [hfv]; rw [hfu]; rfl
  · show w.nodeNext.toNat + 1 = _
    rw [hvn, hnv, hnext, hNu]; rfl
  · show m.toNat < w.nodeNext.toNat
    rw [hvn]; exact hmlt
  · intro h2
    show m.toNat + 1 = w.nodeNext.toNat
    rw [hvn]; exact hlast (by omega) m hm1
  · intro b hb
    rw [← hiu b hb]
    unfold insOf
    show readCell false w.ins b = _
    rw [hfw, hfv]
  · intro i hi
    rw [← hnu i hi, ← hleafv i hi]
    exact hnodew i
  · have hlive := hqv.ready.node_isSome hm1
    obtain ⟨x, hx⟩ := Option.isSome_iff_exists.1 hlive
    refine ⟨x, (hnodew _).trans hx, ?_⟩
    have := hFv.sum
    rw [(hpw.map (freqAt v)).sum_eq] at this
    simp only [List.map_cons, List.map_nil, List.sum_cons, List.sum_nil, freqAt, hx, Option.map_some, Option.getD_some] at this
    rw [← this]; exact (BitVec.add_zero _).symm
  · intro b hb hf
    obtain ⟨i, hi, path, hp⟩ := hFv.cover b hb hf
    rw [honly i hi] at hp
    exact ⟨path, (htp _ _).trans hp⟩
  · intro b hb p q hp hq
    rw [htp] at hp hq
    exact (hFv.single b hb m hm1 m hm1 p q hp hq).2
  · intro b hb p hp
    rw [htp] at hp
    exact hFv.only b hb m hm1 p hp

/-- TB_BUILD (R162) on an all-zero FREQ: BadCommand and nothing else. -/
theorem buildTree_bad {s : State} (hu : usedSymbols s = 0) : buildTree s = .raise .badCommand s := by
  rw [buildTree, freqEmpty_iff.2 hu, if_pos rfl]

/-! Two runs side by side (R164). -/

/-- Two states with the same live nodes and the same cells for the used leaves and the internal nodes. -/
structure Alike (used : Nat → Prop) (s u : State) : Prop where
  live : (liveNodes s).Perm (liveNodes u)
  next : s.nodeNext = u.nodeNext
  node : ∀ i < s.nodeNext.toNat, (i < 256 → used i) → nodeOf s i = nodeOf u i
  entered : ∀ i ∈ liveNodes s, i.toNat < 256 → used i.toNat

theorem Alike.heapN {used : Nat → Prop} {s u : State} (h : Alike used s u) : s.heapN = u.heapN :=
  BitVec.eq_of_toNat_eq (by have := h.live.length_eq; simpa using this)

/-- The least of a live set is one node. -/
theorem least_unique {s : State} (h : QueueOk s) {a b : NodeIx} {l : List NodeIx} (hl : ∀ i ∈ l, i ∈ liveNodes s) (ha : a ∈ l) (hb : b ∈ l)
    (h1 : LeastOf s a l) (h2 : LeastOf s b l) : a = b := by
  by_contra hab
  have e1 := nodeLess_of_least h (hl a ha) (hl b hb) hb hab h1
  obtain ⟨x, hx⟩ := Option.isSome_iff_exists.1 (h.ready.node_isSome (hl a ha))
  obtain ⟨y, hy⟩ := Option.isSome_iff_exists.1 (h.ready.node_isSome (hl b hb))
  simp only [nodeLess, hx, hy, h2 a ha y x hy hx] at e1
  cases e1

/-- Merging keeps two runs alike. -/
theorem Alike.merge {used : Nat → Prop} {s u t v : State} {a b a' b' : NodeIx} {x y x' y' : TreeNode} {rest rest' : List NodeIx}
    (h : Alike used s u) (hs : QueueOk s) (hm : Merged s t a b x y rest) (hm' : Merged u v a' b' x' y' rest') :
    Alike used t v := by
  have hnode : ∀ i ∈ liveNodes s, nodeOf s i.toNat = nodeOf u i.toNat := fun i hi => h.node _ (hs.heap.index i hi) (h.entered i hi)
  have hmem : ∀ i, i ∈ a' :: b' :: rest' → i ∈ liveNodes s := fun i hi => h.live.symm.subset (hm'.before.symm.subset hi)
  have hmem' : ∀ i, i ∈ a :: b :: rest → i ∈ liveNodes s := fun i hi => hm.before.symm.subset hi
  have haa : a = a' := least_unique hs (l := liveNodes s) (fun _ hi => hi) (hmem' a (by simp)) (hmem a' (by simp)) hm.least fun j hj p q hp hq => by
    rw [hnode a' (hmem a' (by simp))] at hp
    rw [hnode j hj] at hq
    exact hm'.least j (h.live.subset hj) p q hp hq
  subst haa
  have hrest : (b :: rest).Perm (b' :: rest') := (List.perm_cons a).1 (hm.before.symm.trans (h.live.trans hm'.before))
  have hbb : b = b' := least_unique hs (l := b :: rest) (fun i hi => hmem' i (List.mem_cons_of_mem _ hi)) (by simp)
    (hrest.symm.subset (by simp)) hm.next fun j hj p q hp hq => by
      rw [hnode b' (hmem b' (by simp))] at hp
      rw [hnode j (hmem' j (List.mem_cons_of_mem _ hj))] at hq
      exact hm'.next j (hrest.subset hj) p q hp hq
  subst hbb
  have hrest' : rest.Perm rest' := (List.perm_cons b).1 hrest
  have hx : x = x' := Option.some.inj (hm.left.symm.trans ((hnode a (hmem a (by simp))).trans hm'.left))
  have hy : y = y' := Option.some.inj (hm.right.symm.trans ((hnode b (hmem b (by simp))).trans hm'.right))
  subst hx hy
  refine ⟨?_, ?_, fun i hi hu' => ?_, fun i hi hi' => ?_⟩
  · exact hm.after.trans (by rw [h.next]; exact (hrest'.cons _).trans hm'.after.symm)
  · rw [hm.frame, hm'.frame]; exact congrArg (· + 1#10) h.next
  · rw [hm.frame] at hi
    simp only [hm.nodeNext] at hi
    rw [hm.node, hm'.node, ← h.next]
    split
    · rfl
    · exact h.node i (by omega) hu'
  · have := hm.after.subset hi
    rcases List.mem_cons.1 this with rfl | hr
    · rw [hm.parent] at hi'; have := hs.tree.low; omega
    · exact h.entered i (hmem' i (by simp [hr])) hi'

/-- So does the merge loop. -/
theorem Alike.mergeAll {used : Nat → Prop} (n : Nat) {s u t v : State} (h : Alike used s u) (hs : QueueOk s) (hu : QueueOk u)
    (ht : mergeAll n s = .ok () t) (hv : Sys2Proof.Machine.mergeAll n u = .ok () v) : Alike used t v := by
  induction n generalizing s u with
  | zero => cases ht; cases hv; exact h
  | succ n ih =>
    rw [Sys2Proof.Machine.mergeAll] at ht hv
    rw [← h.heapN] at hv
    by_cases hN : 1 < s.heapN.toNat
    · obtain ⟨s', a, b, x, y, rest, hs1, hqs, hm⟩ := mergeStep_ok hs hN
      obtain ⟨u', a', b', x', y', rest', hu1, hqu, hm'⟩ := mergeStep_ok hu (by rw [← h.heapN]; exact hN)
      rw [if_pos hN, hs1, Run.andThen_ok] at ht
      rw [if_pos hN, hu1, Run.andThen_ok] at hv
      exact ih (h.merge hs hm hm') hqs hqu ht hv
    · rw [if_neg hN] at ht hv
      cases ht; cases hv; exact h

/-- TB_BUILD from the same counts makes the same tree (R164). -/
theorem buildTree_alike {s u t v : State} (hs : memoriesWf s = true) (hu : memoriesWf u = true) (hf : ∀ b < 256, freqOf s b = freqOf u b)
    (hne : usedSymbols s ≠ 0) (ht : buildTree s = .ok () t) (hv : buildTree u = .ok () v) :
    t.root = v.root ∧ t.nodeNext = v.nodeNext ∧
      ∀ i < t.nodeNext.toNat, (i < 256 → freqOf s i ≠ 0#64) → nodeOf t i = nodeOf v i := by
  have huse : usedOf s (List.range Config.nsym) = usedOf u (List.range Config.nsym) := by
    unfold usedOf
    refine List.filter_congr fun b hb => ?_
    rw [hf b (by simpa [Config.nsym] using hb)]
  have hus : usedSymbols s = usedSymbols u := by rw [usedSymbols_eq, usedSymbols_eq, huse]
  obtain ⟨s1, hs1, hqs1, hfs1, hNs1, hps1, hns1, -, hFs1⟩ := insertLeaves_forest hs
  obtain ⟨u1, hu1, hqu1, hfu1, hNu1, hpu1, hnu1, -, -⟩ := insertLeaves_forest hu
  have hle := usedSymbols_le s
  have hnext : s1.nodeNext = u1.nodeNext := by rw [hfs1, hfu1]; rfl
  have hnext' : s1.nodeNext.toNat = 256 := by rw [hfs1]; rfl
  have h1 : Alike (fun b => freqOf s b ≠ 0#64) s1 u1 := by
    refine ⟨hps1.trans (huse ▸ hpu1.symm), hnext, fun i hi hi' => ?_, fun i hi hi' => ?_⟩
    · have hi256 : i < 256 := by omega
      have h0 := hi' hi256
      rw [hns1 i hi256, hnu1 i hi256, ← hf i hi256, if_pos h0, if_pos h0]
      simp only [leafNode, hf i hi256]
    · refine hFs1.only _ hi' i hi [] ?_
      rw [followTree_nil]; congr 1; exact BitVec.eq_of_toNat_eq (toNat_ofNat_byte hi').symm
  obtain ⟨s2, hs2, hqs2, -, -, hNs2, -⟩ := mergeAll_ok (P := fun _ => True) (fun _ _ _ _ _ _ _ _ _ _ => trivial) s1.heapN.toNat hqs1 trivial
    (by omega) (by omega)
  obtain ⟨u2, hu2, hqu2, -, -, hNu2, -⟩ := mergeAll_ok (P := fun _ => True) (fun _ _ _ _ _ _ _ _ _ _ => trivial) u1.heapN.toNat hqu1 trivial
    (by omega) (by omega)
  have h2 := h1.mergeAll _ hqs1 hqu1 hs2 (by rw [hNs1, hus, ← hNu1]; exact hu2)
  obtain ⟨m, s3, hs3, -, hfs3, -, hps3, -⟩ := heapExtract_queue hqs2 (by omega)
  obtain ⟨k, u3, hu3, -, hfu3, -, hpu3, -⟩ := heapExtract_queue hqu2 (by omega)
  have hmk : m = k := by
    have hk : k ∈ m :: liveNodes s3 := hps3.subset (h2.live.symm.subset (hpu3.symm.subset (by simp)))
    have hlen := hps3.length_eq
    rw [length_liveNodes, hNs2, List.length_cons] at hlen
    rw [List.length_eq_zero_iff.1 (show (liveNodes s3).length = 0 by omega)] at hk
    exact (List.mem_singleton.1 hk).symm
  have he : ∀ {w : State}, usedSymbols w ≠ 0 → ¬ freqEmpty w = true := fun hw => mt freqEmpty_iff.1 hw
  rw [buildTree, if_neg (he hne), hs1, Run.andThen_ok, hs2, Run.andThen_ok, hs3, Run.andThen_ok] at ht
  rw [buildTree, if_neg (he (hus ▸ hne)), hu1, Run.andThen_ok, hu2, Run.andThen_ok, hu3, Run.andThen_ok] at hv
  cases ht; cases hv
  refine ⟨hmk, ?_, fun i hi hi' => ?_⟩
  · show s3.nodeNext = u3.nodeNext
    rw [hfs3, hfu3]; exact h2.next
  · show readCell none s3.node i = readCell none u3.node i
    rw [hfs3, hfu3]
    refine h2.node i ?_ hi'
    have : s3.nodeNext = s2.nodeNext := by rw [hfs3]
    rw [← this]; exact hi

end Sys2Proof.Machine
end

