-- ==== Sys2Proof/Laws/CodeGen.lean ====
section
/-! SUPPORT. What CG_GEN's walk records (43_code_table_generator.md R181): every code is the path of its byte's leaf. -/

namespace Sys2Proof.Machine

/-- CT in canonical form. -/
def CtWf (s : State) : Prop := cellsWf none Config.nsym s.ct = true

theorem Inv.ctWf {s : State} (h : Inv s) : CtWf s := (memoriesWf_iff.1 h.memories).2.2.2.2.1

theorem ctOf_setCt {s : State} (h : CtWf s) (b c : Nat) (code : Code) : ctOf (setCt b code s) c = if c = b then some code else ctOf s c := by
  simp only [ctOf, setCt_ct, readCell_writeCell _ _ _ h]

theorem setCt_wf {s : State} (h : CtWf s) {b : Nat} (hb : b < 256) (code : Code) : CtWf (setCt b code s) := cellsWf_writeCell _ hb h

/-- What a walk from `i` with the path so far leaves in CT: a byte's cell is as it was and no path leads to the byte, or it holds the path so far and a path to it. -/
def Walked (s t : State) (i : NodeIx) (sofar : Code) (b : Nat) : Prop :=
  (ctOf t b = ctOf s b ∧ ∀ q, followTree s i q ≠ some (BitVec.ofNat 9 b)) ∨
    ∃ q, ctOf t b = some (sofar ++ q) ∧ followTree s i q = some (BitVec.ofNat 9 b)

theorem followTree_ct (s : State) (ct : Cells (Option Code)) (i : NodeIx) (p : Code) : followTree { s with ct := ct } i p = followTree s i p := by
  induction p generalizing i with
  | nil => simp
  | cons b p ih => simp only [followTree, nodeOf, ih]

/-- The walk of a leaf records the path so far. -/
theorem walked_leaf {s : State} (hw : CtWf s) {i : NodeIx} (hl : i.toNat < 256) (sofar : Code) :
    ∃ t, (.ok () (setCt i.toNat sofar s) : Run Unit) = .ok () t ∧ t = { s with ct := t.ct } ∧ CtWf t ∧ ∀ b < 256, Walked s t i sofar b := by
  refine ⟨_, rfl, rfl, setCt_wf hw hl _, fun b hb => ?_⟩
  by_cases hbi : b = i.toNat
  · subst hbi
    refine .inr ⟨[], by rw [ctOf_setCt hw, if_pos rfl, List.append_nil], ?_⟩
    rw [followTree_nil]; congr 1; exact BitVec.eq_of_toNat_eq (toNat_ofNat_byte hb).symm
  · refine .inl ⟨by rw [ctOf_setCt hw, if_neg hbi], fun q hq => ?_⟩
    cases q with
    | nil =>
      rw [followTree_nil, Option.some.injEq] at hq
      exact hbi (by rw [hq, toNat_ofNat_byte hb])
    | cons c q => rw [followTree_leaf hl] at hq; cases hq

/-- The walk from an allocated node (R181). -/
theorem walkTree_ok (n : Nat) (i : NodeIx) (sofar : Code) {s : State} (ht : TreeOk s) (hw : CtWf s) (hi : i.toNat < s.nodeNext.toNat)
    (hn : i.toNat ≤ 255 + n) :
    ∃ t, walkTree n i sofar s = .ok () t ∧ t = { s with ct := t.ct } ∧ CtWf t ∧ ∀ b < 256, Walked s t i sofar b := by
  induction n generalizing i sofar s with
  | zero =>
    have hl : i.toNat < 256 := by omega
    rw [walkTree, if_pos hl]; exact walked_leaf hw hl sofar
  | succ n ih =>
    rcases Nat.lt_or_ge i.toNat 256 with hl | hl
    · rw [walkTree, if_pos hl]; exact walked_leaf hw hl sofar
    · obtain ⟨x, hx, h1, h2⟩ := ht.node hl hi
      obtain ⟨u, hu, hfu, hwu, hWu⟩ := ih x.left (sofar ++ [false]) ht hw (by omega) (by omega)
      have htu : TreeOk u := by
        refine ⟨by rw [hfu]; exact ht.low, by rw [hfu]; exact ht.high, fun j hj hj' => ?_, by rw [hfu]; exact ht.root⟩
        rw [childrenBelow_congr (s := s) (by rw [hfu]; rfl)]
        exact ht.cells j (by rw [hfu] at hj; exact hj) hj'
      obtain ⟨v, hv, hfv, hwv, hWv⟩ := ih x.right (sofar ++ [true]) htu hwu (by rw [hfu]; show _ < s.nodeNext.toNat; omega) (by omega)
      have hfol : ∀ j p, followTree u j p = followTree s j p := fun j p => by rw [hfu]; exact followTree_ct s _ j p
      have hcons : ∀ bit bits, followTree s i (bit :: bits) = followTree s (if bit then x.right else x.left) bits :=
        followTree_cons hl hx
      refine ⟨v, ?_, by rw [hfv]; rw [hfu], hwv, fun b hb => ?_⟩
      · have : nodeAt i s = .ok x s := by simp [nodeAt, cellValue, hx]
        rw [walkTree, if_neg (by omega), this, Run.andThen_ok, hu, Run.andThen_ok, hv]
      · rcases hWv b hb with ⟨hv1, hv2⟩ | ⟨q, hq, hq'⟩
        · rcases hWu b hb with ⟨hu1, hu2⟩ | ⟨q, hq, hq'⟩
          · refine .inl ⟨hv1.trans hu1, fun q hq => ?_⟩
            cases q with
            | nil =>
              rw [followTree_nil, Option.some.injEq] at hq
              rw [hq, toNat_ofNat_byte hb] at hl; omega
            | cons bit bits =>
              rw [hcons] at hq
              cases bit
              · exact hu2 bits hq
              · exact hv2 bits ((hfol _ _).trans hq)
          · refine .inr ⟨false :: q, ?_, ?_⟩
            · rw [hv1, hq, List.append_assoc]; rfl
            · rw [hcons]; exact hq'
        · refine .inr ⟨true :: q, ?_, ?_⟩
          · rw [hq, List.append_assoc]; rfl
          · rw [hcons]; rw [hfol] at hq'; exact hq'

/-- CG_GEN without a tree: BadCommand and nothing else (R181). -/
theorem generateCodes_bad {s : State} (h : s.root = Config.nil) : generateCodes s = .raise .badCommand s := by
  rw [generateCodes, if_pos h]

/-- CG_GEN on a single leaf (R182). -/
theorem generateCodes_single {s : State} (h : s.root.toNat < 256) :
    generateCodes s = .ok () { s with ct := [(s.root.toNat, some [false])] } := by
  have : s.root ≠ Config.nil := fun e => by rw [e] at h; exact absurd h (by decide)
  rw [generateCodes, if_neg this, if_pos h]
  rfl

/-- CG_GEN on a tree with an internal root (R181): only CT changes, and every code is a path of its byte's leaf. -/
theorem generateCodes_ok {s : State} (ht : TreeOk s) (h1 : 256 ≤ s.root.toNat) (h2 : s.root ≠ Config.nil) :
    ∃ t, generateCodes s = .ok () t ∧ t = { s with ct := t.ct } ∧ CtWf t ∧
      (∀ b code, ctOf t b = some code → b < 256 ∧ 1 ≤ code.length ∧ code.length ≤ 255 ∧ followTree s s.root code = some (BitVec.ofNat 9 b)) ∧
      (∀ b < 256, ∀ code, followTree s s.root code = some (BitVec.ofNat 9 b) → (ctOf t b).isSome = true) := by
  have hroot : s.root.toNat < s.nodeNext.toNat := ht.root.resolve_left h2
  have hhigh := ht.high
  let s₀ : State := { s with ct := [] }
  have ht₀ : TreeOk s₀ := ⟨ht.low, ht.high, fun j hj hj' => ht.cells j hj hj', ht.root⟩
  have hr510 : s.root.toNat ≤ 255 + internalCells := by simp [internalCells, Config.nodeCap, Config.nsym] at *; omega
  obtain ⟨t, hrun, hf, hw, hW⟩ := walkTree_ok internalCells s.root [] ht₀ (by rfl) hroot hr510
  have hfol : ∀ p, followTree s₀ s.root p = followTree s s.root p := fun p => followTree_ct s [] s.root p
  refine ⟨t, ?_, by rw [hf], hw, fun b code hc => ?_, fun b hb code hc => ?_⟩
  · rw [generateCodes, if_neg h2, if_neg (by omega)]; exact hrun
  · have hb : b < 256 := by
      by_contra hge
      have : ctOf t b = none := readCell_of_le hw (by simp only [Config.nsym]; omega)
      rw [this] at hc; cases hc
    rcases hW b hb with ⟨he, -⟩ | ⟨q, hq, hq'⟩
    · rw [he] at hc; cases hc
    · rw [List.nil_append] at hq
      rw [hq, Option.some.injEq] at hc
      subst hc
      rw [hfol] at hq'
      have hlen := followTree_length ht hroot hq'
      refine ⟨hb, ?_, ?_, hq'⟩
      · cases q with
        | nil =>
          rw [followTree_nil, Option.some.injEq] at hq'
          rw [hq', toNat_ofNat_byte hb] at h1; omega
        | cons _ _ => simp
      · simp [Config.nodeCap] at hhigh; omega
  · rcases hW b hb with ⟨-, hno⟩ | ⟨q, hq, -⟩
    · exact absurd ((hfol code).trans hc) (hno code)
    · rw [hq]; rfl

end Sys2Proof.Machine
end

