-- ==== Sys2Proof/Laws/Streams.lean ====
section
/-! SUPPORT. What the stream primitives do (20_memory.md R62, R63), one law a primitive, and what the loops over them do. -/

namespace Sys2Proof.Machine

theorem srcRead_eq_ok {s t : State} {b : Byte} :
    srcRead s = .ok b t ↔ s.src[s.rp.toNat]? = some b ∧ srcFails s = false ∧ t = { s with rp := s.rp + 1#64 } := by
  unfold srcRead
  cases h : s.src[s.rp.toNat]? with
  | none => simp
  | some c => cases hf : srcFails s <;> simp [eq_comm]

/-- Everything SrcRead can do with a byte left: give it, or fail where the host's stream fails. -/
theorem srcRead_ends {s : State} (h : s.rp.toNat < s.src.length) :
    (srcRead s).Ends (fun b t => s.src[s.rp.toNat]? = some b ∧ srcFails s = false ∧ t = { s with rp := s.rp + 1#64 })
      fun k t => k = .ioError ∧ t = s ∧ srcFails s = true := by
  unfold srcRead
  rw [List.getElem?_eq_getElem h]
  cases hf : srcFails s <;> simp

theorem srcRead_leaves (s : State) : (srcRead s).Leaves fun t => t = { s with rp := t.rp } := by
  unfold srcRead
  split
  · trivial
  · split <;> simp

/-- RP does not wrap on a source a host may present (10_state.md R28). -/
theorem rp_succ {s : State} (hs : StreamsOk s) (h : s.rp.toNat < s.src.length) : (s.rp + 1#64).toNat = s.rp.toNat + 1 := by
  have := hs.len
  simp only [Config.lenMax] at this
  rw [BitVec.toNat_add]; simp; omega

theorem srcEof_iff {s : State} : srcEof s = true ↔ s.rp.toNat = s.src.length := by simp [srcEof]

theorem srcEof_false {s : State} (hs : StreamsOk s) : srcEof s = false ↔ s.rp.toNat < s.src.length := by
  have := hs.pos; simp [srcEof]; omega

/-- A byte read leaves the streams as they must be. -/
theorem streamsOk_advance {s : State} (hs : StreamsOk s) (h : s.rp.toNat < s.src.length) :
    StreamsOk { s with rp := s.rp + 1#64 } :=
  ⟨by simpa [rp_succ hs h] using h, hs.len⟩

theorem snkEnd_limited {s : State} (h : s.snkLimit ≠ none) : snkEnd s = .raise .ioError s := by
  unfold snkEnd; split <;> simp_all

theorem snkEnd_unlimited {s : State} (h : s.snkLimit = none) : snkEnd s = .stop .sinkTooLong := by simp [snkEnd, h]

theorem snkCap_limited {s : State} {m : Count} (h : s.snkLimit = some m) : snkCap s = m.toNat := by simp [snkCap, h]

theorem snkCap_le (s : State) : snkCap s ≤ Config.lenMax := by
  unfold snkCap
  split
  · exact Nat.le_refl _
  · rename_i n _
    have := n.isLt
    simp only [Config.lenMax]; omega

/-- The end of the sink changes nothing. -/
theorem snkEnd_leaves {s : State} {P : State → Prop} (h : P s) : (snkEnd s).Leaves P := by
  unfold snkEnd; split
  · trivial
  · exact h

theorem snkEnd_ne_ok {s t : State} : snkEnd s ≠ .ok () t := by unfold snkEnd; split <;> simp

theorem snkWrite_eq_ok {s t : State} {b : Byte} :
    snkWrite b s = .ok () t ↔ snkFull s = false ∧ t = { s with snk := s.snk ++ [b] } := by
  unfold snkWrite
  cases snkFull s <;> simp [eq_comm, snkEnd_ne_ok]

theorem SinkFits.le {n m : Nat} {s : State} (h : SinkFits n s) (hm : m ≤ n) : SinkFits m s := h.imp id fun h => by omega

/-- What is left of a bound on the sink after some bytes. -/
theorem SinkFits.append {n : Nat} {s : State} {bs : List Byte} (h : SinkFits (bs.length + n) s) : SinkFits n { s with snk := s.snk ++ bs } :=
  h.imp id fun h => by simp; omega

/-- Everything the end of a sink can be (20_memory.md R63; log 9). -/
theorem snkEnd_ends {n : Nat} {s : State} (hf : snkCap s < s.snk.length + n) :
    (snkEnd s).Ends (fun _ _ => False) (fun k t => k = .ioError ∧ t = s) (¬ SinkFits n s) := by
  unfold snkEnd SinkFits
  cases hl : s.snkLimit with
  | none => simp [snkCap, hl] at hf; simp; omega
  | some m => exact ⟨rfl, rfl⟩

/-- Everything SnkWrite can do: append, fail where the sink has a limit and is full, or stop where no sink may be longer. -/
theorem snkWrite_ends (b : Byte) (s : State) :
    (snkWrite b s).Ends (fun _ t => snkFull s = false ∧ t = { s with snk := s.snk ++ [b] })
      (fun k t => k = .ioError ∧ t = s ∧ snkFull s = true) (¬ SinkFits 1 s) := by
  unfold snkWrite
  cases hf : snkFull s with
  | false => exact ⟨rfl, rfl⟩
  | true => exact (snkEnd_ends (by simp [snkFull] at hf; omega)).mono (fun _ _ h => h.elim) fun _ _ h => ⟨h.1, h.2, rfl⟩

theorem snkFull_false_of_takes {n : Nat} {s : State} (h : SinkTakes (n + 1) s) : snkFull s = false := by
  simp only [snkFull, SinkTakes, decide_eq_false_iff_not] at *; omega

theorem SinkTakes.le {n m : Nat} {s : State} (h : SinkTakes n s) (hm : m ≤ n) : SinkTakes m s := by
  simp only [SinkTakes] at *; omega

theorem sinkTakes_append {n : Nat} {s : State} {bs : List Byte} (h : SinkTakes (bs.length + n) s) :
    SinkTakes n { s with snk := s.snk ++ bs } := by
  simp only [SinkTakes, snkCap, List.length_append] at *; omega

/-- A sink that takes all the bytes gets all of them. -/
theorem snkWriteAll_ok {bs : List Byte} {s : State} (h : SinkTakes bs.length s) :
    snkWriteAll bs s = .ok () { s with snk := s.snk ++ bs } := by
  induction bs generalizing s with
  | nil => simp [snkWriteAll]
  | cons b bs ih =>
    rw [snkWriteAll, snkWrite_eq_ok.2 ⟨snkFull_false_of_takes h, rfl⟩, Run.andThen_ok,
      ih (sinkTakes_append (bs := [b]) (by simpa [Nat.add_comm] using h))]
    simp

/-- A sink that does not take all the bytes gets as many as it takes, and then the write fails. -/
theorem snkWriteAll_raise {bs : List Byte} {s : State} {m : Count} (hm : s.snkLimit = some m) (hbs : bs ≠ [])
    (h : m.toNat < s.snk.length + bs.length) :
    snkWriteAll bs s = .raise .ioError { s with snk := s.snk ++ bs.take (m.toNat - s.snk.length) } := by
  induction bs generalizing s with
  | nil => exact absurd rfl hbs
  | cons b bs ih =>
    by_cases hf : m.toNat ≤ s.snk.length
    · have hf' : snkFull s = true := by simp [snkFull, snkCap, hm, hf]
      simp [snkWriteAll, snkWrite, snkEnd_limited (s := s) (by simp [hm]), hf', show m.toNat - s.snk.length = 0 by omega]
    · have hf' : snkFull s = false := by simp [snkFull, snkCap, hm]; omega
      obtain ⟨r, hr⟩ : ∃ r, m.toNat - s.snk.length = r + 1 := ⟨m.toNat - s.snk.length - 1, by omega⟩
      rw [snkWriteAll, snkWrite_eq_ok.2 ⟨hf', rfl⟩, Run.andThen_ok, ih (by simpa using hm) ?_ (by simp at h ⊢; omega)]
      · simp [hr, show m.toNat - (s.snk.length + 1) = r by omega]
      · rintro rfl; simp at h; omega

/-- Whatever happens, the sink grows by a first part of the bytes and nothing else changes. -/
theorem snkWriteAll_ends (bs : List Byte) (s : State) :
    (snkWriteAll bs s).Ends (fun _ t => t = { s with snk := s.snk ++ bs })
      (fun k t => k = .ioError ∧ ∃ n, t = { s with snk := s.snk ++ bs.take n }) (¬ SinkFits bs.length s) := by
  induction bs generalizing s with
  | nil => simp [snkWriteAll]
  | cons b bs ih =>
    rw [snkWriteAll]
    refine Run.Ends.andThen (P := fun _ t => t = { s with snk := s.snk ++ [b] })
      (((snkWrite_ends b s).mono (fun _ _ h => h.2) fun k t h => ⟨h.1, 0, by simpa using h.2.1⟩).stops (mt (SinkFits.le · (by simp)))) ?_
    rintro - t rfl
    refine ((ih _).mono (fun _ t h => by simpa using h) ?_).stops (mt fun h => SinkFits.append (by simpa [Nat.add_comm] using h))
    rintro k t ⟨hk, n, rfl⟩
    exact ⟨hk, n + 1, by simp⟩

/-- The sink of `t` is that of `s` with bytes after it, as many as the host's sink holds. -/
structure SinkGrows (s t : State) : Prop where
  prefixed : s.snk <+: t.snk
  held : t.snk.length ≤ max s.snk.length (snkCap s)
  limit : t.snkLimit = s.snkLimit

theorem sinkGrows_refl {s t : State} (h : t.snk = s.snk := by rfl) (hl : t.snkLimit = s.snkLimit := by rfl) : SinkGrows s t :=
  ⟨by rw [h], by rw [h]; omega, hl⟩

theorem SinkGrows.trans {s t u : State} (h : SinkGrows s t) (h' : SinkGrows t u) : SinkGrows s u := by
  have hc : snkCap t = snkCap s := by simp only [snkCap, h.limit]
  have h1 := h.held
  have h2 := h'.held
  exact ⟨h.prefixed.trans h'.prefixed, by omega, h'.limit.trans h.limit⟩

theorem snkWrite_grows (b : Byte) (s : State) : (snkWrite b s).Leaves (SinkGrows s) := by
  unfold snkWrite; split
  · exact snkEnd_leaves sinkGrows_refl
  · rename_i hf
    exact ⟨List.prefix_append .., by simp [snkFull] at hf; simp; omega, rfl⟩

/-- A sequence grows the sink if both parts do. -/
theorem Run.Leaves.grows {α β : Type} {r : Run α} {k : α → State → Run β} {s : State} (h : r.Leaves (SinkGrows s))
    (hk : ∀ a t, (k a t).Leaves (SinkGrows t)) : (r.andThen k).Leaves (SinkGrows s) :=
  h.andThen fun a t ht => (hk a t).mono fun _ hu => ht.trans hu

theorem snkWriteAll_grows (bs : List Byte) (s : State) : (snkWriteAll bs s).Leaves (SinkGrows s) := by
  induction bs generalizing s with
  | nil => exact sinkGrows_refl
  | cons b bs ih => exact (snkWrite_grows b s).grows fun _ t => ih t

theorem srcRead_grows (s : State) : (srcRead s).Leaves (SinkGrows s) :=
  (srcRead_leaves s).mono fun t ht => sinkGrows_refl (by rw [ht]) (by rw [ht])

theorem srcFails_false_of_gives {n : Nat} {s : State} (h : SourceGives (n + 1) s) : srcFails s = false := by
  unfold srcFails
  cases hf : s.srcFail with
  | none => rfl
  | some f => have := h.2 f hf; simp [BitVec.lt_def]; omega

theorem sourceGives_advance {n : Nat} {s : State} (hs : StreamsOk s) (h : SourceGives (n + 1) s) :
    SourceGives n { s with rp := s.rp + 1#64 } := by
  have h1 := rp_succ hs (by have := h.1; omega)
  exact ⟨by have := h.1; simp [h1]; omega, fun f hf => by have := h.2 f hf; simp [h1]; omega⟩

theorem sourceRest_cons {s : State} (h : s.rp.toNat < s.src.length) :
    sourceRest s = s.src[s.rp.toNat] :: s.src.drop (s.rp.toNat + 1) := by
  simp [sourceRest]

/-- Reading one of the bytes a source gives. -/
theorem srcRead_ok {n : Nat} {s : State} {b : Byte} {bs : List Byte} (h : SourceGives (n + 1) s) (hb : sourceRest s = b :: bs) :
    srcRead s = .ok b { s with rp := s.rp + 1#64 } := by
  have hlt : s.rp.toNat < s.src.length := by have := h.1; omega
  rw [sourceRest_cons hlt] at hb
  simp only [List.cons.injEq] at hb
  exact srcRead_eq_ok.2 ⟨by rw [List.getElem?_eq_getElem hlt, hb.1], srcFails_false_of_gives h, rfl⟩

theorem sourceRest_advance {s : State} {b : Byte} {bs : List Byte} (hs : StreamsOk s) (hb : sourceRest s = b :: bs) :
    sourceRest { s with rp := s.rp + 1#64 } = bs := by
  have hlt : s.rp.toNat < s.src.length := by
    rcases Nat.lt_or_ge s.rp.toNat s.src.length with h | h
    · exact h
    · rw [sourceRest, List.drop_eq_nil_of_le h] at hb; cases hb
  rw [sourceRest_cons hlt] at hb
  simp only [sourceRest, rp_succ hs hlt]
  exact (List.cons.inj hb).2

theorem length_sourceRest (s : State) : (sourceRest s).length = srcLeft s := by simp [sourceRest, srcLeft]

/-- A source that gives `n` bytes gives them in order, and RP moves past them. -/
theorem srcTake_ok {k : ErrKind} {n : Nat} {s : State} (hs : StreamsOk s) (h : SourceGives n s) :
    srcTake k n s = .ok ((sourceRest s).take n) { s with rp := s.rp + BitVec.ofNat 64 n } := by
  induction n generalizing s with
  | zero => simp [srcTake]
  | succ n ih =>
    have hlt : s.rp.toNat < s.src.length := by have := h.1; omega
    have hb := sourceRest_cons hlt
    rw [srcTake, if_neg (by simpa using (srcEof_false hs).2 hlt), srcRead_ok h hb, Run.andThen_ok,
      ih (streamsOk_advance hs hlt) (sourceGives_advance hs h), Run.andThen_ok, sourceRest_advance hs hb, hb]
    simp only [List.take_succ_cons, Run.ok.injEq, true_and]
    congr 1
    rw [BitVec.add_assoc]; congr 1
    apply BitVec.eq_of_toNat_eq; simp; omega

/-- Everything `srcTake` can do: give the bytes, meet the end of input, or meet a failing read; RP stands after the bytes read. -/
theorem srcTake_ends (k : ErrKind) (n : Nat) {s : State} (hs : StreamsOk s) :
    (srcTake k n s).Ends
      (fun bs t => bs.length = n ∧ t = { s with rp := t.rp } ∧ StreamsOk t ∧ srcLeft t + n = srcLeft s)
      (fun e t => (e = k ∨ e = .ioError) ∧ t = { s with rp := t.rp } ∧ StreamsOk t) := by
  induction n generalizing s with
  | zero => simp [srcTake, hs]
  | succ n ih =>
    rw [srcTake]
    split
    · simp [hs]
    · rename_i hE
      have hlt : s.rp.toNat < s.src.length := (srcEof_false hs).1 (by simpa using hE)
      refine Run.Ends.andThen ((srcRead_ends hlt).mono (fun _ _ h => h) fun e t h => ⟨.inr h.1, by simp [h.2.1], h.2.1 ▸ hs⟩) ?_
      rintro b - ⟨-, -, rfl⟩
      refine Run.Ends.andThen ((ih (streamsOk_advance hs hlt)).mono (fun _ _ h => h) ?_) ?_
      · rintro e t ⟨he, ht, hst⟩
        exact ⟨he, by rw [ht], hst⟩
      · rintro bs t ⟨hl, ht, hst, hleft⟩
        refine ⟨by simp [hl], by rw [ht], hst, ?_⟩
        have h1 := rp_succ hs hlt
        simp only [srcLeft, h1] at hleft ⊢
        omega

/-- What a loop over the source leaves: if a pass keeps `P`, so does the loop. -/
theorem whileSrc_leaves {α : Type} {body : α → State → Run α} {P : State → Prop}
    (hb : ∀ a s, P s → (body a s).Leaves P) (n : Nat) (a : α) (s : State) (h : P s) : (whileSrc body n a s).Leaves P := by
  induction n generalizing a s with
  | zero => rw [whileSrc]; split <;> simp [h]
  | succ n ih =>
    rw [whileSrc]
    split
    · exact h
    · exact Run.Leaves.andThen (hb a s h) fun a t ht => ih a t ht

/-- A loop over the source always ends: each pass that ends normally keeps `P` and takes at least one byte, so the passes allowed are enough (48_system.md R301). -/
theorem whileSrc_ends {α : Type} {body : α → State → Run α} {P : α → State → Prop} {Q : ErrKind → State → Prop} {S : Prop}
    (hP : ∀ a s, P a s → StreamsOk s)
    (hb : ∀ a s, P a s → s.rp.toNat < s.src.length → (body a s).Ends (fun a' t => P a' t ∧ srcLeft t < srcLeft s) Q S)
    (n : Nat) (a : α) (s : State) (h : P a s) (hn : srcLeft s ≤ n) :
    (whileSrc body n a s).Ends (fun a' t => P a' t ∧ srcEof t = true) Q S := by
  induction n generalizing a s with
  | zero =>
    have hE : srcEof s = true := by
      have := (hP a s h).pos; simp only [srcLeft] at hn; exact srcEof_iff.2 (by omega)
    simp [whileSrc, hE, h]
  | succ n ih =>
    rw [whileSrc]
    split
    · exact ⟨h, ‹_›⟩
    · rename_i hE
      refine Run.Ends.andThen (hb a s h ((srcEof_false (hP a s h)).1 (by simpa using hE))) ?_
      rintro a' t ⟨ht, hlt⟩
      exact ih a' t ht (by omega)

/-- RP after `n` of the bytes a source gives. -/
theorem rp_add {s : State} (hs : StreamsOk s) {n : Nat} (h : s.rp.toNat + n ≤ s.src.length) : (s.rp + BitVec.ofNat 64 n).toNat = s.rp.toNat + n := by
  have := hs.len
  simp only [Config.lenMax] at this
  rw [BitVec.toNat_add, BitVec.toNat_ofNat, Nat.mod_eq_of_lt (a := n) (by omega), Nat.mod_eq_of_lt (by omega)]

theorem streamsOk_add {s : State} (hs : StreamsOk s) {n : Nat} (h : s.rp.toNat + n ≤ s.src.length) :
    StreamsOk { s with rp := s.rp + BitVec.ofNat 64 n } := ⟨by simp only [rp_add hs h]; exact h, hs.len⟩

/-- What is left of the source after `n` of the bytes it gives. -/
theorem sourceRest_add {s : State} (hs : StreamsOk s) {n : Nat} (h : s.rp.toNat + n ≤ s.src.length) :
    sourceRest { s with rp := s.rp + BitVec.ofNat 64 n } = (sourceRest s).drop n := by
  simp only [sourceRest, rp_add hs h, List.drop_drop]

theorem sourceGives_add {s : State} (hs : StreamsOk s) {n m : Nat} (h : SourceGives (n + m) s) :
    SourceGives m { s with rp := s.rp + BitVec.ofNat 64 n } := by
  have h1 := h.1
  refine ⟨?_, fun f hf => ?_⟩
  · simp only [rp_add hs (show s.rp.toNat + n ≤ s.src.length by omega)]; omega
  · have := h.2 f hf
    simp only [rp_add hs (show s.rp.toNat + n ≤ s.src.length by omega)]; omega

theorem sourceGives_le {s : State} {n m : Nat} (h : SourceGives n s) (hm : m ≤ n) : SourceGives m s :=
  ⟨by have := h.1; omega, fun f hf => by have := h.2 f hf; omega⟩

/-- RP at the end of the source. -/
theorem rp_end {s : State} (hs : StreamsOk s) : s.rp + BitVec.ofNat 64 (srcLeft s) = BitVec.ofNat 64 s.src.length := by
  have h1 := hs.pos
  have h2 := hs.len
  simp only [Config.lenMax] at h2
  apply BitVec.eq_of_toNat_eq
  rw [rp_add hs (by simp only [srcLeft]; omega), BitVec.toNat_ofNat, Nat.mod_eq_of_lt (by omega)]
  simp only [srcLeft]; omega

theorem ofNat_succ (n : Nat) : 1#64 + BitVec.ofNat 64 n = BitVec.ofNat 64 (n + 1) := by
  apply BitVec.eq_of_toNat_eq; simp; omega

/-! The state after some bytes have been read. -/

/-- RP moved past `n` bytes. -/
def advance (n : Nat) (s : State) : State := { s with rp := s.rp + BitVec.ofNat 64 n }

theorem advance_zero (s : State) : advance 0 s = s := by simp [advance]

theorem advance_one (s : State) : { s with rp := s.rp + 1#64 } = advance 1 s := rfl

theorem advance_advance (n m : Nat) (s : State) : advance m (advance n s) = advance (n + m) s := by
  simp only [advance, BitVec.add_assoc]
  congr 2
  apply BitVec.eq_of_toNat_eq; simp

theorem SourceGives.streamsOk {n : Nat} {s : State} (h : SourceGives n s) (hs : StreamsOk s) : StreamsOk (advance n s) := streamsOk_add hs h.1

theorem SourceGives.rest {n : Nat} {s : State} (h : SourceGives n s) (hs : StreamsOk s) : sourceRest (advance n s) = (sourceRest s).drop n :=
  sourceRest_add hs h.1

theorem SourceGives.gives {n m : Nat} {s : State} (h : SourceGives (n + m) s) (hs : StreamsOk s) : SourceGives m (advance n s) := sourceGives_add hs h

theorem SourceGives.le {n m : Nat} {s : State} (h : SourceGives n s) (hm : m ≤ n) : SourceGives m s := sourceGives_le h hm

theorem SourceGives.left {n : Nat} {s : State} (h : SourceGives n s) (hs : StreamsOk s) : srcLeft (advance n s) + n = srcLeft s := by
  have := h.1
  simp only [srcLeft, advance, rp_add hs h.1]; omega

/-- The next byte of a source that gives it. -/
theorem SourceGives.read {s : State} {b : Byte} {bs : List Byte} (h : SourceGives 1 s) (hb : sourceRest s = b :: bs) :
    srcRead s = .ok b (advance 1 s) := srcRead_ok h hb

theorem SourceGives.not_eof {n : Nat} {s : State} (h : SourceGives (n + 1) s) (hs : StreamsOk s) : srcEof s = false :=
  (srcEof_false hs).2 (by have := h.1; omega)

theorem SourceGives.take {k : ErrKind} {n : Nat} {s : State} (h : SourceGives n s) (hs : StreamsOk s) :
    srcTake k n s = .ok ((sourceRest s).take n) (advance n s) := srcTake_ok hs h

/-! A source whose next read after some bytes fails. -/

theorem SourceFailsAfter.gives {n : Nat} {s : State} (h : SourceFailsAfter n s) : SourceGives n s := by
  obtain ⟨h1, f, hf, hm⟩ := h
  exact ⟨by omega, fun g hg => by rw [hf] at hg; cases hg; omega⟩

theorem SourceFailsAfter.after {n m : Nat} {s : State} (h : SourceFailsAfter (n + m) s) (hs : StreamsOk s) : SourceFailsAfter m (advance n s) := by
  obtain ⟨h1, f, hf, hm⟩ := h
  have hr : (advance n s).rp.toNat = s.rp.toNat + n := rp_add hs (by omega)
  exact ⟨by rw [hr]; show _ < s.src.length; omega, f, hf, by rw [hr]; omega⟩

theorem SourceFailsAfter.not_eof {n : Nat} {s : State} (h : SourceFailsAfter n s) (hs : StreamsOk s) : srcEof s = false :=
  (srcEof_false hs).2 (by have := h.1; omega)

theorem SourceFailsAfter.read {s : State} (h : SourceFailsAfter 0 s) : srcRead s = .raise .ioError s := by
  obtain ⟨h1, f, hf, hm⟩ := h
  rw [srcRead, List.getElem?_eq_getElem (by omega)]
  simp only
  rw [if_pos (by simp only [srcFails, hf, BitVec.le_def, decide_eq_true_eq]; omega)]

/-- A failing byte among those taken: RP stays at it (20_memory.md R62). -/
theorem srcTake_fails {k : ErrKind} {n m : Nat} {s : State} (hs : StreamsOk s) (h : SourceFailsAfter m s) (hn : m < n) :
    srcTake k n s = .raise .ioError (advance m s) := by
  induction m generalizing n s with
  | zero =>
    obtain ⟨n, rfl⟩ := Nat.exists_eq_succ_of_ne_zero (show n ≠ 0 by omega)
    rw [srcTake, if_neg (by rw [h.not_eof hs]; simp), h.read, Run.andThen_raise, advance_zero]
  | succ m ih =>
    obtain ⟨n, rfl⟩ := Nat.exists_eq_succ_of_ne_zero (show n ≠ 0 by omega)
    have hg : SourceGives 1 s := h.gives.le (by omega)
    rw [srcTake, if_neg (by rw [h.not_eof hs]; simp), hg.read (sourceRest_cons (by have := h.1; omega)), Run.andThen_ok,
      ih (hg.streamsOk hs) (SourceFailsAfter.after (n := 1) (by rwa [Nat.add_comm]) hs) (by omega), Run.andThen_raise, advance_advance, Nat.add_comm]

theorem eof_iff_rest {s : State} (hs : StreamsOk s) : srcEof s = true ↔ sourceRest s = [] := by
  have := hs.pos
  rw [srcEof_iff, sourceRest, List.drop_eq_nil_iff]; omega

/-- All of the source has been read. -/
theorem advance_all (s : State) (hs : StreamsOk s) : advance (srcLeft s) s = { s with rp := BitVec.ofNat 64 s.src.length } := by
  simp only [advance, rp_end hs]

end Sys2Proof.Machine
end

