-- ==== Sys2Proof/Laws/Frame.lean ====
section
/-! SUPPORT. The footprint of every shared operation, from any state and whatever its ending (20_memory.md R61): which fields it may change, and that the memories stay canonical. -/

namespace Sys2Proof.Machine

/- One theorem after another: elaborated all at once they wait for each other in more threads than memory holds. -/
set_option Elab.async false

/-- `t` differs from `s` as `f` allows, and its memories are canonical if those of `s` are. -/
def Only (f : State → State → State) (s t : State) : Prop := t = f s t ∧ (memoriesWf s = true → memoriesWf t = true)

/-- The fields a group of operations may change. -/
def onQueue (s t : State) : State := { s with heap := t.heap, heapN := t.heapN }
def onInsert (s t : State) : State := { s with node := t.node, ins := t.ins, heap := t.heap, heapN := t.heapN }
def onExtract (s t : State) : State := { s with heap := t.heap, heapN := t.heapN, res := t.res, empty := t.empty }
def onMerge (s t : State) : State :=
  { s with node := t.node, heap := t.heap, heapN := t.heapN, nodeNext := t.nodeNext, res := t.res, empty := t.empty }
def onBuild (s t : State) : State :=
  { s with node := t.node, ins := t.ins, heap := t.heap, heapN := t.heapN, nodeNext := t.nodeNext, root := t.root, res := t.res, empty := t.empty }
def onCodes (s t : State) : State := { s with ct := t.ct }
def onTrie (s t : State) : State := { s with trie := t.trie, trieN := t.trieN }
def onTrieBuild (s t : State) : State := { s with trie := t.trie, trieN := t.trieN, decOne := t.decOne }
def onSource (s t : State) : State := { s with rp := t.rp }
def onSink (s t : State) : State := { s with snk := t.snk }
def onHeader (s t : State) : State := { s with rp := t.rp, origSize := t.origSize }
def onScan (s t : State) : State := { s with rp := t.rp, freq := t.freq, origSize := t.origSize }
def onTable (s t : State) : State := { s with rp := t.rp, ct := t.ct, origSize := t.origSize }
def onPack (s t : State) : State := { s with rp := t.rp, snk := t.snk }
def onDecode (s t : State) : State := { s with rp := t.rp, snk := t.snk, sdState := t.sdState, sdCur := t.sdCur, sdCnt := t.sdCnt }

theorem Only.trans {f : State → State → State} {s t u : State} (h : Only f s t) (h' : Only f t u)
    (hf : f (f s t) u = f s u := by rfl) : Only f s u := ⟨by
      have h1 := h.1
      have h2 := h'.1
      calc u = f t u := h2
        _ = f (f s t) u := by rw [← h1]
        _ = f s u := hf, fun hm => h'.2 (h.2 hm)⟩

/-- A wider footprint. -/
theorem Only.wider {f g : State → State → State} {s t : State} (h : Only f s t) (hf : g s (f s t) = f s t := by rfl) : Only g s t := by
  have h1 := h.1
  refine ⟨?_, h.2⟩
  calc t = f s t := h1
    _ = g s (f s t) := hf.symm
    _ = g s t := by rw [← h1]

variable {α β : Type}

/-- A sequence keeps to a footprint if both parts do. -/
theorem Run.Leaves.seq {f : State → State → State} {r : Run α} {k : α → State → Run β} {s : State} (h : r.Leaves (Only f s))
    (hk : ∀ a t, (k a t).Leaves (Only f t)) (hf : ∀ t u, f (f s t) u = f s u := by intros; rfl) : (r.andThen k).Leaves (Only f s) :=
  h.andThen fun a t ht => (hk a t).mono fun _ hu => ht.trans hu (hf t _)

theorem Run.Leaves.wider {f g : State → State → State} {r : Run α} {s : State} (h : r.Leaves (Only f s))
    (hf : ∀ t, g s (f s t) = f s t := by intros; rfl) : r.Leaves (Only g s) := h.mono fun t ht => ht.wider (hf t)

theorem only_refl (f : State → State → State) (s : State) (hf : f s s = s := by rfl) : Only f s s := ⟨hf.symm, id⟩

/-! Reads of cells change nothing. -/

theorem cellValue_frame (f : State → State → State) (m : MemName) (i : Nat) (v : Option α) (s : State) (hf : f s s = s := by rfl) :
    (cellValue m i v s).Leaves (Only f s) := by
  unfold cellValue; split
  · exact only_refl f s hf
  · trivial

/-! The heap. -/

theorem setHeap_frame (k : Nat) (v : NodeIx) (s : State) : (setHeap k v s).Leaves (Only onQueue s) := by
  unfold setHeap; split
  · rename_i hk
    refine ⟨rfl, fun hm => ?_⟩
    obtain ⟨h1, h2, h3, h4, h5, h6⟩ := memoriesWf_iff.1 hm
    exact memoriesWf_iff.2 ⟨h1, h2, h3, cellsWf_writeCell _ hk h4, h5, h6⟩
  · trivial

theorem heapAt_frame (k : Nat) (s : State) : (heapAt k s).Leaves (Only onQueue s) := cellValue_frame ..

theorem lessAt_frame (p q : Nat) (s : State) : (lessAt p q s).Leaves (Only onQueue s) :=
  (heapAt_frame p s).seq fun _ t => (heapAt_frame q t).seq fun _ u =>
    (cellValue_frame onQueue _ _ _ u).seq fun _ v => (cellValue_frame onQueue _ _ _ v).seq fun _ w => only_refl onQueue w

theorem swapHeap_frame (p q : Nat) (s : State) : (swapHeap p q s).Leaves (Only onQueue s) :=
  (heapAt_frame p s).seq fun _ t => (heapAt_frame q t).seq fun _ u => (setHeap_frame p _ u).seq fun _ v => setHeap_frame q _ v

theorem siftUp_frame (n k : Nat) (s : State) : (siftUp n k s).Leaves (Only onQueue s) := by
  induction n generalizing k s with
  | zero => exact only_refl onQueue s
  | succ n ih =>
    rw [siftUp]
    split
    · exact only_refl onQueue s
    · refine (lessAt_frame _ _ s).seq fun b t => ?_
      split
      · exact (swapHeap_frame _ _ t).seq fun _ u => ih _ u
      · exact only_refl onQueue t

theorem smallerOf_frame (c m : Nat) (s : State) : (smallerOf c m s).Leaves (Only onQueue s) := by
  unfold smallerOf; split
  · exact (lessAt_frame c m s).seq fun _ t => only_refl onQueue t
  · exact only_refl onQueue s

theorem siftDown_frame (n k : Nat) (s : State) : (siftDown n k s).Leaves (Only onQueue s) := by
  induction n generalizing k s with
  | zero => exact only_refl onQueue s
  | succ n ih =>
    rw [siftDown]
    refine (smallerOf_frame _ _ s).seq fun m t => (smallerOf_frame _ _ t).seq fun m u => ?_
    split
    · exact only_refl onQueue u
    · exact (swapHeap_frame _ _ u).seq fun _ v => ih _ v

theorem heapInsert_frame (i : NodeIx) (s : State) : (heapInsert i s).Leaves (Only onQueue s) :=
  (setHeap_frame _ i s).seq fun _ t =>
    (siftUp_frame _ _ { t with heapN := t.heapN + 1#9 }).mono fun _ hu => Only.trans (t := { t with heapN := t.heapN + 1#9 }) ⟨rfl, id⟩ hu

theorem heapExtract_frame (s : State) : (heapExtract s).Leaves (Only onQueue s) := by
  unfold heapExtract; split
  · exact only_refl onQueue s
  · refine (heapAt_frame 0 s).seq fun m t => (swapHeap_frame _ _ t).seq fun _ u => ?_
    exact Run.Leaves.seq ((siftDown_frame _ _ { u with heapN := u.heapN - 1#9 }).mono fun _ hv => Only.trans (t := { u with heapN := u.heapN - 1#9 }) ⟨rfl, id⟩ hv)
      fun _ v => only_refl onQueue v

/-- PQ_EXT (R147). -/
theorem pqExtract_frame (s : State) : (pqExtract s).Leaves (Only onExtract s) :=
  Run.Leaves.seq ((heapExtract_frame s).wider (g := onExtract)) fun _ _ => ⟨rfl, id⟩

theorem setNode_wf {i : Nat} {v : TreeNode} {s : State} (hi : i < Config.nodeCap) (hm : memoriesWf s = true) :
    memoriesWf { s with node := writeCell none s.node i (some v) } = true := by
  obtain ⟨h1, h2, h3, h4, h5, h6⟩ := memoriesWf_iff.1 hm
  exact memoriesWf_iff.2 ⟨h1, h2, cellsWf_writeCell _ hi h3, h4, h5, h6⟩

/-- PQ_INS (R146). -/
theorem pqInsert_frame (n : Nat) (s : State) : (pqInsert n s).Leaves (Only onInsert s) := by
  unfold pqInsert; split
  · exact only_refl onInsert s
  · rename_i hn
    refine Run.Leaves.seq (f := onInsert) ?_ fun _ t => ?_
    · unfold setNode; split
      · exact ⟨rfl, setNode_wf ‹_›⟩
      · trivial
    · refine ((heapInsert_frame _ { t with ins := writeCell false t.ins n true }).wider (g := onInsert)).mono fun _ hu =>
        Only.trans (t := { t with ins := writeCell false t.ins n true }) ⟨rfl, fun hm => ?_⟩ hu
      obtain ⟨h1, h2, h3, h4, h5, h6⟩ := memoriesWf_iff.1 hm
      exact memoriesWf_iff.2 ⟨h1, cellsWf_writeCell _ (by simp only [Config.nsym]; omega) h2, h3, h4, h5, h6⟩

/-- TB_MERGE (R161). -/
theorem mergeStep_frame (s : State) : (mergeStep s).Leaves (Only onMerge s) := by
  unfold mergeStep; split
  · exact only_refl onMerge s
  · refine ((heapExtract_frame s).wider (g := onMerge)).seq fun a t => ((heapExtract_frame t).wider (g := onMerge)).seq fun b u =>
      (cellValue_frame onMerge _ _ _ u).seq fun x v => (cellValue_frame onMerge _ _ _ v).seq fun y w => ?_
    refine Run.Leaves.seq (f := onMerge) ?_ fun _ p => ?_
    · unfold setNode; split
      · exact ⟨rfl, setNode_wf ‹_›⟩
      · trivial
    · refine Run.Leaves.seq (((heapInsert_frame _ { p with nodeNext := p.nodeNext + 1#10 }).wider (g := onMerge)).mono fun _ hu =>
        Only.trans (t := { p with nodeNext := p.nodeNext + 1#10 }) ⟨rfl, id⟩ hu) fun _ q => ⟨rfl, id⟩

theorem insertLeaves_frame (bs : List Nat) (s : State) : (insertLeaves bs s).Leaves (Only onBuild s) := by
  induction bs generalizing s with
  | nil => exact only_refl onBuild s
  | cons b bs ih =>
    rw [insertLeaves]
    split
    · exact ih s
    · exact ((pqInsert_frame b s).wider (g := onBuild)).seq fun _ t => ih t

theorem mergeAll_frame (n : Nat) (s : State) : (mergeAll n s).Leaves (Only onBuild s) := by
  induction n generalizing s with
  | zero => exact only_refl onBuild s
  | succ n ih =>
    rw [mergeAll]
    split
    · exact ((mergeStep_frame s).wider (g := onBuild)).seq fun _ t => ih t
    · exact only_refl onBuild s

theorem pqClear_frame (s : State) : Only onBuild s (pqClear s) := ⟨rfl, fun hm => by
  obtain ⟨h1, h2, h3, h4, h5, h6⟩ := memoriesWf_iff.1 hm
  exact memoriesWf_iff.2 ⟨h1, rfl, h3, h4, h5, h6⟩⟩

/-- TB_BUILD (R162). -/
theorem buildTree_frame (s : State) : (buildTree s).Leaves (Only onBuild s) := by
  unfold buildTree; split
  · exact only_refl onBuild s
  · refine Run.Leaves.seq ((insertLeaves_frame _ (pqClear s)).mono fun _ hu => (pqClear_frame s).trans hu) fun _ t =>
      (mergeAll_frame _ t).seq fun _ u => ((heapExtract_frame u).wider (g := onBuild)).seq fun m v => ⟨rfl, id⟩

/-! The code store. -/

theorem setCt_frame {b : Nat} (hb : b < 256) (code : Code) (s : State) : Only onCodes s (setCt b code s) := ⟨rfl, fun hm => by
  obtain ⟨h1, h2, h3, h4, h5, h6⟩ := memoriesWf_iff.1 hm
  exact memoriesWf_iff.2 ⟨h1, h2, h3, h4, cellsWf_writeCell _ hb h5, h6⟩⟩

theorem clearCt_frame (s : State) : Only onCodes s { s with ct := [] } := ⟨rfl, fun hm => by
  obtain ⟨h1, h2, h3, h4, h5, h6⟩ := memoriesWf_iff.1 hm
  exact memoriesWf_iff.2 ⟨h1, h2, h3, h4, rfl, h6⟩⟩

theorem walkTree_frame (n : Nat) (i : NodeIx) (path : Code) (s : State) : (walkTree n i path s).Leaves (Only onCodes s) := by
  induction n generalizing i path s with
  | zero =>
    rw [walkTree]; split
    · exact setCt_frame ‹_› _ s
    · trivial
  | succ n ih =>
    rw [walkTree]; split
    · exact setCt_frame ‹_› _ s
    · exact (cellValue_frame onCodes _ _ _ s).seq fun c t => (ih _ _ t).seq fun _ u => ih _ _ u

/-- CG_GEN (R181). -/
theorem generateCodes_frame (s : State) : (generateCodes s).Leaves (Only onCodes s) := by
  unfold generateCodes; split
  · exact only_refl onCodes s
  · split
    · exact (clearCt_frame s).trans (setCt_frame ‹_› _ _)
    · exact (walkTree_frame _ _ _ { s with ct := [] }).mono fun _ hu => (clearCt_frame s).trans hu

/-! The trie. -/

theorem setTrie_frame (i : Nat) (v : TrieNode) (s : State) : (setTrie i v s).Leaves (Only onTrie s) := by
  unfold setTrie; split
  · rename_i hi
    refine ⟨rfl, fun hm => ?_⟩
    obtain ⟨h1, h2, h3, h4, h5, h6⟩ := memoriesWf_iff.1 hm
    exact memoriesWf_iff.2 ⟨h1, h2, h3, h4, h5, cellsWf_writeCell _ hi h6⟩
  · trivial

theorem trieNew_frame (s : State) : (trieNew s).Leaves (Only onTrie s) := (setTrie_frame _ _ s).seq fun _ _ => ⟨rfl, id⟩

theorem trieStep_frame (bit : Bool) (cur : TrieIx) (s : State) : (trieStep bit cur s).Leaves (Only onTrie s) := by
  refine (cellValue_frame onTrie _ _ _ s).seq fun c t => ?_
  split
  · exact only_refl onTrie t
  · split
    · exact (trieNew_frame t).seq fun i u => (setTrie_frame _ _ u).seq fun _ v => only_refl onTrie v
    · exact only_refl onTrie t

theorem trieWalk_frame (bits : Code) (cur : TrieIx) (s : State) : (trieWalk bits cur s).Leaves (Only onTrie s) := by
  induction bits generalizing cur s with
  | nil => exact only_refl onTrie s
  | cons bit bits ih => exact (trieStep_frame bit cur s).seq fun c t => ih c t

theorem trieMark_frame (sym : Byte) (cur : TrieIx) (s : State) : (trieMark sym cur s).Leaves (Only onTrie s) := by
  refine (cellValue_frame onTrie _ _ _ s).seq fun c t => ?_
  split
  · exact only_refl onTrie t
  · split
    · exact only_refl onTrie t
    · exact setTrie_frame _ _ t

theorem trieAddAll_frame (bs : List Nat) (p : Nat × Nat) (s : State) : (trieAddAll bs p s).Leaves (Only onTrie s) := by
  induction bs generalizing p s with
  | nil => exact only_refl onTrie s
  | cons b bs ih =>
    rw [trieAddAll]
    split
    · exact ih p s
    · exact Run.Leaves.seq ((trieWalk_frame _ _ s).seq fun c t => trieMark_frame _ c t) fun _ t => ih _ t

/-- DT_BUILD (R253). -/
theorem buildTrie_frame (s : State) : (buildTrie s).Leaves (Only onTrieBuild s) := by
  refine Run.Leaves.seq (((trieNew_frame { s with trieN := 0#17, decOne := 0#9 }).wider (g := onTrieBuild)).mono fun _ hu =>
    Only.trans (t := { s with trieN := 0#17, decOne := 0#9 }) ⟨rfl, id⟩ hu) fun _ t => ((trieAddAll_frame _ _ t).wider (g := onTrieBuild)).seq fun p u => ?_
  split
  · exact ⟨rfl, id⟩
  · exact only_refl onTrieBuild u

/-! The streams. -/

theorem srcRead_frame (s : State) : (srcRead s).Leaves (Only onSource s) := (srcRead_leaves s).mono fun t ht =>
  ⟨ht, fun hm => by rw [ht]; exact hm⟩

theorem srcTake_frame (k : ErrKind) (n : Nat) (s : State) : (srcTake k n s).Leaves (Only onSource s) := by
  induction n generalizing s with
  | zero => exact only_refl onSource s
  | succ n ih =>
    rw [srcTake]; split
    · exact only_refl onSource s
    · exact (srcRead_frame s).seq fun b t => (ih t).seq fun bs u => only_refl onSource u

/-- CF_RDH (R266). -/
theorem readHeader_frame (s : State) : (readHeader s).Leaves (Only onHeader s) :=
  Run.Leaves.seq ((srcTake_frame _ _ s).wider (g := onHeader)) fun _ _ => ⟨rfl, id⟩

theorem snkWrite_frame (b : Byte) (s : State) : (snkWrite b s).Leaves (Only onSink s) := by
  unfold snkWrite; split
  · exact snkEnd_leaves (only_refl onSink s)
  · exact ⟨rfl, id⟩

theorem snkWriteAll_frame (bs : List Byte) (s : State) : (snkWriteAll bs s).Leaves (Only onSink s) := by
  induction bs generalizing s with
  | nil => exact only_refl onSink s
  | cons b bs ih => exact (snkWrite_frame b s).seq fun _ t => ih t

/-- A loop over the source keeps to the footprint of its pass. -/
theorem whileSrc_frame {f : State → State → State} {body : α → State → Run α} (hb : ∀ a s, (body a s).Leaves (Only f s)) (n : Nat) (a : α) (s : State)
    (hf : ∀ s t u, f (f s t) u = f s u := by intros; rfl) (hr : ∀ s, f s s = s := by intros; rfl) : (whileSrc body n a s).Leaves (Only f s) := by
  induction n generalizing a s with
  | zero =>
    rw [whileSrc]; split
    · exact only_refl f s (hr s)
    · trivial
  | succ n ih =>
    rw [whileSrc]; split
    · exact only_refl f s (hr s)
    · exact (hb a s).seq (fun a t => ih a t) (hf s)

/-- FC_SCAN (R131). -/
theorem scanSource_frame (s : State) : (scanSource s).Leaves (Only onScan s) := by
  refine Run.Leaves.seq ((whileSrc_frame (f := onScan) (fun n t => ?_) _ _ { s with freq := [] }).mono fun _ hu =>
    Only.trans (t := { s with freq := [] }) ⟨rfl, fun hm => ?_⟩ hu) fun n t => ⟨rfl, id⟩
  · refine ((srcRead_frame t).wider (g := onScan)).seq fun b u => ⟨rfl, fun hm => ?_⟩
    obtain ⟨h1, h2, h3, h4, h5, h6⟩ := memoriesWf_iff.1 hm
    exact memoriesWf_iff.2 ⟨cellsWf_writeCell _ b.isLt h1, h2, h3, h4, h5, h6⟩
  · obtain ⟨h1, h2, h3, h4, h5, h6⟩ := memoriesWf_iff.1 hm
    exact memoriesWf_iff.2 ⟨rfl, h2, h3, h4, h5, h6⟩

theorem addRecord_frame (sym : Byte) (code : Code) (s : State) : (addRecord sym code s).Leaves (Only onTable s) := by
  unfold addRecord; split
  · exact only_refl onTable s
  · exact (setCt_frame sym.isLt code s).wider

theorem readRecord_frame (a : Unit) (s : State) : (readRecord a s).Leaves (Only onTable s) := by
  refine ((srcRead_frame s).wider (g := onTable)).seq fun sym t => ?_
  split
  · exact only_refl onTable t
  · refine ((srcRead_frame t).wider (g := onTable)).seq fun len u => ?_
    split
    · exact only_refl onTable u
    · split
      · exact only_refl onTable u
      · exact ((srcTake_frame _ _ u).wider (g := onTable)).seq fun bytes v => addRecord_frame _ _ v

/-- `RdTable` (R195). -/
theorem readTable_frame (w : Nat) (s : State) : (readTable w s).Leaves (Only onTable s) := by
  refine Run.Leaves.seq (((srcTake_frame _ _ { s with ct := [] }).wider (g := onTable)).mono fun _ hu =>
    Only.trans (t := { s with ct := [] }) ((clearCt_frame s).wider) hu) fun header t => ?_
  exact (whileSrc_frame readRecord_frame _ _ { t with origSize := fromLe header }).mono fun _ hu =>
    Only.trans (t := { t with origSize := fromLe header }) ⟨rfl, id⟩ hu

theorem readDigit_frame (s : State) : (readDigit s).Leaves (Only onSource s) := by
  unfold readDigit; split
  · exact only_refl onSource s
  · refine (srcRead_frame s).seq fun c t => ?_
    split <;> exact only_refl onSource t

theorem readLine_frame (n : Nat) (toks : List Byte) (s : State) : (readLine n toks s).Leaves (Only onSource s) := by
  induction n generalizing toks s with
  | zero =>
    rw [readLine]; split
    · exact only_refl onSource s
    · trivial
  | succ n ih =>
    rw [readLine]
    refine (readDigit_frame s).seq fun h t => (readDigit_frame t).seq fun l u => ?_
    split
    · exact only_refl onSource u
    · refine (srcRead_frame u).seq fun c v => ?_
      split
      · exact only_refl onSource v
      · split
        · exact ih _ v
        · exact only_refl onSource v

theorem takeRecordLine_frame (toks : List Byte) (s : State) : (takeRecordLine toks s).Leaves (Only onTable s) := by
  unfold takeRecordLine
  split
  · split
    · exact only_refl onTable s
    · split
      · exact only_refl onTable s
      · exact addRecord_frame _ _ s
  · exact only_refl onTable s

/-- `RdTableX` (R203). -/
theorem readTableText_frame (s : State) : (readTableText s).Leaves (Only onTable s) := by
  unfold readTableText; split
  · exact (clearCt_frame s).wider
  · refine Run.Leaves.seq (((readLine_frame _ _ { s with ct := [] }).wider (g := onTable)).mono fun _ hu =>
      Only.trans (t := { s with ct := [] }) ((clearCt_frame s).wider) hu) fun toks t => ?_
    split
    · exact only_refl onTable t
    · exact (whileSrc_frame (fun _ u => ((readLine_frame _ _ u).wider (g := onTable)).seq fun toks v => takeRecordLine_frame toks v) _ _
        { t with origSize := fromLe toks }).mono fun _ hu => Only.trans (t := { t with origSize := fromLe toks }) ⟨rfl, id⟩ hu

theorem flushBytes_frame (n : Nat) (acc : List Bool) (s : State) : (flushBytes n acc s).Leaves (Only onSink s) := by
  induction n generalizing acc s with
  | zero => exact only_refl onSink s
  | succ n ih =>
    rw [flushBytes]; split
    · exact (snkWrite_frame _ s).seq fun _ t => ih _ t
    · exact only_refl onSink s

/-- BP_ENC (R233). -/
theorem packSource_frame (s : State) : (packSource s).Leaves (Only onPack s) := by
  refine (whileSrc_frame (fun acc t => ((srcRead_frame t).wider (g := onPack)).seq fun b u => ?_) _ _ s).seq fun acc t => ?_
  · split
    · exact only_refl onPack u
    · exact (flushBytes_frame _ _ u).wider
  · unfold flushRest; split
    · exact only_refl onPack t
    · exact (snkWrite_frame _ t).wider

theorem sdBit_frame (bit : Bool) (s : State) : (sdBit bit s).Leaves (Only onDecode s) := by
  have hd : ∀ t, Only onDecode t (checkDone t) := fun t => by
    unfold checkDone; split
    · exact ⟨rfl, id⟩
    · exact only_refl onDecode t
  refine (cellValue_frame onDecode _ _ _ s).seq fun c t => ?_
  split
  · exact only_refl onDecode t
  · refine Run.Leaves.seq ((cellValue_frame onDecode _ _ _ { t with sdCur := childOf bit c }).mono fun _ hu =>
      Only.trans (t := { t with sdCur := childOf bit c }) ⟨rfl, id⟩ hu) fun d u => ?_
    split
    · exact Run.Leaves.seq (((snkWrite_frame _ u).wider (g := onDecode)).seq fun _ v => ⟨rfl, id⟩) fun _ v => hd v
    · exact hd u

theorem sdBits_frame (bits : List Bool) (s : State) : (sdBits bits s).Leaves (Only onDecode s) := by
  induction bits generalizing s with
  | nil => exact only_refl onDecode s
  | cons bit bits ih =>
    refine (sdBit_frame bit s).seq fun _ t => ?_
    split
    · exact only_refl onDecode t
    · exact ih t

theorem sdLoop_frame (n : Nat) (s : State) : (sdLoop n s).Leaves (Only onDecode s) := by
  induction n generalizing s with
  | zero =>
    rw [sdLoop]; split
    · exact only_refl onDecode s
    · trivial
  | succ n ih =>
    rw [sdLoop]; split
    · exact only_refl onDecode s
    · refine ((srcRead_frame s).wider (g := onDecode)).seq fun b t => (sdBits_frame _ t).seq fun _ u => ?_
      split
      · exact only_refl onDecode u
      · exact ih u

/-- SD_RUN (R270). -/
theorem runDecoder_frame (s : State) : (runDecoder s).Leaves (Only onDecode s) := by
  unfold runDecoder; split
  · exact only_refl onDecode s
  · simp only
    split
    · exact ⟨rfl, id⟩
    · split
      · unfold repeatSymbol; simp only
        split
        · exact snkEnd_leaves ⟨rfl, id⟩
        · exact ⟨rfl, id⟩
      · exact (sdLoop_frame _ { s with sdState := .walking, sdCur := 0#16, sdCnt := 0#64 }).mono fun _ hu =>
          Only.trans (t := { s with sdState := .walking, sdCur := 0#16, sdCnt := 0#64 }) ⟨rfl, id⟩ hu

end Sys2Proof.Machine
end

