-- ==== Sys2Proof/Laws/Commands.lean ====
section
/-! SUPPORT. TB_BUILD is a sequence of commands (42_tree_builder.md R162): what its loops do, the commands they name do one after another. -/

namespace Sys2Proof.Machine

theorem runCommands_cons {i : Instr} {s t : State} (h : exec i s = .next t) (rest : List Instr) :
    runCommands (i :: rest) s = runCommands rest t := by rw [runCommands, h]

theorem runCommands_append {is js : List Instr} {s t : State} (h : runCommands is s = .next t) :
    runCommands (is ++ js) s = runCommands js t := by
  induction is generalizing s with
  | nil => cases h; rfl
  | cons i is ih =>
    rw [List.cons_append]
    cases hi : exec i s with
    | next u => rw [runCommands_cons hi] at h ⊢; exact ih h
    | fault e => rw [runCommands, hi] at h; cases h
    | refused r => rw [runCommands, hi] at h; cases h

/-- The insertion loop runs PQ_INS on each byte of non-zero count, in the list's order. -/
theorem insertLeaves_commands {bs : List Nat} {s t : State} (h : insertLeaves bs s = .ok () t) :
    runCommands ((usedOf s bs).map .pqIns) s = .next t := by
  induction bs generalizing s with
  | nil => cases h; rfl
  | cons b bs ih =>
    rw [insertLeaves] at h
    by_cases hf : freqOf s b = 0#64
    · rw [if_pos hf] at h
      rw [show usedOf s (b :: bs) = usedOf s bs by simp [usedOf, hf]]
      exact ih h
    · rw [if_neg hf] at h
      obtain ⟨⟨⟩, u, hu, h⟩ := Run.andThen_eq_ok.1 h
      have hfr := pqInsert_frame b s
      rw [hu, Run.leaves_ok] at hfr
      have hfo : ∀ c, freqOf u c = freqOf s c := fun c => by rw [hfr.1]; rfl
      have huse : usedOf u bs = usedOf s bs := by simp only [usedOf, hfo]
      rw [show usedOf s (b :: bs) = b :: usedOf s bs by simp [usedOf, hf], List.map_cons, runCommands_cons (t := u), ← huse]
      · exact ih h
      · exact finish_eq_next.2 (.inl hu)

/-- The merge loop runs TB_MERGE once for every live node it takes away. -/
theorem mergeAll_commands (n : Nat) {s t : State} (hq : QueueOk s) (h : mergeAll n s = .ok () t) :
    runCommands (List.replicate (s.heapN.toNat - t.heapN.toNat) .tbMerge) s = .next t ∧ t.heapN.toNat ≤ s.heapN.toNat := by
  induction n generalizing s with
  | zero => cases h; simp [runCommands]
  | succ n ih =>
    rw [mergeAll] at h
    split at h
    · rename_i hN
      obtain ⟨u, a, b, x, y, rest, hu, hqu, hm⟩ := mergeStep_ok hq hN
      rw [hu, Run.andThen_ok] at h
      have hNu : u.heapN.toNat = s.heapN.toNat - 1 := by rw [hm.frame]; exact hm.heapN
      obtain ⟨hr, hle⟩ := ih hqu h
      refine ⟨?_, by omega⟩
      rw [show s.heapN.toNat - t.heapN.toNat = (u.heapN.toNat - t.heapN.toNat) + 1 by omega, List.replicate_succ, runCommands_cons (t := u)]
      · exact hr
      · exact finish_eq_next.2 (.inl hu)
    · cases h; simp [runCommands]

/-- TB_BUILD is PQ_CLR, PQ_INS of every used byte in ascending order, TB_MERGE while more than one node is live, and an extraction that goes to ROOT as well (R162). -/
theorem buildTree_commands {s t : State} (hm : memoriesWf s = true) (hu : usedSymbols s ≠ 0) (h : buildTree s = .ok () t) :
    ∃ u, runCommands (.pqClr :: (usedBytes s).map .pqIns ++ List.replicate (usedSymbols s - 1) .tbMerge ++ [.pqExt]) s = .next u ∧
      t = { u with root := u.res } := by
  obtain ⟨p, hp, hqp, -, hNp, -, -, -, -⟩ := insertLeaves_forest hm
  have hle := usedSymbols_le s
  obtain ⟨v, hv, hqv, -, -, hNv, -⟩ :=
    mergeAll_ok (P := fun _ => True) (fun _ _ _ _ _ _ _ _ _ _ => trivial) p.heapN.toNat hqp trivial (by omega) (by omega)
  obtain ⟨m, w, hw, -, -, -, hpw, -⟩ := heapExtract_queue hqv (by omega)
  have hm1 : m ∈ liveNodes v := hpw.symm.subset (by simp)
  have hnil : m ≠ Config.nil := fun e => by
    have h1 := hqv.heap.index m hm1
    have h2 := hqv.tree.high
    rw [e] at h1
    simp only [Config.nil, Config.nodeCap] at h1 h2
    simp at h1; omega
  have hb : buildTree s = .ok () { w with root := m, res := m, empty := false } := by
    rw [buildTree, show freqEmpty s = false by simpa using mt freqEmpty_iff.1 hu, if_neg (by simp), hp, Run.andThen_ok, hv, Run.andThen_ok, hw, Run.andThen_ok]
  rw [hb] at h
  refine ⟨{ w with res := m, empty := false }, ?_, by cases h; rfl⟩
  have hmer := (mergeAll_commands _ hqp hv).1
  rw [hNp, hNv] at hmer
  have hins : runCommands ((usedBytes s).map .pqIns) (pqClear s) = .next p := insertLeaves_commands hp
  rw [List.cons_append, List.cons_append, runCommands_cons (t := pqClear s) rfl, List.append_assoc,
    runCommands_append hins, runCommands_append hmer, runCommands_cons (t := { w with res := m, empty := false }), runCommands]
  refine finish_eq_next.2 (.inl ?_)
  rw [pqExtract, hw, Run.andThen_ok, decide_eq_false hnil]

end Sys2Proof.Machine
end

