-- ==== Sys2Proof/Laws/Counter.lean ====
section
/-! SUPPORT. What FC_SCAN's loop counts (40_frequency_counter.md R131). -/

namespace Sys2Proof.Machine

/-- FREQ in canonical form. -/
def FreqWf (f : Cells Count) : Prop := cellsWf 0#64 Config.nsym f = true

/-- The counts `g` are the counts `f` and one for each byte of `bs`. -/
def Counts (f g : Cells Count) (bs : List Byte) : Prop :=
  FreqWf g ∧ ∀ b : Byte, readCell 0#64 g b.toNat = readCell 0#64 f b.toNat + BitVec.ofNat 64 (bs.count b)

/-- The passes of FC_SCAN over the first `j` bytes the source gives. -/
theorem countBytes_ok (j m : Nat) (n : Count) {s : State} (hs : StreamsOk s) (hw : FreqWf s.freq) (hg : SourceGives j s) :
    ∃ f, whileSrc countByte (j + m) n s =
        whileSrc countByte m (n + BitVec.ofNat 64 j) { s with freq := f, rp := s.rp + BitVec.ofNat 64 j } ∧
      Counts s.freq f ((sourceRest s).take j) := by
  induction j generalizing n s with
  | zero => exact ⟨s.freq, by simp, hw, by simp⟩
  | succ j ih =>
    have hlt : s.rp.toNat < s.src.length := by have := hg.1; omega
    have hrest := sourceRest_cons hlt
    let u : State := { s with rp := s.rp + 1#64, freq := writeCell 0#64 s.freq s.src[s.rp.toNat].toNat (freqOf s s.src[s.rp.toNat].toNat + 1#64) }
    have hwu : FreqWf u.freq := cellsWf_writeCell _ (s.src[s.rp.toNat].isLt) hw
    obtain ⟨f, hf, hwf, hcnt⟩ := ih (n + 1#64) (s := u) ⟨(streamsOk_advance hs hlt).pos, hs.len⟩ hwu (sourceGives_advance hs hg)
    refine ⟨f, ?_, hwf, fun b => ?_⟩
    · rw [show j + 1 + m = (j + m) + 1 by omega, whileSrc, if_neg (by simpa using (srcEof_false hs).2 hlt), countByte, srcRead_ok hg hrest,
        Run.andThen_ok, Run.andThen_ok]
      refine Eq.trans (show _ = whileSrc countByte (j + m) (n + 1#64) u from rfl) (hf.trans ?_)
      rw [BitVec.add_assoc, ofNat_succ]
      simp only [u, BitVec.add_assoc, ofNat_succ]
    · have hru : sourceRest u = s.src.drop (s.rp.toNat + 1) := sourceRest_advance hs hrest
      rw [hcnt b, hru, hrest, List.take_succ_cons, List.count_cons]
      simp only [u, readCell_writeCell _ _ _ hw]
      by_cases hb : b = s.src[s.rp.toNat]
      · subst hb
        simp only [if_true, beq_self_eq_true, freqOf, BitVec.add_assoc, ofNat_succ]
      · have hne : b.toNat ≠ s.src[s.rp.toNat].toNat := fun e => hb (BitVec.eq_of_toNat_eq e)
        rw [if_neg hne, if_neg (by simpa using fun e => hb e.symm)]; rfl

end Sys2Proof.Machine
end

