-- ==== Sys2Proof/Laws/Decoder.lean ====
section
/-! SUPPORT. What SD_RUN does: its walk down the trie, the symbols it emits, and everything it can end in (47_stream_decoder.md R265 to R275). -/

namespace Sys2Proof.Machine

/-! The walk down the trie. -/

theorem walkTrie_congr {s t : State} (h : t.trie = s.trie) (i : TrieIx) (path : Code) : walkTrie t i path = walkTrie s i path := by
  have ho : ∀ k, trieOf t k = trieOf s k := fun k => by simp only [trieOf, h]
  induction path generalizing i with
  | nil => rfl
  | cons bit path ih => simp only [walkTrie, ho, ih]

theorem trieDecodes_congr {s t : State} (h : t.trie = s.trie) {coder : Byte → Code} {msg : List Byte} (hd : TrieDecodes s coder msg) :
    TrieDecodes t coder msg := by
  simpa only [TrieDecodes, followTrie, walkTrie_congr h, trieOf, h] using hd

/-- A walk's first step goes through a node that is no leaf, along an edge that is there. -/
theorem walkTrie_cons {s : State} {i j : TrieIx} {bit : Bool} {path : Code} :
    walkTrie s i (bit :: path) = some j ↔
      ∃ c, trieOf s i.toNat = some c ∧ c.leaf = false ∧ childOf bit c ≠ Config.tnil ∧ walkTrie s (childOf bit c) path = some j := by
  rw [walkTrie]
  cases trieOf s i.toNat with
  | none => simp
  | some c => by_cases h : childOf bit c = Config.tnil <;> cases c.leaf <;> simp [h]

theorem walkTrie_append (s : State) (i : TrieIx) (p q : Code) : walkTrie s i (p ++ q) = (walkTrie s i p).bind fun j => walkTrie s j q := by
  induction p generalizing i with
  | nil => rfl
  | cons bit p ih =>
    simp only [List.cons_append, walkTrie]
    cases trieOf s i.toNat with
    | none => rfl
    | some c => simp only; split <;> simp [ih]

/-- A code leads to a node through nodes that are no leaves: its last bit is a step on its own. -/
theorem walkTrie_last {s : State} {i j : TrieIx} {path : Code} (h : walkTrie s i path = some j) (hne : path ≠ []) :
    ∃ init bit k c, path = init ++ [bit] ∧ walkTrie s i init = some k ∧ trieOf s k.toNat = some c ∧ c.leaf = false ∧
      childOf bit c ≠ Config.tnil ∧ childOf bit c = j := by
  obtain ⟨init, bit, rfl⟩ : ∃ init bit, path = init ++ [bit] := ⟨_, _, (List.dropLast_append_getLast hne).symm⟩
  rw [walkTrie_append, Option.bind_eq_some_iff] at h
  obtain ⟨k, hk, hl⟩ := h
  obtain ⟨c, hc, hleaf, hnil, hj⟩ := walkTrie_cons.1 hl
  exact ⟨init, bit, k, c, rfl, hk, hc, hleaf, hnil, Option.some.inj hj⟩

/-- A step of the walk onto a node that is there (R268). -/
theorem sdBit_step {s : State} {bit : Bool} {c d : TrieNode} (hc : trieOf s s.sdCur.toNat = some c) (hnil : childOf bit c ≠ Config.tnil)
    (hd : trieOf s (childOf bit c).toNat = some d) :
    sdBit bit s =
      if d.leaf then (emitSymbol d.sym { s with sdCur := childOf bit c }).andThen fun _ t => .ok () (checkDone t)
      else .ok () (checkDone { s with sdCur := childOf bit c }) := by
  rw [sdBit, trieAt, hc, cellValue, Run.andThen_ok, if_neg hnil, trieAt,
    show trieOf { s with sdCur := childOf bit c } (childOf bit c).toNat = some d from hd, cellValue, Run.andThen_ok]

/-- A step for which there is no edge (R268). -/
theorem sdBit_missing {s : State} {bit : Bool} {c : TrieNode} (hc : trieOf s s.sdCur.toNat = some c) (hnil : childOf bit c = Config.tnil) :
    sdBit bit s = .raise .corruptStream s := by
  rw [sdBit, trieAt, hc, cellValue, Run.andThen_ok, if_pos hnil]

theorem emitSymbol_ok {s : State} (sym : Byte) (h : SinkTakes 1 s) :
    emitSymbol sym s = .ok () { s with sdCur := 0#16, sdCnt := s.sdCnt + 1#64, snk := s.snk ++ [sym], sdState := .walking } := by
  rw [emitSymbol, snkWrite_eq_ok.2 ⟨snkFull_false_of_takes (n := 0) h, rfl⟩, Run.andThen_ok]

theorem emitSymbol_full {s : State} (sym : Byte) {m : Count} (hm : s.snkLimit = some m) (h : m.toNat ≤ s.snk.length) :
    emitSymbol sym s = .raise .ioError s := by
  rw [emitSymbol, snkWrite, if_pos (by simpa [snkFull, snkCap, hm] using h), snkEnd_limited (by simp [hm]), Run.andThen_raise]

/-! The bits of the source, a byte at a time. -/

theorem sdBits_append (xs ys : List Bool) {s : State} (h : s.sdState ≠ .done) :
    sdBits (xs ++ ys) s = (sdBits xs s).andThen fun _ t => if t.sdState = .done then .ok () t else sdBits ys t := by
  induction xs generalizing s with
  | nil => rw [List.nil_append, sdBits, Run.andThen_ok, if_neg h]
  | cons bit xs ih =>
    rw [List.cons_append, sdBits, sdBits, Run.andThen_assoc]
    congr 1
    funext _ t
    split
    · rw [Run.andThen_ok, if_pos ‹_›]
    · exact ih ‹_›

/-- Bits that leave the decoder before its last symbol do so from their beginning on. -/
theorem sdBits_prefix {xs ys : List Bool} {s v : State} (h : s.sdState ≠ .done) (hv : v.sdState ≠ .done)
    (hb : sdBits (xs ++ ys) s = .ok () v) : ∃ t, sdBits xs s = .ok () t ∧ t.sdState ≠ .done ∧ sdBits ys t = .ok () v := by
  rw [sdBits_append xs ys h] at hb
  obtain ⟨⟨⟩, t, ht, hr⟩ := Run.andThen_eq_ok.1 hb
  refine ⟨t, ht, ?_⟩
  split at hr
  · cases hr; exact absurd ‹_› hv
  · exact ⟨‹_›, hr⟩

/-- A bit changes the decoder's registers and the sink, and nothing else. -/
theorem sdBit_leaves (bit : Bool) (s : State) :
    (sdBit bit s).Leaves fun t => t = { s with sdState := t.sdState, sdCur := t.sdCur, sdCnt := t.sdCnt, snk := t.snk } := by
  rw [sdBit, trieAt]
  cases trieOf s s.sdCur.toNat with
  | none => trivial
  | some c =>
    rw [cellValue, Run.andThen_ok]
    split
    · rfl
    · rw [trieAt]
      cases trieOf { s with sdCur := childOf bit c } (childOf bit c).toNat with
      | none => trivial
      | some d =>
        rw [cellValue, Run.andThen_ok]
        split
        · rw [emitSymbol, snkWrite]
          split
          · rw [snkEnd]; split
            · trivial
            · rfl
          · simp only [Run.andThen_ok, checkDone]; split <;> rfl
        · rw [checkDone]; split <;> rfl

theorem sdBits_leaves (bits : List Bool) (s : State) :
    (sdBits bits s).Leaves fun t => t = { s with sdState := t.sdState, sdCur := t.sdCur, sdCnt := t.sdCnt, snk := t.snk } := by
  induction bits generalizing s with
  | nil => rfl
  | cons bit bits ih =>
    rw [sdBits]
    refine Run.Leaves.andThen (sdBit_leaves bit s) fun _ t ht => ?_
    split
    · exact ht
    · exact (ih t).mono fun u hu => by rw [hu, ht]

/-- What a part does to a state in which the source has been read further. -/
def Run.later (n : Nat) (r : Run Unit) : Run Unit :=
  match r with
  | .ok _ t => .ok () (advance n t)
  | .raise k t => .raise k (advance n t)
  | .stop e => .stop e

theorem sdBit_advance (n : Nat) (bit : Bool) (s : State) : sdBit bit (advance n s) = (sdBit bit s).later n := by
  rw [sdBit, sdBit, trieAt, trieAt, show trieOf (advance n s) (advance n s).sdCur.toNat = trieOf s s.sdCur.toNat from rfl]
  cases trieOf s s.sdCur.toNat with
  | none => rfl
  | some c =>
    simp only [cellValue, Run.andThen_ok]
    split
    · rfl
    · rw [trieAt, trieAt, show trieOf { advance n s with sdCur := childOf bit c } (childOf bit c).toNat =
        trieOf { s with sdCur := childOf bit c } (childOf bit c).toNat from rfl]
      cases trieOf { s with sdCur := childOf bit c } (childOf bit c).toNat with
      | none => rfl
      | some d =>
        simp only [cellValue, Run.andThen_ok]
        split
        · rw [emitSymbol, emitSymbol, snkWrite, snkWrite,
            show snkFull { advance n s with sdCur := childOf bit c } = snkFull { s with sdCur := childOf bit c } from rfl]
          split
          · rw [snkEnd, snkEnd, show ({ advance n s with sdCur := childOf bit c } : State).snkLimit = ({ s with sdCur := childOf bit c } : State).snkLimit from rfl]
            cases ({ s with sdCur := childOf bit c } : State).snkLimit <;> rfl
          · simp only [Run.andThen_ok, checkDone, Run.later]
            split
            · rw [if_pos (by assumption)]; rfl
            · rw [if_neg (by assumption)]; rfl
        · simp only [checkDone, Run.later]
          split
          · rw [if_pos (by assumption)]; rfl
          · rw [if_neg (by assumption)]; rfl

theorem sdBits_advance (n : Nat) (bits : List Bool) (s : State) : sdBits bits (advance n s) = (sdBits bits s).later n := by
  induction bits generalizing s with
  | nil => rfl
  | cons bit bits ih =>
    rw [sdBits, sdBits, sdBit_advance]
    cases sdBit bit s with
    | ok a t =>
      simp only [Run.later, Run.andThen_ok]
      rw [show (advance n t).sdState = t.sdState from rfl]
      split
      · rfl
      · exact ih t
    | raise k t => rfl
    | stop e => rfl

/-- The decoder's loop over bytes the source gives: whatever their last bits lead to, RP stands after the bytes, and where that is not the end the loop goes on (R269, R270). -/
theorem sdLoop_bytes {taken rest : List Byte} {xs ys : List Bool} {s v : State} (m : Nat) (hs : StreamsOk s) (hw : s.sdState ≠ .done)
    (hr : sourceRest s = taken ++ rest) (hg : SourceGives taken.length s) (hb : taken.flatMap bitsOf = xs ++ ys) (hy : ys.length ≤ 8)
    (hx : sdBits xs s = .ok () v) (hv : v.sdState ≠ .done) :
    sdLoop (taken.length + m) s =
      ((sdBits ys v).later taken.length).andThen fun _ t => if t.sdState = .done then .ok () t else sdLoop m t := by
  induction taken generalizing s xs v with
  | nil =>
    obtain ⟨rfl, rfl⟩ := List.append_eq_nil_iff.1 hb.symm
    cases hx
    simp [sdBits, Run.later, advance_zero, hv]
  | cons b taken ih =>
    have hg1 : SourceGives 1 s := hg.le (by simp)
    have hstep : sdLoop ((b :: taken).length + m) s =
        (sdBits (bitsOf b) (advance 1 s)).andThen fun _ t => if t.sdState = .done then .ok () t else sdLoop (taken.length + m) t := by
      rw [List.length_cons, show taken.length + 1 + m = taken.length + m + 1 by omega, sdLoop, if_neg (by rw [hg1.not_eof (n := 0) hs]; simp),
        hg1.read hr, Run.andThen_ok]
    rw [hstep, sdBits_advance]
    rw [List.flatMap_cons] at hb
    rcases Nat.lt_or_ge xs.length 8 with hlt | hge
    · have hl := congrArg List.length hb
      simp only [List.length_append, length_bitsOf, length_flatMap_bitsOf] at hl
      obtain rfl : taken = [] := List.length_eq_zero_iff.1 (by omega)
      rw [show bitsOf b = xs ++ ys by simpa using hb, sdBits_append xs ys hw, hx, Run.andThen_ok, if_neg hv]
      simp
    · obtain ⟨xs, rfl⟩ : ∃ zs, xs = bitsOf b ++ zs := by
        have : bitsOf b <+: xs := List.prefix_of_prefix_length_le ⟨_, hb⟩ ⟨_, rfl⟩ (by simpa using hge)
        exact this.imp fun _ h => h.symm
      rw [List.append_assoc, List.append_cancel_left_eq] at hb
      obtain ⟨t, ht, hnd, hxs⟩ := sdBits_prefix hw hv hx
      have hf := sdBits_leaves (bitsOf b) s
      rw [ht, Run.leaves_ok] at hf
      have hst : StreamsOk t := by rw [hf]; exact ⟨hs.pos, hs.len⟩
      have hgt : SourceGives 1 t := by rw [hf]; exact hg1
      rw [ht, Run.later, Run.andThen_ok, if_neg (show (advance 1 t).sdState ≠ .done from hnd),
        ih (s := advance 1 t) (v := advance 1 v) (hgt.streamsOk hst) hnd (by rw [hgt.rest hst, hf]; show (sourceRest s).drop 1 = _; rw [hr]; rfl)
          (SourceGives.gives (n := 1) (by rw [hf, Nat.add_comm]; exact hg) hst) hb (by rw [sdBits_advance, hxs]; rfl) hv, sdBits_advance]
      congr 1
      cases sdBits ys v <;> simp [Run.later, advance_advance, Nat.add_comm]

/-! Codes among the bits. -/

/-- Bits of a path whose end is no leaf move SD_CUR there (R268). -/
theorem sdBits_walk {path : Code} (bits : List Bool) {s : State} {cur : TrieIx} {c : TrieNode} (hw : s.sdState ≠ .done) (hn : s.sdCnt ≠ s.origSize)
    (hp : walkTrie s s.sdCur path = some cur) (hc : trieOf s cur.toNat = some c) (hl : path ≠ [] → c.leaf = false) :
    sdBits (path ++ bits) s = sdBits bits { s with sdCur := cur } := by
  induction path generalizing s with
  | nil => cases hp; rfl
  | cons bit path ih =>
    obtain ⟨x, hx, -, hnil, hrest⟩ := walkTrie_cons.1 hp
    obtain ⟨d, hd, hleaf⟩ : ∃ d, trieOf s (childOf bit x).toNat = some d ∧ d.leaf = false := by
      cases path with
      | nil => cases hrest; exact ⟨c, hc, hl (by simp)⟩
      | cons _ _ => obtain ⟨d, hd, hleaf, -⟩ := walkTrie_cons.1 hrest; exact ⟨d, hd, hleaf⟩
    rw [List.cons_append, sdBits, sdBit_step hx hnil hd, hleaf, if_neg (by simp), Run.andThen_ok, checkDone, if_neg hn, if_neg hw,
      ih (s := { s with sdCur := childOf bit x }) hw hn ((walkTrie_congr (s := s) (t := { s with sdCur := childOf bit x }) rfl _ _).trans hrest) hc fun _ => hl (by simp)]

/-- Bits of a path to a leaf emit its symbol (R268). -/
theorem sdBits_emit {path : Code} (bits : List Bool) {s : State} {cur : TrieIx} {c : TrieNode} (hw : s.sdState ≠ .done) (hn : s.sdCnt ≠ s.origSize)
    (hp : walkTrie s s.sdCur path = some cur) (hc : trieOf s cur.toNat = some c) (hne : path ≠ []) (hl : c.leaf = true) :
    sdBits (path ++ bits) s = (emitSymbol c.sym { s with sdCur := cur }).andThen fun _ t =>
      if (checkDone t).sdState = .done then .ok () (checkDone t) else sdBits bits (checkDone t) := by
  obtain ⟨init, bit, k, x, rfl, hk, hx, hleaf, hnil, rfl⟩ := walkTrie_last hp hne
  rw [List.append_assoc, sdBits_walk _ hw hn hk hx fun _ => hleaf, List.singleton_append, sdBits,
    sdBit_step (s := { s with sdCur := k }) hx hnil hc, hl, if_pos rfl, Run.andThen_assoc]
  rfl

/-- The codes of symbols that are not yet the last emit them, whatever follows (R268). -/
theorem sdBits_symbols (out : List Byte) (bits : List Bool) {s : State} {coder : Byte → Code} (hw : s.sdState = .walking) (h0 : s.sdCur = 0#16)
    (hlt : s.sdCnt.toNat + out.length < s.origSize.toNat) (hd : TrieDecodes s coder out) (hk : SinkTakes out.length s) :
    sdBits (out.flatMap coder ++ bits) s =
      sdBits bits { s with sdCnt := s.sdCnt + BitVec.ofNat 64 out.length, snk := s.snk ++ out } := by
  induction out generalizing s with
  | nil => simp
  | cons b out ih =>
    obtain ⟨hne, c, hf, hl, rfl⟩ := hd _ (List.mem_cons_self ..)
    obtain ⟨cur, hp, hc⟩ := Option.bind_eq_some_iff.1 hf
    have horig := s.origSize.isLt
    simp only [List.length_cons] at hlt
    have hcnt : (s.sdCnt + 1#64).toNat = s.sdCnt.toNat + 1 := by rw [BitVec.toNat_add]; simp; omega
    have hn : ∀ x : Count, x.toNat < s.origSize.toNat → x ≠ s.origSize := fun x hx e => by rw [e] at hx; omega
    rw [List.flatMap_cons, List.append_assoc, sdBits_emit _ (by rw [hw]; simp) (hn _ (by omega)) (by rw [h0]; exact hp) hc hne hl,
      emitSymbol_ok (s := { s with sdCur := cur }) _ (hk.le (by simp)), Run.andThen_ok, checkDone,
      if_neg (show ¬ s.sdCnt + 1#64 = s.origSize from hn _ (by omega)), if_neg (by simp)]
    let u : State := { s with sdCur := 0#16, sdCnt := s.sdCnt + 1#64, sdState := .walking, snk := s.snk ++ [c.sym] }
    have hku : SinkTakes out.length u := sinkTakes_append (s := s) (bs := [c.sym]) (by simpa [Nat.add_comm] using hk)
    refine (ih (s := u) rfl rfl (by show (s.sdCnt + 1#64).toNat + _ < s.origSize.toNat; omega)
      (trieDecodes_congr (t := u) (s := s) rfl fun b hb => hd b (by simp [hb])) hku).trans ?_
    simp only [u, List.append_assoc, List.singleton_append, List.length_cons, BitVec.add_assoc, ofNat_succ, hw, h0]

/-! Everything the decoder can end in, from any state whose trie is well formed. -/

/-- The symbols still to be written meet the end of a sink the host may not present (00_scope.md R9). -/
def Overlong (s : State) (start : List Byte) : Prop := ¬ SinkFits s.origSize.toNat { s with snk := start }

theorem Overlong.congr {s t : State} {start : List Byte} (h : Overlong t start) (ho : t.origSize = s.origSize) (hl : t.snkLimit = s.snkLimit) :
    Overlong s start := by
  simpa only [Overlong, SinkFits, ho, hl] using h

/-- A node SD_CUR may stand on, with the symbols written so far counted. -/
structure Walks (s : State) (start : List Byte) : Prop where
  trie : TrieOk s
  cur : s.sdCur.toNat < s.trieN.toNat
  counted : ∃ out, s.snk = start ++ out ∧ s.sdCnt.toNat = out.length
  room : s.sdCnt.toNat < s.origSize.toNat
  walking : s.sdState = .walking

theorem trieAt_ok {s : State} (h : TrieOk s) {i : TrieIx} (hi : i.toNat < s.trieN.toNat) :
    ∃ c, trieOf s i.toNat = some c ∧ childOk s c.c0 = true ∧ childOk s c.c1 = true := by
  have := h.cells _ hi
  rw [trieCellOk] at this
  split at this
  · rename_i c hc
    exact ⟨c, hc, by simpa using this⟩
  · cases this

theorem TrieOk.congr {s t : State} (h : TrieOk s) (ht : t.trie = s.trie) (hn : t.trieN = s.trieN) : TrieOk t := by
  have ho : ∀ i, trieCellOk t i = trieCellOk s i := fun i => by simp only [trieCellOk, trieOf, childOk, ht, hn]
  exact ⟨by rw [hn]; exact h.cap, fun i hi => by rw [ho]; exact h.cells i (by rw [← hn]; exact hi)⟩

/-- What one bit leads to (R268). -/
theorem sdBit_ends (bit : Bool) {s : State} {start : List Byte} (h : Walks s start) :
    (sdBit bit s).Ends
      (fun _ t => t = { s with sdState := t.sdState, sdCur := t.sdCur, sdCnt := t.sdCnt, snk := t.snk } ∧
        (Walks t start ∨ t.sdState = .done ∧ t.sdCur = 0#16 ∧ t.sdCnt = s.origSize ∧ ∃ out, t.snk = start ++ out ∧ s.origSize.toNat = out.length))
      (fun k t => (k = .corruptStream ∨ k = .ioError) ∧ t = { s with sdCur := t.sdCur, sdCnt := t.sdCnt, snk := t.snk } ∧ Walks t start)
      (Overlong s start) := by
  obtain ⟨c, hc, h0, h1⟩ := trieAt_ok h.trie h.cur
  have hch : childOk s (childOf bit c) = true := by cases bit <;> assumption
  rw [sdBit, trieAt, hc, cellValue, Run.andThen_ok]
  split
  · exact ⟨.inl rfl, rfl, h⟩
  · rename_i hnil
    have hlt : (childOf bit c).toNat < s.trieN.toNat := by simpa [childOk, hnil] using hch
    obtain ⟨d, hd, -⟩ := trieAt_ok h.trie hlt
    rw [trieAt, show trieOf { s with sdCur := childOf bit c } (childOf bit c).toNat = some d from hd, cellValue, Run.andThen_ok]
    have hW : Walks { s with sdCur := childOf bit c } start := ⟨h.trie.congr rfl rfl, hlt, h.counted, h.room, h.walking⟩
    split
    · rw [emitSymbol, Run.andThen_assoc]
      refine Run.Ends.andThen (((snkWrite_ends d.sym { s with sdCur := childOf bit c }).mono (fun _ _ h => h) ?_).stops (mt fun hf => hf.imp id fun hf => ?_)) ?_
      · rintro k t ⟨hk, rfl, -⟩
        exact ⟨.inr hk, rfl, hW⟩
      · obtain ⟨out, hs, hn⟩ := h.counted
        have := h.room
        simp only [hs, List.length_append] at hf ⊢; omega
      · rintro - t ⟨-, rfl⟩
        simp only [Run.andThen_ok, Run.ends_ok, checkDone]
        obtain ⟨out, hs, hn⟩ := h.counted
        have hroom := h.room
        have horig := s.origSize.isLt
        have hcnt : (s.sdCnt + 1#64).toNat = s.sdCnt.toNat + 1 := by rw [BitVec.toNat_add]; simp; omega
        split
        · rename_i he
          refine ⟨rfl, .inr ⟨rfl, rfl, he, out ++ [d.sym], by rw [hs, List.append_assoc], ?_⟩⟩
          rw [← he, hcnt]; simp [hn]
        · rename_i he
          refine ⟨rfl, .inl ⟨h.trie.congr rfl rfl, ?_, ⟨out ++ [d.sym], by rw [hs, List.append_assoc], ?_⟩, ?_, rfl⟩⟩
          · have := h.cur; show 0 < s.trieN.toNat; omega
          · show (s.sdCnt + 1#64).toNat = _; rw [hcnt]; simp [hn]
          · show (s.sdCnt + 1#64).toNat < s.origSize.toNat
            rcases Nat.lt_or_eq_of_le (show (s.sdCnt + 1#64).toNat ≤ s.origSize.toNat by omega) with hlt | heq
            · exact hlt
            · exact absurd (BitVec.eq_of_toNat_eq heq) he
    · rw [checkDone, if_neg (fun e => by have := h.room; rw [show s.sdCnt = s.origSize from e] at this; omega)]
      exact ⟨by simp, .inl hW⟩

theorem sdBits_ends (bs : List Bool) {s : State} {start : List Byte} (h : Walks s start) :
    (sdBits bs s).Ends
      (fun _ t => t = { s with sdState := t.sdState, sdCur := t.sdCur, sdCnt := t.sdCnt, snk := t.snk } ∧
        (Walks t start ∨ t.sdState = .done ∧ t.sdCur = 0#16 ∧ t.sdCnt = s.origSize ∧ ∃ out, t.snk = start ++ out ∧ s.origSize.toNat = out.length))
      (fun k t => (k = .corruptStream ∨ k = .ioError) ∧ t = { s with sdCur := t.sdCur, sdCnt := t.sdCnt, snk := t.snk } ∧ Walks t start)
      (Overlong s start) := by
  induction bs generalizing s with
  | nil => exact ⟨rfl, .inl h⟩
  | cons bit bs ih =>
    rw [sdBits]
    refine Run.Ends.andThen (sdBit_ends bit h) ?_
    rintro - t ⟨ht, hor⟩
    rcases hor with hW | hD
    · rw [if_neg (by rw [hW.walking]; simp)]
      have ho : t.origSize = s.origSize := by rw [ht]
      have hw := hW.walking
      have hst : t = { s with sdCur := t.sdCur, sdCnt := t.sdCnt, snk := t.snk } := by
        rw [ht]; simp only [State.mk.injEq]; simp [hw, h.walking]
      refine ((ih hW).mono ?_ ?_).stops (·.congr ho (by rw [ht]))
      · rintro - u ⟨hu, hor⟩
        exact ⟨by rw [hu, hst], by rw [← ho]; exact hor⟩
      · rintro k u ⟨hk, hu, hWu⟩
        exact ⟨hk, by rw [hu, hst], hWu⟩
    · rw [if_pos hD.1]
      exact ⟨ht, .inr hD⟩

theorem sdLoop_ends (n : Nat) {s : State} {start : List Byte} (hs : StreamsOk s) (h : Walks s start) (hn : srcLeft s ≤ n) :
    (sdLoop n s).Ends
      (fun _ t => t = { s with rp := t.rp, sdState := t.sdState, sdCur := t.sdCur, sdCnt := t.sdCnt, snk := t.snk } ∧ StreamsOk t ∧
        t.sdState = .done ∧ t.sdCur = 0#16 ∧ t.sdCnt = s.origSize ∧ ∃ out, t.snk = start ++ out ∧ s.origSize.toNat = out.length)
      (fun k t => (k = .corruptStream ∨ k = .truncatedInput ∨ k = .ioError) ∧
        t = { s with rp := t.rp, sdCur := t.sdCur, sdCnt := t.sdCnt, snk := t.snk } ∧ StreamsOk t ∧ Walks t start)
      (Overlong s start) := by
  induction n generalizing s with
  | zero =>
    have hE : srcEof s = true := by have := hs.pos; simp only [srcLeft] at hn; exact srcEof_iff.2 (by omega)
    rw [sdLoop, if_pos hE]
    exact ⟨.inr (.inl rfl), rfl, hs, h⟩
  | succ n ih =>
    rw [sdLoop]
    split
    · exact ⟨.inr (.inl rfl), rfl, hs, h⟩
    · rename_i hE
      have hlt : s.rp.toNat < s.src.length := (srcEof_false hs).1 (by simpa using hE)
      refine Run.Ends.andThen (((srcRead_ends hlt).mono (fun _ _ h => h) ?_).stops False.elim) ?_
      · rintro k t ⟨hk, rfl, -⟩
        exact ⟨.inr (.inr hk), rfl, hs, h⟩
      · rintro b - ⟨-, -, rfl⟩
        have hs1 : StreamsOk { s with rp := s.rp + 1#64 } := streamsOk_advance hs hlt
        have h1 : Walks { s with rp := s.rp + 1#64 } start := ⟨h.trie.congr rfl rfl, h.cur, h.counted, h.room, h.walking⟩
        refine Run.Ends.andThen ((sdBits_ends (bitsOf b) h1).mono (fun _ _ h => h) ?_) ?_
        · rintro k t ⟨hk, ht, hW⟩
          exact ⟨hk.elim .inl fun h => .inr (.inr h), by rw [ht], by rw [ht]; exact ⟨hs1.pos, hs1.len⟩, hW⟩
        · rintro - t ⟨ht, hor⟩
          have hst : StreamsOk t := by rw [ht]; exact ⟨hs1.pos, hs1.len⟩
          rcases hor with hW | hD
          · rw [if_neg (by rw [hW.walking]; simp)]
            have ho : t.origSize = s.origSize := by rw [ht]
            have hleft : srcLeft t ≤ n := by
              have := rp_succ hs hlt
              rw [ht]; simp only [srcLeft, this] at hn ⊢; omega
            have hw := hW.walking
            have htt : t = { s with rp := t.rp, sdCur := t.sdCur, sdCnt := t.sdCnt, snk := t.snk } := by
              rw [ht]; simp only [State.mk.injEq]; simp [hw, h.walking]
            refine ((ih hst hW hleft).mono ?_ ?_).stops (·.congr ho (by rw [ht]))
            · rintro - u ⟨hu, hsu, hd⟩
              exact ⟨by rw [hu, htt], hsu, by rw [← ho]; exact hd⟩
            · rintro k u ⟨hk, hu, hsu, hWu⟩
              exact ⟨hk, by rw [hu, htt], hsu, hWu⟩
          · rw [if_pos hD.1]
            exact ⟨by rw [ht], hst, hD⟩

/-- How many of `n` bytes the sink takes (R63). -/
theorem snkRoom_spec (n : Nat) (s : State) : snkRoom n s ≤ n ∧ (SinkTakes n s → snkRoom n s = n) ∧
    (∀ m, s.snkLimit = some m → snkRoom n s = min n (m.toNat - s.snk.length)) :=
  ⟨Nat.min_le_left _ _, fun h => by simp only [snkRoom, SinkTakes] at *; omega, fun m hm => by rw [snkRoom, snkCap_limited hm]⟩

theorem sdBit_grows (bit : Bool) (s : State) : (sdBit bit s).Leaves (SinkGrows s) := by
  have hd : ∀ t, SinkGrows t (checkDone t) := fun t => by unfold checkDone; split <;> exact sinkGrows_refl
  rw [sdBit, trieAt]
  cases trieOf s s.sdCur.toNat with
  | none => trivial
  | some c =>
    rw [cellValue, Run.andThen_ok]
    split
    · exact sinkGrows_refl
    · rw [trieAt]
      cases trieOf { s with sdCur := childOf bit c } (childOf bit c).toNat with
      | none => trivial
      | some d =>
        rw [cellValue, Run.andThen_ok]
        split
        · exact Run.Leaves.mono (Run.Leaves.grows (Run.Leaves.grows (snkWrite_grows d.sym { s with sdCur := childOf bit c })
            fun _ t => by exact sinkGrows_refl) fun _ t => hd t) fun _ h => ⟨h.prefixed, h.held, h.limit⟩
        · exact (sinkGrows_refl (s := s) (t := { s with sdCur := childOf bit c })).trans (hd _)

theorem sdBits_grows (bits : List Bool) (s : State) : (sdBits bits s).Leaves (SinkGrows s) := by
  induction bits generalizing s with
  | nil => exact sinkGrows_refl
  | cons bit bits ih =>
    refine (sdBit_grows bit s).grows fun _ t => ?_
    split
    · exact sinkGrows_refl
    · exact ih t

theorem sdLoop_grows (n : Nat) (s : State) : (sdLoop n s).Leaves (SinkGrows s) := by
  induction n generalizing s with
  | zero => rw [sdLoop]; split <;> first | exact sinkGrows_refl | trivial
  | succ n ih =>
    rw [sdLoop]
    split
    · exact sinkGrows_refl
    · refine (srcRead_grows s).grows fun b t => (sdBits_grows _ t).grows fun _ u => ?_
      split
      · exact sinkGrows_refl
      · exact ih u

theorem repeatSymbol_grows (sym : Byte) (s : State) : (repeatSymbol sym s).Leaves (SinkGrows s) := by
  have h : ∀ t : State, t.snk = s.snk ++ List.replicate (snkRoom s.origSize.toNat s) sym → t.snkLimit = s.snkLimit → SinkGrows s t :=
    fun t ht hl => ⟨by rw [ht]; exact List.prefix_append .., by rw [ht]; simp only [snkRoom, List.length_append, List.length_replicate]; omega, hl⟩
  unfold repeatSymbol; simp only
  split
  · exact snkEnd_leaves (h _ rfl rfl)
  · exact h _ rfl rfl

/-- What the single-symbol path can end in (R272, R274). -/
theorem repeatSymbol_ends (sym : Byte) (s : State) :
    (repeatSymbol sym s).Ends (fun _ t => t = { s with snk := s.snk ++ List.replicate s.origSize.toNat sym, sdCnt := s.origSize, sdState := .done })
      (fun k t => k = .ioError ∧ ∃ n, n < s.origSize.toNat ∧ t = { s with snk := s.snk ++ List.replicate n sym, sdCnt := BitVec.ofNat 64 n })
      (Overlong s s.snk) := by
  have hn := (snkRoom_spec s.origSize.toNat s).1
  unfold repeatSymbol; simp only
  split
  · rename_i hlt
    refine ((snkEnd_ends (n := s.origSize.toNat - snkRoom s.origSize.toNat s) ?_).mono (fun _ _ h => h.elim) fun k t h => ⟨h.1, _, hlt, h.2⟩).stops
      (mt fun h => h.imp id fun h => ?_)
    · simp only [snkCap, snkRoom, List.length_append, List.length_replicate] at hlt ⊢; omega
    · simp only [List.length_append, List.length_replicate] at h ⊢; omega
  · rw [show snkRoom s.origSize.toNat s = s.origSize.toNat by omega]
    simp

/-- SD_RUN only adds to the sink (R270). -/
theorem runDecoder_grows (s : State) : (runDecoder s).Leaves (SinkGrows s) := by
  unfold runDecoder; split
  · exact sinkGrows_refl
  · simp only
    split
    · exact sinkGrows_refl
    · split
      · exact (repeatSymbol_grows _ _).mono fun _ h => ⟨h.prefixed, h.held, h.limit⟩
      · exact (sdLoop_grows _ _).mono fun _ h => ⟨h.prefixed, h.held, h.limit⟩

end Sys2Proof.Machine
end

