-- ==== Sys2Proof/Laws/Packer.lean ====
section
/-! SUPPORT. What BP_ENC does with the code bits of a message: whole bytes go out as they fill, the rest stays in the accumulator (45_bit_packer.md R233). -/

namespace Sys2Proof.Machine

/-- The whole bytes of a bit sequence, packed. -/
def wholeBytes (c : List Bool) : List Byte := (packbits c).take (c.length / 8)

/-- The bits after the last whole byte. -/
def restBits (c : List Bool) : List Bool := c.drop (8 * (c.length / 8))

theorem length_restBits (c : List Bool) : (restBits c).length = c.length % 8 := by simp only [restBits, List.length_drop]; omega

@[simp] theorem length_wholeBytes (c : List Bool) : (wholeBytes c).length = c.length / 8 := by
  simp only [wholeBytes, List.length_take, length_packbits, ceil8]; omega

theorem wholeBytes_of_short {c : List Bool} (h : c.length < 8) : wholeBytes c = [] := by simp [wholeBytes, Nat.div_eq_of_lt h]

theorem restBits_of_short {c : List Bool} (h : c.length < 8) : restBits c = c := by simp [restBits, Nat.div_eq_of_lt h]

theorem wholeBytes_of_full {c : List Bool} (h : 8 ≤ c.length) : wholeBytes c = pack8 (c.take 8) :: wholeBytes (c.drop 8) := by
  have : c.length / 8 = (c.length - 8) / 8 + 1 := by omega
  simp [wholeBytes, packbits_of_full h, this]

theorem restBits_of_full {c : List Bool} (h : 8 ≤ c.length) : restBits c = restBits (c.drop 8) := by
  have : 8 * (c.length / 8) = 8 + 8 * ((c.length - 8) / 8) := by omega
  simp [restBits, List.drop_drop, this]

/-- The packed bytes are the whole ones and the padded rest. -/
theorem packbits_eq (c : List Bool) : packbits c = wholeBytes c ++ packbits (restBits c) := by
  induction hn : c.length using Nat.strongRecOn generalizing c with
  | ind n ih =>
    rcases Nat.lt_or_ge c.length 8 with h | h
    · rw [wholeBytes_of_short h, restBits_of_short h, List.nil_append]
    · rw [packbits_of_full h, wholeBytes_of_full h, restBits_of_full h, List.cons_append, ← ih (c.drop 8).length (by simp; omega) _ rfl]

/-- Bits that have gone out do not change what goes out next. -/
theorem wholeBytes_append (c d : List Bool) : wholeBytes (c ++ d) = wholeBytes c ++ wholeBytes (restBits c ++ d) := by
  induction hn : c.length using Nat.strongRecOn generalizing c with
  | ind n ih =>
    rcases Nat.lt_or_ge c.length 8 with h | h
    · rw [wholeBytes_of_short h, restBits_of_short h, List.nil_append]
    · rw [wholeBytes_of_full (c := c ++ d) (by simp; omega), List.take_append_of_le_length h, List.drop_append_of_le_length h,
        ih (c.drop 8).length (by simp; omega) _ rfl, wholeBytes_of_full h, restBits_of_full h, List.cons_append]

theorem restBits_append (c d : List Bool) : restBits (c ++ d) = restBits (restBits c ++ d) := by
  induction hn : c.length using Nat.strongRecOn generalizing c with
  | ind n ih =>
    rcases Nat.lt_or_ge c.length 8 with h | h
    · rw [restBits_of_short h]
    · rw [restBits_of_full (c := c ++ d) (by simp; omega), List.drop_append_of_le_length h,
        ih (c.drop 8).length (by simp; omega) _ rfl, restBits_of_full h]

/-- Emptying the accumulator into a sink that takes its whole bytes. -/
theorem flushBytes_ok {n : Nat} {acc : List Bool} {s : State} (hn : acc.length / 8 ≤ n) (h : SinkTakes (acc.length / 8) s) :
    flushBytes n acc s = .ok (restBits acc) { s with snk := s.snk ++ wholeBytes acc } := by
  induction n generalizing acc s with
  | zero =>
    have : acc.length < 8 := by omega
    rw [flushBytes, restBits_of_short this, wholeBytes_of_short this, List.append_nil]
  | succ n ih =>
    rw [flushBytes]
    split
    · rename_i h8
      have hd : (acc.drop 8).length / 8 + 1 = acc.length / 8 := by simp only [List.length_drop]; omega
      have h1 : SinkTakes ((acc.drop 8).length / 8 + 1) s := hd ▸ h
      rw [snkWrite_eq_ok.2 ⟨snkFull_false_of_takes h1, rfl⟩, Run.andThen_ok,
        ih (by omega) (sinkTakes_append (bs := [_]) (by simpa [Nat.add_comm] using h1)), restBits_of_full h8, wholeBytes_of_full h8]
      simp
    · have : acc.length < 8 := by omega
      rw [restBits_of_short this, wholeBytes_of_short this, List.append_nil]

/-- Emptying the accumulator into a sink that does not take all its whole bytes: as many go out as it takes. -/
theorem flushBytes_raise {n : Nat} {acc : List Bool} {s : State} {m : Count} (hn : acc.length / 8 ≤ n) (hm : s.snkLimit = some m)
    (h : m.toNat - s.snk.length < acc.length / 8) :
    flushBytes n acc s = .raise .ioError { s with snk := s.snk ++ (wholeBytes acc).take (m.toNat - s.snk.length) } := by
  induction n generalizing acc s with
  | zero => omega
  | succ n ih =>
    rw [flushBytes, if_pos (by omega)]
    by_cases hf : m.toNat ≤ s.snk.length
    · rw [snkWrite, if_pos (by simpa [snkFull, snkCap, hm] using hf), snkEnd_limited (by simp [hm]), Run.andThen_raise, Nat.sub_eq_zero_of_le hf]; simp
    · rw [snkWrite_eq_ok.2 ⟨by simpa [snkFull, snkCap, hm] using hf, rfl⟩, Run.andThen_ok, ih (by simp; omega) (by simpa using hm) (by simp; omega),
        wholeBytes_of_full (c := acc) (by omega), show m.toNat - s.snk.length = (m.toNat - (s.snk.length + 1)) + 1 by omega]
      simp

/-- Whatever happens, the sink grows by a first part of the bytes and nothing else changes. -/
theorem flushBytes_ends (n : Nat) (acc : List Bool) (s : State) :
    (flushBytes n acc s).Ends (fun a t => ∃ out, t = { s with snk := s.snk ++ out } ∧ acc.length = a.length + 8 * out.length)
      (fun k t => k = .ioError ∧ ∃ out, t = { s with snk := s.snk ++ out }) (¬ SinkFits (acc.length / 8) s) := by
  induction n generalizing acc s with
  | zero => exact ⟨[], by simp⟩
  | succ n ih =>
    rw [flushBytes]
    split
    · rename_i h8
      refine Run.Ends.andThen (P := fun _ t => t = { s with snk := s.snk ++ [pack8 (acc.take 8)] })
        (((snkWrite_ends _ s).mono (fun _ _ h => h.2) fun k t h => ⟨h.1, [], by simpa using h.2.1⟩).stops
          (mt (SinkFits.le · (by omega)))) ?_
      rintro - t rfl
      refine ((ih _ _).mono ?_ ?_).stops (mt fun h => SinkFits.append (bs := [_]) (h.le ?_))
      · rintro a t ⟨o, rfl, hl⟩; exact ⟨pack8 (acc.take 8) :: o, by simp, by simp at hl ⊢; omega⟩
      · rintro k t ⟨hk, o, rfl⟩; exact ⟨hk, pack8 (acc.take 8) :: o, by simp⟩
      · simp; omega
    · exact ⟨[], by simp⟩

theorem flushBytes_grows (n : Nat) (acc : List Bool) (s : State) : (flushBytes n acc s).Leaves (SinkGrows s) := by
  induction n generalizing acc s with
  | zero => exact sinkGrows_refl
  | succ n ih =>
    rw [flushBytes]; split
    · exact (snkWrite_grows _ s).grows fun _ t => ih _ t
    · exact sinkGrows_refl

/-- BP_ENC only adds to the sink (R233). -/
theorem packSource_grows (s : State) : (packSource s).Leaves (SinkGrows s) := by
  refine (whileSrc_leaves (P := SinkGrows s) (fun acc t ht => ?_) _ _ s sinkGrows_refl).grows fun acc t => ?_
  · refine Run.Leaves.mono ((srcRead_grows t).grows fun b u => ?_) fun _ hu => ht.trans hu
    split
    · exact sinkGrows_refl
    · exact flushBytes_grows _ _ u
  · unfold flushRest; split
    · exact sinkGrows_refl
    · exact snkWrite_grows _ t

theorem codeBits_cons (s : State) (b : Byte) (bs : List Byte) : codeBits s (b :: bs) = codeOf s b ++ codeBits s bs := rfl

theorem codeBits_congr {s t : State} (h : t.ct = s.ct) (msg : List Byte) : codeBits t msg = codeBits s msg := by
  have : codeOf t = codeOf s := by funext b; simp only [codeOf, ctOf, h]
  rw [codeBits, codeBits, this]

/-- The packer's passes over bytes that have codes (R233). -/
theorem packSymbols_ok (msg : List Byte) (m : Nat) {acc : List Bool} {s : State} {rest : List Byte} (hs : StreamsOk s)
    (hg : SourceGives msg.length s) (hr : sourceRest s = msg ++ rest) (he : Encodable s msg)
    (hk : SinkTakes ((acc ++ codeBits s msg).length / 8) s) (ha : acc.length < 8) :
    whileSrc packSymbol (msg.length + m) acc s =
      whileSrc packSymbol m (restBits (acc ++ codeBits s msg))
        { advance msg.length s with snk := s.snk ++ wholeBytes (acc ++ codeBits s msg) } := by
  induction msg generalizing s acc with
  | nil => simp [codeBits, restBits_of_short ha, wholeBytes_of_short ha, advance]
  | cons b msg ih =>
    have hg1 : SourceGives 1 s := hg.le (by simp)
    obtain ⟨code, hc⟩ := Option.isSome_iff_exists.1 (he b (by simp))
    have hco : codeOf s b = code := by simp [codeOf, hc]
    have hbits : acc ++ codeBits s (b :: msg) = (acc ++ code) ++ codeBits s msg := by rw [codeBits_cons, hco, List.append_assoc]
    rw [hbits] at hk ⊢
    have hlen : (acc ++ code).length / 8 + (restBits (acc ++ code) ++ codeBits s msg).length / 8 = (acc ++ code ++ codeBits s msg).length / 8 := by
      have := length_restBits (acc ++ code)
      simp only [List.length_append] at *; omega
    have hk1 : SinkTakes ((acc ++ code).length / 8) (advance 1 s) := hk.le (by omega)
    rw [List.length_cons, show msg.length + 1 + m = (msg.length + m) + 1 by omega, whileSrc, if_neg (by rw [hg1.not_eof (n := 0) hs]; simp), packSymbol,
      hg1.read (by rw [hr]; rfl), Run.andThen_ok, show ctOf (advance 1 s) b.toNat = some code from hc]
    simp only
    rw [flushBytes_ok (Nat.div_le_self _ _) hk1, Run.andThen_ok]
    let u : State := { advance 1 s with snk := s.snk ++ wholeBytes (acc ++ code) }
    have hu : codeBits u msg = codeBits s msg := codeBits_congr rfl msg
    have := ih (s := u) (acc := restBits (acc ++ code)) ⟨(hg1.streamsOk hs).pos, hs.len⟩
      (SourceGives.gives (n := 1) (by rwa [Nat.add_comm]) hs)
      (by show sourceRest (advance 1 s) = _; rw [hg1.rest hs, hr]; rfl) (fun c hcm => he c (by simp [hcm]))
      (by rw [hu]; exact sinkTakes_append (s := s) (bs := wholeBytes (acc ++ code)) (by rw [length_wholeBytes, hlen]; exact hk))
      (by rw [length_restBits]; omega)
    refine Eq.trans this ?_
    rw [hu, ← restBits_append]
    congr 1
    show { advance msg.length (advance 1 s) with snk := (s.snk ++ wholeBytes (acc ++ code)) ++ wholeBytes (restBits (acc ++ code) ++ codeBits s msg) } = _
    rw [advance_advance, List.append_assoc, ← wholeBytes_append, Nat.add_comm]

/-- A byte without a code ends the packer after it (R233). -/
theorem packSymbol_unknown {acc : List Bool} {s : State} {b : Byte} {rest : List Byte} (hg : SourceGives 1 s)
    (hr : sourceRest s = b :: rest) (hb : ctOf s b.toNat = none) : packSymbol acc s = .raise .unknownSymbol (advance 1 s) := by
  rw [packSymbol, hg.read hr, Run.andThen_ok, show ctOf (advance 1 s) b.toNat = none from hb]

/-- The last bits go out padded (R233). -/
theorem flushRest_ok {acc : List Bool} {s : State} (ha : acc.length < 8) (h : SinkTakes (packbits acc).length s) :
    flushRest acc s = .ok () { s with snk := s.snk ++ packbits acc } := by
  rw [flushRest]
  split
  · rename_i h0
    rw [List.length_eq_zero_iff.1 h0]; simp
  · rw [packbits_of_rest (by omega) ha] at h ⊢
    exact snkWrite_eq_ok.2 ⟨snkFull_false_of_takes (n := 0) h, rfl⟩

end Sys2Proof.Machine
end

