-- ==== Sys2Proof/Laws/Ends.lean ====
section
/-! SUPPORT. The commands that read the source end normally or raise one of their errors, with the streams and the code store as they must be (48_system.md R300, R301); those that write stop at a sink of LEN_MAX bytes only (00_scope.md R9). -/

namespace Sys2Proof.Machine

/-- FC_SCAN (R131). -/
theorem scanSource_ends {s : State} (hs : StreamsOk s) :
    (scanSource s).Ends (fun _ t => StreamsOk t) fun k t => k = .ioError ∧ StreamsOk t := by
  refine Run.Ends.andThen (whileSrc_ends (P := fun _ t => StreamsOk t) (fun _ _ h => h) (fun n t ht hlt => ?_) _ _ { s with freq := [] } ⟨hs.pos, hs.len⟩
    (Nat.le_refl _)) fun n t ht => ⟨ht.1.pos, ht.1.len⟩
  refine Run.Ends.andThen ((srcRead_ends hlt).mono (fun _ _ h => h) fun k u hu => ⟨hu.1, hu.2.1 ▸ ht⟩) ?_
  rintro b - ⟨-, -, rfl⟩
  have h1 := streamsOk_advance ht hlt
  refine ⟨⟨h1.pos, h1.len⟩, ?_⟩
  have h2 := rp_succ ht hlt
  show t.src.length - (t.rp + 1#64).toNat < t.src.length - t.rp.toNat
  omega

/-- The streams and the code store as they must be. -/
structure TableOk (s : State) : Prop where
  streams : StreamsOk s
  wf : CtWf s
  codes : CodesOk s

theorem TableOk.source {s t : State} (h : TableOk s) (ht : t = { s with rp := t.rp }) (hst : StreamsOk t) : TableOk t :=
  ⟨hst, by rw [ht]; exact h.wf, by rw [ht]; exact h.codes⟩

theorem TableOk.header {s : State} (h : TableOk s) (v : Count) : TableOk { s with origSize := v } := ⟨⟨h.streams.pos, h.streams.len⟩, h.wf, h.codes⟩

theorem tableOk_clear {s : State} (hs : StreamsOk s) : TableOk { s with ct := [] } := ⟨⟨hs.pos, hs.len⟩, rfl, fun _ _ => rfl⟩

/-- A record whose packed bytes are all there gives a code of 1 to 255 bits (R39). -/
theorem addRecord_ends {s : State} (h : TableOk s) (sym len : Byte) (bytes : List Byte) (h0 : len ≠ 0#8) (hl : bytes.length = ceil8 len.toNat) :
    (addRecord sym (unpackbits bytes len.toNat) s).Ends (fun _ t => TableOk t ∧ t = { s with ct := t.ct }) fun k t => k = .malformedTable ∧ t = s := by
  unfold addRecord; split
  · exact ⟨rfl, rfl⟩
  · refine ⟨⟨⟨h.streams.pos, h.streams.len⟩, setCt_wf h.wf sym.isLt _, fun b hb => ?_⟩, rfl⟩
    rw [ctOf_setCt h.wf]
    split
    · have hlen : (unpackbits bytes len.toNat).length = len.toNat := length_unpackbits (by rw [hl]; exact le_eight_mul_ceil8 _)
      have hpos : len.toNat ≠ 0 := fun e => h0 (BitVec.eq_of_toNat_eq e)
      have := len.isLt
      simp only [codeOk, hlen, Bool.and_eq_true, decide_eq_true_eq, Config.lmax]; omega
    · exact h.codes b hb

/-- One record of the binary form (R195): it takes at least its symbol. -/
theorem readRecord_ends {s : State} (h : TableOk s) (hlt : s.rp.toNat < s.src.length) :
    (readRecord () s).Ends (fun _ t => TableOk t ∧ srcLeft t < srcLeft s) fun k t => (k = .malformedTable ∨ k = .ioError) ∧ TableOk t := by
  unfold readRecord
  refine Run.Ends.andThen ((srcRead_ends hlt).mono (fun _ _ h => h) fun k u hu => ⟨.inr hu.1, hu.2.1 ▸ h⟩) ?_
  rintro sym - ⟨-, -, rfl⟩
  have h1 : TableOk { s with rp := s.rp + 1#64 } := h.source rfl (streamsOk_advance h.streams hlt)
  have hl1 : srcLeft { s with rp := s.rp + 1#64 } + 1 = srcLeft s := by
    have := rp_succ h.streams hlt; simp only [srcLeft, this]; omega
  split
  · exact ⟨.inl rfl, h1⟩
  · rename_i hE
    have hlt1 := (srcEof_false h1.streams).1 (by simpa using hE)
    refine Run.Ends.andThen ((srcRead_ends hlt1).mono (fun _ _ h => h) fun k u hu => ⟨.inr hu.1, hu.2.1 ▸ h1⟩) ?_
    rintro len - ⟨-, -, rfl⟩
    have hst2 := streamsOk_advance h1.streams hlt1
    have h2 := h1.source (t := { s with rp := s.rp + 1#64 + 1#64 }) rfl ⟨hst2.pos, hst2.len⟩
    have hl2 : srcLeft { s with rp := s.rp + 1#64 + 1#64 } + 1 = srcLeft { s with rp := s.rp + 1#64 } := by
      have := rp_succ h1.streams hlt1; simp only [srcLeft] at this ⊢; simp only at hlt1 this; omega
    split
    · exact ⟨.inl rfl, h2⟩
    · rename_i h0
      split
      · exact ⟨.inl rfl, h2⟩
      · refine Run.Ends.andThen ((srcTake_ends .malformedTable _ h2.streams).mono (fun _ _ h => h) ?_) ?_
        · rintro k u ⟨hk, hu, hst⟩
          exact ⟨hk, h2.source hu hst⟩
        · rintro bytes u ⟨hlen, hu, hst, hleft⟩
          have h3 := h2.source hu hst
          refine (addRecord_ends h3 sym len bytes h0 hlen).mono ?_ ?_
          · rintro - v ⟨hv, hvf⟩
            refine ⟨hv, ?_⟩
            have : srcLeft v = srcLeft u := by rw [hvf]; rfl
            rw [this]
            have hleft' : srcLeft u + ceil8 len.toNat = srcLeft { s with rp := s.rp + 1#64 + 1#64 } := hleft
            omega
          · rintro k v ⟨hk, rfl⟩
            exact ⟨.inl hk, h3⟩

/-- `RdTable` (R195). -/
theorem readTable_ends (w : Nat) {s : State} (hs : StreamsOk s) :
    (readTable w s).Ends (fun _ t => TableOk t) fun k t => (k = .malformedTable ∨ k = .ioError) ∧ TableOk t := by
  have h := tableOk_clear hs
  refine Run.Ends.andThen ((srcTake_ends .malformedTable w h.streams).mono (fun _ _ h => h) ?_) ?_
  · rintro k u ⟨hk, hu, hst⟩
    exact ⟨hk, h.source hu hst⟩
  · rintro header u ⟨-, hu, hst, -⟩
    exact (whileSrc_ends (P := fun _ t => TableOk t) (fun _ _ h => h.streams) (fun _ t ht hlt => readRecord_ends ht hlt) _ ()
      { u with origSize := fromLe header } ((h.source hu hst).header _) (Nat.le_refl _)).mono (fun _ _ h => h.1) fun _ _ h => h

theorem readDigit_ends {s : State} (hs : StreamsOk s) :
    (readDigit s).Ends (fun _ t => t = { s with rp := t.rp } ∧ StreamsOk t ∧ srcLeft t + 1 = srcLeft s)
      fun k t => (k = .malformedTable ∨ k = .ioError) ∧ t = { s with rp := t.rp } ∧ StreamsOk t := by
  unfold readDigit; split
  · exact ⟨.inl rfl, rfl, hs⟩
  · rename_i hE
    have hlt := (srcEof_false hs).1 (by simpa using hE)
    refine Run.Ends.andThen ((srcRead_ends hlt).mono (fun _ _ h => h) fun k u hu => ⟨.inr hu.1, by rw [hu.2.1], hu.2.1 ▸ hs⟩) ?_
    rintro c - ⟨-, -, rfl⟩
    have h1 := streamsOk_advance hs hlt
    have hl1 : srcLeft { s with rp := s.rp + 1#64 } + 1 = srcLeft s := by
      have := rp_succ hs hlt; simp only [srcLeft, this]; omega
    split
    · exact ⟨rfl, h1, hl1⟩
    · exact ⟨.inl rfl, rfl, h1⟩

/-- `RdLine()` (R202). -/
theorem readLine_ends (n : Nat) (toks : List Byte) {s : State} (hs : StreamsOk s) (hn : srcLeft s ≤ n) :
    (readLine n toks s).Ends (fun _ t => t = { s with rp := t.rp } ∧ StreamsOk t ∧ srcLeft t < srcLeft s)
      fun k t => (k = .malformedTable ∨ k = .ioError) ∧ t = { s with rp := t.rp } ∧ StreamsOk t := by
  induction n generalizing toks s with
  | zero =>
    have hE : srcEof s = true := by have := hs.pos; simp only [srcLeft] at hn; exact srcEof_iff.2 (by omega)
    rw [readLine, if_pos hE]
    exact ⟨.inl rfl, rfl, hs⟩
  | succ n ih =>
    rw [readLine]
    refine Run.Ends.andThen (readDigit_ends hs) ?_
    rintro h t ⟨ht, hst, hlt⟩
    refine Run.Ends.andThen ((readDigit_ends hst).mono (fun _ _ h => h) fun k u hu => ⟨hu.1, by rw [hu.2.1, ht], hu.2.2⟩) ?_
    rintro l u ⟨hu, hsu, hlu⟩
    split
    · exact ⟨.inl rfl, by rw [hu, ht], hsu⟩
    · rename_i hE
      have hltu := (srcEof_false hsu).1 (by simpa using hE)
      refine Run.Ends.andThen ((srcRead_ends hltu).mono (fun _ _ h => h) fun k v hv => ⟨.inr hv.1, by rw [hv.2.1, hu, ht], hv.2.1 ▸ hsu⟩) ?_
      rintro c - ⟨-, -, rfl⟩
      have hsv := streamsOk_advance hsu hltu
      have hlv : srcLeft { u with rp := u.rp + 1#64 } + 1 = srcLeft u := by
        have := rp_succ hsu hltu; simp only [srcLeft, this]; omega
      have hf : ({ u with rp := u.rp + 1#64 } : State) = { s with rp := u.rp + 1#64 } := by rw [hu, ht]
      split
      · exact ⟨hf, hsv, by omega⟩
      · split
        · refine (ih _ hsv (by omega)).mono ?_ ?_
          · rintro toks v ⟨hv, hst', hl⟩
            exact ⟨by rw [hv, hf], hst', by omega⟩
          · rintro k v ⟨hk, hv, hst'⟩
            exact ⟨hk, by rw [hv, hf], hst'⟩
        · exact ⟨.inl rfl, hf, hsv⟩

theorem takeRecordLine_ends {s : State} (h : TableOk s) (toks : List Byte) :
    (takeRecordLine toks s).Ends (fun _ t => TableOk t ∧ t = { s with ct := t.ct }) fun k t => k = .malformedTable ∧ t = s := by
  unfold takeRecordLine
  split
  · split
    · exact ⟨rfl, rfl⟩
    · split
      · exact ⟨rfl, rfl⟩
      · rename_i sym len bytes h0 hl
        exact addRecord_ends h sym len bytes h0 (by simpa using hl)
  · exact ⟨rfl, rfl⟩

/-- `RdTableX` (R203). -/
theorem readTableText_ends {s : State} (hs : StreamsOk s) :
    (readTableText s).Ends (fun _ t => TableOk t) fun k t => (k = .malformedTable ∨ k = .ioError) ∧ TableOk t := by
  have h := tableOk_clear hs
  unfold readTableText; split
  · exact ⟨.inl rfl, h⟩
  · refine Run.Ends.andThen ((readLine_ends (srcLeft s) [] h.streams (Nat.le_refl _)).mono (fun _ _ h => h) fun k u hu => ⟨hu.1, h.source hu.2.1 hu.2.2⟩) ?_
    rintro toks u ⟨hu, hst, -⟩
    have h1 := h.source hu hst
    split
    · exact ⟨.inl rfl, h1⟩
    · refine (whileSrc_ends (P := fun _ t => TableOk t) (fun _ _ h => h.streams) (fun _ t ht hlt => ?_) _ () { u with origSize := fromLe toks } (h1.header _)
        (Nat.le_refl _)).mono (fun _ _ h => h.1) fun _ _ h => h
      refine Run.Ends.andThen ((readLine_ends (srcLeft t) [] ht.streams (Nat.le_refl _)).mono (fun _ _ h => h) fun k v hv => ⟨hv.1, ht.source hv.2.1 hv.2.2⟩) ?_
      rintro toks v ⟨hv, hsv, hl⟩
      have h2 := ht.source hv hsv
      refine (takeRecordLine_ends h2 toks).mono ?_ ?_
      · rintro - w ⟨hw, hwf⟩
        have : srcLeft w = srcLeft v := by rw [hwf]; rfl
        exact ⟨hw, by rw [this]; exact hl⟩
      · rintro k w ⟨hk, rfl⟩
        exact ⟨.inl hk, h2⟩

/-- The bits still to go out meet the end of a sink the host may not present (00_scope.md R9). -/
def Overfull (acc : List Bool) (s : State) : Prop := ¬ SinkFits (ceil8 (acc ++ codeBits s (sourceRest s)).length) s

/-- One pass of the packer (R233): a byte's code joins the accumulator, and the whole bytes leave it for the sink. -/
theorem packSymbol_ends {acc : List Bool} {s : State} (hs : StreamsOk s) (hlt : s.rp.toNat < s.src.length) :
    (packSymbol acc s).Ends
      (fun a t => StreamsOk t ∧ srcLeft t < srcLeft s ∧ (Overfull a t → Overfull acc s))
      (fun k t => (k = .unknownSymbol ∨ k = .ioError) ∧ StreamsOk t) (Overfull acc s) := by
  unfold packSymbol
  refine Run.Ends.andThen (((srcRead_ends hlt).mono (fun _ _ h => h) fun k u hu => ⟨.inr hu.1, hu.2.1 ▸ hs⟩).stops False.elim) ?_
  rintro b - ⟨hb, -, rfl⟩
  have h1 := streamsOk_advance hs hlt
  have h2 := rp_succ hs hlt
  have hrest : sourceRest s = b :: sourceRest { s with rp := s.rp + 1#64 } := by
    rw [List.getElem?_eq_getElem hlt, Option.some.injEq] at hb
    rw [sourceRest_cons hlt, hb, sourceRest, h2]
  split
  · exact ⟨.inl rfl, h1⟩
  · rename_i code hc
    have hbits : codeBits s (sourceRest s) = code ++ codeBits s (sourceRest { s with rp := s.rp + 1#64 }) := by
      rw [hrest, codeBits_cons, show codeOf s b = code by simp [codeOf, show ctOf s b.toNat = some code from hc]]
    refine ((flushBytes_ends _ _ _).mono ?_ ?_).stops ?_
    · rintro a u ⟨out, rfl, hl⟩
      refine ⟨⟨h1.pos, h1.len⟩, ?_, mt fun hf => ?_⟩
      · show s.src.length - (s.rp + 1#64).toNat < s.src.length - s.rp.toNat
        omega
      · refine SinkFits.append (s := { s with rp := s.rp + 1#64 }) (hf.le ?_)
        have hc' : ∀ msg, codeBits { s with rp := s.rp + 1#64, snk := s.snk ++ out } msg = codeBits s msg := codeBits_congr rfl
        show out.length + ceil8 (a ++ codeBits { s with rp := s.rp + 1#64, snk := s.snk ++ out } (sourceRest { s with rp := s.rp + 1#64 })).length ≤ _
        rw [hc', hbits]
        simp only [List.length_append, ceil8] at hl ⊢; omega
    · rintro k u ⟨hk, out, rfl⟩
      exact ⟨.inr hk, ⟨h1.pos, h1.len⟩⟩
    · refine mt fun hf => SinkFits.le (n := ceil8 (acc ++ codeBits s (sourceRest s)).length) hf ?_
      rw [hbits]; simp only [List.length_append, ceil8]; omega

/-- BP_ENC (R233). -/
theorem packSource_ends {s : State} (hs : StreamsOk s) :
    (packSource s).Ends (fun _ t => StreamsOk t) (fun k t => (k = .unknownSymbol ∨ k = .ioError) ∧ StreamsOk t)
      (¬ SinkFits (ceil8 (codeBits s (sourceRest s)).length) s) := by
  refine Run.Ends.andThen (whileSrc_ends (P := fun acc t => StreamsOk t ∧ (Overfull acc t → Overfull [] s)) (fun _ _ h => h.1)
    (fun acc t ht hlt => ?_) _ _ s ⟨hs, id⟩ (Nat.le_refl _)) fun acc t ht => ?_
  · exact ((packSymbol_ends ht.1 hlt).mono (fun a u hu => ⟨⟨hu.1, fun h => ht.2 (hu.2.2 h)⟩, hu.2.1⟩) fun _ _ h => h).stops ht.2
  · unfold flushRest; split
    · exact ht.1.1
    · refine ((snkWrite_ends _ t).mono ?_ ?_).stops fun h => ht.1.2 (mt (SinkFits.le · ?_) h)
      · rintro - u ⟨-, rfl⟩; exact ⟨ht.1.1.pos, ht.1.1.len⟩
      · rintro k u ⟨hk, rfl, -⟩; exact ⟨.inr hk, ht.1.1⟩
      · simp only [List.length_append, ceil8]; omega

/-- SD_RUN (R270) from a trie that is well formed. -/
theorem runDecoder_ends {s : State} (hs : StreamsOk s) (ht : TrieOk s) :
    (runDecoder s).Ends (fun _ t => StreamsOk t) (fun _ t => StreamsOk t) (¬ SinkFits s.origSize.toNat s) := by
  unfold runDecoder; split
  · exact hs
  · rename_i hn
    simp only
    split
    · exact ⟨hs.pos, hs.len⟩
    · rename_i ho
      have hpos : ∀ {n : Nat} {x : BitVec n}, x ≠ 0#n → 0 < x.toNat := fun {n x} h =>
        Nat.pos_of_ne_zero fun e => h (BitVec.eq_of_toNat_eq (by simpa using e))
      split
      · refine (repeatSymbol_ends _ _).mono ?_ ?_
        · rintro - t rfl; exact ⟨hs.pos, hs.len⟩
        · rintro k t ⟨-, n, -, rfl⟩; exact ⟨hs.pos, hs.len⟩
      · let u : State := { s with sdState := .walking, sdCur := 0#16, sdCnt := 0#64 }
        have hW : Walks u s.snk := ⟨ht.congr rfl rfl, hpos hn, ⟨[], by simp [u], rfl⟩, hpos ho, rfl⟩
        exact (sdLoop_ends (srcLeft s) (s := u) ⟨hs.pos, hs.len⟩ hW (Nat.le_refl _)).mono (fun _ _ h => h.2.1) fun _ _ h => h.2.2.1

/-- CF_RDH (R266). -/
theorem readHeader_ends {s : State} (hs : StreamsOk s) :
    (readHeader s).Ends (fun _ t => StreamsOk t) fun k t => (k = .truncatedInput ∨ k = .ioError) ∧ StreamsOk t := by
  refine Run.Ends.andThen ((srcTake_ends .truncatedInput _ hs).mono (fun _ _ h => h) fun k u hu => ⟨hu.1, hu.2.2⟩) ?_
  rintro bytes u ⟨-, -, hst, -⟩
  exact ⟨hst.pos, hst.len⟩

end Sys2Proof.Machine
end

