-- ==== Sys2Proof/Laws/PerInstr.lean ====
section
/-! SUPPORT. For every command: its word is selected by the command's own row of the opcode map (30_encoding.md R93), and by no other row. -/

namespace Sys2Proof.Laws.SelectedByRow

/-- The rows that select a word (R93). -/
def selecting (w : CmdWord) : List OpcodeRow := opcodeMap.filter fun r => decide (w &&& r.mask = r.pattern)

/-- Exactly one row selects the command's word, and it is the command's. -/
def Statement (i : Instr) : Prop :=
  i.wellFormed = true → (selecting (encode i)).map (fun r => r.command (operandField (encode i)).toNat) = [i]

theorem nop : Statement .nop := by intro _; decide

theorem rst : Statement .rst := by intro _; decide

theorem rwd : Statement .rwd := by intro _; decide

theorem fcScan : Statement .fcScan := by intro _; decide

theorem pqClr : Statement .pqClr := by intro _; decide

/-- Every operand of PQ_INS stands in bits 16:8 only, and its opcode is no other row's. -/
theorem pqIns (n : Nat) : Statement (.pqIns n) := by
  intro h
  have hn : n < 512 := by simpa [Instr.wellFormed] using h
  have key : ∀ k : Fin 512, (selecting (encode (.pqIns k))).map (fun r => r.command (operandField (encode (.pqIns k))).toNat) = [.pqIns k] := by
    decide +kernel
  exact key ⟨n, hn⟩

theorem pqExt : Statement .pqExt := by intro _; decide

theorem tbMerge : Statement .tbMerge := by intro _; decide

theorem tbBuild : Statement .tbBuild := by intro _; decide

theorem cgGen : Statement .cgGen := by intro _; decide

theorem ctWr4 : Statement .ctWr4 := by intro _; decide

theorem ctWr8 : Statement .ctWr8 := by intro _; decide

theorem ctRd4 : Statement .ctRd4 := by intro _; decide

theorem ctRd8 : Statement .ctRd8 := by intro _; decide

theorem ctWrx4 : Statement .ctWrx4 := by intro _; decide

theorem ctWrx8 : Statement .ctWrx8 := by intro _; decide

theorem ctRdx : Statement .ctRdx := by intro _; decide

theorem cfWrh : Statement .cfWrh := by intro _; decide

theorem bpEnc : Statement .bpEnc := by intro _; decide

theorem dtBuild : Statement .dtBuild := by intro _; decide

theorem cfRdh : Statement .cfRdh := by intro _; decide

theorem sdRun : Statement .sdRun := by intro _; decide

end Sys2Proof.Laws.SelectedByRow
end

