-- ==== Sys2Proof/Laws/Table.lean ====
section
/-! SUPPORT. What the table readers and writers do (44_code_table_codec.md R191 to R205). -/

namespace Sys2Proof.Machine

/-! Records in the source. -/

theorem RawRecord.ok_iff {r : RawRecord} : r.ok = true ↔ r.len ≠ 0#8 ∧ r.bits.length = ceil8 r.len.toNat := by simp [RawRecord.ok]

@[simp] theorem RawRecord.length_bytes (r : RawRecord) : r.bytes.length = r.bits.length + 2 := by simp [RawRecord.bytes]

theorem ctOf_advance (n : Nat) (s : State) (b : Nat) : ctOf (advance n s) b = ctOf s b := rfl

/-- One well-formed record of a symbol not seen before (R195). -/
theorem readRecord_ok {s : State} {r : RawRecord} {rest : List Byte} (hs : StreamsOk s) (hg : SourceGives r.bytes.length s)
    (hr : sourceRest s = r.bytes ++ rest) (hok : r.ok = true) (hnew : ctOf s r.sym.toNat = none) :
    readRecord () s = .ok () (setCt r.sym.toNat r.code (advance r.bytes.length s)) := by
  obtain ⟨h0, hl⟩ := RawRecord.ok_iff.1 hok
  rw [RawRecord.length_bytes] at hg ⊢
  have hg1 : SourceGives 1 s := hg.le (by omega)
  have hs1 := hg1.streamsOk hs
  have hr1 : sourceRest (advance 1 s) = r.len :: (r.bits ++ rest) := by rw [hg1.rest hs, hr]; rfl
  have hg' : SourceGives (r.bits.length + 1) (advance 1 s) := SourceGives.gives (by rwa [show 1 + (r.bits.length + 1) = r.bits.length + 2 by omega]) hs
  have hg2 : SourceGives 1 (advance 1 s) := hg'.le (by omega)
  have hs2 := hg2.streamsOk hs1
  have hr2 : sourceRest (advance 1 (advance 1 s)) = r.bits ++ rest := by rw [hg2.rest hs1, hr1]; rfl
  have hg3 : SourceGives r.bits.length (advance 1 (advance 1 s)) := SourceGives.gives (by rwa [Nat.add_comm]) hs1
  have hleft : ¬ srcLeft (advance 1 (advance 1 s)) < ceil8 r.len.toNat := by
    rw [← length_sourceRest, hr2, List.length_append, ← hl]; omega
  rw [readRecord, hg1.read (by rw [hr]; rfl), Run.andThen_ok, if_neg (by rw [hg'.not_eof hs1]; simp), hg2.read hr1, Run.andThen_ok, if_neg h0,
    if_neg hleft, ← hl, hg3.take hs2, Run.andThen_ok, hr2, List.take_left, addRecord,
    show ctOf (advance r.bits.length (advance 1 (advance 1 s))) r.sym.toNat = none from hnew]
  simp only [Option.isSome_none, Bool.false_eq_true, if_false, advance_advance, RawRecord.code]
  rw [show 1 + 1 + r.bits.length = r.bits.length + 2 by omega]

theorem recordedCode_nil (b : Nat) : recordedCode [] b = none := rfl

theorem recordedCode_cons (r : RawRecord) (recs : List RawRecord) (b : Nat) :
    recordedCode (r :: recs) b = if r.sym.toNat = b then some r.code else recordedCode recs b := by
  unfold recordedCode
  by_cases h : r.sym.toNat = b <;> simp [h]

theorem recordedCode_none {recs : List RawRecord} {b : Nat} : recordedCode recs b = none ↔ ∀ r ∈ recs, r.sym.toNat ≠ b := by
  induction recs with
  | nil => simp [recordedCode_nil]
  | cons r recs ih =>
    rw [recordedCode_cons]
    by_cases h : r.sym.toNat = b <;> simp [h, ih]

theorem recordedCode_append (recs : List RawRecord) (r : RawRecord) (b : Nat) :
    recordedCode (recs ++ [r]) b = (recordedCode recs b).or (if r.sym.toNat = b then some r.code else none) := by
  induction recs with
  | nil => rw [List.nil_append, recordedCode_cons, recordedCode_nil]; simp
  | cons q recs ih =>
    rw [List.cons_append, recordedCode_cons, recordedCode_cons, ih]
    split <;> simp

/-- The passes of a table reader over well-formed records with distinct symbols, from a store that holds none of them. -/
theorem readRecords_ok (recs : List RawRecord) (m : Nat) {s : State} {rest : List Byte} (hs : StreamsOk s) (hw : CtWf s)
    (hg : SourceGives (recs.flatMap RawRecord.bytes).length s) (hr : sourceRest s = recs.flatMap RawRecord.bytes ++ rest)
    (hok : ∀ r ∈ recs, r.ok = true) (hnd : (recs.map RawRecord.sym).Nodup) (hnew : ∀ r ∈ recs, ctOf s r.sym.toNat = none) :
    ∃ c, whileSrc readRecord (recs.length + m) () s =
        whileSrc readRecord m () { advance (recs.flatMap RawRecord.bytes).length s with ct := c } ∧
      cellsWf none Config.nsym c = true ∧ ∀ b, readCell none c b = (recordedCode recs b).or (ctOf s b) := by
  induction recs generalizing s with
  | nil => exact ⟨s.ct, by simp [advance], hw, fun b => by simp [recordedCode_nil, ctOf]⟩
  | cons r recs ih =>
    rw [List.flatMap_cons] at hg hr ⊢
    rw [List.length_append] at hg ⊢
    rw [List.append_assoc] at hr
    have hg1 := hg.le (Nat.le_add_right _ _)
    have hnew1 := hnew r (by simp)
    obtain ⟨hrn, hnd⟩ := List.nodup_cons.1 hnd
    let u := setCt r.sym.toNat r.code (advance r.bytes.length s)
    have hctu : ∀ b, ctOf u b = if b = r.sym.toNat then some r.code else ctOf s b := fun b => ctOf_setCt (s := advance r.bytes.length s) hw _ _ _
    obtain ⟨c, hc, hwc, hcc⟩ := ih (s := u) ⟨(hg1.streamsOk hs).pos, hs.len⟩ (setCt_wf (s := advance r.bytes.length s) hw r.sym.isLt _)
      (hg.gives hs) (by show sourceRest (advance r.bytes.length s) = _; rw [hg1.rest hs, hr, List.drop_left]) (fun q hq => hok q (by simp [hq])) hnd
      (fun q hq => by
        rw [hctu, if_neg, hnew q (by simp [hq])]
        intro e
        exact hrn (List.mem_map.2 ⟨q, hq, BitVec.eq_of_toNat_eq e⟩))
    refine ⟨c, ?_, hwc, fun b => ?_⟩
    · have hne : srcEof s = false := SourceGives.not_eof (n := r.bits.length + 1) (by simpa using hg1) hs
      rw [List.length_cons, show recs.length + 1 + m = (recs.length + m) + 1 by omega, whileSrc, if_neg (by rw [hne]; simp),
        readRecord_ok hs hg1 hr (hok r (by simp)) hnew1, Run.andThen_ok]
      refine Eq.trans (show _ = whileSrc readRecord (recs.length + m) () u from rfl) (hc.trans ?_)
      congr 1
      rw [← advance_advance]; rfl
    · rw [hcc, recordedCode_cons, hctu]
      by_cases hb : r.sym.toNat = b
      · have : recordedCode recs b = none := recordedCode_none.2 fun q hq e => hrn (List.mem_map.2 ⟨q, hq, BitVec.eq_of_toNat_eq (e.trans hb.symm)⟩)
        simp [this, hb]
      · simp [hb, Ne.symm hb]

theorem length_le_flatMap_bytes (recs : List RawRecord) : 2 * recs.length ≤ (recs.flatMap RawRecord.bytes).length := by
  induction recs with
  | nil => simp
  | cons r recs ih => simp only [List.flatMap_cons, List.length_append, RawRecord.length_bytes, List.length_cons]; omega

/-- `RdTable(w)` up to the end of its well-formed records (R195): what follows is the rest of its loop. -/
theorem readTable_records {s : State} {w : Nat} {header rest : List Byte} {recs : List RawRecord} (hs : StreamsOk s)
    (hg : SourceGives (header ++ recs.flatMap RawRecord.bytes).length s) (hw : header.length = w) (hok : ∀ r ∈ recs, r.ok = true)
    (hnd : (recs.map RawRecord.sym).Nodup) (hr : sourceRest s = header ++ recs.flatMap RawRecord.bytes ++ rest) :
    ∃ c m, readTable w s = whileSrc readRecord m ()
        { advance (header ++ recs.flatMap RawRecord.bytes).length s with origSize := fromLe header, ct := c } ∧
      rest.length ≤ m ∧ cellsWf none Config.nsym c = true ∧ ∀ b, readCell none c b = recordedCode recs b := by
  rw [List.length_append] at hg
  have hg1 := hg.le (Nat.le_add_right _ _)
  have hr1 : sourceRest (advance header.length s) = recs.flatMap RawRecord.bytes ++ rest := by
    rw [hg1.rest hs, hr, List.append_assoc, List.drop_left]
  let u : State := { advance header.length s with origSize := fromLe header, ct := [] }
  have hleft : srcLeft (advance header.length s) = (recs.flatMap RawRecord.bytes).length + rest.length := by
    rw [← length_sourceRest, hr1, List.length_append]
  have hlen := length_le_flatMap_bytes recs
  obtain ⟨c, hc, hwc, hcc⟩ := readRecords_ok recs (srcLeft (advance header.length s) - recs.length) (s := u)
    ⟨(hg1.streamsOk hs).pos, hs.len⟩ (by rfl) (hg.gives hs) hr1 hok hnd fun _ _ => rfl
  refine ⟨c, srcLeft (advance header.length s) - recs.length, ?_, by omega, hwc, fun b => by rw [hcc]; exact Option.or_none⟩
  have htake : srcTake .malformedTable w { s with ct := [] } = .ok header { advance header.length s with ct := [] } := by
    rw [SourceGives.take (s := { s with ct := [] }) (n := w) (hw ▸ hg1) ⟨hs.pos, hs.len⟩]
    have : (sourceRest { s with ct := [] }).take w = header := by
      show (sourceRest s).take w = header
      rw [hr, List.append_assoc, ← hw, List.take_left]
    rw [this, hw]; rfl
  have hfuel : recs.length + (srcLeft (advance header.length s) - recs.length) = srcLeft (advance header.length s) := by omega
  rw [hfuel] at hc
  rw [readTable, htake, Run.andThen_ok, List.length_append, ← advance_advance]
  exact hc

/-- A record that is refused (R198), in the order of the checks, and how far the reader has come. -/
theorem readRecord_bad {s : State} {recs : List RawRecord} {n : Nat} (hs : StreamsOk s) (hg : SourceGives n s)
    (hc : ∀ b, ctOf s b = recordedCode recs b) (hb : badRecord recs (sourceRest s) = some n) :
    readRecord () s = .raise .malformedTable (advance n s) := by
  match hr : sourceRest s with
  | [] => rw [hr] at hb; cases hb
  | [sym] =>
    rw [hr] at hb; cases hb
    rw [readRecord, hg.read hr, Run.andThen_ok, if_pos ((eof_iff_rest (hg.streamsOk hs)).2 (by rw [hg.rest hs, hr]; rfl))]
  | sym :: len :: rest =>
    rw [hr] at hb
    have h2 : 2 ≤ n := by simp only [badRecord] at hb; split at hb <;> simp at hb <;> omega
    have hg1 : SourceGives 1 s := hg.le (by omega)
    have hs1 := hg1.streamsOk hs
    have hr1 : sourceRest (advance 1 s) = len :: rest := by rw [hg1.rest hs, hr]; rfl
    have hg2 : SourceGives 1 (advance 1 s) := SourceGives.gives (n := 1) (hg.le h2) hs
    have hs2 : StreamsOk (advance 2 s) := (hg.le h2).streamsOk hs
    have hr2 : sourceRest (advance 2 s) = rest := by rw [(hg.le h2).rest hs, hr]; rfl
    have hl2 : srcLeft (advance 2 s) = rest.length := by rw [← length_sourceRest, hr2]
    rw [readRecord, hg1.read hr, Run.andThen_ok, if_neg (by rw [hg2.not_eof (n := 0) hs1]; simp), hg2.read hr1, Run.andThen_ok, advance_advance, hl2]
    simp only [badRecord] at hb
    by_cases h0 : len = 0#8
    · rw [if_pos (.inl h0)] at hb; cases hb
      rw [if_pos h0]
    · by_cases hlt : rest.length < ceil8 len.toNat
      · rw [if_pos (.inr hlt)] at hb; cases hb
        rw [if_neg h0, if_pos hlt]
      · rw [if_neg (by simp [h0, hlt])] at hb
        split at hb
        · rename_i hmem
          cases hb
          have hsome : (ctOf s sym.toNat).isSome = true := by
            rw [hc, Option.isSome_iff_ne_none, ne_eq, recordedCode_none]
            obtain ⟨q, hq, hqs⟩ := List.mem_map.1 hmem
            exact fun h => h q hq (by rw [hqs])
          rw [if_neg h0, if_neg hlt, (hg.gives hs).take hs2, Run.andThen_ok, addRecord,
            show ctOf (advance (ceil8 len.toNat) (advance 2 s)) sym.toNat = ctOf s sym.toNat from rfl, hsome, if_pos rfl, advance_advance]
        · cases hb

/-- A record with a failing byte in it (R195). -/
theorem readRecord_fails {s : State} {part more : List Byte} (hs : StreamsOk s) (hf : SourceFailsAfter part.length s)
    (hr : sourceRest s = part ++ more) (hp : startsRecord part more.length = true) : readRecord () s = .raise .ioError (advance part.length s) := by
  match part with
  | [] => rw [readRecord, hf.read, Run.andThen_raise, List.length_nil, advance_zero]
  | [sym] =>
    have hf1 : SourceFailsAfter 0 (advance 1 s) := hf.after (n := 1) hs
    rw [readRecord, (hf.gives.le (by simp)).read hr, Run.andThen_ok, if_neg (by rw [hf1.not_eof (hf.gives.streamsOk hs)]; simp), hf1.read]; rfl
  | sym :: len :: bits =>
    simp only [startsRecord, Bool.and_eq_true, decide_eq_true_eq] at hp
    simp only [List.length_cons] at hf ⊢
    have hg1 : SourceGives 1 s := hf.gives.le (by omega)
    have hs1 := hg1.streamsOk hs
    have hf1 : SourceFailsAfter (bits.length + 1) (advance 1 s) := SourceFailsAfter.after (by rwa [Nat.add_comm 1]) hs
    have hg2 : SourceGives 1 (advance 1 s) := hf1.gives.le (by omega)
    have hs2 : StreamsOk (advance 2 s) := (hf.gives.le (by omega)).streamsOk hs
    have hf2 : SourceFailsAfter bits.length (advance 2 s) := SourceFailsAfter.after (by rwa [Nat.add_comm 2]) hs
    have hr1 : sourceRest (advance 1 s) = len :: (bits ++ more) := by rw [hg1.rest hs, hr]; rfl
    have hl2 : srcLeft (advance 2 s) = (bits ++ more).length := by
      rw [← length_sourceRest, SourceGives.rest (hf.gives.le (by omega)) hs, hr]; rfl
    rw [readRecord, hg1.read hr, Run.andThen_ok, if_neg (by rw [hf1.not_eof hs1]; simp), hg2.read hr1, Run.andThen_ok, advance_advance, if_neg hp.1.1,
      hl2, if_neg (by rw [List.length_append]; omega), srcTake_fails hs2 hf2 hp.1.2, Run.andThen_raise, advance_advance,
      Nat.add_comm 2]

/-- What `srcTake` does at the end of input: the bytes left are read, and then `k` is raised. -/
theorem srcTake_short {k : ErrKind} {n : Nat} {s : State} (hs : StreamsOk s) (hg : SourceGives (srcLeft s) s) (hn : srcLeft s < n) :
    srcTake k n s = .raise k (advance (srcLeft s) s) := by
  induction n generalizing s with
  | zero => omega
  | succ n ih =>
    cases hl : srcLeft s with
    | zero =>
      have : srcEof s = true := (eof_iff_rest hs).2 (List.length_eq_zero_iff.1 (by rw [length_sourceRest, hl]))
      rw [srcTake, if_pos this, advance_zero]
    | succ m =>
      rw [hl] at hg
      have hg1 : SourceGives 1 s := hg.le (by omega)
      have hm := hg1.left hs
      have hg2 : SourceGives m (advance 1 s) := SourceGives.gives (by rwa [Nat.add_comm]) hs
      have hm' : srcLeft (advance 1 s) = m := by omega
      obtain ⟨b, bs, hb⟩ : ∃ b bs, sourceRest s = b :: bs := by
        cases hr : sourceRest s with
        | nil => have := length_sourceRest s; rw [hr, hl] at this; simp at this
        | cons b bs => exact ⟨b, bs, rfl⟩
      rw [srcTake, if_neg (by rw [hg.not_eof hs]; simp), hg1.read hb, Run.andThen_ok,
        ih (hg1.streamsOk hs) (hm'.symm ▸ hg2) (by omega), Run.andThen_raise, hm', advance_advance, Nat.add_comm]

end Sys2Proof.Machine
end

