-- ==== Sys2Proof/Laws/TableText.lean ====
section
/-! SUPPORT. What the text reader does on lines of tokens (44_code_table_codec.md R202 to R204). -/

namespace Sys2Proof.Machine

/-- A digit of the text (R202). -/
theorem readDigit_ok {s : State} {c d : Byte} {rest : List Byte} (hs : StreamsOk s) (hg : SourceGives 1 s) (hr : sourceRest s = c :: rest)
    (hd : hexval c = some d) : readDigit s = .ok d (advance 1 s) := by
  rw [readDigit, if_neg (by rw [hg.not_eof (n := 0) hs]; simp), hg.read hr, Run.andThen_ok, hd]

/-- A token is two digits and what comes after them, a separator (R202). -/
theorem readLine_token {s : State} {b c : Byte} {tok rest : List Byte} (n : Nat) (acc : List Byte) (hs : StreamsOk s) (hb : SpellsByte b tok)
    (hg : SourceGives 3 s) (hr : sourceRest s = tok ++ c :: rest) :
    readLine (n + 1) acc s =
      if c = lineFeed then .ok (acc ++ [b]) (advance 3 s)
      else if c = space then readLine n (acc ++ [b]) (advance 3 s) else .raise .malformedTable (advance 3 s) := by
  obtain ⟨h, l, x, y, rfl, hx, hy, rfl⟩ := hb
  have hg1 : SourceGives 1 s := hg.le (by omega)
  have hs1 := hg1.streamsOk hs
  have hr1 : sourceRest (advance 1 s) = l :: c :: rest := by rw [hg1.rest hs, hr]; rfl
  have hg' : SourceGives 2 (advance 1 s) := SourceGives.gives (n := 1) hg hs
  have hg2 : SourceGives 1 (advance 1 s) := hg'.le (by omega)
  have hs2 := hg2.streamsOk hs1
  have hr2 : sourceRest (advance 1 (advance 1 s)) = c :: rest := by rw [hg2.rest hs1, hr1]; rfl
  have hg3 : SourceGives 1 (advance 1 (advance 1 s)) := SourceGives.gives (n := 1) hg' hs1
  rw [readLine, readDigit_ok hs hg1 (by rw [hr]; rfl) hx, Run.andThen_ok, readDigit_ok hs1 hg2 hr1 hy, Run.andThen_ok,
    if_neg (by rw [hg3.not_eof (n := 0) hs2]; simp), hg3.read hr2, Run.andThen_ok, advance_advance, advance_advance]

theorem SpellsByte.length {b : Byte} {tok : List Byte} (h : SpellsByte b tok) : tok.length = 2 := by
  obtain ⟨h, l, x, y, rfl, -⟩ := h; rfl

theorem SpellsLine.length {bs text : List Byte} (h : SpellsLine bs text) : text.length = 3 * bs.length := by
  induction bs generalizing text with
  | nil => exact h.elim
  | cons b bs ih =>
    cases bs with
    | nil => obtain ⟨tok, ht, rfl⟩ := h; simp [ht.length]
    | cons c bs =>
      obtain ⟨tok, rest, ht, hrest, rfl⟩ := h
      simp only [List.length_append, List.length_cons, ht.length, ih hrest]; omega

theorem SpellsLine.ne_nil {bs text : List Byte} (h : SpellsLine bs text) : bs ≠ [] := by rintro rfl; exact h

/-- `RdLine()` on a line of tokens gives their bytes (R202). -/
theorem readLine_ok {toks line rest : List Byte} {s : State} (n : Nat) (acc : List Byte) (hs : StreamsOk s) (hl : SpellsLine toks line)
    (hg : SourceGives line.length s) (hr : sourceRest s = line ++ rest) (hn : toks.length ≤ n) :
    readLine n acc s = .ok (acc ++ toks) (advance line.length s) := by
  induction toks generalizing line s n acc with
  | nil => exact hl.elim
  | cons b toks ih =>
    obtain ⟨n, rfl⟩ : ∃ m, n = m + 1 := ⟨n - 1, by simp only [List.length_cons] at hn; omega⟩
    have hlen := hl.length
    cases toks with
    | nil =>
      obtain ⟨tok, ht, rfl⟩ := hl
      rw [readLine_token n acc hs ht (hg.le (by rw [hlen]; simp)) (by rw [hr, List.append_assoc]; rfl), if_pos rfl, hlen]; rfl
    | cons c toks =>
      obtain ⟨tok, more, ht, hmore, rfl⟩ := hl
      rw [List.append_assoc, List.cons_append] at hr
      have hm := hmore.length
      have hgg : SourceGives (3 + more.length) s := by rw [hlen] at hg; rw [hm]; exact hg.le (by simp only [List.length_cons]; omega)
      have hg3 : SourceGives 3 s := hgg.le (by omega)
      have hr3 : sourceRest (advance 3 s) = more ++ rest := by
        rw [hg3.rest hs, hr]
        rw [show tok ++ space :: (more ++ rest) = (tok ++ [space]) ++ (more ++ rest) by simp]
        rw [List.drop_append_of_le_length (by simp [ht.length]), List.drop_eq_nil_of_le (by simp [ht.length])]; rfl
      rw [readLine_token n acc hs ht hg3 hr, if_neg (by decide), if_pos rfl,
        ih n (acc ++ [b]) (hg3.streamsOk hs) hmore (hgg.gives hs) hr3 (by simp at hn ⊢; omega), advance_advance]
      simp only [List.append_assoc, List.singleton_append, List.length_append, List.length_cons, ht.length]
      congr 2; omega

theorem SpellsStart.length {bs text : List Byte} (h : SpellsStart bs text) : text.length = 3 * bs.length := by
  induction bs generalizing text with
  | nil => cases h; rfl
  | cons b bs ih =>
    obtain ⟨tok, rest, ht, hrest, rfl⟩ := h
    simp only [List.length_append, List.length_cons, ht.length, ih hrest]; omega

/-- `RdLine()` after the tokens a line starts with (R202). -/
theorem readLine_start {toks start rest : List Byte} {s : State} (n : Nat) (acc : List Byte) (hs : StreamsOk s) (hl : SpellsStart toks start)
    (hg : SourceGives start.length s) (hr : sourceRest s = start ++ rest) :
    readLine (toks.length + n) acc s = readLine n (acc ++ toks) (advance start.length s) := by
  induction toks generalizing start s acc with
  | nil => cases hl; simp [advance_zero]
  | cons b toks ih =>
    have hlen := hl.length
    obtain ⟨tok, more, ht, hmore, rfl⟩ := hl
    have hm := hmore.length
    have hgg : SourceGives (3 + more.length) s := by rw [hlen] at hg; rw [hm]; exact hg.le (by simp only [List.length_cons]; omega)
    have hg3 : SourceGives 3 s := hgg.le (by omega)
    rw [List.append_assoc, List.cons_append] at hr
    have hr3 : sourceRest (advance 3 s) = more ++ rest := by
      rw [hg3.rest hs, hr, show (3 : Nat) = tok.length + 1 by rw [ht.length], ← List.drop_drop, List.drop_left]; rfl
    rw [List.length_cons, show toks.length + 1 + n = (toks.length + n) + 1 by omega, readLine_token _ acc hs ht hg3 hr, if_neg (by decide), if_pos rfl,
      ih (acc ++ [b]) (hg3.streamsOk hs) hmore (hgg.gives hs) hr3, advance_advance, hlen, hm, List.append_assoc, List.length_cons]
    congr 2; omega

/-- Where a token or its separator does not stand as it must (R202): RP is after what has been read. -/
theorem readLine_bad {s : State} {n k : Nat} (acc : List Byte) (hs : StreamsOk s) (hn : sourceRest s ≠ [] → n ≠ 0) (hg : SourceGives k s)
    (hb : badToken (sourceRest s) = some k) : readLine n acc s = .raise .malformedTable (advance k s) := by
  have digit : ∀ {u : State} {c : Byte} {cs : List Byte}, StreamsOk u → SourceGives 1 u → sourceRest u = c :: cs → hexval c = none →
      readDigit u = .raise .malformedTable (advance 1 u) := fun hu h1 h hc => by
    rw [readDigit, if_neg (by rw [h1.not_eof (n := 0) hu]; simp), h1.read h, Run.andThen_ok, hc]
  have noDigit : ∀ {u : State}, StreamsOk u → sourceRest u = [] → readDigit u = .raise .malformedTable u := fun hu h => by
    rw [readDigit, if_pos ((eof_iff_rest hu).2 h)]
  have first : ∀ {h : Byte} {rest : List Byte}, sourceRest s = h :: rest → SourceGives 1 s → ∃ m, n = m + 1 ∧
      (hexval h = none → readLine n acc s = .raise .malformedTable (advance 1 s)) ∧
      ∀ x, hexval h = some x → StreamsOk (advance 1 s) ∧ sourceRest (advance 1 s) = rest ∧ readDigit s = .ok x (advance 1 s) := fun hr hg1 => by
    obtain ⟨m, rfl⟩ := Nat.exists_eq_succ_of_ne_zero (hn (by rw [hr]; simp))
    exact ⟨m, rfl, fun hx => by rw [readLine, digit hs hg1 hr hx, Run.andThen_raise],
      fun x hx => ⟨hg1.streamsOk hs, by rw [hg1.rest hs, hr]; rfl, readDigit_ok hs hg1 hr hx⟩⟩
  match hr : sourceRest s with
  | [] =>
    rw [hr] at hb; cases hb
    rw [advance_zero]
    cases n with
    | zero => rw [readLine, if_pos ((eof_iff_rest hs).2 hr)]
    | succ n => rw [readLine, noDigit hs hr, Run.andThen_raise]
  | [h] =>
    rw [hr] at hb; cases hb
    obtain ⟨m, rfl, hbad, hok⟩ := first hr hg
    cases hx : hexval h with
    | none => exact hbad hx
    | some x => obtain ⟨hs1, hr1, hd⟩ := hok x hx; rw [readLine, hd, Run.andThen_ok, noDigit hs1 hr1, Run.andThen_raise]
  | h :: l :: rest =>
    have hk : 1 ≤ k ∧ (hexval h = none → k = 1) ∧ (hexval h ≠ none → 2 ≤ k ∧ (hexval l = none → k = 2)) := by
      rw [hr] at hb
      rcases rest with - | ⟨c, rest⟩ <;> simp only [badToken, Option.some.injEq] at hb <;> (repeat' split at hb) <;> simp_all <;> omega
    obtain ⟨m, rfl, hbad, hok⟩ := first hr (hg.le hk.1)
    cases hx : hexval h with
    | none => rw [hk.2.1 hx]; exact hbad hx
    | some x =>
      obtain ⟨hk2, hkl⟩ := hk.2.2 (by rw [hx]; simp)
      obtain ⟨hs1, hr1, hd⟩ := hok x hx
      have hg2 : SourceGives 1 (advance 1 s) := SourceGives.gives (n := 1) (hg.le hk2) hs
      have hs2 : StreamsOk (advance 2 s) := (hg.le hk2).streamsOk hs
      have hr2 : sourceRest (advance 2 s) = rest := by rw [(hg.le hk2).rest hs, hr]; rfl
      rw [readLine, hd, Run.andThen_ok]
      cases hy : hexval l with
      | none => rw [digit hs1 hg2 hr1 hy, hkl hy, Run.andThen_raise, advance_advance]
      | some y =>
        rw [readDigit_ok hs1 hg2 hr1 hy, Run.andThen_ok, advance_advance]
        rw [hr] at hb
        cases rest with
        | nil =>
          simp only [badToken, hx, reduceCtorEq, if_false, Option.some.injEq] at hb
          rw [if_pos ((eof_iff_rest hs2).2 hr2), ← hb]
        | cons c rest =>
          simp only [badToken, hx, hy, reduceCtorEq, if_false] at hb
          split at hb
          · cases hb
          · rename_i hc
            cases hb
            have hg3 : SourceGives 1 (advance 2 s) := SourceGives.gives (n := 2) hg hs
            rw [if_neg (by rw [hg3.not_eof (n := 0) hs2]; simp), hg3.read hr2, Run.andThen_ok, if_neg fun h => hc (.inl h), if_neg fun h => hc (.inr h),
              advance_advance]

/-- A failing byte where a digit or a separator must stand (R202). -/
theorem readLine_fails {s : State} {n : Nat} {digits more : List Byte} (acc : List Byte) (hs : StreamsOk s) (hf : SourceFailsAfter digits.length s)
    (hr : sourceRest s = digits ++ more) (hl : digits.length ≤ 2) (hd : ∀ c ∈ digits, (hexval c).isSome = true) :
    readLine (n + 1) acc s = .raise .ioError (advance digits.length s) := by
  have noDigit : ∀ {u : State}, StreamsOk u → SourceFailsAfter 0 u → readDigit u = .raise .ioError u := fun hu h => by
    rw [readDigit, if_neg (by rw [h.not_eof hu]; simp), h.read, Run.andThen_raise]
  rw [readLine]
  match digits with
  | [] => rw [noDigit hs hf, Run.andThen_raise, List.length_nil, advance_zero]
  | h :: digits =>
    obtain ⟨x, hx⟩ := Option.isSome_iff_exists.1 (hd h (by simp))
    have hg1 : SourceGives 1 s := hf.gives.le (by simp)
    have hs1 := hg1.streamsOk hs
    have hf1 : SourceFailsAfter digits.length (advance 1 s) := SourceFailsAfter.after (by rw [Nat.add_comm]; exact hf) hs
    have hr1 : sourceRest (advance 1 s) = digits ++ more := by rw [hg1.rest hs, hr]; rfl
    rw [readDigit_ok hs hg1 hr hx, Run.andThen_ok]
    match digits with
    | [] => rw [noDigit hs1 hf1, Run.andThen_raise]; rfl
    | [l] =>
      obtain ⟨y, hy⟩ := Option.isSome_iff_exists.1 (hd l (by simp))
      have hg2 : SourceGives 1 (advance 1 s) := hf1.gives
      have hf2 : SourceFailsAfter 0 (advance 1 (advance 1 s)) := hf1.after (n := 1) hs1
      rw [readDigit_ok hs1 hg2 hr1 hy, Run.andThen_ok, if_neg (by rw [hf2.not_eof (hg2.streamsOk hs1)]; simp), hf2.read, Run.andThen_raise,
        advance_advance]; rfl
    | _ :: _ :: _ => simp at hl

/-- A line that is refused, and how far the reader has come (R202). -/
theorem readLine_refused {s : State} {toks start tail : List Byte} {n : Nat} (hs : StreamsOk s) (hl : SpellsStart toks start)
    (hr : sourceRest s = start ++ tail) (hb : badToken tail = some n) (hg : SourceGives (start.length + n) s) :
    readLine (srcLeft s) [] s = .raise .malformedTable (advance (start.length + n) s) := by
  have hg1 := hg.le (Nat.le_add_right _ _)
  have hlen := hl.length
  have hleft : srcLeft s = start.length + tail.length := by rw [← length_sourceRest, hr, List.length_append]
  have hrt : sourceRest (advance start.length s) = tail := by rw [hg1.rest hs, hr, List.drop_left]
  obtain ⟨m, hm⟩ := Nat.exists_eq_add_of_le (show toks.length ≤ srcLeft s by omega)
  rw [hm, readLine_start m [] hs hl hg1 hr,
    readLine_bad _ (hg1.streamsOk hs) (fun h => by rw [hrt] at h; have := List.length_pos_iff.2 h; omega) (hg.gives hs) (by rw [hrt]; exact hb),
    advance_advance]

/-- A line with a failing byte in it (R202). -/
theorem readLine_interrupted {s : State} {part more : List Byte} (hs : StreamsOk s) (hp : StartsLine part) (hr : sourceRest s = part ++ more)
    (hf : SourceFailsAfter part.length s) : readLine (srcLeft s) [] s = .raise .ioError (advance part.length s) := by
  obtain ⟨toks, start, digits, hl, hd, hx, rfl⟩ := hp
  rw [List.length_append] at hf ⊢
  rw [List.append_assoc] at hr
  have hlt := hf.1
  have hlen := hl.length
  have hg1 := hf.gives.le (Nat.le_add_right _ _)
  obtain ⟨m, hm⟩ := Nat.exists_eq_add_of_le (show toks.length + 1 ≤ srcLeft s by simp only [srcLeft]; omega)
  rw [hm, Nat.add_assoc, readLine_start (1 + m) [] hs hl hg1 hr, Nat.add_comm 1,
    readLine_fails _ (hg1.streamsOk hs) (hf.after hs) (by rw [hg1.rest hs, hr, List.drop_left]) hd hx, advance_advance]

/-- A record line of a symbol not seen before (R203). -/
theorem takeRecordLine_ok {s : State} {r : RawRecord} (hok : r.ok = true) (hnew : ctOf s r.sym.toNat = none) :
    takeRecordLine r.bytes s = .ok () (setCt r.sym.toNat r.code s) := by
  obtain ⟨h0, hl⟩ := RawRecord.ok_iff.1 hok
  simp [RawRecord.bytes, takeRecordLine, h0, hl, addRecord, hnew, RawRecord.code]

/-- Tokens that are no record are refused where the line ends (R203). -/
theorem takeRecordLine_bad {s : State} {toks : List Byte} (hbad : ∀ r : RawRecord, r.ok = true → toks ≠ r.bytes) :
    takeRecordLine toks s = .raise .malformedTable s := by
  match toks with
  | [] => rfl
  | [_] => rfl
  | sym :: len :: bytes =>
    rw [takeRecordLine]
    by_cases h0 : len = 0#8
    · rw [if_pos h0]
    · by_cases hl : bytes.length = ceil8 len.toNat
      · exact absurd rfl (hbad ⟨sym, len, bytes⟩ (RawRecord.ok_iff.2 ⟨h0, hl⟩))
      · rw [if_neg h0, if_pos hl]

/-- One pass of the text reader over a line of tokens. -/
theorem readRecordLine_line {s : State} {toks line rest : List Byte} (hs : StreamsOk s) (hl : SpellsLine toks line)
    (hg : SourceGives line.length s) (hr : sourceRest s = line ++ rest) :
    readRecordLine () s = takeRecordLine toks (advance line.length s) := by
  have h := hl.length
  have : srcLeft s = line.length + rest.length := by rw [← length_sourceRest, hr, List.length_append]
  rw [readRecordLine, readLine_ok (srcLeft s) [] hs hl hg hr (by omega), Run.andThen_ok]; rfl

theorem readLines_ok (recs : List RawRecord) (m : Nat) {s : State} {text rest : List Byte} (hs : StreamsOk s) (hw : CtWf s)
    (hl : SpellsLines (recs.map RawRecord.bytes) text) (hg : SourceGives text.length s) (hr : sourceRest s = text ++ rest)
    (hok : ∀ r ∈ recs, r.ok = true) (hnd : (recs.map RawRecord.sym).Nodup) (hnew : ∀ r ∈ recs, ctOf s r.sym.toNat = none) :
    ∃ c, whileSrc readRecordLine (recs.length + m) () s = whileSrc readRecordLine m () { advance text.length s with ct := c } ∧
      cellsWf none Config.nsym c = true ∧ ∀ b, readCell none c b = (recordedCode recs b).or (ctOf s b) := by
  induction recs generalizing s text with
  | nil =>
    have : text = [] := hl
    subst this
    exact ⟨s.ct, by simp [advance], hw, fun b => by simp [recordedCode_nil, ctOf]⟩
  | cons r recs ih =>
    obtain ⟨line, more, hline, hmore, rfl⟩ := hl
    rw [List.length_append] at hg ⊢
    rw [List.append_assoc] at hr
    have hg1 := hg.le (Nat.le_add_right _ _)
    have hnew1 := hnew r (by simp)
    have hlen := hline.length
    obtain ⟨hrn, hnd⟩ := List.nodup_cons.1 hnd
    let u := setCt r.sym.toNat r.code (advance line.length s)
    have hctu : ∀ b, ctOf u b = if b = r.sym.toNat then some r.code else ctOf s b := fun b => ctOf_setCt (s := advance line.length s) hw _ _ _
    obtain ⟨c, hc, hwc, hcc⟩ := ih (s := u) ⟨(hg1.streamsOk hs).pos, hs.len⟩ (setCt_wf (s := advance line.length s) hw r.sym.isLt _) hmore
      (hg.gives hs) (by show sourceRest (advance line.length s) = _; rw [hg1.rest hs, hr, List.drop_left]) (fun q hq => hok q (by simp [hq])) hnd
      (fun q hq => by
        rw [hctu, if_neg, hnew q (by simp [hq])]
        intro e
        exact hrn (List.mem_map.2 ⟨q, hq, BitVec.eq_of_toNat_eq e⟩))
    refine ⟨c, ?_, hwc, fun b => ?_⟩
    · have hne : srcEof s = false := SourceGives.not_eof (n := line.length - 1)
        (hg1.le (by simp only [RawRecord.length_bytes] at hlen; omega)) hs
      rw [List.length_cons, show recs.length + 1 + m = (recs.length + m) + 1 by omega, whileSrc, if_neg (by rw [hne]; simp),
        readRecordLine_line hs hline hg1 hr, takeRecordLine_ok (s := advance line.length s) (hok r (by simp)) hnew1, Run.andThen_ok]
      refine Eq.trans (show _ = whileSrc readRecordLine (recs.length + m) () u from rfl) (hc.trans ?_)
      congr 1
      rw [← advance_advance]; rfl
    · rw [hcc, recordedCode_cons, hctu]
      by_cases hb : r.sym.toNat = b
      · have : recordedCode recs b = none := recordedCode_none.2 fun q hq e => hrn (List.mem_map.2 ⟨q, hq, BitVec.eq_of_toNat_eq (e.trans hb.symm)⟩)
        simp [this, hb]
      · simp [hb, Ne.symm hb]

theorem SpellsLines.length {recs : List RawRecord} {text : List Byte} (h : SpellsLines (recs.map RawRecord.bytes) text) : 6 * recs.length ≤ text.length := by
  induction recs generalizing text with
  | nil => simp
  | cons r recs ih =>
    obtain ⟨line, more, hline, hmore, rfl⟩ := h
    have := hline.length
    have := ih hmore
    simp only [List.length_append, List.length_cons, RawRecord.length_bytes] at *; omega

/-- `RdTableX()` after its first line, if that line is a line of tokens (R203). -/
theorem readTableText_header {s : State} {header line rest : List Byte} (hs : StreamsOk s) (hl : SpellsLine header line)
    (hg : SourceGives line.length s) (hr : sourceRest s = line ++ rest) :
    readTableText s =
      if header.length ≠ 4 ∧ header.length ≠ 8 then .raise .malformedTable { advance line.length s with ct := [] }
      else whileSrc readRecordLine rest.length () { advance line.length s with ct := [], origSize := fromLe header } := by
  have h := hl.length
  have h0 := hl.ne_nil
  have hpos : 0 < line.length := by have := List.length_pos_iff.2 h0; omega
  have hleft : srcLeft s = line.length + rest.length := by rw [← length_sourceRest, hr, List.length_append]
  have hrest : srcLeft (advance line.length s) = rest.length := by have := hg.left hs; omega
  rw [readTableText, if_neg (by rw [SourceGives.not_eof (n := 0) (hg.le hpos) hs]; simp),
    readLine_ok (s := { s with ct := [] }) (srcLeft s) [] ⟨hs.pos, hs.len⟩ hl hg hr (by omega), Run.andThen_ok, List.nil_append]
  rw [show srcLeft (advance line.length { s with ct := [] }) = rest.length from hrest]
  rfl

/-- `RdTableX()` on a header line and record lines (R203, R204): what follows is the rest of its loop. -/
theorem readTableText_records {s : State} {header text rest : List Byte} {recs : List RawRecord} (hs : StreamsOk s)
    (hw : header.length = 4 ∨ header.length = 8) (hok : ∀ r ∈ recs, r.ok = true) (hnd : (recs.map RawRecord.sym).Nodup)
    (hl : SpellsLines (header :: recs.map RawRecord.bytes) text) (hg : SourceGives text.length s) (hr : sourceRest s = text ++ rest) :
    ∃ c m, readTableText s = whileSrc readRecordLine m () { advance text.length s with origSize := fromLe header, ct := c } ∧
      rest.length ≤ m ∧ cellsWf none Config.nsym c = true ∧ ∀ b, readCell none c b = recordedCode recs b := by
  obtain ⟨line, more, hline, hmore, rfl⟩ := hl
  rw [List.append_assoc] at hr
  rw [List.length_append] at hg
  have hg1 := hg.le (Nat.le_add_right _ _)
  have hlen := hmore.length
  obtain ⟨c, hc, hwc, hcc⟩ := readLines_ok recs ((more ++ rest).length - recs.length)
    (s := { advance line.length s with ct := [], origSize := fromLe header }) ⟨(hg1.streamsOk hs).pos, hs.len⟩ (by rfl) hmore (hg.gives hs)
    (by show sourceRest (advance line.length s) = _; rw [hg1.rest hs, hr, List.drop_left]) hok hnd fun _ _ => rfl
  refine ⟨c, (more ++ rest).length - recs.length, ?_, by simp only [List.length_append]; omega, hwc,
    fun b => by rw [hcc]; exact Option.or_none⟩
  have hn : recs.length + ((more ++ rest).length - recs.length) = (more ++ rest).length := by
    simp only [List.length_append]; omega
  rw [hn] at hc
  rw [readTableText_header hs hline hg1 hr, if_neg (by omega), hc]
  congr 1
  rw [List.length_append, ← advance_advance]; rfl

end Sys2Proof.Machine
end

