-- ==== Sys2Proof/Laws/TableWrite.lean ====
section
/-! SUPPORT. What the table writers write, as records and as lines the readers accept (44_code_table_codec.md R191 to R205). -/

namespace Sys2Proof.Machine

/-- The record a writer makes of a symbol's code (R102). -/
def rawOf (b : Nat) (code : Code) : RawRecord := ⟨BitVec.ofNat 8 b, lengthByte code, packbits code⟩

/-- The records of CT in ascending symbol order (R104). -/
def rawRecords (s : State) : List RawRecord := (List.range Config.nsym).filterMap fun b => (ctOf s b).map (rawOf b)

theorem records_eq (s : State) : records s = (rawRecords s).map RawRecord.bytes := by
  rw [records, rawRecords, List.map_filterMap]
  refine List.filterMap_congr fun b _ => ?_
  cases ctOf s b <;> rfl

theorem tableBytes_eq (w : Nat) (s : State) : tableBytes w s = le w s.origSize ++ (rawRecords s).flatMap RawRecord.bytes := by
  rw [tableBytes, records_eq, List.flatMap_def]

theorem tableText_eq (w : Nat) (s : State) :
    tableText w s = hexLine (le w s.origSize) ++ (rawRecords s).flatMap fun r => hexLine r.bytes := by
  rw [tableText, records_eq, List.flatMap_map]

theorem codeOk_some {code : Code} : codeOk (some code) = true ↔ 1 ≤ code.length ∧ code.length ≤ 255 := by
  unfold codeOk
  rw [Bool.and_eq_true, decide_eq_true_eq, decide_eq_true_eq, Config.lmax]

/-- The L byte of a code of 1 to 255 bits holds its length. -/
theorem toNat_lengthByte {code : Code} (h : codeOk (some code) = true) : (lengthByte code).toNat = code.length := by
  have := codeOk_some.1 h
  rw [lengthByte, BitVec.toNat_ofNat, Nat.mod_eq_of_lt (by omega)]

theorem rawOf_ok {b : Nat} {code : Code} (h : codeOk (some code) = true) : (rawOf b code).ok = true := by
  have hl := toNat_lengthByte h
  have := codeOk_some.1 h
  refine RawRecord.ok_iff.2 ⟨fun h0 => ?_, by simp [rawOf, hl]⟩
  simp only [rawOf] at h0
  rw [h0] at hl
  simp at hl; omega

theorem rawOf_code {b : Nat} {code : Code} (h : codeOk (some code) = true) : (rawOf b code).code = code := by
  rw [RawRecord.code, rawOf, toNat_lengthByte h, unpackbits_packbits]

theorem mem_rawRecords {s : State} {r : RawRecord} : r ∈ rawRecords s ↔ ∃ b < 256, ∃ code, ctOf s b = some code ∧ r = rawOf b code := by
  simp only [rawRecords, List.mem_filterMap, List.mem_range, Config.nsym, Option.map_eq_some_iff]
  constructor
  · rintro ⟨b, hb, code, hc, rfl⟩; exact ⟨b, hb, code, hc, rfl⟩
  · rintro ⟨b, hb, code, hc, rfl⟩; exact ⟨b, hb, code, hc, rfl⟩

/-- What a writer writes of codes of 1 to 255 bits, a reader accepts. -/
theorem rawRecords_ok {s : State} (h : CodesOk s) : ∀ r ∈ rawRecords s, r.ok = true := fun r hr => by
  obtain ⟨b, hb, code, hc, rfl⟩ := mem_rawRecords.1 hr
  exact rawOf_ok (hc ▸ h b hb)

theorem rawRecords_nodup (s : State) : ((rawRecords s).map RawRecord.sym).Nodup := by
  have : (rawRecords s).map RawRecord.sym =
      ((List.range Config.nsym).filter fun b => (ctOf s b).isSome).map (BitVec.ofNat 8) := by
    rw [rawRecords, List.map_filterMap, ← List.filterMap_eq_filter, List.map_filterMap]
    refine List.filterMap_congr fun b _ => ?_
    cases hc : ctOf s b <;> simp [rawOf, Option.guard, hc]
  rw [this]
  refine List.Nodup.map_on ?_ (List.nodup_range.filter _)
  intro a ha b hb h
  simp only [List.mem_filter, List.mem_range, Config.nsym] at ha hb
  have := congrArg BitVec.toNat h
  simp only [BitVec.toNat_ofNat] at this
  omega

/-- The records of a table give each symbol its code. -/
theorem recordedCode_rawRecords {s : State} (hw : CtWf s) (h : CodesOk s) (b : Nat) : recordedCode (rawRecords s) b = ctOf s b := by
  rcases Nat.lt_or_ge b 256 with hb | hb
  · cases hc : ctOf s b with
    | none =>
      refine recordedCode_none.2 fun r hr e => ?_
      obtain ⟨a, ha, code, hca, rfl⟩ := mem_rawRecords.1 hr
      simp only [rawOf, BitVec.toNat_ofNat, Nat.reducePow, Nat.mod_eq_of_lt ha] at e
      rw [e, hc] at hca; cases hca
    | some code =>
      have hmem : rawOf b code ∈ rawRecords s := mem_rawRecords.2 ⟨b, hb, code, hc, rfl⟩
      unfold recordedCode
      cases hf : (rawRecords s).find? fun r => decide (r.sym.toNat = b) with
      | none =>
        have := List.find?_eq_none.1 hf _ hmem
        simp [rawOf, Nat.mod_eq_of_lt hb] at this
      | some r =>
        obtain ⟨a, ha, code', hca, rfl⟩ := mem_rawRecords.1 (List.mem_of_find?_eq_some hf)
        have := List.find?_some hf
        simp [rawOf, Nat.mod_eq_of_lt ha] at this
        subst this
        rw [hc] at hca; cases hca
        rw [Option.map_some, rawOf_code (hc ▸ h a ha)]
  · rw [show ctOf s b = none from readCell_of_le hw hb]
    refine recordedCode_none.2 fun r _ e => ?_
    have := r.sym.isLt
    omega

theorem spellsByte_hexToken (b : Byte) : SpellsByte b (hexToken b) :=
  ⟨_, _, _, _, rfl, hexval_hexDigit_high b, hexval_hexDigit_low b, (token_value b).symm⟩

/-- A written line spells its bytes. -/
theorem spellsLine_hexLine {bs : List Byte} (h : bs ≠ []) : SpellsLine bs (hexLine bs) := by
  induction bs with
  | nil => exact absurd rfl h
  | cons b bs ih =>
    cases bs with
    | nil => exact ⟨_, spellsByte_hexToken b, rfl⟩
    | cons c bs => exact ⟨_, _, spellsByte_hexToken b, ih (by simp), rfl⟩

theorem spellsLines_hexLines (recs : List RawRecord) : SpellsLines (recs.map RawRecord.bytes) (recs.flatMap fun r => hexLine r.bytes) := by
  induction recs with
  | nil => rfl
  | cons r recs ih => exact ⟨_, _, spellsLine_hexLine (by simp [RawRecord.bytes]), ih, rfl⟩

/-- A written text is a header line and record lines. -/
theorem spellsLines_tableText {w : Nat} (hw : w ≠ 0) (s : State) :
    SpellsLines (le w s.origSize :: (rawRecords s).map RawRecord.bytes) (tableText w s) := by
  rw [tableText_eq]
  refine ⟨_, _, spellsLine_hexLine fun h => hw ?_, spellsLines_hexLines _, rfl⟩
  rw [← length_le w s.origSize, h]; rfl

end Sys2Proof.Machine
end

