-- ==== Sys2Proof/Laws/Trie.lean ====
section
/-! SUPPORT. What DT_BUILD makes: a trie that stands for a list of paths, node `i` for the `i`-th, and for the symbols at some of them (46_decode_trie.md R250 to R254). -/

namespace Sys2Proof.Machine

/-- The index of the node of a path, TNIL if there is none. -/
def pathIx (paths : List Code) (q : Code) : TrieIx := if q ∈ paths then BitVec.ofNat 16 (paths.idxOf q) else Config.tnil

/-- The cell of the node of path `p`. -/
def pathCell (paths : List Code) (leaves : Code → Option Byte) (p : Code) : TrieNode :=
  ⟨pathIx paths (p ++ [false]), pathIx paths (p ++ [true]), (leaves p).isSome, (leaves p).getD 0#8⟩

/-- The trie stands for these paths and these leaves. -/
structure Spells (s : State) (paths : List Code) (leaves : Code → Option Byte) : Prop where
  count : s.trieN.toNat = paths.length
  cap : paths.length ≤ 65281
  wf : cellsWf none Config.trieCap s.trie = true
  nodup : paths.Nodup
  root : paths[0]? = some []
  closed : ∀ p bit, p ++ [bit] ∈ paths → p ∈ paths
  leafIn : ∀ p, (leaves p).isSome = true → p ∈ paths
  cells : ∀ i p, paths[i]? = some p → trieOf s i = some (pathCell paths leaves p)

variable {s : State} {paths : List Code} {leaves : Code → Option Byte}

theorem childOf_pathCell (bit : Bool) (p : Code) : childOf bit (pathCell paths leaves p) = pathIx paths (p ++ [bit]) := by
  cases bit <;> rfl

theorem Spells.root_mem (h : Spells s paths leaves) : [] ∈ paths := List.mem_of_getElem? h.root

theorem Spells.root_ix (h : Spells s paths leaves) : pathIx paths [] = 0#16 := by
  rw [pathIx, if_pos h.root_mem]
  cases hp : paths with
  | nil => have := h.root; rw [hp] at this; cases this
  | cons p ps => have := h.root; rw [hp] at this; cases this; simp

theorem Spells.ix_toNat (h : Spells s paths leaves) {p : Code} (hp : p ∈ paths) : (pathIx paths p).toNat = paths.idxOf p := by
  have := List.idxOf_lt_length_of_mem hp
  have := h.cap
  rw [pathIx, if_pos hp, BitVec.toNat_ofNat, Nat.mod_eq_of_lt (by omega)]

theorem Spells.ix_eq_nil (h : Spells s paths leaves) {p : Code} : pathIx paths p = Config.tnil ↔ p ∉ paths := by
  constructor
  · intro he hp
    have h1 := h.ix_toNat hp
    have := List.idxOf_lt_length_of_mem hp
    have := h.cap
    rw [he] at h1
    simp [Config.tnil] at h1; omega
  · intro hp; rw [pathIx, if_neg hp]

/-- The node of a path holds the path's cell. -/
theorem Spells.cell (h : Spells s paths leaves) {p : Code} (hp : p ∈ paths) :
    trieOf s (pathIx paths p).toNat = some (pathCell paths leaves p) := by
  rw [h.ix_toNat hp]
  exact h.cells _ _ (by rw [List.getElem?_eq_getElem (List.idxOf_lt_length_of_mem hp), List.getElem_idxOf])

theorem Spells.trieAt (h : Spells s paths leaves) {p : Code} (hp : p ∈ paths) :
    trieAt (pathIx paths p) s = .ok (pathCell paths leaves p) s := by
  rw [Machine.trieAt, h.cell hp]; rfl

theorem followTrie_nil (s : State) (i : TrieIx) : Machine.followTrie s i [] = trieOf s i.toNat := rfl

theorem followTrie_cons (s : State) (i : TrieIx) (bit : Bool) (bits : Code) :
    Machine.followTrie s i (bit :: bits) =
      match trieOf s i.toNat with
      | some c => if c.leaf || decide (childOf bit c = Config.tnil) then none else Machine.followTrie s (childOf bit c) bits
      | none => none := by
  rw [Machine.followTrie, walkTrie]
  cases trieOf s i.toNat with
  | none => rfl
  | some c =>
    simp only
    split <;> rfl

/-- Where the bits of a path lead (47_stream_decoder.md R268). -/
theorem Spells.followTrie (h : Spells s paths leaves) {p : Code} (d : Code) (hp : p ∈ paths) (hd : p ++ d ∈ paths)
    (hl : ∀ e, e <+: d → e ≠ d → leaves (p ++ e) = none) : followTrie s (pathIx paths p) d = some (pathCell paths leaves (p ++ d)) := by
  induction d generalizing p with
  | nil => rw [followTrie_nil, h.cell hp, List.append_nil]
  | cons bit d ih =>
    have hpb : p ++ [bit] ∈ paths := by
      clear ih hl
      induction d using List.reverseRecOn with
      | nil => exact hd
      | append_singleton d b ih => exact ih (h.closed (p ++ bit :: d) b (by simpa using hd))
    have hleaf : (pathCell paths leaves p).leaf = false := by
      have := hl [] (by simp) (by simp)
      rw [List.append_nil] at this
      simp [pathCell, this]
    rw [followTrie_cons, h.cell hp]
    simp only [hleaf, childOf_pathCell, Bool.false_or]
    rw [if_neg (by simp [h.ix_eq_nil, hpb]), ih hpb (by simpa using hd) fun e he hne => ?_]
    · simp
    · have := hl (bit :: e) (by simpa using he) (by simpa using hne)
      simpa using this

/-- Bits that lead somewhere are a path on which no node but the last is a leaf. -/
theorem Spells.followTrie_inv (h : Spells s paths leaves) {p d : Code} {c : TrieNode} (hp : p ∈ paths)
    (hf : Machine.followTrie s (pathIx paths p) d = some c) :
    p ++ d ∈ paths ∧ c = pathCell paths leaves (p ++ d) ∧ ∀ e, e <+: d → e ≠ d → leaves (p ++ e) = none := by
  induction d generalizing p with
  | nil =>
    rw [followTrie_nil, h.cell hp] at hf
    rw [List.append_nil]
    exact ⟨hp, (Option.some.inj hf).symm, fun e he hne => absurd (List.prefix_nil.1 he) hne⟩
  | cons bit d ih =>
    rw [followTrie_cons, h.cell hp] at hf
    simp only [childOf_pathCell] at hf
    split at hf
    · cases hf
    · rename_i hc
      simp only [Bool.or_eq_true, decide_eq_true_eq, not_or, h.ix_eq_nil, not_not] at hc
      obtain ⟨h1, h2, h3⟩ := ih hc.2 hf
      rw [List.append_assoc] at h1 h2
      refine ⟨h1, h2, fun e he hne => ?_⟩
      cases e with
      | nil =>
        have := hc.1
        simp only [pathCell, Bool.not_eq_true, Option.isSome_eq_false_iff, Option.isNone_iff_eq_none] at this
        rw [List.append_nil]; exact this
      | cons b e =>
        obtain ⟨rfl, he'⟩ := List.cons_prefix_cons.1 he
        have := h3 e he' (fun h => hne (by rw [h]))
        simpa using this

/-- A new trie (R253): one node, the root. -/
theorem trieNew_root (s : State) (hw : cellsWf none Config.trieCap s.trie = true) (hn : s.trieN = 0#17) :
    ∃ t, trieNew s = .ok 0#16 t ∧ t = { s with trie := t.trie, trieN := 1#17 } ∧ Spells t [[]] fun _ => none := by
  have h0 : s.trieN.toNat = 0 := by rw [hn]; rfl
  refine ⟨{ s with trie := writeCell none s.trie 0 (some freshTrieNode), trieN := 1#17 }, ?_, rfl,
    ⟨rfl, by simp, cellsWf_writeCell _ (by simp [Config.trieCap]) hw, by simp, rfl, by simp, by simp, fun i p hi => ?_⟩⟩
  · rw [trieNew, h0, setTrie, if_pos (by simp [Config.trieCap]), Run.andThen_ok, hn]; rfl
  · cases i with
    | zero =>
      simp only [List.getElem?_cons_zero, Option.some.injEq] at hi
      subst hi
      simp only [trieOf, readCell_writeCell_same _ hw]
      simp [pathCell, pathIx, freshTrieNode]
    | succ i => simp at hi

/-- One step along a path that is there (R252). -/
theorem trieStep_old (h : Spells s paths leaves) {p : Code} {bit : Bool} (hp : p ∈ paths) (hl : leaves p = none)
    (hb : p ++ [bit] ∈ paths) : trieStep bit (pathIx paths p) s = .ok (pathIx paths (p ++ [bit])) s := by
  rw [trieStep, h.trieAt hp, Run.andThen_ok, if_neg (by simp [pathCell, hl]), childOf_pathCell, if_neg (by simp [h.ix_eq_nil, hb])]

/-- A leaf on the way is case (a) (R252). -/
theorem trieStep_leaf (h : Spells s paths leaves) {p : Code} (bit : Bool) (hp : p ∈ paths) (hl : (leaves p).isSome = true) :
    trieStep bit (pathIx paths p) s = .raise .ambiguousCode s := by
  rw [trieStep, h.trieAt hp, Run.andThen_ok, if_pos (by simp [pathCell, hl])]

theorem pathIx_append {paths : List Code} {q r : Code} (h : q ≠ r) : pathIx (paths ++ [r]) q = pathIx paths q := by
  unfold pathIx
  by_cases hq : q ∈ paths
  · rw [if_pos hq, if_pos (by simp [hq]), List.idxOf_append_of_mem hq]
  · rw [if_neg hq, if_neg (by simp [hq, h])]

theorem pathIx_new {paths : List Code} {r : Code} (h : r ∉ paths) : pathIx (paths ++ [r]) r = BitVec.ofNat 16 paths.length := by
  rw [pathIx, if_pos (by simp), List.idxOf_append_of_notMem h]; simp

theorem setTrie_ok {i : Nat} {v : TrieNode} (hi : i < Config.trieCap) (s : State) :
    setTrie i v s = .ok () { s with trie := writeCell none s.trie i (some v) } := by rw [setTrie, if_pos hi]

/-- One step where the child is made (R251, R252). -/
theorem trieStep_new (h : Spells s paths leaves) {p : Code} {bit : Bool} (hp : p ∈ paths) (hl : leaves p = none)
    (hb : p ++ [bit] ∉ paths) (hcap : paths.length < 65281) :
    ∃ t, trieStep bit (pathIx paths p) s = .ok (pathIx (paths ++ [p ++ [bit]]) (p ++ [bit])) t ∧
      t = { s with trie := t.trie, trieN := t.trieN } ∧ Spells t (paths ++ [p ++ [bit]]) leaves := by
  have hix := h.ix_toNat hp
  have hlt := List.idxOf_lt_length_of_mem hp
  have hN : s.trieN.toNat < Config.trieCap := by rw [h.count]; exact hcap
  have hset : (s.trieN.setWidth 16) = BitVec.ofNat 16 paths.length := by
    apply BitVec.eq_of_toNat_eq
    rw [BitVec.toNat_setWidth, h.count, BitVec.toNat_ofNat]
  have hw1 := cellsWf_writeCell (some freshTrieNode) hN h.wf
  have hw2 := cellsWf_writeCell (n := Config.trieCap) (i := (pathIx paths p).toNat)
    (some (withChild bit (s.trieN.setWidth 16) (pathCell paths leaves p))) (by rw [hix]; simp only [Config.trieCap]; omega) hw1
  refine ⟨{ s with trie := writeCell none (writeCell none s.trie s.trieN.toNat (some freshTrieNode)) (pathIx paths p).toNat (some (withChild bit (s.trieN.setWidth 16) (pathCell paths leaves p))), trieN := s.trieN + 1#17 }, ?_, rfl, ?_⟩
  · rw [trieStep, h.trieAt hp, Run.andThen_ok, if_neg (by simp [pathCell, hl]), childOf_pathCell, if_pos (h.ix_eq_nil.2 hb),
      trieNew, setTrie_ok hN, Run.andThen_ok, Run.andThen_ok, setTrie_ok (by rw [hix]; simp only [Config.trieCap]; omega), Run.andThen_ok, pathIx_new hb, hset]
  · refine ⟨?_, by simp; omega, hw2, ?_, ?_, ?_, ?_, ?_⟩
    · simp only [List.length_append, List.length_singleton, BitVec.toNat_add, h.count]
      simp; omega
    · rw [List.nodup_append]
      exact ⟨h.nodup, by simp, by rintro a ha b hb' rfl; rw [List.mem_singleton.1 hb'] at ha; exact hb ha⟩
    · rw [List.getElem?_append_left (by have := List.length_pos_of_mem hp; omega)]; exact h.root
    · intro q b hq
      rcases List.mem_append.1 hq with hq | hq
      · exact List.mem_append_left _ (h.closed q b hq)
      · obtain ⟨rfl, -⟩ := List.append_inj' (List.mem_singleton.1 hq) rfl
        exact List.mem_append_left _ hp
    · exact fun q hq => List.mem_append_left _ (h.leafIn q hq)
    · intro i q hi
      have hnoleaf : leaves (p ++ [bit]) = none := by
        cases hx : leaves (p ++ [bit]) with
        | none => rfl
        | some v => exact absurd (h.leafIn _ (by rw [hx]; rfl)) hb
      show readCell none (writeCell none (writeCell none s.trie s.trieN.toNat (some freshTrieNode)) (pathIx paths p).toNat
        (some (withChild bit (s.trieN.setWidth 16) (pathCell paths leaves p)))) i = _
      rw [readCell_writeCell _ _ _ hw1, readCell_writeCell _ _ _ h.wf, hix, h.count]
      rcases Nat.lt_or_ge i paths.length with hlt' | hge
      · rw [List.getElem?_append_left hlt'] at hi
        by_cases hip : i = paths.idxOf p
        · subst hip
          have hqp : q = p := by
            rw [List.getElem?_eq_getElem hlt', List.getElem_idxOf] at hi; exact (Option.some.inj hi).symm
          subst hqp
          rw [if_pos rfl, hset, ← pathIx_new hb]
          cases bit <;> simp [withChild, pathCell, pathIx_append]
        · have hqp : q ≠ p := by
            rintro rfl
            exact hip (by
              have := List.getElem?_eq_some_iff.1 hi
              obtain ⟨h1, h2⟩ := this
              rw [← h2, h.nodup.idxOf_getElem])
          rw [if_neg hip, if_neg (by omega)]
          have := h.cells i q hi
          rw [trieOf] at this
          rw [this]
          have hne : ∀ b, q ++ [b] ≠ p ++ [bit] := fun b he => hqp (List.append_inj' he rfl).1
          simp [pathCell, pathIx_append (hne false), pathIx_append (hne true)]
      · have hi' : i = paths.length := by
          have := (List.getElem?_eq_some_iff.1 hi).1; simp at this; omega
        subst hi'
        simp at hi
        subst hi
        rw [if_neg (by omega), if_pos rfl]
        have hno : ∀ b, pathIx (paths ++ [p ++ [bit]]) (p ++ [bit] ++ [b]) = Config.tnil := fun b => by
          rw [pathIx, if_neg]
          intro hm
          rcases List.mem_append.1 hm with hm | hm
          · exact hb (h.closed _ _ hm)
          · have := congrArg List.length (List.mem_singleton.1 hm); simp at this
        simp only [pathCell, hno, hnoleaf, freshTrieNode]; rfl

/-- TrieAdd's loop (R252): it makes the nodes of the prefixes it passes, or meets a leaf before the end of the code. -/
theorem trieWalk_ends (bits : Code) {p : Code} (h : Spells s paths leaves) (hp : p ∈ paths) (hcap : paths.length + bits.length ≤ 65281) :
    (trieWalk bits (pathIx paths p) s).Ends
      (fun cur t => ∃ paths', cur = pathIx paths' (p ++ bits) ∧ Spells t paths' leaves ∧ t = { s with trie := t.trie, trieN := t.trieN } ∧
        paths'.length ≤ paths.length + bits.length ∧ (∀ q, q ∈ paths' ↔ q ∈ paths ∨ ∃ d, d <+: bits ∧ q = p ++ d) ∧
        ∀ d, d <+: bits → d ≠ bits → leaves (p ++ d) = none)
      (fun k t => k = .ambiguousCode ∧ t = { s with trie := t.trie, trieN := t.trieN } ∧ (∃ paths', Spells t paths' leaves) ∧
        ∃ d, d <+: bits ∧ d ≠ bits ∧ (leaves (p ++ d)).isSome = true) := by
  induction bits generalizing s paths p with
  | nil =>
    refine ⟨paths, by rw [List.append_nil], h, rfl, by simp, fun q => ?_, fun d hd hne => absurd (List.prefix_nil.1 hd) hne⟩
    simp only [List.prefix_nil, exists_eq_left, List.append_nil]
    exact ⟨.inl, fun hq => hq.elim id fun e => e ▸ hp⟩
  | cons bit bits ih =>
    rw [trieWalk]
    cases hl : leaves p with
    | some v =>
      rw [trieStep_leaf h bit hp (by rw [hl]; rfl)]
      exact ⟨rfl, rfl, ⟨paths, h⟩, [], by simp, by simp, by rw [List.append_nil, hl]; rfl⟩
    | none =>
      have key : ∀ (paths₁ : List Code) (t : State), Spells t paths₁ leaves → t = { s with trie := t.trie, trieN := t.trieN } → p ++ [bit] ∈ paths₁ →
          paths₁.length ≤ paths.length + 1 → (∀ q, q ∈ paths₁ ↔ q ∈ paths ∨ q = p ++ [bit]) →
          (trieWalk bits (pathIx paths₁ (p ++ [bit])) t).Ends
            (fun cur t => ∃ paths', cur = pathIx paths' (p ++ bit :: bits) ∧ Spells t paths' leaves ∧ t = { s with trie := t.trie, trieN := t.trieN } ∧
              paths'.length ≤ paths.length + (bit :: bits).length ∧ (∀ q, q ∈ paths' ↔ q ∈ paths ∨ ∃ d, d <+: bit :: bits ∧ q = p ++ d) ∧
              ∀ d, d <+: bit :: bits → d ≠ bit :: bits → leaves (p ++ d) = none)
            (fun k t => k = .ambiguousCode ∧ t = { s with trie := t.trie, trieN := t.trieN } ∧ (∃ paths', Spells t paths' leaves) ∧
              ∃ d, d <+: bit :: bits ∧ d ≠ bit :: bits ∧ (leaves (p ++ d)).isSome = true) := by
        intro paths₁ t ht hst hmem hlen hiff
        refine (ih ht hmem (by simp only [List.length_cons] at hcap; omega)).mono ?_ ?_
        · rintro cur u ⟨paths', hcur, hu, hsu, hlen', hmem', hno⟩
          refine ⟨paths', by simpa using hcur, hu, by rw [hsu, hst], by simp only [List.length_cons]; omega, fun q => ?_, fun d hd hne => ?_⟩
          · rw [hmem', hiff]
            constructor
            · rintro ((hq | rfl) | ⟨d, hd, rfl⟩)
              · exact .inl hq
              · exact .inr ⟨[bit], by simp, rfl⟩
              · exact .inr ⟨bit :: d, by simpa using hd, by simp⟩
            · rintro (hq | ⟨d, hd, rfl⟩)
              · exact .inl (.inl hq)
              · cases d with
                | nil => exact .inl (.inl (by simpa using hp))
                | cons b d =>
                  obtain ⟨rfl, hd'⟩ := List.cons_prefix_cons.1 hd
                  exact .inr ⟨d, hd', by simp⟩
          · cases d with
            | nil => simpa using hl
            | cons b d =>
              obtain ⟨rfl, hd'⟩ := List.cons_prefix_cons.1 hd
              have := hno d hd' (fun e => hne (by rw [e]))
              simpa using this
        · rintro k u ⟨hk, hsu, hsp, d, hd, hne, hleaf⟩
          exact ⟨hk, by rw [hsu, hst], hsp, bit :: d, by simpa using hd, by simpa using hne, by simpa using hleaf⟩
      by_cases hb : p ++ [bit] ∈ paths
      · rw [trieStep_old h hp hl hb, Run.andThen_ok]
        exact key paths s h rfl hb (by omega) fun q => ⟨.inl, fun hq => hq.elim id fun e => e ▸ hb⟩
      · obtain ⟨t, hs, hst, ht⟩ := trieStep_new h hp hl hb (by simp only [List.length_cons] at hcap; omega)
        rw [hs, Run.andThen_ok]
        exact key _ t ht hst (by simp) (by simp) fun q => by simp

/-- The leaves with one more. -/
def withLeaf (leaves : Code → Option Byte) (code : Code) (sym : Byte) : Code → Option Byte := fun q => if q = code then some sym else leaves q

/-- The end of TrieAdd (R252). -/
theorem trieMark_ends (sym : Byte) {p : Code} (h : Spells s paths leaves) (hp : p ∈ paths) :
    (trieMark sym (pathIx paths p) s).Ends
      (fun _ t => Spells t paths (withLeaf leaves p sym) ∧ t = { s with trie := t.trie, trieN := t.trieN } ∧ leaves p = none ∧ ∀ b, p ++ [b] ∉ paths)
      (fun k t => k = .ambiguousCode ∧ t = s ∧ ((leaves p).isSome = true ∨ ∃ b, p ++ [b] ∈ paths)) := by
  rw [trieMark, h.trieAt hp, Run.andThen_ok]
  cases hl : leaves p with
  | some v => simp [pathCell, hl]
  | none =>
    rw [if_neg (by simp [pathCell, hl])]
    by_cases hc : (pathCell paths leaves p).c0 ≠ Config.tnil ∨ (pathCell paths leaves p).c1 ≠ Config.tnil
    · rw [if_pos hc]
      refine ⟨rfl, rfl, .inr ?_⟩
      rcases hc with hc | hc
      · exact ⟨false, by simpa [pathCell, h.ix_eq_nil] using hc⟩
      · exact ⟨true, by simpa [pathCell, h.ix_eq_nil] using hc⟩
    · rw [if_neg hc]
      have hno : ∀ b, p ++ [b] ∉ paths := fun b => by
        simp only [pathCell, ne_eq, h.ix_eq_nil, not_or, not_not] at hc
        cases b
        · exact hc.1
        · exact hc.2
      have hix := h.ix_toNat hp
      have hi : (pathIx paths p).toNat < Config.trieCap := by
        have := List.idxOf_lt_length_of_mem hp; have := h.cap; rw [hix]; simp only [Config.trieCap]; omega
      rw [setTrie_ok hi]
      refine ⟨⟨h.count, h.cap, cellsWf_writeCell _ hi h.wf, h.nodup, h.root, h.closed, fun q hq => ?_, fun i q hq => ?_⟩, rfl, rfl, hno⟩
      · by_cases hqp : q = p
        · exact hqp ▸ hp
        · exact h.leafIn q (by simpa [withLeaf, hqp] using hq)
      · simp only [trieOf, readCell_writeCell _ _ _ h.wf, hix]
        obtain ⟨hlt, hget⟩ := List.getElem?_eq_some_iff.1 hq
        by_cases hip : i = paths.idxOf p
        · have : q = p := by subst hip; rw [← hget, List.getElem_idxOf]
          subst this
          rw [if_pos hip]
          simp [pathCell, withLeaf]
        · have hqp : q ≠ p := by rintro rfl; exact hip (by rw [← hget, h.nodup.idxOf_getElem])
          rw [if_neg hip]
          have := h.cells i q hq
          rw [trieOf] at this
          rw [this]
          simp [pathCell, withLeaf, hqp]

/-- `TrieAdd(sym, code)` (R252): the code's leaf is added beside the others, or the code has another code as a prefix or is the prefix of one. -/
theorem trieAdd_ends (sym : Byte) (code : Code) (h : Spells s paths leaves) (hcap : paths.length + code.length ≤ 65281) :
    (trieAdd sym code s).Ends
      (fun _ t => ∃ paths', Spells t paths' (withLeaf leaves code sym) ∧ t = { s with trie := t.trie, trieN := t.trieN } ∧
        paths'.length ≤ paths.length + code.length ∧ (∀ q, q ∈ paths' ↔ q ∈ paths ∨ q <+: code) ∧
        (∀ d, d <+: code → leaves d = none) ∧ ∀ b, code ++ [b] ∉ paths)
      (fun k t => k = .ambiguousCode ∧ t = { s with trie := t.trie, trieN := t.trieN } ∧ (∃ paths' leaves', Spells t paths' leaves') ∧
        ((∃ d, d <+: code ∧ (leaves d).isSome = true) ∨ ∃ b, code ++ [b] ∈ paths)) := by
  rw [trieAdd, ← h.root_ix]
  refine Run.Ends.andThen ((trieWalk_ends code h h.root_mem hcap).mono (fun _ _ h => h) ?_) ?_
  · rintro k t ⟨hk, hst, ⟨paths', hsp⟩, d, hd, -, hl⟩
    exact ⟨hk, hst, ⟨paths', leaves, hsp⟩, .inl ⟨d, hd, hl⟩⟩
  · rintro cur t ⟨paths', rfl, ht, hst, hlen, hmem, hno⟩
    simp only [List.nil_append, exists_eq_right'] at hmem hno ⊢
    refine (trieMark_ends sym ht ((hmem code).2 (.inr (List.prefix_refl _)))).mono ?_ ?_
    · rintro - u ⟨hu, hsu, hl, hnc⟩
      refine ⟨paths', hu, by rw [hsu, hst], hlen, hmem, fun d hd => ?_, fun b hb => hnc b ((hmem _).2 (.inl hb))⟩
      by_cases hdc : d = code
      · rw [hdc, hl]
      · exact hno d hd hdc
    · rintro k u ⟨hk, rfl, hor⟩
      refine ⟨hk, hst, ⟨paths', leaves, ht⟩, ?_⟩
      rcases hor with hl | ⟨b, hb⟩
      · exact .inl ⟨code, List.prefix_refl _, hl⟩
      · refine .inr ⟨b, ((hmem _).1 hb).resolve_right fun hp => ?_⟩
        have := hp.length_le; simp at this

/-- The symbols of a list that have a code. -/
def codedSymbols (s : State) (l : List Nat) : List Nat := l.filter fun b => (ctOf s b).isSome

/-- No code of a listed symbol is a prefix of another's. -/
def PrefixFreeOn (s : State) (l : List Nat) : Prop :=
  ∀ a ∈ l, ∀ b ∈ l, ∀ x y, a ≠ b → ctOf s a = some x → ctOf s b = some y → ¬ x <+: y

/-- The trie stands for the codes of the symbols of `l`. -/
structure Built (s t : State) (l : List Nat) (paths : List Code) (leaves : Code → Option Byte) : Prop where
  spells : Spells t paths leaves
  size : paths.length ≤ 1 + 255 * l.length
  mem : ∀ q, q ∈ paths ↔ q = [] ∨ ∃ b ∈ l, ∃ code, ctOf s b = some code ∧ q <+: code
  leaf : ∀ q v, leaves q = some v ↔ ∃ b ∈ l, ctOf s b = some q ∧ v = BitVec.ofNat 8 b
  free : PrefixFreeOn s l

/-- DT_BUILD's loop over further symbols, after those of `l` (R253). -/
theorem trieAddAll_ends {s t : State} {l : List Nat} {paths : List Code} {leaves : Code → Option Byte} (bs : List Nat) (p : Nat × Nat)
    (h : Built s t l paths leaves) (hct : ∀ b, ctOf t b = ctOf s b) (hlen : ∀ b code, ctOf s b = some code → 1 ≤ code.length ∧ code.length ≤ 255)
    (hn : (l ++ bs).Nodup) (hsz : (l ++ bs).length ≤ 256) :
    (trieAddAll bs p t).Ends
      (fun r u => (∃ paths' leaves', Built s u (l ++ bs) paths' leaves') ∧ u = { t with trie := u.trie, trieN := u.trieN } ∧
        r = (p.1 + (codedSymbols s bs).length, (codedSymbols s bs).getLastD p.2))
      (fun k u => k = .ambiguousCode ∧ u = { t with trie := u.trie, trieN := u.trieN } ∧ (∃ paths' leaves', Spells u paths' leaves') ∧
        ¬ PrefixFreeOn s (l ++ bs)) := by
  induction bs generalizing t l paths leaves p with
  | nil => simp only [List.append_nil]; exact ⟨⟨paths, leaves, h⟩, rfl, by simp [codedSymbols]⟩
  | cons b bs ih =>
    have happ : l ++ b :: bs = (l ++ [b]) ++ bs := by simp
    have hbl : b ∉ l := fun hb => by
      have := (List.nodup_append.1 hn).2.2 b hb b (by simp); exact this rfl
    rw [trieAddAll, hct]
    cases hc : ctOf s b with
    | none =>
      have h' : Built s t (l ++ [b]) paths leaves := by
        refine ⟨h.spells, by have := h.size; simp only [List.length_append]; omega, fun q => ?_, fun q v => ?_, ?_⟩
        · rw [h.mem]; simp [hc]
        · rw [h.leaf]; simp [hc]
        · intro x hx y hy cx cy hne hcx hcy
          simp only [List.mem_append, List.mem_singleton] at hx hy
          rcases hx with hx | rfl
          · rcases hy with hy | rfl
            · exact h.free x hx y hy cx cy hne hcx hcy
            · rw [hc] at hcy; cases hcy
          · rw [hc] at hcx; cases hcx
      have := ih (p := p) h' hct (happ ▸ hn) (happ ▸ hsz)
      rw [happ]
      refine this.mono ?_ fun k u h => h
      rintro r u ⟨hb, hu, hr⟩
      exact ⟨hb, hu, by rw [hr]; simp [codedSymbols, hc]⟩
    | some code =>
      have hl1 := hlen b code hc
      have hl256 : l.length + 1 ≤ 256 := by simp only [List.length_append, List.length_cons] at hsz; omega
      simp only
      refine Run.Ends.andThen ((trieAdd_ends (BitVec.ofNat 8 b) code h.spells (by have := h.size; omega)).mono (fun _ _ h => h) ?_) ?_
      · rintro k u ⟨hk, hu, hsp, hor⟩
        refine ⟨hk, hu, hsp, fun hpf => ?_⟩
        rcases hor with ⟨d, hd, hleaf⟩ | ⟨bit, hm⟩
        · obtain ⟨v, hv⟩ := Option.isSome_iff_exists.1 hleaf
          obtain ⟨a, ha, hca, -⟩ := (h.leaf d v).1 hv
          exact hpf a (by simp [ha]) b (by simp) d code (fun e => hbl (e ▸ ha)) hca hc hd
        · rcases (h.mem _).1 hm with he | ⟨a, ha, ca, hca, hp⟩
          · simp at he
          · exact hpf b (by simp) a (by simp [ha]) code ca (fun e => hbl (e ▸ ha)) hc hca ((List.prefix_append _ _).trans hp)
      · rintro - u ⟨paths', hsp, hu, hlen', hmem, hno, hnc⟩
        have h' : Built s u (l ++ [b]) paths' (withLeaf leaves code (BitVec.ofNat 8 b)) := by
          refine ⟨hsp, by have := h.size; simp only [List.length_append, List.length_singleton]; omega, fun q => ?_, fun q v => ?_, ?_⟩
          · rw [hmem, h.mem]
            simp only [List.mem_append, List.mem_singleton, or_assoc]
            refine or_congr_right ?_
            constructor
            · rintro (⟨a, ha, ca, hca, hq⟩ | hq)
              · exact ⟨a, .inl ha, ca, hca, hq⟩
              · exact ⟨b, .inr rfl, code, hc, hq⟩
            · rintro ⟨a, ha | rfl, ca, hca, hq⟩
              · exact .inl ⟨a, ha, ca, hca, hq⟩
              · rw [hc] at hca; cases hca; exact .inr hq
          · unfold withLeaf
            by_cases hq : q = code
            · subst hq
              rw [if_pos rfl]
              constructor
              · intro hv; exact ⟨b, by simp, hc, (Option.some.inj hv).symm⟩
              · rintro ⟨a, ha, hca, rfl⟩
                simp only [List.mem_append, List.mem_singleton] at ha
                rcases ha with ha | rfl
                · have := (h.leaf q _).2 ⟨a, ha, hca, rfl⟩
                  rw [hno q (List.prefix_refl _)] at this; cases this
                · rfl
            · rw [if_neg hq, h.leaf]
              simp only [List.mem_append, List.mem_singleton]
              constructor
              · rintro ⟨a, ha, hca, hv⟩; exact ⟨a, .inl ha, hca, hv⟩
              · rintro ⟨a, ha | rfl, hca, hv⟩
                · exact ⟨a, ha, hca, hv⟩
                · rw [hc] at hca; exact absurd (Option.some.inj hca).symm hq
          · intro x hx y hy cx cy hne hcx hcy hpre
            simp only [List.mem_append, List.mem_singleton] at hx hy
            rcases hx with hx | rfl
            · rcases hy with hy | rfl
              · exact h.free x hx y hy cx cy hne hcx hcy hpre
              · rw [hc] at hcy; cases hcy
                have := (h.leaf cx _).2 ⟨x, hx, hcx, rfl⟩
                rw [hno cx hpre] at this; cases this
            · rcases hy with hy | rfl
              · rw [hc] at hcx; cases hcx
                obtain ⟨e, rfl⟩ := hpre
                cases e with
                | nil =>
                  have := (h.leaf _ _).2 ⟨y, hy, hcy, rfl⟩
                  rw [List.append_nil, hno code (List.prefix_refl _)] at this; cases this
                | cons bit e => exact hnc bit ((h.mem _).2 (.inr ⟨y, hy, _, hcy, e, by simp⟩))
              · exact hne rfl
        have := ih (p := (p.1 + 1, b)) h' (fun a => by rw [hu]; exact hct a) (happ ▸ hn) (happ ▸ hsz)
        rw [happ]
        refine this.mono ?_ ?_
        · rintro r v ⟨hb, hv, hr⟩
          refine ⟨hb, by rw [hv, hu], ?_⟩
          rw [hr]
          have : codedSymbols s (b :: bs) = b :: codedSymbols s bs := by simp [codedSymbols, hc]
          rw [this, List.length_cons]
          simp only [Prod.mk.injEq]
          exact ⟨by omega, (List.getLastD_cons ..).symm⟩
        · rintro k v ⟨hk, hv, hsp, hpf⟩
          exact ⟨hk, by rw [hv, hu], hsp, hpf⟩

/-- DT_BUILD (R253): the trie of all codes, or AmbiguousCode where the codes are not prefix-free. -/
theorem buildTrie_ends {s : State} (hw : cellsWf none Config.trieCap s.trie = true) (hc : CodesOk s) (hct : cellsWf none Config.nsym s.ct = true) :
    (buildTrie s).Ends
      (fun _ t => (∃ paths leaves, Built s t (List.range 256) paths leaves) ∧
        t = { s with trie := t.trie, trieN := t.trieN,
                     decOne := if (codedSymbols s (List.range 256)).length = 1 then oneSymbol ((codedSymbols s (List.range 256)).getLastD 0) else 0#9 })
      (fun k t => k = .ambiguousCode ∧ t = { s with trie := t.trie, trieN := t.trieN, decOne := 0#9 } ∧ (∃ paths leaves, Spells t paths leaves) ∧
        ¬ PrefixFreeOn s (List.range 256)) := by
  obtain ⟨t, hnew, ht, hsp⟩ := trieNew_root { s with trieN := 0#17, decOne := 0#9 } hw rfl
  have hb : Built s t [] [[]] fun _ => none := ⟨hsp, by simp, fun q => by simp, fun q v => by simp, fun a ha => by cases ha⟩
  have hlen : ∀ b code, ctOf s b = some code → 1 ≤ code.length ∧ code.length ≤ 255 := fun b code h => by
    rcases Nat.lt_or_ge b Config.nsym with hlt | hge
    · have := hc b hlt
      rw [h] at this
      unfold codeOk at this
      rwa [Bool.and_eq_true, decide_eq_true_eq, decide_eq_true_eq, Config.lmax] at this
    · rw [ctOf, readCell_of_le hct hge] at h; cases h
  rw [buildTrie, hnew, Run.andThen_ok]
  have hsz : ([] ++ List.range 256).length ≤ 256 := by rw [List.nil_append, List.length_range]
  have hall := trieAddAll_ends (List.range 256) (0, 0) hb (fun b => by rw [ht]; rfl) hlen (by rw [List.nil_append]; exact List.nodup_range) hsz
  simp only [List.nil_append, Nat.zero_add] at hall
  refine Run.Ends.andThen (hall.mono (fun _ _ h => h) ?_) ?_
  · rintro k u ⟨hk, hu, hsp, hpf⟩
    exact ⟨hk, by rw [hu, ht], hsp, hpf⟩
  · rintro r u ⟨⟨paths, leaves, hb⟩, hu, rfl⟩
    simp only
    split
    · exact ⟨⟨paths, leaves, ⟨⟨hb.spells.count, hb.spells.cap, hb.spells.wf, hb.spells.nodup, hb.spells.root, hb.spells.closed, hb.spells.leafIn, hb.spells.cells⟩, hb.size, hb.mem, hb.leaf, hb.free⟩⟩, by rw [hu, ht]⟩
    · exact ⟨⟨paths, leaves, hb⟩, by rw [hu, ht]⟩

/-- A trie that stands for paths is well formed (R32, R40). -/
theorem Spells.trieOk (h : Spells s paths leaves) : TrieOk s := by
  refine ⟨by rw [h.count]; exact h.cap, fun i hi => ?_⟩
  rw [h.count] at hi
  have := h.cells i paths[i] (List.getElem?_eq_getElem hi)
  rw [trieCellOk, this]
  have hch : ∀ q, childOk s (pathIx paths q) = true := fun q => by
    by_cases hq : q ∈ paths
    · have := h.ix_toNat hq
      have := List.idxOf_lt_length_of_mem hq
      have := h.count
      simp only [childOk, Bool.or_eq_true, decide_eq_true_eq]; right; omega
    · simp [childOk, h.ix_eq_nil.2 hq]
  simp [pathCell, hch]

/-- A trie of codes is never empty. -/
theorem Spells.pos (h : Spells s paths leaves) : 1 ≤ s.trieN.toNat := by rw [h.count]; exact List.length_pos_of_mem h.root_mem

/-- In the finished trie the codes are the leaves (R254). -/
theorem Built.follow {s t : State} (h : Built s t (List.range 256) paths leaves) {b : Nat} {code : Code} (hb : b < 256) (hc : ctOf s b = some code) :
    Machine.followTrie t 0#16 code = some ⟨Config.tnil, Config.tnil, true, BitVec.ofNat 8 b⟩ := by
  have hm : code ∈ paths := (h.mem code).2 (.inr ⟨b, by simpa, code, hc, List.prefix_refl _⟩)
  have hl : leaves code = some (BitVec.ofNat 8 b) := (h.leaf _ _).2 ⟨b, by simpa, hc, rfl⟩
  have hno : ∀ bit, code ++ [bit] ∉ paths := fun bit hbit => by
    rcases (h.mem _).1 hbit with he | ⟨a, ha, ca, hca, hp⟩
    · simp at he
    · have hab : b = a := by
        by_contra hne
        exact h.free b (by simpa) a ha code ca hne hc hca ((List.prefix_append _ _).trans hp)
      subst hab
      rw [hc] at hca; cases hca
      have := hp.length_le; simp at this
  rw [← h.spells.root_ix, h.spells.followTrie code h.spells.root_mem hm fun e he hne => ?_]
  · simp [pathCell, hl, h.spells.ix_eq_nil.2 (hno false), h.spells.ix_eq_nil.2 (hno true)]
  · rw [List.nil_append]
    cases hx : leaves e with
    | none => rfl
    | some v =>
      obtain ⟨a, ha, hca, -⟩ := (h.leaf e v).1 hx
      by_cases hab : a = b
      · subst hab; rw [hc] at hca; exact absurd (Option.some.inj hca).symm hne
      · exact absurd he (h.free a ha b (by simpa) e code hab hca hc)

/-- What leads from the root to a leaf is a code (R254). -/
theorem Built.follow_inv {s t : State} (h : Built s t (List.range 256) paths leaves) {code : Code} {c : TrieNode}
    (hf : Machine.followTrie t 0#16 code = some c) (hc : c.leaf = true) :
    ctOf s c.sym.toNat = some code ∧ c.c0 = Config.tnil ∧ c.c1 = Config.tnil := by
  rw [← h.spells.root_ix] at hf
  obtain ⟨-, rfl, -⟩ := h.spells.followTrie_inv h.spells.root_mem hf
  rw [List.nil_append] at hc ⊢
  obtain ⟨v, hv⟩ := Option.isSome_iff_exists.1 (show (leaves code).isSome = true from hc)
  obtain ⟨b, hb, hcb, rfl⟩ := (h.leaf _ _).1 hv
  rw [List.mem_range] at hb
  have := h.follow hb hcb
  rw [← h.spells.root_ix] at this
  obtain ⟨-, h2, -⟩ := h.spells.followTrie_inv h.spells.root_mem this
  rw [List.nil_append] at h2
  rw [← h2]
  refine ⟨?_, rfl, rfl⟩
  rw [BitVec.toNat_ofNat, Nat.mod_eq_of_lt (by omega)]; exact hcb

end Sys2Proof.Machine
end

