-- ==== Sys2Proof/Tests/Slice0.lean ====
section
/-! SUPPORT. Tests of the model, one step each, with the expected values of spec/95_test_vectors.md (or worked by hand from the rule named), and for every statement with hypotheses a state and operands that meet them. -/

namespace Sys2Proof.Tests

open Sys2Proof Sys2Proof.Machine

/- One theorem after another: evaluated all at once they wait for each other in more threads than memory holds. -/
set_option Elab.async false

/-! ## Helpers -/

/-- The next state, if there is one. -/
def after (o : Host.Outcome State Fault Refusal) : Option State :=
  match o with
  | .next t => some t
  | .fault _ => none
  | .refused _ => none

/-- The state after a command that gives one. -/
def run (i : Instr) (s : State) : State := (after (exec i s)).getD State.reset

theorem exec_run {i : Instr} {s : State} (h : (after (exec i s)).isSome = true) : exec i s = .next (run i s) := by
  unfold run
  cases he : exec i s <;> simp_all [after]

/-- The invariant from its parts in a form Lean can evaluate. -/
theorem inv_of_checks {s : State}
    (h1 : memoriesWf s = true ∧ s.rp.toNat ≤ s.src.length ∧ s.src.length ≤ Config.lenMax ∧ s.snk.length ≤ Config.lenMax)
    (h2 : (∀ k < s.heapN.toNat, (liveAt s k).isSome = true) ∧ (∀ i ∈ liveNodes s, i.toNat < s.nodeNext.toNat) ∧
      (∀ k < s.heapN.toNat, 0 < k → notLess (liveAt s k) (liveAt s ((k - 1) / 2)) = true) ∧
      (∀ i ∈ liveNodes s, i.toNat < 256 → tbOf s i = i.toNat) ∧ (∀ i ∈ liveNodes s, insOf s (tbOf s i) = true) ∧
      ((liveNodes s).map (tbOf s)).Nodup ∧ s.heapN.toNat + s.nodeNext.toNat ≤ 256 + insCount s)
    (h3 : 256 ≤ s.nodeNext.toNat ∧ s.nodeNext.toNat ≤ Config.nodeCap ∧ (∀ i < s.nodeNext.toNat, 256 ≤ i → childrenBelow s i = true) ∧
      (s.root = Config.nil ∨ s.root.toNat < s.nodeNext.toNat))
    (h4 : (∀ b < Config.nsym, codeOk (ctOf s b) = true) ∧ s.trieN.toNat ≤ Config.trieCap ∧
      (∀ i < s.trieN.toNat, trieCellOk s i = true) ∧ s.host.all actionOk = true) : Inv s :=
  ⟨h1.1, ⟨h1.2.1, h1.2.2.1⟩, ⟨h2.1, h2.2.1, h2.2.2.1, h2.2.2.2.1, h2.2.2.2.2.1, h2.2.2.2.2.2.1, h2.2.2.2.2.2.2⟩,
    ⟨h3.1, h3.2.1, h3.2.2.1, h3.2.2.2⟩, h4.1, ⟨h4.2.1, h4.2.2.1⟩, h1.2.2.2, h4.2.2.2⟩

/-- A state with a source to read. -/
def sourced (bytes : List Byte) : State := { State.reset with src := bytes }

/-- V1's source. -/
def aaab : List Byte := [0x41#8, 0x41#8, 0x41#8, 0x42#8]

/-- V20's counts. -/
def counted : State := { State.reset with freq := [(1, 7#64), (2, 4#64), (3, 2#64), (5, 4#64), (7, 1#64), (9, 2#64)], origSize := 20#64 }

/-- Two of V20's leaves, live. -/
def queued : State :=
  { counted with
    ins := [(3, true), (7, true)], heapN := 2#9, heap := [(0, some 7#9), (1, some 3#9)]
    node := [(3, some ⟨2#64, 3#8, 0x1FF#9, 0x1FF#9⟩), (7, some ⟨1#64, 7#8, 0x1FF#9, 0x1FF#9⟩)] }

/-- V1 after TB_BUILD. -/
def treed : State :=
  { sourced aaab with
    freq := [(0x41, 3#64), (0x42, 1#64)], origSize := 4#64, rp := 4#64, ins := [(0x41, true), (0x42, true)]
    node := [(0x41, some ⟨3#64, 0x41#8, 0x1FF#9, 0x1FF#9⟩), (0x42, some ⟨1#64, 0x42#8, 0x1FF#9, 0x1FF#9⟩),
             (256, some ⟨4#64, 0x42#8, 0x42#9, 0x41#9⟩)]
    heap := [(0, some 256#9), (1, some 0x42#9)], nodeNext := 257#10, root := 256#9, res := 256#9 }

/-- V1's code table over a source. -/
def tabled (bytes : List Byte) : State :=
  { sourced bytes with ct := [(0x41, some [true]), (0x42, some [false])], origSize := 4#64 }

/-- V60's trie of V1's table over a source. -/
def tried (bytes : List Byte) : State :=
  { tabled bytes with
    trieN := 3#17
    trie := [(0, some ⟨2#16, 1#16, false, 0#8⟩), (1, some ⟨0xFFFF#16, 0xFFFF#16, true, 0x41#8⟩),
             (2, some ⟨0xFFFF#16, 0xFFFF#16, true, 0x42#8⟩)] }

/-! ## Words -/

theorem test_pqIns_operand_must_fit : (Instr.pqIns 512).wellFormed = false := by decide
theorem test_pqIns_largest_operand_fits : (Instr.pqIns 511).wellFormed = true := by decide

theorem test_decode_system :
    decode 0b00000000000000000000000000000000#32 = .ok .nop ∧ decode 0b00000000000000000000000000000001#32 = .ok .rst ∧
    decode 0b00000000000000000000000000000010#32 = .ok .rwd := ⟨rfl, rfl, rfl⟩

theorem test_decode_fc : decode 0b00000000000000000000000000010000#32 = .ok .fcScan := rfl

theorem test_decode_pq :
    decode 0b00000000000000000000000000100000#32 = .ok .pqClr ∧ decode 0b00000000000000000000010100100001#32 = .ok (.pqIns 5) ∧
    decode 0b00000000000000000000000000100010#32 = .ok .pqExt := ⟨rfl, rfl, rfl⟩

theorem test_decode_tb :
    decode 0b00000000000000000000000000110000#32 = .ok .tbMerge ∧ decode 0b00000000000000000000000000110001#32 = .ok .tbBuild := ⟨rfl, rfl⟩

theorem test_decode_cg : decode 0b00000000000000000000000001000000#32 = .ok .cgGen := rfl

theorem test_decode_ct :
    decode 0b00000000000000000000000001010000#32 = .ok .ctWr4 ∧ decode 0b00000000000000000000000001010001#32 = .ok .ctWr8 ∧
    decode 0b00000000000000000000000001010010#32 = .ok .ctRd4 ∧ decode 0b00000000000000000000000001010011#32 = .ok .ctRd8 ∧
    decode 0b00000000000000000000000001010100#32 = .ok .ctWrx4 ∧ decode 0b00000000000000000000000001010101#32 = .ok .ctWrx8 ∧
    decode 0b00000000000000000000000001010110#32 = .ok .ctRdx := ⟨rfl, rfl, rfl, rfl, rfl, rfl, rfl⟩

theorem test_decode_bp :
    decode 0b00000000000000000000000001100000#32 = .ok .cfWrh ∧ decode 0b00000000000000000000000001100001#32 = .ok .bpEnc := ⟨rfl, rfl⟩

theorem test_decode_dt : decode 0b00000000000000000000000001110000#32 = .ok .dtBuild := rfl

theorem test_decode_sd :
    decode 0b00000000000000000000000010000000#32 = .ok .cfRdh ∧ decode 0b00000000000000000000000010000001#32 = .ok .sdRun := ⟨rfl, rfl⟩

/-- V80: an unknown opcode, and a reserved bit in each format; R94 names the unknown opcode first. -/
theorem test_decode_refuses :
    decode 0x00000003#32 = .error .unknownOpcode ∧ decode 0x00000100#32 = .error .reservedNotZero ∧
    decode 0x00020021#32 = .error .reservedNotZero ∧ decode 0x80000003#32 = .error .unknownOpcode := ⟨rfl, rfl, rfl, rfl⟩

/-! ## The host's side -/

/-- V80: while ERR = 7 the words 0x10 and 0x101 change nothing, and 1 restores the reset state. -/
theorem test_fault_state :
    let s : State := { State.reset with err := some .badCommand }
    after (perform (.cmd 0x10#32) s) = some s ∧ after (perform (.cmd 0x101#32) s) = some s ∧
    after (perform (.cmd 1#32) s) = some State.reset := by decide +kernel

/-- A fetched word is the next step's command: FC_SCAN of no source (V10b). -/
theorem test_withFetchWord_runs : after (step (State.reset.withFetchWord 32 0x10)) = after (exec .fcScan State.reset) := by decide +kernel

/-- V90: STATUS = 0x08 after TB_BUILD; CMD and register 16 read 0 (R22). -/
theorem test_registers : readReg 1 treed = 8#64 ∧ readReg 3 treed = 256#64 ∧ readReg 0 treed = 0#64 ∧ readReg 16 treed = 0#64 := by decide +kernel

/-! ## One step of each command -/

/-- R290. -/
theorem test_nop : after (exec .nop treed) = some treed := by decide +kernel

/-- R291: after RST, ERR = 0 and RP = 0, and the source stays (R47). -/
theorem test_rst : (after (exec .rst treed)).map (fun t => (t.rp, t.root, t.freq, t.src)) = some (0#64, 0x1FF#9, [], aaab) := by decide +kernel

/-- R292: after FC_SCAN over 4 bytes RWD gives RP = 0. -/
theorem test_rwd : (after (exec .rwd treed)).map (·.rp) = some 0#64 := by decide +kernel

/-- V1. -/
theorem test_fcScan_counts :
    (after (exec .fcScan (sourced aaab))).map (fun t => (t.freq, t.origSize, t.rp)) = some ([(0x41, 3#64), (0x42, 1#64)], 4#64, 4#64) := by
  decide +kernel

/-- V10c: a failing byte at index 2. -/
theorem test_fcScan_fails :
    (after (exec .fcScan { sourced aaab with srcFail := some 2#64 })).map (fun t => (t.err, t.rp, t.freq, t.origSize)) =
      some (some .ioError, 2#64, [(0x41, 2#64)], 0#64) := by decide +kernel

/-- R145's example. -/
theorem test_pqClr :
    (after (exec .pqClr treed)).map (fun t => (t.root, t.nodeNext, t.heapN, t.res)) = some (0x1FF#9, 256#10, 0#9, 0x1FF#9) := by decide +kernel

/-- V20's fifth row: the leaf of the least frequency rises to the root. -/
theorem test_pqIns_sifts_up :
    let s : State := run (.pqIns 1) (run (.pqIns 9) (run (.pqIns 3) (run (.pqIns 5) counted)))
    (after (exec (.pqIns 7) s)).map liveNodes = some [7#9, 3#9, 9#9, 1#9, 5#9] := by decide +kernel

/-- V20's end: a leaf enters once an epoch; V80: PQ_INS 256 is no leaf. -/
theorem test_pqIns_refuses :
    (after (exec (.pqIns 3) queued)).map (·.err) = some (some .badCommand) ∧
    (after (exec (.pqIns 256) queued)).map (·.err) = some (some .badCommand) := by decide +kernel

/-- V20's first extraction, and the layout it leaves. -/
theorem test_pqExt_least :
    let s : State := run (.pqIns 2) (run (.pqIns 7) (run (.pqIns 1) (run (.pqIns 9) (run (.pqIns 3) (run (.pqIns 5) counted)))))
    (after (exec .pqExt s)).map (fun t => (t.res, t.empty, liveNodes t)) = some (7#9, false, [3#9, 2#9, 9#9, 1#9, 5#9]) := by decide +kernel

/-- V20's last row. -/
theorem test_pqExt_empty : (after (exec .pqExt counted)).map (fun t => (t.res, t.empty)) = some (0x1FF#9, true) := by decide +kernel

/-- R161: 7 (frequency 1) is the left child, 3 (frequency 2) the right; the sum is 3 and the tie-break byte 7. -/
theorem test_tbMerge :
    (after (exec .tbMerge queued)).map (fun t => (t.res, nodeOf t 256, liveNodes t)) =
      some (256#9, some ⟨3#64, 7#8, 7#9, 3#9⟩, [256#9]) := by decide +kernel

/-- V80. -/
theorem test_tbMerge_refuses : (after (exec .tbMerge State.reset)).map (·.err) = some (some .badCommand) := by decide +kernel

/-- V22, second row: the max rule puts leaf 0x62 before node 256. -/
theorem test_tbBuild :
    (after (exec .tbBuild { State.reset with freq := [(0x61, 1#64), (0x62, 2#64), (0x63, 1#64)] })).map
        (fun t => (t.root, nodeOf t 256, nodeOf t 257)) =
      some (257#9, some ⟨2#64, 0x63#8, 0x61#9, 0x63#9⟩, some ⟨4#64, 0x63#8, 0x62#9, 256#9⟩) := by decide +kernel

/-- V2: a single byte value is its own root. -/
theorem test_tbBuild_single :
    (after (exec .tbBuild { State.reset with freq := [(0x41, 5#64)] })).map (fun t => (t.root, t.nodeNext)) = some (0x41#9, 256#10) := by
  decide +kernel

/-- R162 on V20's counts: the commands TB_BUILD names, one after another, leave the state it leaves, once the extracted node is ROOT. -/
theorem test_tbBuild_is_its_commands :
    (after (runCommands ([.pqClr, .pqIns 1, .pqIns 2, .pqIns 3, .pqIns 5, .pqIns 7, .pqIns 9] ++ List.replicate 5 .tbMerge ++ [.pqExt]) counted)).map
      (fun u => { u with root := u.res }) = after (exec .tbBuild counted) := by decide +kernel

/-- V1. -/
theorem test_cgGen : (after (exec .cgGen treed)).map (·.ct) = some [(0x41, some [true]), (0x42, some [false])] := by decide +kernel

/-- V2: the fixed code 0. -/
theorem test_cgGen_single : (after (exec .cgGen { treed with root := 0x41#9 })).map (·.ct) = some [(0x41, some [false])] := by decide +kernel

/-- V1. -/
theorem test_ctWr4 :
    (after (exec .ctWr4 (tabled []))).map (·.snk) =
      some [0x04#8, 0x00#8, 0x00#8, 0x00#8, 0x41#8, 0x01#8, 0x80#8, 0x42#8, 0x01#8, 0x00#8] := by decide +kernel

/-- V40: a size of 2^32 does not fit. -/
theorem test_ctWr4_refuses :
    (after (exec .ctWr4 { tabled [] with origSize := 0x100000000#64 })).map (fun t => (t.err, t.snk)) = some (some .badCommand, []) := by
  decide +kernel

/-- V40: empty CT, ORIG_SIZE = 2^32. -/
theorem test_ctWr8 :
    (after (exec .ctWr8 { State.reset with origSize := 0x100000000#64 })).map (·.snk) =
      some [0x00#8, 0x00#8, 0x00#8, 0x00#8, 0x01#8, 0x00#8, 0x00#8, 0x00#8] := by decide +kernel

/-- R200's example: 30 bytes; the second line is `41 01 80`. -/
theorem test_ctWrx4 :
    (after (exec .ctWrx4 (tabled []))).map (fun t => (t.snk.length, (t.snk.drop 12).take 9)) =
      some (30, [0x34#8, 0x31#8, 0x20#8, 0x30#8, 0x31#8, 0x20#8, 0x38#8, 0x30#8, 0x0A#8]) := by decide +kernel

/-- V42: upper-case digits, a header of eight tokens. -/
theorem test_ctWrx8 :
    (after (exec .ctWrx8 { State.reset with origSize := 0xE8#64 })).map (fun t => (t.snk.length, t.snk.take 3)) =
      some (24, [0x45#8, 0x38#8, 0x20#8]) := by decide +kernel

/-- V41, second row: any order, pad bits ignored. -/
theorem test_ctRd4 :
    let r := after (exec .ctRd4 (sourced [0x04#8, 0x00#8, 0x00#8, 0x00#8, 0x42#8, 0x01#8, 0x00#8, 0x41#8, 0x01#8, 0xFF#8]))
    r.map (fun t => (t.err, t.rp, t.origSize)) = some (none, 10#64, 4#64) ∧ r.map (·.ct) = some [(0x41, some [true]), (0x42, some [false])] := by decide +kernel

/-- V41, `H 41 09 FF`: the overrun is found before any packed byte is read. -/
theorem test_ctRd4_overrun :
    let r := after (exec .ctRd4 (sourced [0x04#8, 0x00#8, 0x00#8, 0x00#8, 0x41#8, 0x09#8, 0xFF#8]))
    r.map (fun t => (t.err, t.rp)) = some (some .malformedTable, 6#64) ∧ r.map (·.ct) = some [] := by decide +kernel

/-- R197's example. -/
theorem test_ctRd8 :
    let r := after (exec .ctRd8 (sourced [0x04#8, 0x00#8, 0x00#8, 0x00#8, 0x00#8, 0x00#8, 0x00#8, 0x00#8, 0x41#8, 0x01#8, 0x80#8]))
    r.map (fun t => (t.err, t.rp, t.origSize)) = some (none, 11#64, 4#64) ∧ r.map (·.ct) = some [(0x41, some [true])] := by decide +kernel

/-- V42: lower-case digits; the text is `04 00 00 00`, `3a 01 ff`. -/
theorem test_ctRdx :
    let r := after (exec .ctRdx (sourced [0x30#8, 0x34#8, 0x20#8, 0x30#8, 0x30#8, 0x20#8, 0x30#8, 0x30#8, 0x20#8, 0x30#8, 0x30#8, 0x0A#8, 0x33#8, 0x61#8, 0x20#8, 0x30#8, 0x31#8, 0x20#8, 0x66#8, 0x66#8, 0x0A#8]))
    r.map (fun t => (t.err, t.rp, t.origSize)) = some (none, 21#64, 4#64) ∧ r.map (·.ct) = some [(0x3A, some [true])] := by decide +kernel

/-- V43, `4 00 00 00`: a one-digit token, RP = 2. -/
theorem test_ctRdx_refuses :
    (after (exec .ctRdx (sourced [0x34#8, 0x20#8, 0x30#8, 0x30#8, 0x0A#8]))).map (fun t => (t.err, t.rp)) =
      some (some .malformedTable, 2#64) := by decide +kernel

/-- R231's example. -/
theorem test_cfWrh :
    (after (exec .cfWrh { State.reset with origSize := 0x0102030405060708#64 })).map (·.snk) =
      some [0x08#8, 0x07#8, 0x06#8, 0x05#8, 0x04#8, 0x03#8, 0x02#8, 0x01#8] := by decide +kernel

/-- V40: SNK_LIMIT = 3. -/
theorem test_cfWrh_limit :
    (after (exec .cfWrh { State.reset with origSize := 0x0102030405060708#64, snkLimit := some 3#64 })).map (fun t => (t.err, t.snk)) =
      some (some .ioError, [0x08#8, 0x07#8, 0x06#8]) := by decide +kernel

/-- V1: bits 1110, padded. -/
theorem test_bpEnc : (after (exec .bpEnc (tabled aaab))).map (fun t => (t.snk, t.rp)) = some ([0xE0#8], 4#64) := by decide +kernel

/-- V51: three bits buffered, none flushed. -/
theorem test_bpEnc_unknown :
    (after (exec .bpEnc (tabled [0x41#8, 0x42#8, 0x41#8, 0x43#8]))).map (fun t => (t.err, t.rp, t.snk)) =
      some (some .unknownSymbol, 4#64, []) := by decide +kernel

/-- V60, first row. -/
theorem test_dtBuild :
    (after (exec .dtBuild (tabled []))).map (fun t => (t.trieN, t.decOne, t.trie)) = some (3#17, 0#9, (tried []).trie) := by decide +kernel

/-- V61, first row: `0` is a leaf met before the end of `01`. -/
theorem test_dtBuild_ambiguous :
    (after (exec .dtBuild { State.reset with ct := [(0x41, some [false]), (0x42, some [false, true])] })).map
        (fun t => (t.err, t.trieN, t.decOne)) = some (some .ambiguousCode, 2#17, 0#9) := by decide +kernel

/-- R266's example. -/
theorem test_cfRdh :
    (after (exec .cfRdh (sourced [0x04#8, 0x00#8, 0x00#8, 0x00#8, 0x00#8, 0x00#8, 0x00#8, 0x00#8, 0xE0#8]))).map
        (fun t => (t.origSize, t.rp)) = some (4#64, 8#64) := by decide +kernel

/-- V71: seven bytes, RP at the end, ORIG_SIZE as it was. -/
theorem test_cfRdh_truncated :
    (after (exec .cfRdh { sourced [0x03#8, 0x00#8, 0x00#8, 0x00#8, 0x00#8, 0x00#8, 0x00#8] with origSize := 9#64 })).map
        (fun t => (t.err, t.origSize, t.rp)) = some (some .truncatedInput, 9#64, 7#64) := by decide +kernel

/-- R270's example: the pad bits are not looked at. -/
theorem test_sdRun :
    (after (exec .sdRun (tried [0xE0#8, 0xAA#8]))).map (fun t => (t.snk, t.rp, t.sdState, t.sdCnt, t.sdCur)) =
      some (aaab, 1#64, .done, 4#64, 0#16) := by decide +kernel

/-- V71, fifth row: SNK_LIMIT = 2, SD_CUR is the leaf stepped onto when the write failed. -/
theorem test_sdRun_limit :
    (after (exec .sdRun { tried [0xE0#8] with snkLimit := some 2#64 })).map (fun t => (t.err, t.snk, t.sdCnt, t.sdCur, t.sdState)) =
      some (some .ioError, [0x41#8, 0x41#8], 2#64, 1#16, .walking) := by decide +kernel

/-! ## States and operands that meet the statements' hypotheses -/

theorem streams {s : State} (h : s.rp.toNat ≤ s.src.length ∧ s.src.length ≤ Config.lenMax) : StreamsOk s := ⟨h.1, h.2⟩

theorem gives {n : Nat} {s : State} (h : s.rp.toNat + n ≤ s.src.length) (hf : s.srcFail = none) : SourceGives n s :=
  ⟨h, fun f hs => by rw [hf] at hs; cases hs⟩

theorem fails {n : Nat} {s : State} (f : Count) (h : s.srcFail = some f) (hn : s.rp.toNat + n < s.src.length ∧ max s.rp.toNat f.toNat = s.rp.toNat + n) :
    SourceFailsAfter n s := ⟨hn.1, f, h, hn.2⟩

theorem takes {n : Nat} {s : State} (h : s.snkLimit = none) (hn : s.snk.length + n ≤ Config.lenMax) : SinkTakes n s := .inr (by rwa [snkCap, h])

theorem takes_up_to {n : Nat} {s : State} {m : Count} (h : s.snkLimit = some m) (hn : s.snk.length + n ≤ m.toNat) : SinkTakes n s :=
  .inr (by rwa [snkCap, h])

theorem mem_of_readCell {c : Cells (Option Code)} {a : Nat} {x : Code} (h : readCell none c a = some x) : (a, some x) ∈ c := by
  induction c with
  | nil => cases h
  | cons e c ih =>
    obtain ⟨j, w⟩ := e
    rw [readCell] at h
    split at h
    · cases h
    · split at h
      · subst_vars; simp
      · exact List.mem_cons_of_mem _ (ih h)

/-- Prefix-freedom of the listed codes, in a form Lean can evaluate. -/
theorem prefixFree_of_list {s : State}
    (h : ∀ p ∈ s.ct, ∀ q ∈ s.ct, p.1 = q.1 ∨ ((p.2.getD []).isPrefixOf (q.2.getD [])) = false) : PrefixFree s := by
  intro a _ b _ x y hne hx hy hp
  rcases h _ (mem_of_readCell hx) _ (mem_of_readCell hy) with he | he
  · exact hne he
  · rw [← List.isPrefixOf_iff_prefix] at hp
    simp only [Option.getD_some] at he
    rw [hp] at he; cases he

/-! The premises about streams in forms Lean can evaluate. -/

theorem streamsOk_iff {s : State} : StreamsOk s ↔ s.rp.toNat ≤ s.src.length ∧ s.src.length ≤ Config.lenMax := ⟨fun h => ⟨h.pos, h.len⟩, streams⟩

theorem sourceGives_iff {n : Nat} {s : State} : SourceGives n s ↔
    s.rp.toNat + n ≤ s.src.length ∧ (s.srcFail.all fun f => decide (n = 0 ∨ s.rp.toNat + n ≤ f.toNat)) = true := by
  unfold SourceGives; cases s.srcFail <;> simp

theorem sourceFailsAfter_iff {n : Nat} {s : State} : SourceFailsAfter n s ↔
    s.rp.toNat + n < s.src.length ∧ (s.srcFail.any fun f => decide (max s.rp.toNat f.toNat = s.rp.toNat + n)) = true := by
  unfold SourceFailsAfter; cases s.srcFail <;> simp

/-- Three of V20's leaves, live, in one order. -/
def queued3 : State :=
  { counted with
    ins := [(1, true), (3, true), (7, true)], heapN := 3#9, heap := [(0, some 7#9), (1, some 1#9), (2, some 3#9)]
    node := [(1, some ⟨7#64, 1#8, 0x1FF#9, 0x1FF#9⟩), (3, some ⟨2#64, 3#8, 0x1FF#9, 0x1FF#9⟩), (7, some ⟨1#64, 7#8, 0x1FF#9, 0x1FF#9⟩)] }

/-- The same leaves in another order. -/
def queued3' : State := { queued3 with heap := [(0, some 7#9), (1, some 3#9), (2, some 1#9)] }

/-- One of V20's leaves, live. -/
def queued1 : State :=
  { counted with ins := [(7, true)], heapN := 1#9, heap := [(0, some 7#9)], node := [(7, some ⟨1#64, 7#8, 0x1FF#9, 0x1FF#9⟩)] }

/-- Two codes, one a prefix of the other (V61). -/
def clashing : State := { State.reset with ct := [(0x41, some [false]), (0x42, some [false, true])] }

theorem inv_counted : Inv counted := inv_of_checks (by decide +kernel) (by decide +kernel) (by decide +kernel) (by decide +kernel)
theorem inv_queued : Inv queued := inv_of_checks (by decide +kernel) (by decide +kernel) (by decide +kernel) (by decide +kernel)
theorem inv_queued1 : Inv queued1 := inv_of_checks (by decide +kernel) (by decide +kernel) (by decide +kernel) (by decide +kernel)
theorem inv_queued3 : Inv queued3 := inv_of_checks (by decide +kernel) (by decide +kernel) (by decide +kernel) (by decide +kernel)
theorem inv_queued3' : Inv queued3' := inv_of_checks (by decide +kernel) (by decide +kernel) (by decide +kernel) (by decide +kernel)
theorem inv_treed : Inv treed := inv_of_checks (by decide +kernel) (by decide +kernel) (by decide +kernel) (by decide +kernel)
theorem inv_leaf_root : Inv { treed with root := 0x41#9 } :=
  inv_of_checks (by decide +kernel) (by decide +kernel) (by decide +kernel) (by decide +kernel)
theorem inv_tabled : Inv (tabled aaab) := inv_of_checks (by decide +kernel) (by decide +kernel) (by decide +kernel) (by decide +kernel)
theorem inv_clashing : Inv clashing := inv_of_checks (by decide +kernel) (by decide +kernel) (by decide +kernel) (by decide +kernel)
theorem inv_tried : Inv (tried [0xE0#8, 0xAA#8]) :=
  inv_of_checks (by decide +kernel) (by decide +kernel) (by decide +kernel) (by decide +kernel)
theorem witness_EncodeDecodeRoundTrip : (Instr.pqIns 511).wellFormed = true ∧ Instr.sdRun.wellFormed = true := by decide

theorem witness_DecodedWordReencodes : decode 0x0001FF21#32 = .ok (.pqIns 511) ∧ decode 0x00000081#32 = .ok .sdRun := ⟨rfl, rfl⟩

/-- One word and state for each step of R94: RST and another word in the fault state, an unknown opcode, reserved bits of either format, and a word that runs. -/
theorem witness_CmdWriteDecoding :
    let opcodes : List (BitVec 8) :=
      [0x00, 0x01, 0x02, 0x10, 0x20, 0x21, 0x22, 0x30, 0x31, 0x40, 0x50, 0x51, 0x52, 0x53, 0x54, 0x55, 0x56, 0x60, 0x61, 0x70, 0x80, 0x81]
    ({ State.reset with err := some .ioError }).err ≠ none ∧ State.reset.err = none ∧ (0x00000003#32).extractLsb' 0 8 ∉ opcodes ∧
    (0x00020021#32).extractLsb' 0 8 = 0x21#8 ∧ (0x00020021#32).extractLsb' 17 15 ≠ 0 ∧
    (0x00000110#32).extractLsb' 0 8 ∈ opcodes ∧ (0x00000110#32).extractLsb' 0 8 ≠ 0x21#8 ∧ (0x00000110#32).extractLsb' 8 24 ≠ 0 ∧
    (0x0001FF21#32).extractLsb' 0 8 ∈ opcodes ∧ (0x0001FF21#32).extractLsb' 17 15 = 0 ∧
    (0x00000081#32).extractLsb' 0 8 ∈ opcodes ∧ (0x00000081#32).extractLsb' 0 8 ≠ 0x21#8 ∧ (0x00000081#32).extractLsb' 8 24 = 0 := by
  decide

/-- A command; a drain in the fault state; and no action. -/
theorem witness_StepRunsDecodedCommand :
    let s : State := { queued with host := [.cmd (encode .pqExt), .drain] }
    let u : State := { treed with err := some .ioError, host := [.drain, .hardReset] }
    Instr.pqExt.wellFormed = true ∧ s.err = none ∧ s.host = .cmd (encode .pqExt) :: [.drain] ∧ u.host = .drain :: [.hardReset] ∧
    queued.host = [] := by decide

theorem witness_FaultStateQuiescent :
    let s : State := { treed with err := some .corruptStream }
    s.err ≠ none ∧ (0x00000010#32) ≠ 0x00000001#32 ∧ resets (.limit none) = false ∧
    (after (perform (.limit none) s)).isSome = true ∧ aaab.length < 2 ^ 64 := by decide +kernel

theorem witness_RegisterFile : (tabled aaab).snk.length < 2 ^ 64 ∧ 15 < 16 ∧ (1 : Nat) ≠ 0 ∧ (1 : Nat) ≠ 4 ∧ (16 : Nat) ≠ 4 := by decide

theorem witness_StatusBits : 5 < 6 := by decide

/-- The last byte; a failing byte at RP, and just after it. -/
theorem witness_SrcReadTakesNextByte :
    let s : State := { sourced aaab with rp := 3#64, srcFail := some 3#64 }
    let u : State := { s with srcFail := some 4#64 }
    s.rp.toNat < s.src.length ∧ (∃ f, s.srcFail = some f ∧ f.toNat ≤ s.rp.toNat) ∧ ∀ f, u.srcFail = some f → u.rp.toNat < f.toNat :=
  ⟨by decide, ⟨3#64, by decide⟩, fun f hf => by cases hf; decide⟩

/-- A sink at its limit, and one byte below it; without a limit, a sink of LEN_MAX bytes, and one byte below. -/
theorem witness_SnkWriteAppends :
    let s : State := { State.reset with snk := aaab, snkLimit := some 4#64 }
    let u : State := { s with snkLimit := some 5#64 }
    let long (n : Nat) : State := { State.reset with snk := List.replicate n 0#8 }
    (s.snkLimit = some 4#64 ∧ (4#64).toNat ≤ s.snk.length) ∧ (u.snkLimit = some 5#64 ∧ u.snk.length < (5#64).toNat) ∧
    (∀ n, (long n).snkLimit = none) ∧ (long (2 ^ 64 - 2)).snk.length < 2 ^ 64 - 1 ∧ 2 ^ 64 - 1 ≤ (long (2 ^ 64 - 1)).snk.length := by
  refine ⟨by decide, by decide, fun _ => rfl, ?_⟩
  simp only [List.length_replicate]
  constructor <;> omega

theorem witness_HostActionEffects : aaab.length < 2 ^ 64 := by decide

/-- A source with no failing byte, one whose failing index is its length, and the empty one. -/
theorem witness_FcScanCounts :
    let s : State := { sourced aaab with srcFail := some 4#64 }
    (StreamsOk (sourced aaab) ∧ SourceGives (srcLeft (sourced aaab)) (sourced aaab)) ∧ (StreamsOk s ∧ SourceGives (srcLeft s) s) ∧
    (StreamsOk (sourced []) ∧ SourceGives (srcLeft (sourced [])) (sourced [])) :=
  ⟨⟨streams (by decide), gives (by decide) rfl⟩, ⟨streams (by decide), ⟨by decide, fun f hf => by cases hf; decide⟩⟩,
    ⟨streams (by decide), gives (by decide) rfl⟩⟩

/-- A failing byte ahead, the last one, and one behind RP. -/
theorem witness_FcScanStopsAtFailingByte :
    let s : State := { sourced aaab with srcFail := some 3#64 }
    let u : State := { sourced aaab with rp := 2#64, srcFail := some 1#64 }
    (StreamsOk s ∧ s.srcFail = some 3#64 ∧ max s.rp.toNat (3#64).toNat < s.src.length) ∧
    (StreamsOk u ∧ u.srcFail = some 1#64 ∧ max u.rp.toNat (1#64).toNat < u.src.length) :=
  ⟨⟨streams (by decide), rfl, by decide⟩, ⟨streams (by decide), rfl, by decide⟩⟩

theorem witness_HeapOrderStrictTotal : Inv queued ∧ 7#9 ∈ liveNodes queued ∧ 3#9 ∈ liveNodes queued ∧ 7#9 ≠ 3#9 :=
  ⟨inv_queued, by decide +kernel⟩

/-- No leaf, a leaf already entered, and the first and last leaf that are not. -/
theorem witness_PqInsEntersLeaf :
    Inv queued ∧ 255 < 256 ∧ insOf queued 3 = true ∧ insOf queued 0 = false ∧ 255 ≤ 255 ∧ insOf queued 255 = false :=
  ⟨inv_queued, by decide +kernel⟩

theorem witness_PqExtRemovesLeast : Inv counted ∧ counted.heapN = 0#9 ∧ Inv queued1 ∧ queued1.heapN ≠ 0#9 ∧ Inv queued3 ∧ queued3.heapN ≠ 0#9 :=
  ⟨inv_counted, rfl, inv_queued1, by decide, inv_queued3, by decide⟩

theorem witness_PqExtSeesLiveSetOnly :
    Inv queued3 ∧ Inv queued3' ∧ (liveNodes queued3).Perm (liveNodes queued3') ∧
    ∀ i ∈ liveNodes queued3, nodeOf queued3 i.toNat = nodeOf queued3' i.toNat :=
  ⟨inv_queued3, inv_queued3', by decide +kernel, fun _ _ => rfl⟩

/-- No live node, one, two and three. -/
theorem witness_TbMergeJoinsTwoLeast :
    Inv counted ∧ counted.heapN.toNat < 2 ∧ Inv queued1 ∧ queued1.heapN.toNat < 2 ∧ Inv queued ∧ 2 ≤ queued.heapN.toNat ∧
    Inv queued3 ∧ 2 ≤ queued3.heapN.toNat :=
  ⟨inv_counted, by decide, inv_queued1, by decide, inv_queued, by decide, inv_queued3, by decide⟩

/-- No used byte value, one, and six. -/
theorem witness_TbBuildBuildsTree :
    let one : State := { counted with freq := [(0x41, 5#64)] }
    (Inv (tabled aaab) ∧ usedSymbols (tabled aaab) = 0) ∧ (Inv one ∧ usedSymbols one ≠ 0 ∧ usedSymbols one = 1) ∧
    (Inv counted ∧ usedSymbols counted ≠ 0 ∧ 2 ≤ usedSymbols counted) ∧ freqOf counted 9 ≠ 0#64 ∧
    usedBytes counted = [1, 2, 3, 5, 7, 9] :=
  ⟨⟨inv_tabled, by decide +kernel⟩,
    ⟨inv_of_checks (by decide +kernel) (by decide +kernel) (by decide +kernel) (by decide +kernel), by decide +kernel, by decide +kernel⟩,
    ⟨inv_counted, by decide +kernel, by decide +kernel⟩, by decide +kernel, by decide +kernel⟩

theorem witness_TreeAndTableAreFunctionsOfFreq :
    Inv counted ∧ Inv queued ∧ (∀ b < 256, freqOf counted b = freqOf queued b) ∧ usedSymbols counted ≠ 0 :=
  ⟨inv_counted, inv_queued, fun _ _ => rfl, by decide +kernel⟩

/-- No tree, a single leaf, and an inner root with the paths of its two leaves. -/
theorem witness_CgGenRecordsPaths :
    (Inv counted ∧ counted.root = 0x1FF#9) ∧ (Inv { treed with root := 0x41#9 } ∧ ({ treed with root := 0x41#9 }).root.toNat < 256) ∧
    (Inv treed ∧ 256 ≤ treed.root.toNat ∧ treed.root ≠ 0x1FF#9) ∧ followTree treed treed.root [true] = some 0x41#9 ∧
    followTree treed treed.root [false] = some 0x42#9 :=
  ⟨⟨inv_counted, rfl⟩, ⟨inv_leaf_root, by decide⟩, ⟨inv_treed, by decide, by decide⟩, by decide +kernel⟩

theorem witness_CgGenCodesPrefixFree : Inv treed ∧ treed.err = none ∧ exec .cgGen treed = .next (run .cgGen treed) ∧ (run .cgGen treed).err = none :=
  ⟨inv_treed, rfl, exec_run (by decide +kernel), by decide +kernel⟩

theorem witness_TreeCodesCoverSymbols : Inv counted ∧ usedSymbols counted ≠ 0 := ⟨inv_counted, by decide +kernel⟩

/-- Both widths; the largest size the 4-byte header takes; a sink that takes exactly the table. -/
theorem witness_CtWrAppendsTable :
    let s : State := { tabled [] with origSize := 0xFFFFFFFF#64, snkLimit := some 10#64 }
    (Instr.ctWr4, 4) ∈ [(Instr.ctWr4, 4), (Instr.ctWr8, 8)] ∧ (Instr.ctWr8, 8) ∈ [(Instr.ctWr4, 4), (Instr.ctWr8, 8)] ∧
    s.origSize.toNat < 2 ^ 32 ∧ (tableBytes 4 s).length = 10 ∧ SinkTakes 10 s ∧ SinkTakes 14 (tabled []) :=
  ⟨by decide, by decide, by decide, by decide +kernel, takes_up_to rfl (by decide), takes rfl (by decide)⟩

theorem witness_CtWrxAppendsText :
    let s : State := { tabled [] with origSize := 0xFFFFFFFF#64, snkLimit := some 30#64 }
    (Instr.ctWrx4, 4) ∈ [(Instr.ctWrx4, 4), (Instr.ctWrx8, 8)] ∧ (Instr.ctWrx8, 8) ∈ [(Instr.ctWrx4, 4), (Instr.ctWrx8, 8)] ∧
    s.origSize.toNat < 2 ^ 32 ∧ (tableText 4 s).length = 30 ∧ SinkTakes 30 s ∧ SinkTakes 42 (tabled []) :=
  ⟨by decide, by decide, by decide, by decide +kernel, takes_up_to rfl (by decide), takes rfl (by decide)⟩

theorem witness_FourByteHeaderRefusesLargeSize : 2 ^ 32 ≤ ({ tabled [] with origSize := 0x100000000#64 }).origSize.toNat := by decide

/-- A sink one byte too small, and one at its limit. -/
theorem witness_WritersStopAtSinkLimit :
    let s : State := { tabled [] with snkLimit := some 9#64 }
    let u : State := { tabled [] with snk := aaab, snkLimit := some 4#64 }
    s.origSize.toNat < 2 ^ 32 ∧ (9#64).toNat < s.snk.length + (tableBytes 4 s).length ∧ (9#64).toNat < s.snk.length + (tableBytes 8 s).length ∧
    (9#64).toNat < s.snk.length + (tableText 4 s).length ∧ (9#64).toNat < s.snk.length + (tableText 8 s).length ∧
    (4#64).toNat < u.snk.length + (le 8 u.origSize).length := by decide +kernel

theorem witness_TableFileSize : CodesOk (tabled []) ∧ 8 ≤ 8 := ⟨by unfold CodesOk; decide +kernel, by decide⟩

/-- V41, second row (any order, pad bits set), and a table without records, each in both widths. -/
theorem witness_CtRdReadsRecords :
    let recs : List RawRecord := [⟨0x42#8, 1#8, [0x00#8]⟩, ⟨0x41#8, 1#8, [0xFF#8]⟩]
    let header4 : List Byte := [0x04#8, 0x00#8, 0x00#8, 0x00#8]
    let header8 : List Byte := header4 ++ [0x00#8, 0x00#8, 0x00#8, 0x00#8]
    let s4 : State := sourced (header4 ++ recs.flatMap RawRecord.bytes)
    let s8 : State := sourced header8
    (StreamsOk s4 ∧ SourceGives (srcLeft s4) s4 ∧ header4.length = 4 ∧ (∀ r ∈ recs, r.ok = true) ∧ (recs.map RawRecord.sym).Nodup ∧
      sourceRest s4 = header4 ++ recs.flatMap RawRecord.bytes) ∧
    (StreamsOk s8 ∧ SourceGives (srcLeft s8) s8 ∧ header8.length = 8 ∧ sourceRest s8 = header8 ++ ([] : List RawRecord).flatMap RawRecord.bytes) :=
  ⟨⟨streams (by decide), gives (by decide) rfl, by decide, by decide, by decide, by decide⟩,
    ⟨streams (by decide), gives (by decide) rfl, by decide, by decide⟩⟩

/-- A short header; a failing byte in the header; after a good record each record that is refused (a symbol alone, L = 0, an overrun, a symbol twice), with a failing byte after the ones that are read, and each place for a failing byte. -/
theorem witness_CtRdRefusesBadRecords :
    let header : List Byte := [0x04#8, 0x00#8, 0x00#8, 0x00#8]
    let recs : List RawRecord := [⟨0x41#8, 1#8, [0x80#8]⟩]
    let text : List Byte := header ++ recs.flatMap RawRecord.bytes
    let cut (n : Nat) : State := { sourced header with srcFail := some (BitVec.ofNat 64 n) }
    let s (tail : List Byte) (f : Nat) : State := { sourced (text ++ tail) with srcFail := some (BitVec.ofNat 64 f) }
    (StreamsOk (sourced (header.take 3)) ∧ SourceGives (srcLeft (sourced (header.take 3))) (sourced (header.take 3)) ∧ srcLeft (sourced (header.take 3)) < 4) ∧
    (StreamsOk (cut 0) ∧ SourceFailsAfter 0 (cut 0) ∧ SourceFailsAfter 3 (cut 3)) ∧
    header.length = 4 ∧ (∀ r ∈ recs, r.ok = true) ∧ (recs.map RawRecord.sym).Nodup ∧
    (∀ p ∈ [([0x42#8], 1), ([0x42#8, 0x00#8, 0x00#8], 2), ([0x42#8, 0x09#8, 0xFF#8], 2), ([0x41#8, 0x01#8, 0x80#8, 0x00#8], 3)],
      StreamsOk (s p.1 (7 + p.2)) ∧ sourceRest (s p.1 (7 + p.2)) = text ++ p.1 ∧ badRecord recs p.1 = some p.2 ∧
      SourceGives (text.length + p.2) (s p.1 (7 + p.2))) ∧
    ∀ n < 4, StreamsOk (s [0x42#8, 0x09#8, 0xFF#8, 0x80#8] (7 + n)) ∧
      sourceRest (s [0x42#8, 0x09#8, 0xFF#8, 0x80#8] (7 + n)) = text ++ ([0x42#8, 0x09#8, 0xFF#8, 0x80#8].take n ++ [0x42#8, 0x09#8, 0xFF#8, 0x80#8].drop n) ∧
      startsRecord ([0x42#8, 0x09#8, 0xFF#8, 0x80#8].take n) ([0x42#8, 0x09#8, 0xFF#8, 0x80#8].drop n).length = true ∧
      SourceFailsAfter (text ++ [0x42#8, 0x09#8, 0xFF#8, 0x80#8].take n).length (s [0x42#8, 0x09#8, 0xFF#8, 0x80#8] (7 + n)) := by
  simp only [streamsOk_iff, sourceGives_iff, sourceFailsAfter_iff]
  decide +kernel

/-- The text `04 00 00 00`. -/
def headerLine : List Byte :=
  [0x30#8, 0x34#8, 0x20#8, 0x30#8, 0x30#8, 0x20#8, 0x30#8, 0x30#8, 0x20#8, 0x30#8, 0x30#8, 0x0A#8]

/-- The text `3a 01 ff`, in lower-case digits. -/
def recordLine : List Byte := [0x33#8, 0x61#8, 0x20#8, 0x30#8, 0x31#8, 0x20#8, 0x66#8, 0x66#8, 0x0A#8]

theorem spells_headerLine : SpellsLine [0x04#8, 0x00#8, 0x00#8, 0x00#8] headerLine :=
  ⟨_, _, ⟨0x30#8, 0x34#8, 0x0#8, 0x4#8, rfl, by decide, by decide, by decide⟩,
    ⟨_, _, ⟨0x30#8, 0x30#8, 0x0#8, 0x0#8, rfl, by decide, by decide, by decide⟩,
      ⟨_, _, ⟨0x30#8, 0x30#8, 0x0#8, 0x0#8, rfl, by decide, by decide, by decide⟩,
        ⟨_, ⟨0x30#8, 0x30#8, 0x0#8, 0x0#8, rfl, by decide, by decide, by decide⟩, rfl⟩, rfl⟩, rfl⟩, rfl⟩

theorem spells_recordLine : SpellsLine [0x3A#8, 0x01#8, 0xFF#8] recordLine :=
  ⟨_, _, ⟨0x33#8, 0x61#8, 0x3#8, 0xA#8, rfl, by decide, by decide, by decide⟩,
    ⟨_, _, ⟨0x30#8, 0x31#8, 0x0#8, 0x1#8, rfl, by decide, by decide, by decide⟩,
      ⟨_, ⟨0x66#8, 0x66#8, 0xF#8, 0xF#8, rfl, by decide, by decide, by decide⟩, rfl⟩, rfl⟩, rfl⟩

/-- V42: lower-case digits. -/
theorem witness_CtRdxReadsLines :
    let recs : List RawRecord := [⟨0x3A#8, 0x01#8, [0xFF#8]⟩]
    let s : State := sourced (headerLine ++ recordLine)
    StreamsOk s ∧ SourceGives (srcLeft s) s ∧ (∀ r ∈ recs, r.ok = true) ∧ (recs.map RawRecord.sym).Nodup ∧
    SpellsLines ([0x04#8, 0x00#8, 0x00#8, 0x00#8] :: recs.map RawRecord.bytes) (sourceRest s) :=
  ⟨streams (by decide), gives (by decide) rfl, by decide, by decide,
    ⟨headerLine, recordLine, spells_headerLine, ⟨recordLine, [], spells_recordLine, rfl, rfl⟩, rfl⟩⟩

/-- V43, R107: what stands where a token must: nothing, a line feed, a CR or a tab after a token, a second space, one digit, one digit at the end, a token without its line feed. -/
def badTails : List (List Byte × Nat) :=
  [([], 0), ([0x0A#8], 1), ([0x30#8, 0x34#8, 0x0D#8, 0x0A#8], 3), ([0x30#8, 0x34#8, 0x09#8], 3), ([0x20#8, 0x30#8], 1), ([0x34#8, 0x20#8, 0x30#8], 2),
   ([0x34#8], 1), ([0x30#8, 0x34#8], 2)]

theorem spells_start : SpellsStart [0x04#8] (headerLine.take 3) :=
  ⟨_, _, ⟨0x30#8, 0x34#8, 0x0#8, 0x4#8, rfl, by decide, by decide, by decide⟩, rfl, rfl⟩

theorem starts_line : StartsLine [] ∧ StartsLine (headerLine.take 1) ∧ StartsLine (headerLine.take 5) :=
  ⟨⟨[], [], [], rfl, by decide, by decide, rfl⟩, ⟨[], [], [0x30#8], rfl, by decide, by decide, rfl⟩,
    ⟨[0x04#8], headerLine.take 3, [0x30#8, 0x30#8], spells_start, by decide, by decide, rfl⟩⟩

/-- In the first line: each of those tails at once and after a token, a header line of three tokens, and a failing byte before each part of a token. -/
theorem witness_CtRdxRefusesBadLines :
    (∀ p ∈ badTails, ∀ start ∈ [[], headerLine.take 3], StreamsOk (sourced (start ++ p.1)) ∧ sourceRest (sourced (start ++ p.1)) = start ++ p.1 ∧
      badToken p.1 = some p.2 ∧ SourceGives (start.length + p.2) (sourced (start ++ p.1))) ∧
    (StreamsOk (sourced recordLine) ∧ sourceRest (sourced recordLine) = recordLine ++ [] ∧ SpellsLine [0x3A#8, 0x01#8, 0xFF#8] recordLine ∧
      SourceGives recordLine.length (sourced recordLine)) ∧
    (∀ n ∈ [0, 1, 5], StartsLine (headerLine.take n) ∧
      SourceFailsAfter (headerLine.take n).length { sourced headerLine with srcFail := some (BitVec.ofNat 64 n) }) := by
  refine ⟨?_, ⟨streams (by decide), by decide, spells_recordLine, gives (by decide) rfl⟩, fun n hn => ⟨?_, ?_⟩⟩
  · simp only [streamsOk_iff, sourceGives_iff]; decide +kernel
  · simp only [List.mem_cons, List.not_mem_nil, or_false] at hn
    rcases hn with rfl | rfl | rfl
    exacts [starts_line.1, starts_line.2.1, starts_line.2.2]
  · simp only [sourceFailsAfter_iff]; revert n; decide +kernel

/-- After a header line and a record line: the same tails, a line that is no record, the same record again, and a failing byte. -/
theorem witness_CtRdxRefusesBadLines_later :
    let header : List Byte := [0x04#8, 0x00#8, 0x00#8, 0x00#8]
    let recs : List RawRecord := [⟨0x3A#8, 0x01#8, [0xFF#8]⟩]
    let text : List Byte := headerLine ++ recordLine
    (header.length = 4 ∧ (∀ r ∈ recs, r.ok = true) ∧ (recs.map RawRecord.sym).Nodup ∧ SpellsLines (header :: recs.map RawRecord.bytes) text) ∧
    (∀ p ∈ badTails, ∀ start ∈ [[], headerLine.take 3], StreamsOk (sourced (text ++ (start ++ p.1))) ∧
      sourceRest (sourced (text ++ (start ++ p.1))) = text ++ (start ++ p.1) ∧
      SourceGives (text.length + (start.length + p.2)) (sourced (text ++ (start ++ p.1)))) ∧
    (∀ r : RawRecord, r.ok = true → header = r.bytes → r.sym ∈ recs.map RawRecord.sym) ∧
    (∀ r : RawRecord, r.ok = true → [0x3A#8, 0x01#8, 0xFF#8] = r.bytes → r.sym ∈ recs.map RawRecord.sym) ∧
    (∀ line ∈ [headerLine, recordLine], sourceRest (sourced (text ++ (line ++ []))) = text ++ (line ++ []) ∧
      SourceGives (text ++ line).length (sourced (text ++ (line ++ [])))) ∧
    ∀ n ∈ [0, 1, 5], SourceFailsAfter (text ++ headerLine.take n).length { sourced (text ++ headerLine) with srcFail := some (BitVec.ofNat 64 (21 + n)) } := by
  refine ⟨⟨by decide, by decide, by decide, ⟨headerLine, recordLine, spells_headerLine, ⟨recordLine, [], spells_recordLine, rfl, rfl⟩, rfl⟩⟩, ?_, ?_, ?_, ?_, ?_⟩
  · simp only [streamsOk_iff, sourceGives_iff]; decide +kernel
  · rintro ⟨sym, len, bits⟩ hr he
    simp only [RawRecord.bytes, List.cons.injEq] at he
    obtain ⟨rfl, rfl, rfl⟩ := he
    exact absurd hr (by decide)
  · rintro ⟨sym, len, bits⟩ - he
    simp only [RawRecord.bytes, List.cons.injEq] at he
    simp [← he.1]
  · simp only [sourceGives_iff]; decide +kernel
  · simp only [sourceFailsAfter_iff]; decide +kernel

/-- Each pair of writer and reader over V1's table. -/
theorem witness_TableRoundTrip :
    let s : State := tabled aaab
    let u (wr : Instr) : State := sourced (run wr s).snk
    Inv s ∧ s.err = none ∧ ∀ wr ∈ [Instr.ctWr4, Instr.ctWr8, Instr.ctWrx4, Instr.ctWrx8],
      Inv (u wr) ∧ exec wr s = .next (run wr s) ∧ (run wr s).err = none ∧ (run wr s).snk = s.snk ++ sourceRest (u wr) ∧
      SourceGives (srcLeft (u wr)) (u wr) := by
  refine ⟨inv_tabled, rfl, fun wr hwr => ?_⟩
  simp only [List.mem_cons, List.not_mem_nil, or_false] at hwr
  rcases hwr with rfl | rfl | rfl | rfl
  all_goals exact ⟨inv_of_checks (by decide +kernel) (by decide +kernel) (by decide +kernel) (by decide +kernel), exec_run (by decide +kernel),
    by decide +kernel, by decide +kernel, gives (by decide +kernel) rfl⟩

theorem witness_CfWrhAppendsHeader : SinkTakes 8 { State.reset with snkLimit := some 8#64 } := takes_up_to rfl (by decide)

/-- V1 in a sink that takes exactly its byte, and the empty source. -/
theorem witness_BpEncPacksCodes :
    let s : State := { tabled aaab with snkLimit := some 1#64 }
    let u : State := tabled []
    (StreamsOk s ∧ SourceGives (srcLeft s) s ∧ Encodable s (sourceRest s) ∧ SinkTakes (packbits (codeBits s (sourceRest s))).length s) ∧
    (StreamsOk u ∧ SourceGives (srcLeft u) u ∧ Encodable u (sourceRest u) ∧ SinkTakes 0 u) :=
  ⟨⟨streams (by decide), gives (by decide) rfl, by unfold Machine.Encodable; decide +kernel, takes_up_to rfl (by decide +kernel)⟩,
    ⟨streams (by decide), gives (by decide) rfl, by unfold Machine.Encodable; decide +kernel, takes rfl (by decide)⟩⟩

/-- V51: a byte without a code after three that have one; a failing byte after them; a sink full at the eighth code bit; and one full at the padded last byte. -/
theorem witness_BpEncStopsAtUnknownSymbol :
    let aba : List Byte := [0x41#8, 0x42#8, 0x41#8]
    let s : State := tabled (aba ++ [0x43#8])
    let e : State := { s with srcFail := some 3#64 }
    let full (bytes : List Byte) : State := { tabled bytes with snkLimit := some 0#64 }
    (StreamsOk s ∧ sourceRest s = aba ++ [0x43#8] ∧ Encodable s aba ∧ ctOf s (0x43#8).toNat = none ∧ SourceGives (aba.length + 1) s ∧
      SinkTakes ((packbits (codeBits s aba)).take ((codeBits s aba).length / 8)).length s) ∧
    (StreamsOk e ∧ SourceFailsAfter aba.length e) ∧
    (let u : State := full (aaab ++ aba ++ aaab)
     StreamsOk u ∧ sourceRest u = (aaab ++ aba) ++ aaab ∧ Encodable u (aaab ++ aba) ∧ ctOf u (0x41#8).toNat = some [true] ∧
      SourceGives ((aaab ++ aba).length + 1) u ∧ (codeBits u (aaab ++ aba)).length / 8 ≤ 0 ∧ 0 < (codeBits u (aaab ++ aba) ++ [true]).length / 8) ∧
    (let u : State := full aaab
     StreamsOk u ∧ sourceRest u = aaab ++ [] ∧ Encodable u aaab ∧ SourceGives aaab.length u ∧ (codeBits u aaab).length % 8 ≠ 0 ∧
      (0#64).toNat - u.snk.length = (codeBits u aaab).length / 8) := by
  simp only [streamsOk_iff, sourceGives_iff, sourceFailsAfter_iff, Machine.Encodable]
  exact ⟨⟨by decide +kernel, by decide +kernel, by decide +kernel, by decide +kernel, by decide +kernel, takes rfl (by decide +kernel)⟩, by decide +kernel, by decide +kernel,
    by decide +kernel⟩

/-- A prefix-free table, one with a single code, and one that is not prefix-free. -/
theorem witness_DtBuildIffPrefixFree :
    let one : State := { State.reset with ct := [(0x41, some [false])] }
    (Inv (tabled aaab) ∧ PrefixFree (tabled aaab) ∧ ctOf (tabled aaab) 0x41 = some [true] ∧ ctCount (tabled aaab) ≠ 1) ∧
    (Inv one ∧ PrefixFree one ∧ ctCount one = 1 ∧ (ctOf one 0x41).isSome = true) ∧ (Inv clashing ∧ ¬ PrefixFree clashing) :=
  ⟨⟨inv_tabled, prefixFree_of_list (by decide +kernel), by decide +kernel, by decide +kernel⟩,
    ⟨inv_of_checks (by decide +kernel) (by decide +kernel) (by decide +kernel) (by decide +kernel), prefixFree_of_list (by decide +kernel),
      by decide +kernel, by decide +kernel⟩,
    ⟨inv_clashing, fun h => h 0x41 (by decide) 0x42 (by decide) [false] [false, true] (by decide) (by decide +kernel) (by decide +kernel)
      ⟨[true], rfl⟩⟩⟩

theorem witness_DtBuildTrieShape :
    let t : State := run .dtBuild (tabled aaab)
    Inv (tabled aaab) ∧ (tabled aaab).err = none ∧ exec .dtBuild (tabled aaab) = .next t ∧ t.err = none ∧
    ∃ c, followTrie t 0#16 [true] = some c ∧ c.leaf = true :=
  ⟨inv_tabled, rfl, exec_run (by decide +kernel), by decide +kernel, ⟨⟨0xFFFF#16, 0xFFFF#16, true, 0x41#8⟩, by decide +kernel⟩⟩

/-- Exactly eight bytes, seven, and a failing byte at either end of the eight. -/
theorem witness_CfRdhReadsHeader :
    let s : State := sourced (aaab ++ aaab)
    let u : State := sourced (aaab ++ [0x41#8, 0x41#8, 0x41#8])
    StreamsOk s ∧ SourceGives 8 s ∧ StreamsOk u ∧ srcLeft u < 8 ∧ SourceGives (srcLeft u) u ∧
    ({ s with srcFail := some 7#64 }).srcFail = some 7#64 ∧ max s.rp.toNat (7#64).toNat < s.src.length ∧ max s.rp.toNat (7#64).toNat < s.rp.toNat + 8 ∧
    max s.rp.toNat (0#64).toNat < s.src.length :=
  ⟨streams (by decide), gives (by decide) rfl, streams (by decide), by decide, gives (by decide) rfl, rfl, by decide, by decide, by decide⟩

/-- No trie; target zero; a one-pair trie with a sink that takes exactly the output, and one byte less. -/
theorem witness_SdRunWithoutWalking :
    let one (m : Count) : State := { tried [] with decOne := 0x141#9, snkLimit := some m }
    (tabled []).trieN = 0#17 ∧ ({ tried [] with origSize := 0#64 }).trieN ≠ 0#17 ∧ ({ tried [] with origSize := 0#64 }).origSize = 0#64 ∧
    (one 4#64).trieN ≠ 0#17 ∧ (one 4#64).origSize ≠ 0#64 ∧ (one 4#64).decOne = 0x100#9 ||| (0x41#8).setWidth 9 ∧
    SinkTakes (one 4#64).origSize.toNat (one 4#64) ∧ (3#64).toNat < (one 3#64).snk.length + (one 3#64).origSize.toNat :=
  ⟨rfl, by decide, rfl, by decide, by decide, by decide, takes_up_to rfl (by decide), by decide⟩

/-- R270's example: V1's bits with another byte after them. -/
theorem witness_SdRunDecodesCodes :
    let s : State := { tried [0xE0#8, 0xAA#8] with snkLimit := some 4#64 }
    let coder : Byte → Code := codeOf s
    Inv s ∧ s.trieN ≠ 0#17 ∧ s.decOne.getLsbD 8 = false ∧ aaab ≠ [] ∧ aaab.length = s.origSize.toNat ∧ TrieDecodes s coder aaab ∧
    sourceRest s = packbits (aaab.flatMap coder) ++ [0xAA#8] ∧ SourceGives (packbits (aaab.flatMap coder)).length s ∧ SinkTakes aaab.length s :=
  ⟨inv_of_checks (by decide +kernel) (by decide +kernel) (by decide +kernel) (by decide +kernel), by decide, by decide, by decide, by decide,
    fun b hb => by
      simp only [aaab, List.mem_cons, List.not_mem_nil, or_false] at hb
      rcases hb with rfl | rfl | rfl | rfl
      · exact ⟨by decide +kernel, ⟨_, rfl, rfl, rfl⟩⟩
      · exact ⟨by decide +kernel, ⟨_, rfl, rfl, rfl⟩⟩
      · exact ⟨by decide +kernel, ⟨_, rfl, rfl, rfl⟩⟩
      · exact ⟨by decide +kernel, ⟨_, rfl, rfl, rfl⟩⟩,
    by decide +kernel, gives (by decide +kernel) rfl, takes_up_to rfl (by decide +kernel)⟩

/-- A run that ends without fault, and one the source is too short for. -/
theorem witness_SdRunAppendsExactlyTarget :
    let s : State := tried [0xE0#8, 0xAA#8]
    let u : State := { s with origSize := 100#64 }
    (Inv s ∧ s.err = none ∧ s.trieN ≠ 0#17 ∧ exec .sdRun s = .next (run .sdRun s) ∧ (run .sdRun s).err = none) ∧
    (Inv u ∧ u.err = none ∧ u.trieN ≠ 0#17 ∧ exec .sdRun u = .next (run .sdRun u) ∧ (run .sdRun u).err ≠ none) :=
  ⟨⟨inv_tried, rfl, by decide, exec_run (by decide +kernel), by decide +kernel⟩,
    ⟨inv_of_checks (by decide +kernel) (by decide +kernel) (by decide +kernel) (by decide +kernel), rfl, by decide, exec_run (by decide +kernel),
      by decide +kernel⟩⟩

/-- The trie of the codes 0 and 11 over a source: node 2, after the bit 1, has no left child. -/
def skewed (bytes : List Byte) : State :=
  { sourced bytes with
    origSize := 100#64, trieN := 4#17
    trie := [(0, some ⟨1#16, 2#16, false, 0#8⟩), (1, some ⟨0xFFFF#16, 0xFFFF#16, true, 0x41#8⟩), (2, some ⟨0xFFFF#16, 3#16, false, 0#8⟩),
             (3, some ⟨0xFFFF#16, 0xFFFF#16, true, 0x42#8⟩)] }

/-- Its byte code. -/
def skewedCode (b : Byte) : Code := if b = 0x41#8 then [false] else [true, true]

theorem inv_skewed (bytes : List Byte) (h : bytes.length ≤ 2) (f l : Option Count) : Inv { skewed bytes with srcFail := f, snkLimit := l } := by
  have h0 : Inv (skewed []) := inv_of_checks (by decide +kernel) (by decide +kernel) (by decide +kernel) (by decide +kernel)
  exact ⟨h0.memories, ⟨Nat.zero_le _, h.trans (by decide)⟩,
    ⟨h0.heap.written, h0.heap.index, h0.heap.heap, h0.heap.leaf, h0.heap.entered, h0.heap.distinct, h0.heap.room⟩,
    ⟨h0.tree.low, h0.tree.high, h0.tree.cells, h0.tree.root⟩, h0.codes, ⟨h0.trie.cap, h0.trie.cells⟩, h0.sink, h0.host⟩

theorem decodes_skewed (out : List Byte) (h : ∀ b ∈ out, b = 0x41#8 ∨ b = 0x42#8) (bytes : List Byte) (f l : Option Count) :
    TrieDecodes { skewed bytes with srcFail := f, snkLimit := l } skewedCode out := fun b hb => by
  rcases h b hb with rfl | rfl
  exacts [⟨by decide, ⟨_, rfl, rfl, rfl⟩⟩, ⟨by decide, ⟨_, rfl, rfl, rfl⟩⟩]

/-- The source ends, or its next byte fails: with nothing read, and after seven symbols and the first bit of a code. -/
theorem witness_SdRunFaults :
    let s (bytes : List Byte) (f : Option Count) : State := { skewed bytes with srcFail := f, snkLimit := none }
    let seven : List Byte := List.replicate 7 0x41#8
    (∀ bytes ∈ [[], [0x01#8], [0x01#8, 0x00#8]], ∀ f, Inv (s bytes f)) ∧ (s [] none).trieN ≠ 0#17 ∧ (s [] none).decOne.getLsbD 8 = false ∧
    seven.length < (s [] none).origSize.toNat ∧ (∀ out ∈ [[], seven], ∀ bytes f, TrieDecodes (s bytes f) skewedCode out) ∧
    (∀ n ≤ 7, ∀ bytes f, SinkTakes n (s bytes f)) ∧ walkTrie (s [] none) 0#16 [] = some 0#16 ∧ walkTrie (s [] none) 0#16 [true] = some 2#16 ∧
    trieOf (s [] none) 2 = some ⟨0xFFFF#16, 3#16, false, 0#8⟩ ∧ [0x01#8].flatMap bitsOf = seven.flatMap skewedCode ++ [true] ∧
    SourceGives 0 (s [] none) ∧ SourceGives 1 (s [0x01#8] none) ∧ SourceFailsAfter 0 (s [0x01#8] (some 0#64)) ∧
    SourceFailsAfter 1 (s [0x01#8, 0x00#8] (some 1#64)) := by
  refine ⟨fun bytes hb f => inv_skewed bytes ?_ f none, by decide, by decide, by decide, fun out ho bytes f => decodes_skewed out ?_ bytes f none,
    fun n hn bytes f => takes rfl (by show 0 + n ≤ _; simp only [Config.lenMax]; omega), by decide +kernel, by decide +kernel, by decide +kernel, by decide +kernel, gives (by decide) rfl, gives (by decide) rfl,
    fails 0#64 rfl (by decide), fails 1#64 rfl (by decide)⟩
  · revert bytes; decide
  · revert out; decide +kernel

/-- A bit without an edge, and a full sink: in the first byte's first code, and after six symbols at the byte's last bit. -/
theorem witness_SdRunFaults_within :
    let s (bytes : List Byte) (l : Option Count) : State := { skewed bytes with srcFail := none, snkLimit := l }
    let six : List Byte := List.replicate 6 0x41#8
    (∀ bytes ∈ [[0x80#8], [0x02#8], [0x00#8], [0x03#8]], ∀ l, Inv (s bytes l) ∧ SourceGives 1 (s bytes l) ∧ sourceRest (s bytes l) = bytes ++ []) ∧
    (∀ out ∈ [[], six], ∀ bytes l, TrieDecodes (s bytes l) skewedCode out) ∧
    [0x80#8].flatMap bitsOf = [].flatMap skewedCode ++ [true] ++ false :: List.replicate 6 false ∧
    [0x02#8].flatMap bitsOf = six.flatMap skewedCode ++ [true] ++ false :: [] ∧ childOf false ⟨0xFFFF#16, 3#16, false, 0#8⟩ = 0xFFFF#16 ∧
    [0x00#8].flatMap bitsOf = [].flatMap skewedCode ++ [false] ++ List.replicate 7 false ∧ walkTrie (s [] none) 0#16 [false] = some 1#16 ∧
    trieOf (s [] none) 1 = some ⟨0xFFFF#16, 0xFFFF#16, true, 0x41#8⟩ ∧
    [0x03#8].flatMap bitsOf = six.flatMap skewedCode ++ [true, true] ++ [] ∧ walkTrie (s [] none) 0#16 [true, true] = some 3#16 ∧
    trieOf (s [] none) 3 = some ⟨0xFFFF#16, 0xFFFF#16, true, 0x42#8⟩ ∧
    SinkTakes 0 (s [0x00#8] (some 0#64)) ∧ (0#64).toNat ≤ (s [0x00#8] (some 0#64)).snk.length + 0 ∧
    SinkTakes 6 (s [0x03#8] (some 6#64)) ∧ (6#64).toNat ≤ (s [0x03#8] (some 6#64)).snk.length + six.length := by
  refine ⟨fun bytes hb l => ?_, fun out ho bytes l => decodes_skewed out ?_ bytes none l, by decide +kernel, by decide +kernel, by decide,
    by decide +kernel, by decide +kernel, by decide +kernel, by decide +kernel, by decide +kernel, by decide +kernel, takes_up_to rfl (by decide), by decide,
    takes_up_to rfl (by decide), by decide⟩
  · have hl : bytes.length = 1 := by revert bytes; decide
    exact ⟨inv_skewed bytes (by omega) none l, gives (by show 0 + 1 ≤ bytes.length; omega) rfl, by simp [sourceRest, skewed, sourced, State.reset]⟩
  · revert out; decide +kernel

theorem witness_CommandsRaiseOnlyTheirKinds :
    let s : State := tabled [0x43#8]
    s.err = none ∧ exec .bpEnc s = .next (run .bpEnc s) ∧ (run .bpEnc s).err = some .unknownSymbol :=
  ⟨rfl, exec_run (by decide +kernel), by decide +kernel⟩

/-- A word that is no command, and a command whose precondition fails. -/
theorem witness_BadCommandChangesNothingElse :
    let t : State := { queued with err := some .badCommand }
    queued.err = none ∧ writeCmd 0x00000003#32 queued = .next t ∧ writeCmd 0x00000321#32 queued = .next t ∧ t.err = some .badCommand :=
  ⟨rfl, rfl, rfl, rfl⟩

theorem witness_CommandFootprint : exec .tbMerge queued = .next (run .tbMerge queued) := exec_run (by decide +kernel)

theorem witness_CellFootprint :
    memoriesWf queued = true ∧ exec (.pqIns 255) queued = .next (run (.pqIns 255) queued) ∧ queued.heapN.toNat < 3 ∧
    exec .pqExt queued = .next (run .pqExt queued) ∧ exec .tbMerge queued = .next (run .tbMerge queued) ∧
    exec .tbBuild queued = .next (run .tbBuild queued) ∧ freqOf queued 0 = 0#64 ∧ (run .tbBuild queued).nodeNext.toNat ≤ 510 ∧
    usedSymbols queued ≤ 6 ∧ exec .dtBuild (tabled []) = .next (run .dtBuild (tabled [])) ∧ (run .dtBuild (tabled [])).trieN.toNat ≤ 3 :=
  ⟨by decide +kernel, exec_run (by decide +kernel), by decide, exec_run (by decide +kernel), exec_run (by decide +kernel),
    exec_run (by decide +kernel), by decide +kernel, by decide +kernel, by decide +kernel, exec_run (by decide +kernel), by decide +kernel⟩

theorem witness_SinkOnlyAppended :
    let s : State := { tabled [] with snkLimit := some 3#64 }
    exec .cfWrh s = .next (run .cfWrh s) ∧ s.snkLimit = some 3#64 := ⟨exec_run (by decide +kernel), rfl⟩

theorem witness_SourceReadInOrder :
    let s : State := { sourced aaab with srcFail := some 2#64 }
    StreamsOk s ∧ Instr.fcScan ≠ .rst ∧ Instr.fcScan ≠ .rwd ∧ exec .fcScan s = .next (run .fcScan s) ∧ s.srcFail = some 2#64 :=
  ⟨streams (by decide), by decide, by decide, exec_run (by decide +kernel), rfl⟩

/-- The longest target with a limit on the sink, and the longest an empty sink without one takes. -/
theorem witness_NoCommandStops :
    let s : State := tried [0xE0#8, 0xAA#8]
    Inv treed ∧ Inv queued3 ∧ Inv s ∧ (∀ i, SinkHolds i { s with origSize := BitVec.allOnes 64, snkLimit := some 3#64 }) ∧
    SinkHolds .sdRun { s with origSize := BitVec.allOnes 64 } :=
  ⟨inv_treed, inv_queued3, inv_tried, fun _ => .inl (by simp), .inr (by decide +kernel)⟩

theorem witness_StepKeepsInv :
    let s (a : HostAction) : State := { queued with host := [a, .hardReset] }
    (∀ a ∈ [.attach aaab none, .cmd (encode .tbMerge), .write 0 0x80#64], Inv (s a) ∧ StepHolds (s a)) ∧
    commandOf (.cmd (encode .tbMerge)) = some .tbMerge ∧ commandOf (.write 0 0x80#64) = some .cfRdh := by
  refine ⟨fun a ha => ⟨?_, ?_⟩, by decide, by decide⟩
  · simp only [List.mem_cons, List.not_mem_nil, or_false] at ha
    rcases ha with rfl | rfl | rfl <;> exact inv_of_checks (by decide +kernel) (by decide +kernel) (by decide +kernel) (by decide +kernel)
  · intro _ b hb i hi
    simp only [List.mem_cons, List.not_mem_nil, or_false] at ha
    cases hb
    rcases ha with rfl | rfl | rfl <;> cases hi <;> exact .inr (by decide +kernel)

theorem witness_MemoriesStayCanonical :
    let s : State := { queued with host := [.cmd (encode .pqExt)] }
    memoriesWf s = true ∧ step s = .next (run .pqExt queued) := ⟨by decide +kernel, by rw [← exec_run (i := .pqExt) (s := queued) (by decide +kernel)]; rfl⟩

theorem witness_DecoderInvertsPacker :
    let s : State := tabled aaab
    let t : State := run .dtBuild s
    Inv s ∧ s.err = none ∧ exec .dtBuild s = .next t ∧ t.err = none ∧ Encodable s aaab ∧
    (packbits (codeBits s aaab) ++ [0xAA#8]).length < 2 ^ 64 ∧ aaab.length < 2 ^ 64 ∧
    SinkTakes aaab.length { t with src := packbits (codeBits s aaab) ++ [0xAA#8], srcFail := none, rp := 0#64, origSize := BitVec.ofNat 64 aaab.length } :=
  ⟨inv_tabled, rfl, exec_run (by decide +kernel), by decide +kernel, by unfold Machine.Encodable; decide +kernel, by decide +kernel, by decide,
    takes (by decide +kernel) (by decide +kernel)⟩

/-- The state a flow ends in, if it ends in one. -/
def flow (actions : List HostAction) (s : State) : State := (after (runActions actions s)).getD State.reset

theorem flow_next {actions : List HostAction} {s : State} (h : (after (runActions actions s)).isSome = true) :
    runActions actions s = .next (flow actions s) := by
  unfold flow
  cases he : runActions actions s <;> simp_all [after]

/-- V1, end to end: the table file and the packed file COMPRESS4 and COMPRESS8 make of it. -/
theorem witness_FlowsRoundTrip :
    let header : List Byte := [0x04#8, 0x00#8, 0x00#8, 0x00#8, 0x00#8, 0x00#8, 0x00#8, 0x00#8]
    let recs : List Byte := [0x41#8, 0x01#8, 0x80#8, 0x42#8, 0x01#8, 0x00#8]
    let t4 : State := flow (compressFlow .ctWr4 aaab) queued
    let t8 : State := flow (compressFlow .ctWr8 aaab) queued
    aaab ≠ [] ∧ Inv queued ∧ queued.snk = [] ∧ Inv treed ∧ treed.snk = [] ∧ treed.snkLimit = none ∧
    runActions (compressFlow .ctWr4 aaab) queued = .next t4 ∧ t4.err = none ∧
    t4.seen = queued.seen ++ [.drained (header.take 4 ++ recs), .drained (header ++ [0xE0#8])] ∧
    runActions (compressFlow .ctWr8 aaab) queued = .next t8 ∧ t8.err = none ∧
    t8.seen = queued.seen ++ [.drained (header ++ recs), .drained (header ++ [0xE0#8])] :=
  ⟨by decide, inv_queued, rfl, inv_treed, rfl, rfl, flow_next (by decide +kernel), by decide +kernel, by decide +kernel,
    flow_next (by decide +kernel), by decide +kernel, by decide +kernel⟩

/-- The longest bit sequence pack8 takes, and the last index of each clause. -/
theorem witness_DataForms :
    let c : List Bool := List.replicate 9 true
    (c.take 8).length ≤ 8 ∧ 7 < 8 ∧ 1 < (c.length + 7) / 8 ∧ 16 ≤ 8 * [0x80#8, 0x01#8].length ∧ 8 * 1 + 7 < 16 ∧ aaab.length ≤ 8 ∧ 15 < 16 ∧ aaab ≠ [] := by
  decide

end Sys2Proof.Tests
end

section
/-! The data forms by index and by ASCII code (00_scope.md R12; 30_encoding.md R107; 44_code_table_codec.md R199, R202), and the obligation DataForms put together from them. -/

namespace Sys2Proof.Machine

/-! Bits of a byte. -/

theorem getD_bitsOf (b : Byte) {i : Nat} (h : i < 8) : (bitsOf b).getD i false = b.getLsbD (7 - i) := by
  simp [bitsOf, List.getD_eq_getElem?_getD, BitVec.getMsbD, h]

/-- Padding with the default value changes no indexed read. -/
theorem getD_append_replicate_false (c : List Bool) (n i : Nat) : (c ++ List.replicate n false).getD i false = c.getD i false := by
  rcases Nat.lt_or_ge i c.length with h | h
  · exact List.getD_append _ _ _ _ h
  · rw [List.getD_append_right _ _ _ _ h, List.getD_eq_default _ _ h, List.getD_eq_getElem?_getD,
      List.getElem?_getD_replicate_default_eq]

/-- `pack8` puts `b[i]` in bit `7 - i` (R12). -/
theorem getLsbD_pack8 {b : List Bool} (h : b.length ≤ 8) {i : Nat} (hi : i < 8) : (pack8 b).getLsbD (7 - i) = b.getD i false := by
  rw [← getD_bitsOf _ hi, bitsOf_pack8 h, getD_append_replicate_false]

/-! Bit sequences. -/

/-- Byte `k` of the packed sequence packs the bits from `8k` on. -/
theorem getD_packbits (c : List Bool) {k : Nat} (h : k < ceil8 c.length) :
    (packbits c).getD k 0#8 = pack8 ((c.drop (8 * k)).take 8) := by
  simp [packbits, List.getD_eq_getElem?_getD, List.getElem?_range h]

theorem getLsbD_getD_packbits (c : List Bool) {k i : Nat} (hk : k < ceil8 c.length) (hi : i < 8) :
    ((packbits c).getD k 0#8).getLsbD (7 - i) = c.getD (8 * k + i) false := by
  rw [getD_packbits c hk, getLsbD_pack8 (List.length_take_le ..) hi]
  simp [List.getD_eq_getElem?_getD, List.getElem?_take_of_lt hi]

theorem getD_flatMap_bitsOf (bytes : List Byte) (k : Nat) {i : Nat} (hi : i < 8) :
    (bytes.flatMap bitsOf).getD (8 * k + i) false = (bytes.getD k 0#8).getLsbD (7 - i) := by
  induction bytes generalizing k with
  | nil => simp
  | cons b bs ih =>
    rw [List.flatMap_cons]
    cases k with
    | zero => rw [List.getD_append _ _ _ _ (by simpa using hi), Nat.mul_zero, Nat.zero_add, getD_bitsOf b hi, List.getD_cons_zero]
    | succ k =>
      rw [List.getD_append_right _ _ _ _ (by simp; omega), length_bitsOf, show 8 * (k + 1) + i - 8 = 8 * k + i by omega, ih,
        List.getD_cons_succ]

theorem getD_unpackbits (bytes : List Byte) {n k i : Nat} (hi : i < 8) (h : 8 * k + i < n) :
    (unpackbits bytes n).getD (8 * k + i) false = (bytes.getD k 0#8).getLsbD (7 - i) := by
  rw [← getD_flatMap_bitsOf bytes k hi]
  simp [unpackbits, List.getD_eq_getElem?_getD, List.getElem?_take_of_lt h]

/-! Integers. -/

/-- Byte `k` of `le_n(v)` has weight `256^k` (R12). -/
theorem toNat_getD_le {n : Nat} (v : Count) {k : Nat} (h : k < n) : ((le n v).getD k 0#8).toNat = v.toNat / 256 ^ k % 256 := by
  simp [le, List.getD_eq_getElem?_getD, List.getElem?_range h, Nat.shiftRight_eq_div_pow, Nat.pow_mul]

/-- `from_le` as the sum of its bytes, byte `k` with weight `256^k` (R12). -/
theorem toNat_fromLe_eq_sum (bytes : List Byte) (h : bytes.length ≤ 8) :
    (fromLe bytes).toNat = ((List.range bytes.length).map fun k => (bytes.getD k 0#8).toNat * 256 ^ k).sum := by
  induction bytes with
  | nil => rfl
  | cons b bs ih =>
    have hl : bs.length ≤ 7 := Nat.le_of_succ_le_succ h
    rw [toNat_fromLe_cons b bs hl, ih (by omega), List.length_cons, List.range_succ_eq_map, List.map_cons, List.sum_cons, List.map_map,
      ← List.sum_map_mul_left]
    simp [Function.comp_def, Nat.pow_succ, Nat.mul_comm, Nat.mul_assoc]

/-! Hex text. -/

/-- A token is the digits of the byte's two hexadecimal places (R107). -/
theorem hexToken_eq_digits (b : Byte) :
    hexToken b = [hexDigit (BitVec.ofNat 8 (b.toNat / 16)), hexDigit (BitVec.ofNat 8 (b.toNat % 16))] := by
  have high : b >>> 4 = BitVec.ofNat 8 (b.toNat / 16) := by
    apply BitVec.eq_of_toNat_eq
    simp [Nat.shiftRight_eq_div_pow]; omega
  have low : b &&& 0x0F#8 = BitVec.ofNat 8 (b.toNat % 16) := by
    apply BitVec.eq_of_toNat_eq
    have := Nat.and_two_pow_sub_one_eq_mod b.toNat 4
    simp at this ⊢; omega
  rw [hexToken, high, low]

/-- The ASCII code of an upper-case digit (R107). -/
theorem toNat_hexDigit : ∀ d < 16, (hexDigit (BitVec.ofNat 8 d)).toNat = if d < 10 then 48 + d else 65 + (d - 10) := by
  decide

/-- A line is its tokens with one space between them, then the line feed (R199). -/
theorem hexLine_eq_intersperse (bs : List Byte) (h : bs ≠ []) :
    hexLine bs = ((bs.map hexToken).intersperse [space]).flatten ++ [lineFeed] := by
  induction bs with
  | nil => exact absurd rfl h
  | cons b bs ih =>
    cases bs with
    | nil => simp [hexLine]
    | cons c cs => simpa [hexLine] using ih (by simp)

/-- The three ranges of digits `hexval` reads, and the value of each (R202). -/
theorem hexval_eq_some_iff (c v : Byte) : hexval c = some v ↔
    (48 ≤ c.toNat ∧ c.toNat ≤ 57 ∧ v.toNat = c.toNat - 48) ∨ (65 ≤ c.toNat ∧ c.toNat ≤ 70 ∧ v.toNat = c.toNat - 65 + 10) ∨
      (97 ≤ c.toNat ∧ c.toNat ≤ 102 ∧ v.toNat = c.toNat - 97 + 10) := by
  have hc := c.isLt
  have hv := v.isLt
  simp only [hexval, BitVec.le_def]
  split_ifs with digit upper lower
  · simp [BitVec.toNat_eq] at *; omega
  · simp [BitVec.toNat_eq] at *; omega
  · simp [BitVec.toNat_eq] at *; omega
  · simp at *; omega

/-- Settles O60: clause by clause, each form by its own lemma. -/
theorem dataForms : Obligations.DataForms :=
  ⟨fun _ h _ hi => getLsbD_pack8 h hi,
    fun c => ⟨length_packbits c, fun _ hk _ hi => getLsbD_getD_packbits c hk hi⟩,
    fun bytes _ hn => ⟨length_unpackbits hn, fun _ _ hi h => getD_unpackbits bytes hi h⟩,
    fun b => ⟨length_bitsOf b, fun _ hi => getD_bitsOf b hi⟩,
    fun n v => ⟨length_le n v, fun _ hk => toNat_getD_le v hk⟩,
    toNat_fromLe_eq_sum, hexToken_eq_digits, toNat_hexDigit, hexLine_eq_intersperse, hexval_eq_some_iff, rfl, rfl⟩

end Sys2Proof.Machine
end

section
/-! What the host reads and writes by register number (10_state.md R22 to R34), and the obligation RegisterFile put together from it. -/

namespace Sys2Proof.Machine

/-- CT has one cell a symbol, so CT_N is at most NSYM (R8, R31). -/
theorem ctCount_le_nsym (s : State) : ctCount s ≤ Config.nsym :=
  (List.length_filter_le ..).trans_eq List.length_range

/-- ERR reads as the code of the kind it holds, 0 for none (R25, R310). -/
theorem readReg_err (s : State) : readReg 2 s = match s.err with
    | none => 0#64
    | some .ioError => 1#64
    | some .malformedTable => 2#64
    | some .ambiguousCode => 3#64
    | some .unknownSymbol => 4#64
    | some .corruptStream => 5#64
    | some .truncatedInput => 6#64
    | some .badCommand => 7#64 := by
  simp only [readReg, errReg]
  rcases s.err with _ | k
  · rfl
  · cases k <;> rfl

theorem readReg_sdState (s : State) : readReg 12 s = match s.sdState with
    | .walking => 0#64
    | .emitted => 1#64
    | .done => 2#64 := by
  simp only [readReg]
  cases s.sdState <;> rfl

theorem toNat_readReg_wp {s : State} (h : s.snk.length < 2 ^ 64) : (readReg 6 s).toNat = s.snk.length :=
  (BitVec.toNat_ofNat ..).trans (Nat.mod_eq_of_lt h)

theorem toNat_readReg_ctN (s : State) : (readReg 10 s).toNat = ctCount s :=
  (BitVec.toNat_ofNat ..).trans (Nat.mod_eq_of_lt ((ctCount_le_nsym s).trans_lt (by decide)))

/-- A number that names no register reads 0 (R22). -/
theorem readReg_of_gt {r : Nat} (h : 15 < r) (s : State) : readReg r s = 0#64 := by
  obtain ⟨k, rfl⟩ := Nat.exists_eq_add_of_le' h
  rfl

/-- The write of ORIG_SIZE sets it, but not in the fault state (R27, R319). -/
theorem writeSize_eq (v : Count) (s : State) : writeSize v s = if s.err = none then { s with origSize := v } else s := by
  unfold writeSize
  cases s.err <;> rfl

/-- A write of a number that is neither CMD nor ORIG_SIZE is ignored (log 14). -/
theorem writeReg_of_ne {r : Nat} (h0 : r ≠ 0) (h4 : r ≠ 4) (v : Count) (s : State) : writeReg r v s = .next s := by
  rw [writeReg, if_neg h0, if_neg h4]

/-- Settles O9: register by register, then the three cases of a write. -/
theorem registerFile : Obligations.RegisterFile := fun s =>
  have zext {w : Nat} (x : BitVec w) (h : w ≤ 64 := by decide) : (x.setWidth 64).toNat = x.toNat := BitVec.toNat_setWidth_of_le h
  ⟨rfl, zext (statusReg s), readReg_err s, zext s.res, rfl, rfl, toNat_readReg_wp, zext s.root, zext s.heapN, zext s.nodeNext,
    toNat_readReg_ctN s, zext s.trieN, readReg_sdState s, zext s.sdCur, rfl, zext s.decOne, fun _ h => readReg_of_gt h s,
    fun _ => rfl, fun v => congrArg Host.Outcome.next (writeSize_eq v s), fun _ v h0 h4 => writeReg_of_ne h0 h4 v s⟩

end Sys2Proof.Machine
end

section
/-! The state at power-on and the STATUS bits (10_state.md R24, R45 to R47), with the obligations StatusBits and InvAtReset. -/

namespace Sys2Proof.Machine

/-- ERR reads 0 exactly where no error is held (R25). -/
theorem readReg_err_eq_zero_iff (s : State) : readReg 2 s = 0#64 ↔ s.err = none := by
  rw [readReg_err]
  rcases s.err with _ | k
  · simp
  · cases k <;> simp

/-- SD_STATE reads 2 exactly in DONE (R33). -/
theorem readReg_sdState_eq_two_iff (s : State) : readReg 12 s = 2#64 ↔ s.sdState = .done := by
  rw [readReg_sdState]
  cases s.sdState <;> simp

/-- Six flags put side by side, the last one lowest, read bit by bit. -/
theorem getLsbD_append_ofBool : ∀ (a b c d e f : Bool), ∀ k < 6,
    (BitVec.ofBool f ++ BitVec.ofBool e ++ BitVec.ofBool d ++ BitVec.ofBool c ++ BitVec.ofBool b ++ BitVec.ofBool a).getLsbD k =
      [a, b, c, d, e, f].getD k false := by
  decide

/-- The bits of STATUS, bit 0 first (R24). -/
theorem getLsbD_readReg_status (s : State) (k : Nat) : (readReg 1 s).getLsbD k =
    [busyFlag s, errFlag s, s.empty, treeFlag s, trieFlag s, doneFlag s].getD k false := by
  refine (BitVec.getLsbD_setWidth ..).trans ?_
  rcases Nat.lt_or_ge k 6 with hk | hk
  · rw [decide_eq_true (hk.trans (by decide)), Bool.true_and]
    exact getLsbD_append_ofBool _ _ _ _ _ _ k hk
  · rw [List.getD_eq_default _ _ hk, BitVec.getLsbD_of_ge _ _ hk, Bool.and_false]

/-- Settles O10: bit by bit. -/
theorem statusBits : Obligations.StatusBits := by
  intro s
  simp only [getLsbD_readReg_status]
  refine ⟨rfl, ?_, rfl, rfl, rfl, ?_, fun k hk => ?_⟩
  · simp only [ne_eq, readReg_err_eq_zero_iff]
    show s.err.isSome = _
    cases s.err <;> rfl
  · exact decide_eq_decide.2 (readReg_sdState_eq_two_iff s).symm
  · exact List.getD_eq_default _ _ hk

/-- Power-on leaves the queue as PQ_CLR does (R45, R145). -/
theorem queueOk_reset : QueueOk State.reset := pqClear_ok (s := State.reset) rfl

/-- Without a trie there is nothing to ask of its cells (R32). -/
theorem trieOk_of_empty {s : State} (h : s.trieN = 0#17) : TrieOk s :=
  ⟨by simp [h], fun i hi => absurd hi (by simp [h])⟩

/-- Settles O54: nothing is live, no code is present, no trie node is allocated and the streams are empty. -/
theorem invAtReset : Obligations.InvAtReset where
  memories := queueOk_reset.memories
  streams := ⟨Nat.le_refl _, Nat.zero_le _⟩
  heap := queueOk_reset.heap
  tree := queueOk_reset.tree
  codes := fun _ _ => rfl
  trie := trieOk_of_empty rfl
  sink := Nat.zero_le _
  host := rfl

end Sys2Proof.Machine
end

section
/-! What a command writes, whatever it ends in, and that the memories stay canonical (20_memory.md R61; log 11), with the obligation MemoriesStayCanonical. -/

namespace Sys2Proof.Machine

/-- The footprint of a command is that of its parts, and ERR where they raise (R318). -/
theorem finish_only {f g : State → State → State} {r : Run Unit} {s t : State} (h : r.Leaves (Only f s)) (ht : finish r = .next t)
    (hf : ∀ u e, g s { f s u with err := e } = { f s u with err := e } := by intros; rfl) : Only g s t := by
  rcases finish_eq_next.1 ht with rfl | ⟨k, u, rfl, rfl⟩
  · exact Only.wider h (hf t (f s t).err)
  · have h1 := h.1
    refine ⟨?_, h.2⟩
    rw [h1]
    exact (hf u (some k)).symm

/-- The bytes of a table go to the sink, or ORIG_SIZE does not fit and nothing does (R191, R199). -/
theorem writeTable_frame (w : Nat) (s : State) : (writeTable w s).Leaves (Only onSink s) := by
  unfold writeTable; split
  · exact only_refl onSink s
  · exact snkWriteAll_frame _ s

theorem writeTableText_frame (w : Nat) (s : State) : (writeTableText w s).Leaves (Only onSink s) := by
  unfold writeTableText; split
  · exact only_refl onSink s
  · exact snkWriteAll_frame _ s

/-- A command writes what R61 and R22 give it and keeps the memories canonical. -/
theorem exec_only {i : Instr} {s t : State} (h : exec i s = .next t) : Only (writtenBy i) s t := by
  cases i with
  | nop => cases h; exact only_refl _ s
  | rst => cases h; exact ⟨rfl, fun _ => rfl⟩
  | rwd => cases h; exact ⟨rfl, id⟩
  | fcScan => exact finish_only (scanSource_frame s) h
  | pqClr => cases h; exact ⟨rfl, (pqClear_frame s).2⟩
  | pqIns n => exact finish_only (pqInsert_frame n s) h
  | pqExt => exact finish_only (pqExtract_frame s) h
  | tbMerge => exact finish_only (mergeStep_frame s) h
  | tbBuild => exact finish_only (buildTree_frame s) h
  | cgGen => exact finish_only (generateCodes_frame s) h
  | ctWr4 => exact finish_only (writeTable_frame 4 s) h
  | ctWr8 => exact finish_only (writeTable_frame 8 s) h
  | ctRd4 => exact finish_only (readTable_frame 4 s) h
  | ctRd8 => exact finish_only (readTable_frame 8 s) h
  | ctWrx4 => exact finish_only (writeTableText_frame 4 s) h
  | ctWrx8 => exact finish_only (writeTableText_frame 8 s) h
  | ctRdx => exact finish_only (readTableText_frame s) h
  | cfWrh => exact finish_only (snkWriteAll_frame _ s) h
  | bpEnc => exact finish_only (packSource_frame s) h
  | dtBuild => exact finish_only (buildTrie_frame s) h
  | cfRdh => exact finish_only (readHeader_frame s) h
  | sdRun => exact finish_only (runDecoder_frame s) h

theorem exec_memoriesWf {i : Instr} {s t : State} (h : exec i s = .next t) (hm : memoriesWf s = true) : memoriesWf t = true :=
  (exec_only h).2 hm

/-- What a host action that runs no command may write (48_system.md R294). -/
def onHost (s t : State) : State :=
  { s with err := t.err, origSize := t.origSize, rp := t.rp, src := t.src, srcFail := t.srcFail, snk := t.snk, snkLimit := t.snkLimit, seen := t.seen }

/-- A write of CMD runs a command, or writes at most ERR (R94). -/
theorem writeCmd_next {w : CmdWord} {s t : State} (h : writeCmd w s = .next t) : (∃ i, exec i s = .next t) ∨ t = onHost s t := by
  unfold writeCmd at h
  split at h
  · split at h
    · exact .inl ⟨.rst, h⟩
    · cases h; exact .inr rfl
  · split at h
    · cases h; exact .inr rfl
    · rename_i i _
      exact .inl ⟨i, h⟩

/-- A host action runs a command (hard reset does what RST does, R340), or leaves registers and memories but ERR, ORIG_SIZE and RP alone (R294). -/
theorem perform_next {a : HostAction} {s t : State} (h : perform a s = .next t) : (∃ i, exec i s = .next t) ∨ t = onHost s t := by
  have size : ∀ v, writeSize v s = onHost s (writeSize v s) := fun v => by unfold writeSize; split <;> rfl
  cases a with
  | cmd w => exact writeCmd_next h
  | attach bytes f =>
    simp only [perform, attachSource] at h
    split at h
    · cases h
    · cases h; exact .inr rfl
  | limit n => cases h; exact .inr rfl
  | drain => cases h; exact .inr rfl
  | size v => cases h; exact .inr (size v)
  | read r => cases h; exact .inr rfl
  | write r v =>
    simp only [perform, writeReg] at h
    split at h
    · exact writeCmd_next h
    · split at h
      · cases h; exact .inr (size v)
      · cases h; exact .inr rfl
  | hardReset => exact .inl ⟨.rst, h⟩

theorem perform_memoriesWf {a : HostAction} {s t : State} (h : perform a s = .next t) (hm : memoriesWf s = true) : memoriesWf t = true := by
  rcases perform_next h with ⟨i, hi⟩ | ht
  · exact exec_memoriesWf hi hm
  · rw [ht]; exact hm

/-- Settles O57: a step is a host action or nothing, and an action keeps the memories canonical. -/
theorem memoriesStayCanonical : Obligations.MemoriesStayCanonical := by
  intro s t hm h
  unfold step takeAction at h
  split at h
  · cases h; exact hm
  · exact perform_memoriesWf h hm

end Sys2Proof.Machine
end

section
/-! What a command does to the two streams (10_state.md R28, R42; 20_memory.md R62 to R64), with the obligations SinkOnlyAppended and SourceReadInOrder. -/

namespace Sys2Proof.Machine

/-! The sink. -/

theorem writeTable_grows (w : Nat) (s : State) : (writeTable w s).Leaves (SinkGrows s) := by
  unfold writeTable; split
  · exact sinkGrows_refl
  · exact snkWriteAll_grows _ s

theorem writeTableText_grows (w : Nat) (s : State) : (writeTableText w s).Leaves (SinkGrows s) := by
  unfold writeTableText; split
  · exact sinkGrows_refl
  · exact snkWriteAll_grows _ s

/-- Fault entry leaves the sink (R318). -/
theorem finish_grows {r : Run Unit} {s t : State} (h : r.Leaves (SinkGrows s)) (ht : finish r = .next t) : SinkGrows s t :=
  finish_leaves h (fun _ _ hu => ⟨hu.prefixed, hu.held, hu.limit⟩) ht

/-- A command grows the sink or leaves it (20_memory.md R63). -/
theorem exec_grows {i : Instr} {s t : State} (h : exec i s = .next t) : SinkGrows s t := by
  have frame := (exec_only h).1
  cases i with
  | ctWr4 => exact finish_grows (writeTable_grows 4 s) h
  | ctWr8 => exact finish_grows (writeTable_grows 8 s) h
  | ctWrx4 => exact finish_grows (writeTableText_grows 4 s) h
  | ctWrx8 => exact finish_grows (writeTableText_grows 8 s) h
  | cfWrh => exact finish_grows (snkWriteAll_grows _ s) h
  | bpEnc => exact finish_grows (packSource_grows s) h
  | sdRun => exact finish_grows (runDecoder_grows s) h
  | _ => exact sinkGrows_refl (congrArg State.snk frame :) (congrArg State.snkLimit frame :)

/-- Settles O52: the sink grows, as far as the host's sink holds. -/
theorem sinkOnlyAppended : Obligations.SinkOnlyAppended := by
  intro i s t h
  obtain ⟨prefixed, held, -⟩ := exec_grows h
  exact ⟨prefixed, fun m hm => snkCap_limited hm ▸ held, held.trans (max_le_max_left _ (snkCap_le s))⟩

/-! The source. -/

/-- The source of `t` is that of `s`, and RP moved forward in it, not past a failing byte. -/
structure SourceMoves (s t : State) : Prop where
  src : t.src = s.src
  srcFail : t.srcFail = s.srcFail
  forward : s.rp.toNat ≤ t.rp.toNat
  within : t.rp.toNat ≤ s.src.length
  unfailed : ∀ f, s.srcFail = some f → t.rp.toNat ≤ max s.rp.toNat f.toNat

theorem SourceMoves.streamsOk {s t : State} (h : SourceMoves s t) (hs : StreamsOk s) : StreamsOk t :=
  ⟨by rw [h.src]; exact h.within, by rw [h.src]; exact hs.len⟩

/-- What a part does to the source of a state whose streams are as they must be. -/
def Moves (s t : State) : Prop := StreamsOk s → SourceMoves s t

theorem moves_refl {s t : State} (hr : t.rp = s.rp := by rfl) (hs : t.src = s.src := by rfl) (hf : t.srcFail = s.srcFail := by rfl) : Moves s t :=
  fun h => ⟨hs, hf, hr ▸ Nat.le_refl _, hr ▸ h.pos, fun _ _ => hr ▸ Nat.le_max_left ..⟩

theorem Moves.trans {s t u : State} (h : Moves s t) (h' : Moves t u) : Moves s u := fun hs => by
  have h1 := h hs
  have h2 := h' (h1.streamsOk hs)
  refine ⟨h2.src.trans h1.src, h2.srcFail.trans h1.srcFail, h1.forward.trans h2.forward, h1.src ▸ h2.within, fun f hf => ?_⟩
  have b1 := h1.unfailed f hf
  have b2 := h2.unfailed f (h1.srcFail.trans hf)
  omega

/-- A part whose footprint leaves RP and the source alone. -/
theorem Run.Leaves.still {α : Type} {f : State → State → State} {r : Run α} {s : State} (h : r.Leaves (Only f s))
    (hr : ∀ t, (f s t).rp = s.rp := by intros; rfl) (hs : ∀ t, (f s t).src = s.src := by intros; rfl)
    (hf : ∀ t, (f s t).srcFail = s.srcFail := by intros; rfl) : r.Leaves (Moves s) :=
  h.mono fun t ht => moves_refl ((congrArg State.rp ht.1).trans (hr t)) ((congrArg State.src ht.1).trans (hs t))
    ((congrArg State.srcFail ht.1).trans (hf t))

/-- A sequence moves RP forward if both parts do. -/
theorem Run.Leaves.moves {α β : Type} {r : Run α} {k : α → State → Run β} {s : State} (h : r.Leaves (Moves s))
    (hk : ∀ a t, (k a t).Leaves (Moves t)) : (r.andThen k).Leaves (Moves s) :=
  h.andThen fun a t ht => (hk a t).mono fun _ hu => ht.trans hu

/-- SrcRead moves RP past one byte, which does not fail (20_memory.md R62). -/
theorem srcRead_moves (s : State) : (srcRead s).Leaves (Moves s) := by
  unfold srcRead
  cases hb : s.src[s.rp.toNat]? with
  | none => trivial
  | some b =>
    simp only
    cases hf : srcFails s with
    | true => exact moves_refl
    | false =>
      intro hs
      have hlt : s.rp.toNat < s.src.length := (List.getElem?_eq_some_iff.1 hb).1
      have hsucc := rp_succ hs hlt
      refine ⟨rfl, rfl, by rw [hsucc]; omega, by rw [hsucc]; exact hlt, fun f he => ?_⟩
      have : s.rp.toNat < f.toNat := by simpa [srcFails, he, BitVec.lt_def] using hf
      rw [hsucc]; omega

theorem srcTake_moves (k : ErrKind) (n : Nat) (s : State) : (srcTake k n s).Leaves (Moves s) := by
  induction n generalizing s with
  | zero => exact moves_refl
  | succ n ih =>
    rw [srcTake]; split
    · exact moves_refl
    · exact (srcRead_moves s).moves fun _ t => (ih t).moves fun _ _ => moves_refl

/-- A loop over the source moves RP forward if its pass does. -/
theorem whileSrc_moves {α : Type} {body : α → State → Run α} (hb : ∀ a s, (body a s).Leaves (Moves s)) (n : Nat) (a : α) (s : State) :
    (whileSrc body n a s).Leaves (Moves s) :=
  whileSrc_leaves (fun a _ ht => (hb a _).mono fun _ hu => ht.trans hu) n a s moves_refl

/-- FC_SCAN (R131). -/
theorem scanSource_moves (s : State) : (scanSource s).Leaves (Moves s) := by
  have pass (n : Count) (t : State) : (countByte n t).Leaves (Moves t) := (srcRead_moves t).moves fun _ _ => moves_refl
  have start : Moves s { s with freq := [] } := moves_refl
  exact Run.Leaves.moves ((whileSrc_moves pass _ _ _).mono fun _ hu => start.trans hu) fun _ _ => moves_refl

theorem addRecord_moves (sym : Byte) (code : Code) (s : State) : (addRecord sym code s).Leaves (Moves s) := by
  unfold addRecord; split <;> exact moves_refl

theorem readRecord_moves (a : Unit) (s : State) : (readRecord a s).Leaves (Moves s) := by
  refine (srcRead_moves s).moves fun sym t => ?_
  split
  · exact moves_refl
  · refine (srcRead_moves t).moves fun len u => ?_
    split
    · exact moves_refl
    · split
      · exact moves_refl
      · exact (srcTake_moves _ _ u).moves fun _ v => addRecord_moves _ _ v

/-- `RdTable` (R195). -/
theorem readTable_moves (w : Nat) (s : State) : (readTable w s).Leaves (Moves s) := by
  have start : Moves s { s with ct := [] } := moves_refl
  refine Run.Leaves.moves ((srcTake_moves _ w _).mono fun _ hu => start.trans hu) fun header t => ?_
  have sized : Moves t { t with origSize := fromLe header } := moves_refl
  exact (whileSrc_moves readRecord_moves _ _ _).mono fun _ hu => sized.trans hu

theorem readDigit_moves (s : State) : (readDigit s).Leaves (Moves s) := by
  unfold readDigit; split
  · exact moves_refl
  · refine (srcRead_moves s).moves fun c t => ?_
    split <;> exact moves_refl

theorem readLine_moves (n : Nat) (toks : List Byte) (s : State) : (readLine n toks s).Leaves (Moves s) := by
  induction n generalizing toks s with
  | zero =>
    rw [readLine]; split
    · exact moves_refl
    · trivial
  | succ n ih =>
    rw [readLine]
    refine (readDigit_moves s).moves fun h t => (readDigit_moves t).moves fun l u => ?_
    split
    · exact moves_refl
    · refine (srcRead_moves u).moves fun c v => ?_
      split
      · exact moves_refl
      · split
        · exact ih _ v
        · exact moves_refl

theorem takeRecordLine_moves (toks : List Byte) (s : State) : (takeRecordLine toks s).Leaves (Moves s) := by
  unfold takeRecordLine
  split
  · split
    · exact moves_refl
    · split
      · exact moves_refl
      · exact addRecord_moves _ _ s
  · exact moves_refl

/-- `RdTableX` (R203). -/
theorem readTableText_moves (s : State) : (readTableText s).Leaves (Moves s) := by
  have start : Moves s { s with ct := [] } := moves_refl
  unfold readTableText; split
  · exact start
  · refine Run.Leaves.moves ((readLine_moves _ _ _).mono fun _ hu => start.trans hu) fun toks t => ?_
    split
    · exact moves_refl
    · have pass (a : Unit) (u : State) : (readRecordLine a u).Leaves (Moves u) :=
        (readLine_moves _ _ u).moves fun toks v => takeRecordLine_moves toks v
      have sized : Moves t { t with origSize := fromLe toks } := moves_refl
      exact (whileSrc_moves pass _ _ _).mono fun _ hu => sized.trans hu

/-- BP_ENC (R233). -/
theorem packSource_moves (s : State) : (packSource s).Leaves (Moves s) := by
  have pass (acc : List Bool) (t : State) : (packSymbol acc t).Leaves (Moves t) := by
    refine (srcRead_moves t).moves fun b u => ?_
    split
    · exact moves_refl
    · exact (flushBytes_frame _ _ u).still
  refine (whileSrc_moves pass _ _ s).moves fun acc t => ?_
  unfold flushRest; split
  · exact moves_refl
  · exact (snkWrite_frame _ t).still

/-- CF_RDH (R266). -/
theorem readHeader_moves (s : State) : (readHeader s).Leaves (Moves s) :=
  (srcTake_moves _ _ s).moves fun _ _ => moves_refl

/-- One bit reads nothing (R268). -/
theorem sdBit_moves (bit : Bool) (s : State) : (sdBit bit s).Leaves (Moves s) := by
  have checked (t : State) : Moves t (checkDone t) := moves_refl (checkDone_rp t) (checkDone_src t) (checkDone_srcFail t)
  refine (cellValue_frame onSink _ _ _ s).still.moves fun c t => ?_
  split
  · exact moves_refl
  · have child : Moves t { t with sdCur := childOf bit c } := moves_refl
    refine Run.Leaves.moves ((cellValue_frame onSink _ _ _ _).still.mono fun _ hu => child.trans hu) fun d u => ?_
    split
    · exact Run.Leaves.moves ((snkWrite_frame _ u).still.moves fun _ _ => moves_refl) fun _ v => checked v
    · exact checked u

theorem sdBits_moves (bits : List Bool) (s : State) : (sdBits bits s).Leaves (Moves s) := by
  induction bits generalizing s with
  | nil => exact moves_refl
  | cons bit bits ih =>
    refine (sdBit_moves bit s).moves fun _ t => ?_
    split
    · exact moves_refl
    · exact ih t

theorem sdLoop_moves (n : Nat) (s : State) : (sdLoop n s).Leaves (Moves s) := by
  induction n generalizing s with
  | zero =>
    rw [sdLoop]; split
    · exact moves_refl
    · trivial
  | succ n ih =>
    rw [sdLoop]; split
    · exact moves_refl
    · refine (srcRead_moves s).moves fun b t => (sdBits_moves _ t).moves fun _ u => ?_
      split
      · exact moves_refl
      · exact ih u

theorem repeatSymbol_moves (sym : Byte) (s : State) : (repeatSymbol sym s).Leaves (Moves s) := by
  unfold repeatSymbol; simp only
  split
  · exact snkEnd_leaves moves_refl
  · exact moves_refl

/-- SD_RUN (R270). -/
theorem runDecoder_moves (s : State) : (runDecoder s).Leaves (Moves s) := by
  have start : Moves s { s with sdState := .walking, sdCur := 0#16, sdCnt := 0#64 } := moves_refl
  unfold runDecoder; split
  · exact moves_refl
  · simp only
    split
    · exact moves_refl
    · split
      · exact (repeatSymbol_moves _ _).mono fun _ hu => start.trans hu
      · exact (sdLoop_moves _ _).mono fun _ hu => start.trans hu

/-- Fault entry leaves the source (R318). -/
theorem finish_moves {r : Run Unit} {s t : State} (h : r.Leaves (Moves s)) (ht : finish r = .next t) : Moves s t :=
  finish_leaves h (fun _ _ hu => hu.trans moves_refl) ht

/-- A command but RST and RWD moves RP forward or leaves it (10_state.md R28). -/
theorem exec_moves {i : Instr} {s t : State} (hrst : i ≠ .rst) (hrwd : i ≠ .rwd) (h : exec i s = .next t) : Moves s t := by
  have frame := (exec_only h).1
  cases i with
  | rst => exact absurd rfl hrst
  | rwd => exact absurd rfl hrwd
  | fcScan => exact finish_moves (scanSource_moves s) h
  | ctRd4 => exact finish_moves (readTable_moves 4 s) h
  | ctRd8 => exact finish_moves (readTable_moves 8 s) h
  | ctRdx => exact finish_moves (readTableText_moves s) h
  | bpEnc => exact finish_moves (packSource_moves s) h
  | cfRdh => exact finish_moves (readHeader_moves s) h
  | sdRun => exact finish_moves (runDecoder_moves s) h
  | _ => exact moves_refl (congrArg State.rp frame :) (congrArg State.src frame :) (congrArg State.srcFail frame :)

/-- Settles O53: RP moves as SrcRead moves it, a byte at a time. -/
theorem sourceReadInOrder : Obligations.SourceReadInOrder := fun _ _ _ hs hrst hrwd h =>
  have moved := exec_moves hrst hrwd h hs
  ⟨moved.forward, moved.within, moved.unfailed⟩

/-- Every command leaves the streams as they must be; RST and RWD put RP to the beginning (R291, R292). -/
theorem exec_streamsOk {i : Instr} {s t : State} (hs : StreamsOk s) (h : exec i s = .next t) : StreamsOk t := by
  by_cases hrst : i = .rst
  · subst hrst; cases h; exact ⟨Nat.zero_le _, hs.len⟩
  · by_cases hrwd : i = .rwd
    · subst hrwd; cases h; exact ⟨Nat.zero_le _, hs.len⟩
    · exact (exec_moves hrst hrwd h hs).streamsOk hs

end Sys2Proof.Machine
end

section
/-! The codes of a tree (43_code_table_generator.md R181 to R183), with the obligation TreeCodesCoverSymbols. -/

namespace Sys2Proof.Machine

/-- A path from a leaf leads to the leaf and is empty. -/
theorem followTree_of_leaf {s : State} {i j : NodeIx} (hl : i.toNat < 256) (p : Code) : followTree s i p = some j ↔ p = [] ∧ j = i := by
  cases p with
  | nil => simp [eq_comm]
  | cons bit bits => simp [followTree_leaf hl]

/-- A code store that holds one code. -/
theorem ctOf_singleton (s : State) (i b : Nat) (code : Code) :
    ctOf { s with ct := [(i, some code)] } b = if b = i then some code else none :=
  (readCell_writeCell (n := i + 1) (c := []) i b (some code) rfl :)

/-- What CG_GEN makes of the tree of `s`: exactly the bytes some path from the root leads to have a code (R181), each of 1 to 255 bits (R39), and no code begins another (R183). -/
structure CodesOfTree (s t : State) : Prop where
  frame : t = { s with ct := t.ct }
  covers : ∀ b < 256, (ctOf t b).isSome = true ↔ ∃ p, followTree s s.root p = some (BitVec.ofNat 9 b)
  codes : CodesOk t
  free : PrefixFree t

/-- The root is a leaf (R182). -/
theorem codesOfTree_single {s : State} (hl : s.root.toNat < 256) :
    CodesOfTree s { s with ct := [(s.root.toNat, some [false])] } where
  frame := rfl
  covers b hb := by
    have hix : BitVec.ofNat 9 b = s.root ↔ b = s.root.toNat := by rw [← BitVec.toNat_inj, toNat_ofNat_byte hb]
    rw [ctOf_singleton]
    simp only [followTree_of_leaf hl, exists_eq_left, hix]
    split <;> simp [*]
  codes b _ := by
    rw [ctOf_singleton]
    split <;> rfl
  free a _ b _ x y hne hx hy := by
    simp only [ctOf_singleton, Option.ite_none_right_eq_some] at hx hy
    exact absurd (hx.1.trans hy.1.symm) hne

/-- Every code is a path of its byte's leaf, so a code that begins another is that code. -/
theorem codesOfTree_of_paths {s t : State} (hframe : t = { s with ct := t.ct })
    (hcode : ∀ b code, ctOf t b = some code → b < 256 ∧ 1 ≤ code.length ∧ code.length ≤ 255 ∧ followTree s s.root code = some (BitVec.ofNat 9 b))
    (hcover : ∀ b < 256, ∀ code, followTree s s.root code = some (BitVec.ofNat 9 b) → (ctOf t b).isSome = true) :
    CodesOfTree s t where
  frame := hframe
  covers b hb := by
    refine ⟨fun hc => ?_, fun ⟨p, hp⟩ => hcover b hb p hp⟩
    obtain ⟨code, hc⟩ := Option.isSome_iff_exists.1 hc
    obtain ⟨-, -, -, hp⟩ := hcode b code hc
    exact ⟨code, hp⟩
  codes b _ := by
    cases hc : ctOf t b with
    | none => rfl
    | some code =>
      obtain ⟨-, hpos, hlen, -⟩ := hcode b code hc
      simp [codeOk, Config.lmax, hpos, hlen]
  free a ha b hb x y hne hx hy hxy := by
    obtain ⟨-, -, -, hpx⟩ := hcode a x hx
    obtain ⟨-, -, -, hpy⟩ := hcode b y hy
    have hleaf : (BitVec.ofNat 9 a).toNat < 256 := (toNat_ofNat_byte ha).trans_lt ha
    rw [followTree_unique_end hleaf hpx hpy hxy] at hpx
    have same := congrArg BitVec.toNat (Option.some.inj (hpx.symm.trans hpy))
    rw [toNat_ofNat_byte ha, toNat_ofNat_byte hb] at same
    exact hne same

/-- CG_GEN on a tree (R181, R182). -/
theorem generateCodes_codesOfTree {s : State} (ht : TreeOk s) (hroot : s.root ≠ Config.nil) :
    ∃ t, generateCodes s = .ok () t ∧ CodesOfTree s t := by
  rcases Nat.lt_or_ge s.root.toNat 256 with hl | hl
  · exact ⟨_, generateCodes_single hl, codesOfTree_single hl⟩
  · obtain ⟨t, hrun, hframe, -, hcode, hcover⟩ := generateCodes_ok ht hl hroot
    exact ⟨t, hrun, codesOfTree_of_paths hframe hcode hcover⟩

/-- An allocated root is not NIL (R30). -/
theorem TreeOk.root_ne_nil {s : State} (h : TreeOk s) (hr : s.root.toNat < s.nodeNext.toNat) : s.root ≠ Config.nil := fun e => by
  have high := h.high
  rw [e] at hr
  simp [Config.nil, Config.nodeCap] at hr high
  omega

/-- CT_N counts the bytes of non-zero count where exactly these have a code. -/
theorem ctCount_eq_usedSymbols {s t : State} (h : ∀ b < 256, (ctOf t b).isSome = decide (freqOf s b ≠ 0#64)) : ctCount t = usedSymbols s :=
  congrArg List.length (List.filter_congr fun b hb => h b (List.mem_range.1 hb))

/-- Settles O27: TB_BUILD's tree has a path to exactly the used bytes, and CG_GEN gives a code to exactly the bytes its paths lead to. -/
theorem treeCodesCoverSymbols : Obligations.TreeCodesCoverSymbols := by
  intro s hs hne
  obtain ⟨t, ht, hq, -, -, hroot, -, -, -, -, hcover, -, honly⟩ := buildTree_ok hs.memories hne
  obtain ⟨u, hu, made⟩ := generateCodes_codesOfTree hq.tree (hq.tree.root_ne_nil hroot)
  have used (b : Nat) (hb : b < 256) : (ctOf u b).isSome = decide (freqOf s b ≠ 0#64) := by
    rw [Bool.eq_iff_iff, made.covers b hb, decide_eq_true_iff]
    exact ⟨fun ⟨p, hp⟩ => honly b hb p hp, hcover b hb⟩
  exact ⟨t, u, congrArg finish ht, congrArg finish hu, made.frame, used, ctCount_eq_usedSymbols used, made.free⟩

end Sys2Proof.Machine
end

section
/-! Every command keeps the invariant and comes to an end (48_system.md R300, R301), with the obligation NoCommandStops. -/

namespace Sys2Proof.Machine

/-! The parts of the invariant, each by the fields it speaks of. -/

/-- The fields the heap's and the arena's parts of the invariant speak of. -/
def queueFields (s : State) : Cells Bool × Cells (Option TreeNode) × Cells (Option NodeIx) × BitVec 9 × BitVec 10 × NodeIx :=
  (s.ins, s.node, s.heap, s.heapN, s.nodeNext, s.root)

theorem HeapOk.congr {s t : State} (h : HeapOk s) (he : queueFields t = queueFields s) : HeapOk t := by
  cases s; cases t
  simp only [queueFields, Prod.mk.injEq] at he
  obtain ⟨rfl, rfl, rfl, rfl, rfl, rfl⟩ := he
  exact ⟨h.written, h.index, h.heap, h.leaf, h.entered, h.distinct, h.room⟩

theorem TreeOk.congr {s t : State} (h : TreeOk s) (he : queueFields t = queueFields s) : TreeOk t := by
  cases s; cases t
  simp only [queueFields, Prod.mk.injEq] at he
  obtain ⟨rfl, rfl, rfl, rfl, rfl, rfl⟩ := he
  exact ⟨h.low, h.high, h.cells, h.root⟩

theorem CodesOk.congr {s t : State} (h : CodesOk s) (he : t.ct = s.ct) : CodesOk t := fun b hb => by
  rw [show ctOf t b = ctOf s b by simp only [ctOf, he]]
  exact h b hb

/-! What the parts of the commands end in. -/

theorem Run.Ends.leaves {α : Type} {r : Run α} {R : State → Prop} {S : Prop} (h : r.Ends (fun _ t => R t) (fun _ t => R t) S) :
    r.Leaves R := by
  cases r with
  | ok a t => exact h
  | raise k t => exact h
  | stop e => trivial

/-- PQ_INS (R146). -/
theorem pqInsert_ends {s : State} (h : QueueOk s) (n : Nat) : (pqInsert n s).Ends (fun _ t => QueueOk t) fun _ t => QueueOk t := by
  by_cases hbad : 255 < n ∨ insOf s n = true
  · rw [pqInsert_bad hbad]; exact h
  · obtain ⟨hn, hins⟩ := not_or.1 hbad
    obtain ⟨t, ht, hq, -⟩ := pqInsert_ok h (Nat.le_of_not_lt hn) (Bool.eq_false_of_not_eq_true hins)
    rw [ht]; exact hq

/-- HeapExtract (R144). -/
theorem heapExtract_ends {s : State} (h : QueueOk s) : (heapExtract s).Ends (fun _ t => QueueOk t) fun _ t => QueueOk t := by
  by_cases hN : s.heapN = 0#9
  · rw [heapExtract_empty hN]; exact h
  · have hpos : 0 < s.heapN.toNat := Nat.pos_of_ne_zero fun e => hN (BitVec.eq_of_toNat_eq e)
    obtain ⟨m, t, ht, hq, -⟩ := heapExtract_queue h hpos
    rw [ht]; exact hq

/-- PQ_EXT (R147). -/
theorem pqExtract_ends {s : State} (h : QueueOk s) : (pqExtract s).Ends (fun _ t => QueueOk t) fun _ t => QueueOk t :=
  (heapExtract_ends h).andThen fun _ _ ht => ht.of_frame rfl rfl rfl rfl rfl rfl rfl rfl ht.tree.root

/-- TB_MERGE (R161). -/
theorem mergeStep_ends {s : State} (h : QueueOk s) : (mergeStep s).Ends (fun _ t => QueueOk t) fun _ t => QueueOk t := by
  rcases Nat.lt_or_ge s.heapN.toNat 2 with hN | hN
  · rw [mergeStep_bad hN]; exact h
  · obtain ⟨t, a, b, x, y, rest, ht, hq, -⟩ := mergeStep_ok h hN
    rw [ht]; exact hq

/-- TB_BUILD (R162). -/
theorem buildTree_ends {s : State} (h : QueueOk s) : (buildTree s).Ends (fun _ t => QueueOk t) fun _ t => QueueOk t := by
  by_cases hu : usedSymbols s = 0
  · rw [buildTree_bad hu]; exact h
  · obtain ⟨t, ht, hq, -⟩ := buildTree_ok h.memories hu
    rw [ht]; exact hq

/-- CG_GEN (R181). -/
theorem generateCodes_ends {s : State} (ht : TreeOk s) (hc : CodesOk s) :
    (generateCodes s).Ends (fun _ t => CodesOk t) fun _ t => CodesOk t := by
  by_cases hroot : s.root = Config.nil
  · rw [generateCodes_bad hroot]; exact hc
  · obtain ⟨t, hrun, made⟩ := generateCodes_codesOfTree ht hroot
    rw [hrun]; exact made.codes

/-- `WrTable(w)` (R191). -/
theorem writeTable_ends (w : Nat) (s : State) :
    (writeTable w s).Ends (fun _ t => t = { s with snk := s.snk ++ tableBytes w s })
      (fun _ t => ∃ n, t = { s with snk := s.snk ++ (tableBytes w s).take n }) (¬ SinkFits (tableBytes w s).length s) := by
  unfold writeTable; split
  · exact ⟨0, by simp⟩
  · exact (snkWriteAll_ends _ s).mono (fun _ _ h => h) fun _ _ h => h.2

/-- `WrTableX(w)` (R199). -/
theorem writeTableText_ends (w : Nat) (s : State) :
    (writeTableText w s).Ends (fun _ t => t = { s with snk := s.snk ++ tableText w s })
      (fun _ t => ∃ n, t = { s with snk := s.snk ++ (tableText w s).take n }) (¬ SinkFits (tableText w s).length s) := by
  unfold writeTableText; split
  · exact ⟨0, by simp⟩
  · exact (snkWriteAll_ends _ s).mono (fun _ _ h => h) fun _ _ h => h.2

/-- DT_BUILD (R253). -/
theorem buildTrie_trieOk {s : State} (h : Inv s) : (buildTrie s).Ends (fun _ t => TrieOk t) fun _ t => TrieOk t := by
  obtain ⟨-, -, -, -, hct, htrie⟩ := memoriesWf_iff.1 h.memories
  refine (buildTrie_ends htrie h.codes hct).mono ?_ ?_
  · rintro - t ⟨⟨_, _, built⟩, -⟩
    exact built.spells.trieOk
  · rintro - t ⟨-, -, ⟨_, _, spells⟩, -⟩
    exact spells.trieOk

/-! What the commands keep. -/

/-- The heap and the arena. -/
theorem exec_queueOk {i : Instr} {s t : State} (hs : QueueOk s) (h : exec i s = .next t) : QueueOk t := by
  have fault (k : ErrKind) (u : State) (hu : QueueOk u) : QueueOk (enterFault k u) :=
    hu.of_frame rfl rfl rfl rfl rfl rfl rfl rfl hu.tree.root
  have frame := (exec_only h).1
  cases i with
  | rst => cases h; exact pqClear_ok (s := softReset s) rfl
  | pqClr => cases h; exact pqClear_ok hs.memories
  | pqIns n => exact finish_leaves (pqInsert_ends hs n).leaves fault h
  | pqExt => exact finish_leaves (pqExtract_ends hs).leaves fault h
  | tbMerge => exact finish_leaves (mergeStep_ends hs).leaves fault h
  | tbBuild => exact finish_leaves (buildTree_ends hs).leaves fault h
  | _ =>
    have same := (congrArg queueFields frame :)
    exact ⟨exec_memoriesWf h hs.memories, hs.heap.congr same, hs.tree.congr same⟩

/-- The code store. -/
theorem exec_codesOk {i : Instr} {s t : State} (hs : Inv s) (h : exec i s = .next t) : CodesOk t := by
  have fault (k : ErrKind) (u : State) (hu : CodesOk u) : CodesOk (enterFault k u) := hu.congr rfl
  have table {r : Run Unit} {K : ErrKind → Prop} (hr : r.Ends (fun _ u => TableOk u) fun k u => K k ∧ TableOk u) (ht : finish r = .next t) : CodesOk t :=
    finish_leaves (hr.mono (fun _ _ hu => hu.codes) fun _ _ hu => hu.2.codes).leaves fault ht
  have frame := (exec_only h).1
  cases i with
  | rst => cases h; exact fun _ _ => rfl
  | cgGen => exact finish_leaves (generateCodes_ends hs.tree hs.codes).leaves fault h
  | ctRd4 => exact table (readTable_ends 4 hs.streams) h
  | ctRd8 => exact table (readTable_ends 8 hs.streams) h
  | ctRdx => exact table (readTableText_ends hs.streams) h
  | _ => exact hs.codes.congr (congrArg State.ct frame :)

/-- The trie. -/
theorem exec_trieOk {i : Instr} {s t : State} (hs : Inv s) (h : exec i s = .next t) : TrieOk t := by
  have frame := (exec_only h).1
  cases i with
  | rst => cases h; exact trieOk_of_empty rfl
  | dtBuild => exact finish_leaves (buildTrie_trieOk hs).leaves (fun _ _ hu => hu.congr rfl rfl) h
  | _ => exact hs.trie.congr (congrArg State.trie frame :) (congrArg State.trieN frame :)

/-- The host's actions to come. -/
theorem exec_host {i : Instr} {s t : State} (h : exec i s = .next t) : t.host = s.host := by
  have frame := (exec_only h).1
  cases i <;> exact (congrArg State.host frame :)

/-- Every command that gives a next state keeps the invariant. -/
theorem exec_inv {i : Instr} {s t : State} (hs : Inv s) (h : exec i s = .next t) : Inv t where
  memories := exec_memoriesWf h hs.memories
  streams := exec_streamsOk hs.streams h
  heap := (exec_queueOk hs.queue h).heap
  tree := (exec_queueOk hs.queue h).tree
  codes := exec_codesOk hs h
  trie := exec_trieOk hs h
  sink := (exec_grows h).held.trans (max_le hs.sink (snkCap_le s))
  host := by rw [exec_host h]; exact hs.host

/-! Where the commands end. -/

theorem finish_completes {r : Run Unit} {P : Unit → State → Prop} {Q : ErrKind → State → Prop} {S : Prop} (h : r.Ends P Q S) :
    (∃ t, finish r = .next t) ∨ S ∧ finish r = .fault .sinkTooLong :=
  (finish_of_ends h).imp_left fun ⟨t, ht, _⟩ => ⟨t, ht⟩

/-- Under the invariant a command gives a next state, or stops at the end of a sink the host may not present (R300, R301; log 9). -/
theorem exec_completes (i : Instr) {s : State} (hs : Inv s) :
    (∃ t, exec i s = .next t) ∨ ¬ SinkHolds i s ∧ exec i s = .fault .sinkTooLong := by
  have silent {r : Run Unit} {P : Unit → State → Prop} {Q : ErrKind → State → Prop} (h : r.Ends P Q) :
      (∃ t, finish r = .next t) ∨ ¬ SinkHolds i s ∧ finish r = .fault .sinkTooLong := finish_completes (h.stops False.elim)
  cases i with
  | nop => exact .inl ⟨_, rfl⟩
  | rst => exact .inl ⟨_, rfl⟩
  | rwd => exact .inl ⟨_, rfl⟩
  | pqClr => exact .inl ⟨_, rfl⟩
  | fcScan => exact silent (scanSource_ends hs.streams)
  | pqIns n => exact silent (pqInsert_ends hs.queue n)
  | pqExt => exact silent (pqExtract_ends hs.queue)
  | tbMerge => exact silent (mergeStep_ends hs.queue)
  | tbBuild => exact silent (buildTree_ends hs.queue)
  | cgGen => exact silent (generateCodes_ends hs.tree hs.codes)
  | ctRd4 => exact silent (readTable_ends 4 hs.streams)
  | ctRd8 => exact silent (readTable_ends 8 hs.streams)
  | ctRdx => exact silent (readTableText_ends hs.streams)
  | dtBuild => exact silent (buildTrie_trieOk hs)
  | cfRdh => exact silent (readHeader_ends hs.streams)
  | ctWr4 => exact finish_completes (writeTable_ends 4 s)
  | ctWr8 => exact finish_completes (writeTable_ends 8 s)
  | ctWrx4 => exact finish_completes (writeTableText_ends 4 s)
  | ctWrx8 => exact finish_completes (writeTableText_ends 8 s)
  | cfWrh => exact finish_completes (snkWriteAll_ends (le Config.hdrC s.origSize) s)
  | bpEnc => exact finish_completes (packSource_ends hs.streams)
  | sdRun => exact finish_completes (runDecoder_ends hs.streams hs.trie)

/-- Settles O55: a command ends, but at the end of a sink too long, and the state it ends in meets the invariant. -/
theorem noCommandStops : Obligations.NoCommandStops := by
  intro i s hs
  rcases exec_completes i hs with ⟨t, ht⟩ | ⟨hlong, hstop⟩
  · have kept : ∃ t, exec i s = .next t ∧ Inv t := ⟨t, ht, exec_inv hs ht⟩
    exact ⟨fun _ => kept, .inl kept⟩
  · exact ⟨fun hholds => absurd hholds hlong, .inr hstop⟩

end Sys2Proof.Machine
end

section
/-! The two stream primitives and the footprint of a command (20_memory.md R61 to R63), with the obligations CommandFootprint, SrcReadTakesNextByte and SnkWriteAppends. -/

namespace Sys2Proof.Machine

/-- Settles O50: the half of `exec_only` that speaks of the fields. -/
theorem commandFootprint : Obligations.CommandFootprint := fun _ _ _ h => (exec_only h).1

/-! SrcRead (R62). -/

/-- Settles O11: a failing position at or below RP is a source that fails after no byte; one above RP, or none, is a source that gives a byte. -/
theorem srcReadTakesNextByte : Obligations.SrcReadTakesNextByte := by
  refine fun s => ⟨srcEof_iff, fun hleft => ⟨fun f hf hle => ?_, fun hfail => ?_⟩⟩
  · have fails : SourceFailsAfter 0 s := ⟨hleft, f, hf, max_eq_left hle⟩
    exact fails.read
  · have gives : SourceGives 1 s := ⟨hleft, fun f hf => .inr (hfail f hf)⟩
    exact srcRead_ok gives (sourceRest_cons hleft)

/-! SnkWrite (R63). -/

theorem snkCap_unlimited {s : State} (h : s.snkLimit = none) : snkCap s = 2 ^ 64 - 1 := by simp [snkCap, h, Config.lenMax]

/-- Below what the host's sink holds, SnkWrite appends the byte. -/
theorem snkWrite_append (b : Byte) {s : State} (h : s.snk.length < snkCap s) : snkWrite b s = .ok () { s with snk := s.snk ++ [b] } :=
  snkWrite_eq_ok.2 ⟨snkFull_false_of_takes (n := 0) (.inr h), rfl⟩

/-- With the host's sink full, SnkWrite is the end of the sink. -/
theorem snkWrite_full (b : Byte) {s : State} (h : snkCap s ≤ s.snk.length) : snkWrite b s = snkEnd s := by
  simp [snkWrite, snkFull, h]

/-- Settles O12: the host's sink holds SNK_LIMIT bytes, or LEN_MAX where there is no limit, and is full or not. -/
theorem snkWriteAppends : Obligations.SnkWriteAppends := by
  refine fun b s => ⟨fun n hn hfull => ?_, fun n hn hroom => ?_, fun hn hroom => ?_, fun hn hfull => ?_⟩
  · rw [← snkCap_limited hn] at hfull
    rw [snkWrite_full b hfull, snkEnd_limited (by simp [hn])]
  · rw [← snkCap_limited hn] at hroom
    exact snkWrite_append b hroom
  · rw [← snkCap_unlimited hn] at hroom
    exact snkWrite_append b hroom
  · rw [← snkCap_unlimited hn] at hfull
    rw [snkWrite_full b hfull, snkEnd_unlimited hn]

end Sys2Proof.Machine
end

section
/-! The opcode map and the fields of the command word (30_encoding.md R90 to R97), with the obligations EncodeDecodeRoundTrip, OpcodeMapSelects, DecodedWordReencodes, CmdWriteDecoding and SpecWordsDecode. -/

namespace Sys2Proof.Machine

/-! The rows. -/

/-- A mask that is all ones on a field leaves the field as it is. -/
theorem extractLsb'_and_of_allOnes {w m : CmdWord} {start len : Nat} (hm : m.extractLsb' start len = BitVec.allOnes len) :
    (w &&& m).extractLsb' start len = w.extractLsb' start len := by
  rw [BitVec.extractLsb'_and, hm, BitVec.and_allOnes]

/-- The opcodes of the rows are distinct (R93). -/
theorem nodup_rowOpcodes : (opcodeMap.map fun r => opcodeField r.pattern).Nodup := by decide

/-- A row of format Z: its one word is its command's, has no bit above the opcode, and the opcode is not that of PQ_INS (R91). -/
structure FormatZ (r : OpcodeRow) : Prop where
  mask : r.mask = maskZ
  opcode : opcodeField r.pattern ≠ 0x21#8
  upper : r.pattern.extractLsb' 8 24 = 0#24
  word : ∀ n, encode (r.command n) = r.pattern
  wellFormed : ∀ n, (r.command n).wellFormed = true

theorem formatZ_iff {r : OpcodeRow} : FormatZ r ↔ r.mask = maskZ ∧ opcodeField r.pattern ≠ 0x21#8 ∧
    r.pattern.extractLsb' 8 24 = 0#24 ∧ (∀ n, encode (r.command n) = r.pattern) ∧ ∀ n, (r.command n).wellFormed = true :=
  ⟨fun ⟨a, b, c, d, e⟩ => ⟨a, b, c, d, e⟩, fun ⟨a, b, c, d, e⟩ => ⟨a, b, c, d, e⟩⟩

/-- The row of PQ_INS, the only one of format N (R92). -/
def rowN : OpcodeRow := ⟨0x00000021#32, maskN, .pqIns⟩

theorem row_format {r : OpcodeRow} (hr : r ∈ opcodeMap) : FormatZ r ∨ r = rowN := by
  rw [or_iff_not_imp_right]
  revert r
  simp only [opcodeMap, List.forall_mem_append, List.forall_mem_cons]
  simp [formatZ_iff, rowN, opcodeField, wordZ, encode, Instr.wellFormed]

/-- Every row fixes the opcode field (R91, R92). -/
theorem opcodeField_of_selects {r : OpcodeRow} (hr : r ∈ opcodeMap) {w : CmdWord} (h : w &&& r.mask = r.pattern) :
    opcodeField w = opcodeField r.pattern := by
  have hmask : opcodeField r.mask = BitVec.allOnes 8 := by
    rcases row_format hr with hz | rfl
    · rw [hz.mask]; decide
    · decide
  rw [← h]
  exact (extractLsb'_and_of_allOnes hmask).symm

/-- A row with the word's opcode is the one the decoder finds. -/
theorem find_row {r : OpcodeRow} (hr : r ∈ opcodeMap) {w : CmdWord} (h : opcodeField r.pattern = opcodeField w) :
    opcodeMap.find? (fun q => opcodeField q.pattern == opcodeField w) = some r := by
  have hsome : (opcodeMap.find? fun q => opcodeField q.pattern == opcodeField w).isSome := List.find?_isSome.2 ⟨r, hr, by simpa using h⟩
  obtain ⟨q, hq⟩ := Option.isSome_iff_exists.1 hsome
  have hop : opcodeField q.pattern = opcodeField w := by simpa using List.find?_some hq
  rw [hq, List.inj_on_of_nodup_map nodup_rowOpcodes (List.mem_of_find?_eq_some hq) hr (hop.trans h.symm)]

/-- A word decodes to the command of the row that selects it, with the operand of its field, and to nothing else (R93, R96). -/
theorem decode_eq_ok_iff {w : CmdWord} {i : Instr} :
    decode w = .ok i ↔ ∃ r ∈ opcodeMap, w &&& r.mask = r.pattern ∧ r.command (operandField w).toNat = i := by
  constructor
  · intro h
    unfold decode at h
    split at h
    · cases h
    · next r hfind =>
      split at h
      · next hsel => exact ⟨r, List.mem_of_find?_eq_some hfind, hsel, Except.ok.inj h⟩
      · cases h
  · rintro ⟨r, hr, hsel, rfl⟩
    rw [decode, find_row hr (opcodeField_of_selects hr hsel).symm]
    exact if_pos hsel

open Laws.SelectedByRow in
/-- Each command's word is selected by the command's own row alone (R93). -/
theorem selectedByRow : ∀ i, Statement i
  | .nop => nop | .rst => rst | .rwd => rwd | .fcScan => fcScan | .pqClr => pqClr | .pqIns n => pqIns n | .pqExt => pqExt
  | .tbMerge => tbMerge | .tbBuild => tbBuild | .cgGen => cgGen | .ctWr4 => ctWr4 | .ctWr8 => ctWr8 | .ctRd4 => ctRd4
  | .ctRd8 => ctRd8 | .ctWrx4 => ctWrx4 | .ctWrx8 => ctWrx8 | .ctRdx => ctRdx | .cfWrh => cfWrh | .bpEnc => bpEnc
  | .dtBuild => dtBuild | .cfRdh => cfRdh | .sdRun => sdRun

/-- Settles O2: the command's own row selects its word. -/
theorem encodeDecodeRoundTrip : Obligations.EncodeDecodeRoundTrip := by
  intro i hi
  have mem : i ∈ (Laws.SelectedByRow.selecting (encode i)).map fun r => r.command (operandField (encode i)).toNat := by
    rw [selectedByRow i hi]
    exact List.mem_singleton_self i
  obtain ⟨r, hr, hcommand⟩ := List.mem_map.1 mem
  obtain ⟨hmap, hsel⟩ := List.mem_filter.1 hr
  exact decode_eq_ok_iff.2 ⟨r, hmap, of_decide_eq_true hsel, hcommand⟩

/-- Settles O1: for each command the rows but its own name another command. -/
theorem opcodeMapSelects : Obligations.OpcodeMapSelects := by
  intro w
  simp only [decode_eq_ok_iff]
  simp [opcodeMap, maskZ, maskN, operandField, eq_comm]

/-! The fields of the word. -/

/-- The fields of a word: reserved bits, operand, opcode (R90, R92). -/
theorem word_eq_fields (w : CmdWord) : w = w.extractLsb' 17 15 ++ (operandField w ++ opcodeField w) := by
  rw [operandField, opcodeField, BitVec.extractLsb'_append_extractLsb'_eq_extractLsb' (start₂ := 8) (start₁ := 0) rfl,
    BitVec.extractLsb'_append_extractLsb'_eq_extractLsb' (start₂ := 17) (start₁ := 0) rfl, BitVec.extractLsb'_eq_self]

/-- The bits above the opcode taken as one field (R91). -/
theorem word_eq_upper_opcode (w : CmdWord) : w = w.extractLsb' 8 24 ++ opcodeField w := by
  rw [opcodeField, BitVec.extractLsb'_append_extractLsb'_eq_extractLsb' (start₂ := 8) (start₁ := 0) rfl, BitVec.extractLsb'_eq_self]

/-- A word of format N by its fields (R92). -/
theorem wordN_eq_fields (op : BitVec 8) (n : BitVec 9) : wordN op n.toNat = 0#15 ++ (n ++ op) := by
  calc
    wordN op n.toNat = n.setWidth 32 <<< 8 ||| op.setWidth 32 := by rw [wordN, BitVec.or_comm, BitVec.ofNat_toNat]
    _ = (n ++ op).setWidth 32 := BitVec.setWidth_append_eq_shiftLeft_setWidth_or.symm
    _ = 0#15 ++ (n ++ op) := BitVec.setWidth_eq_append (by decide)

/-- The row of PQ_INS selects the words of its opcode with `w[31:17]` zero (R92, R94 step 4). -/
theorem selects_formatN_iff (w : CmdWord) :
    w &&& maskN = 0x00000021#32 ↔ opcodeField w = 0x21#8 ∧ w.extractLsb' 17 15 = 0#15 := by
  constructor
  · intro h
    have field {start len : Nat} (hm : maskN.extractLsb' start len = BitVec.allOnes len) :
        w.extractLsb' start len = (0x00000021#32).extractLsb' start len := by rw [← h, extractLsb'_and_of_allOnes hm]
    exact ⟨field (by decide), field (by decide)⟩
  · rintro ⟨hop, hres⟩
    have hm : maskN = BitVec.allOnes 15 ++ (0#9 ++ BitVec.allOnes 8) := by decide
    rw [word_eq_fields w, hm, BitVec.and_append, BitVec.and_append, BitVec.and_zero, hop, hres]
    decide

theorem and_maskZ (w : CmdWord) : w &&& maskZ = w := BitVec.and_allOnes

/-- A word of format Z selects the words of its opcode with `w[31:8]` zero (R91, R94 step 5). -/
theorem eq_formatZ_iff {p : CmdWord} (hp : p.extractLsb' 8 24 = 0#24) (w : CmdWord) :
    w = p ↔ opcodeField w = opcodeField p ∧ w.extractLsb' 8 24 = 0#24 := by
  constructor
  · rintro rfl
    exact ⟨rfl, hp⟩
  · rintro ⟨hop, hres⟩
    rw [word_eq_upper_opcode w, word_eq_upper_opcode p, hop, hres, hp]

/-- Settles O3: a word is its fields, and the row that selects it fixes every field but the operand. -/
theorem decodedWordReencodes : Obligations.DecodedWordReencodes := by
  intro w i h
  obtain ⟨r, hr, hsel, rfl⟩ := decode_eq_ok_iff.1 h
  rcases row_format hr with hz | rfl
  · rw [hz.mask, and_maskZ] at hsel
    exact ⟨(hz.word _).trans hsel.symm, hz.wellFormed _⟩
  · obtain ⟨hop, hres⟩ := (selects_formatN_iff w).1 hsel
    refine ⟨?_, decide_eq_true (operandField w).isLt⟩
    calc
      encode (.pqIns (operandField w).toNat) = 0#15 ++ (operandField w ++ 0x21#8) := wordN_eq_fields ..
      _ = w.extractLsb' 17 15 ++ (operandField w ++ opcodeField w) := by rw [hop, hres]
      _ = w := (word_eq_fields w).symm

/-! The write of CMD (R94). -/

/-- The reserved bits of the word's own format are zero (R94 steps 4 and 5). -/
structure ReservedZero (w : CmdWord) : Prop where
  formatN : opcodeField w = 0x21#8 → w.extractLsb' 17 15 = 0
  formatZ : opcodeField w ≠ 0x21#8 → w.extractLsb' 8 24 = 0

/-- A row selects the words of its opcode whose reserved bits are zero (R93, R94). -/
theorem selects_iff {r : OpcodeRow} (hr : r ∈ opcodeMap) (w : CmdWord) :
    w &&& r.mask = r.pattern ↔ opcodeField w = opcodeField r.pattern ∧ ReservedZero w := by
  rcases row_format hr with hz | rfl
  · rw [hz.mask, and_maskZ, eq_formatZ_iff hz.upper]
    refine and_congr_right fun hop => ?_
    have hne : opcodeField w ≠ 0x21#8 := hop ▸ hz.opcode
    exact ⟨fun h => ⟨fun hN => absurd hN hne, fun _ => h⟩, fun h => h.formatZ hne⟩
  · refine (selects_formatN_iff w).trans (and_congr_right fun hop => ?_)
    exact ⟨fun h => ⟨fun _ => h, fun hZ => absurd hop hZ⟩, fun h => h.formatN hop⟩

/-- A word is a command exactly where its opcode is listed and its reserved bits are zero (R94 steps 3 to 5). -/
theorem decodes_iff (w : CmdWord) :
    (∃ i, decode w = .ok i) ↔ opcodeField w ∈ opcodeMap.map (fun r => opcodeField r.pattern) ∧ ReservedZero w := by
  constructor
  · rintro ⟨i, h⟩
    obtain ⟨r, hr, hsel, -⟩ := decode_eq_ok_iff.1 h
    obtain ⟨hop, hres⟩ := (selects_iff hr w).1 hsel
    exact ⟨List.mem_map.2 ⟨r, hr, hop.symm⟩, hres⟩
  · rintro ⟨hop, hres⟩
    obtain ⟨r, hr, hop⟩ := List.mem_map.1 hop
    exact ⟨_, decode_eq_ok_iff.2 ⟨r, hr, (selects_iff hr w).2 ⟨hop.symm, hres⟩, rfl⟩⟩

theorem writeCmd_faulted {s : State} (h : s.err ≠ none) (w : CmdWord) :
    writeCmd w s = if w = rstWord then exec .rst s else .next s := if_pos (Option.isSome_iff_ne_none.2 h)

theorem writeCmd_decoded {s : State} {w : CmdWord} {i : Instr} (h : s.err = none) (hw : decode w = .ok i) :
    writeCmd w s = exec i s := by simp [writeCmd, h, hw]

theorem writeCmd_refused {s : State} {w : CmdWord} (h : s.err = none) (hw : ¬ ∃ i, decode w = .ok i) :
    writeCmd w s = .next (enterFault .badCommand s) := by
  cases hd : decode w with
  | ok i => exact absurd ⟨i, hd⟩ hw
  | error e => simp [writeCmd, h, hd]

/-- Settles O5: the words of steps 3 to 5 are those that do not decode; one that decodes is the word of what it decodes to. -/
theorem cmdWriteDecoding : Obligations.CmdWriteDecoding := by
  intro w s
  refine ⟨fun he => writeCmd_faulted he w, fun he hop => ?_, fun he hop hres => ?_, fun he _ hne hres => ?_, fun he hop hN hZ => ?_⟩
  · exact writeCmd_refused he fun hd => hop ((decodes_iff w).1 hd).1
  · exact writeCmd_refused he fun hd => hres (((decodes_iff w).1 hd).2.formatN hop)
  · exact writeCmd_refused he fun hd => hres (((decodes_iff w).1 hd).2.formatZ hne)
  · obtain ⟨i, hi⟩ := (decodes_iff w).2 ⟨hop, hN, hZ⟩
    obtain ⟨hword, hwf⟩ := decodedWordReencodes w i hi
    exact ⟨i, hwf, hword, writeCmd_decoded he hi⟩

/-- Settles O4: word by word. -/
theorem specWordsDecode : Obligations.SpecWordsDecode := by
  unfold Obligations.SpecWordsDecode
  decide

end Sys2Proof.Machine
end

section
/-! What a fault-free BP_ENC leaves (45_bit_packer.md R233; 30_encoding.md R112), with the obligation BpEncPacksCodes. -/

namespace Sys2Proof.Machine

/-- The packed code bits are `ceil8` of the codes' lengths together (R112). -/
theorem length_packbits_codeBits (s : State) (msg : List Byte) :
    (packbits (codeBits s msg)).length = ceil8 (msg.map fun b => (codeOf s b).length).sum := by
  rw [length_packbits, codeBits, List.length_flatMap]

/-- The packer's passes over all of a source whose bytes have codes: the whole bytes are in the sink, the other bits wait (R233). -/
theorem packSource_passes {s : State} (hs : StreamsOk s) (hg : SourceGives (srcLeft s) s) (he : Encodable s (sourceRest s))
    (hk : SinkTakes ((codeBits s (sourceRest s)).length / 8) s) :
    whileSrc packSymbol (srcLeft s) [] s = .ok (restBits (codeBits s (sourceRest s)))
      { s with rp := BitVec.ofNat 64 s.src.length, snk := s.snk ++ wholeBytes (codeBits s (sourceRest s)) } := by
  have passes := packSymbols_ok (sourceRest s) 0 (acc := []) (rest := []) hs (by rwa [length_sourceRest]) (List.append_nil _).symm he hk
    (by decide)
  rw [length_sourceRest, Nat.add_zero, List.nil_append, advance_all s hs] at passes
  have atEnd : (BitVec.ofNat 64 s.src.length).toNat = s.src.length := 
    (BitVec.toNat_ofNat ..).trans (Nat.mod_eq_of_lt (hs.len.trans_lt (by decide)))
  rw [passes, whileSrc, if_pos (srcEof_iff.2 atEnd)]

/-- BP_ENC packs a source whose bytes have codes, into a sink that takes the bytes (R233). -/
theorem packSource_ok {s : State} (hs : StreamsOk s) (hg : SourceGives (srcLeft s) s) (he : Encodable s (sourceRest s))
    (hk : SinkTakes (packbits (codeBits s (sourceRest s))).length s) :
    packSource s = .ok () { s with rp := BitVec.ofNat 64 s.src.length, snk := s.snk ++ packbits (codeBits s (sourceRest s)) } := by
  have hsplit := packbits_eq (codeBits s (sourceRest s))
  generalize hbits : codeBits s (sourceRest s) = bits at hk hsplit ⊢
  rw [hsplit, List.length_append] at hk
  have hwhole : SinkTakes (bits.length / 8) s := hk.le (by simp)
  have hrest : SinkTakes (packbits (restBits bits)).length
      { s with rp := BitVec.ofNat 64 s.src.length, snk := s.snk ++ wholeBytes bits } :=
    sinkTakes_append (s := { s with rp := BitVec.ofNat 64 s.src.length }) hk
  rw [packSource, packSource_passes hs hg he (by rwa [hbits]), hbits, Run.andThen_ok,
    flushRest_ok (by rw [length_restBits]; omega) hrest, hsplit, List.append_assoc]

/-- Settles O39: the whole bytes of the passes and the padded rest are the packed bits. -/
theorem bpEncPacksCodes : Obligations.BpEncPacksCodes := by
  intro s hs hg he out hk
  refine ⟨congrArg finish (packSource_ok hs hg he hk), length_packbits_codeBits s _, fun hnil => ?_⟩
  simp [out, hnil, codeBits]

end Sys2Proof.Machine
end

section
/-! What FC_SCAN leaves (40_frequency_counter.md R131, R132), with the obligations FcScanCounts and FcScanStopsAtFailingByte. -/

namespace Sys2Proof.Machine

/-- A number that fits the width is not cut. -/
theorem toNat_ofNat_of_lt {w n : Nat} (h : n < 2 ^ w) : (BitVec.ofNat w n).toNat = n :=
  (BitVec.toNat_ofNat ..).trans (Nat.mod_eq_of_lt h)

/-! The counts of a byte string, cell by cell. -/

/-- Each cell holds how often its byte occurs, without wrap. -/
def Tallies (f : Cells Count) (bs : List Byte) : Prop := ∀ b : Byte, (readCell 0#64 f b.toNat).toNat = bs.count b

/-- Counts taken from an all-zero FREQ do not wrap on a source a host may present (R41, R131). -/
theorem Counts.tallies {f : Cells Count} {bs : List Byte} (h : Counts [] f bs) (hl : bs.length ≤ Config.lenMax) : Tallies f bs := by
  intro b
  have hb : bs.count b < 2 ^ 64 := (List.count_le_length.trans hl).trans_lt (by decide)
  rw [h.2 b, readCell_nil, BitVec.zero_add, toNat_ofNat_of_lt hb]

/-- A cell by its index, where the bytes are taken as numbers. -/
theorem Tallies.cell {f : Cells Count} {bs : List Byte} (h : Tallies f bs) {i : Nat} (hi : i < 256) :
    (readCell 0#64 f i).toNat = (bs.map BitVec.toNat).count i := by
  have byte : (BitVec.ofNat 8 i).toNat = i := toNat_ofNat_of_lt hi
  calc (readCell 0#64 f i).toNat = (readCell 0#64 f (BitVec.ofNat 8 i).toNat).toNat := by rw [byte]
    _ = bs.count (BitVec.ofNat 8 i) := h _
    _ = (bs.map BitVec.toNat).count (BitVec.ofNat 8 i).toNat :=
        (List.count_map_of_injective bs BitVec.toNat (fun _ _ => BitVec.eq_of_toNat_eq) _).symm
    _ = (bs.map BitVec.toNat).count i := by rw [byte]

theorem toNat_lt_of_mem_map {bs : List Byte} {i : Nat} (h : i ∈ bs.map BitVec.toNat) : i < 256 := by
  obtain ⟨b, -, rfl⟩ := List.mem_map.1 h
  exact b.isLt

/-- Numbers below `n`, counted one value at a time. -/
theorem sum_range_count {l : List Nat} {n : Nat} (h : ∀ i ∈ l, i < n) : ((List.range n).map fun i => l.count i).sum = l.length := by
  rw [← List.sum_toFinset _ List.nodup_range, List.toFinset_range]
  simpa using Multiset.sum_count_eq_card (m := (l : Multiset Nat)) fun i hi => Finset.mem_range.2 (h i hi)

/-- Each byte is counted in one cell, so the cells sum to the number of bytes (R132). -/
theorem Tallies.sum {f : Cells Count} {bs : List Byte} (h : Tallies f bs) :
    ((List.range 256).map fun i => (readCell 0#64 f i).toNat).sum = bs.length := by
  calc ((List.range 256).map fun i => (readCell 0#64 f i).toNat).sum
      = ((List.range 256).map fun i => (bs.map BitVec.toNat).count i).sum :=
        congrArg List.sum (List.map_congr_left fun i hi => h.cell (List.mem_range.1 hi))
    _ = (bs.map BitVec.toNat).length := sum_range_count fun _ => toNat_lt_of_mem_map
    _ = bs.length := List.length_map _

/-- The cells that are not zero are those of the bytes that occur (R132). -/
theorem Tallies.mem_nonzero {f : Cells Count} {bs : List Byte} (h : Tallies f bs) (i : Nat) :
    i ∈ (List.range 256).filter (fun i => decide (readCell 0#64 f i ≠ 0#64)) ↔ i ∈ bs.map BitVec.toNat := by
  rw [List.mem_filter, List.mem_range, decide_eq_true_iff, ← List.count_pos_iff]
  have nonzero (hi : i < 256) : readCell 0#64 f i ≠ 0#64 ↔ 0 < (bs.map BitVec.toNat).count i := by
    rw [← h.cell hi, Nat.pos_iff_ne_zero, ne_eq, BitVec.toNat_eq, BitVec.toNat_zero]
  exact ⟨fun ⟨hi, hz⟩ => (nonzero hi).1 hz,
    fun hp =>
      have hi : i < 256 := toNat_lt_of_mem_map (List.count_pos_iff.1 hp)
      ⟨hi, (nonzero hi).2 hp⟩⟩

/-- As many cells are not zero as there are distinct bytes (R132). -/
theorem Tallies.length_nonzero {f : Cells Count} {bs : List Byte} (h : Tallies f bs) :
    ((List.range 256).filter fun i => decide (readCell 0#64 f i ≠ 0#64)).length = bs.dedup.length := by
  have perm := (List.perm_ext_iff_of_nodup (List.nodup_range.filter _) (List.nodup_dedup _)).2 fun i =>
    (h.mem_nonzero i).trans List.mem_dedup.symm
  rw [perm.length_eq, List.dedup_map_of_injective fun _ _ => BitVec.eq_of_toNat_eq, List.length_map]

/-! The scan. -/

/-- The scan over the first `j` bytes the source gives, and what it still has to do (R131). -/
theorem scanSource_passes {j : Nat} {s : State} (hs : StreamsOk s) (hg : SourceGives j s) :
    ∃ f, Tallies f ((sourceRest s).take j) ∧ scanSource s =
      (whileSrc countByte (srcLeft s - j) (BitVec.ofNat 64 j) { advance j s with freq := f }).andThen fun n t => .ok () { t with origSize := n } := by
  have hj : j ≤ srcLeft s := by have := hg.1; simp only [srcLeft]; omega
  obtain ⟨f, passes, counts⟩ := countBytes_ok j (srcLeft s - j) 0#64 (s := { s with freq := [] }) ⟨hs.pos, hs.len⟩ rfl hg
  refine ⟨f, counts.tallies ?_, ?_⟩
  · calc ((sourceRest s).take j).length ≤ srcLeft s := (List.length_take_le' ..).trans_eq (length_sourceRest s)
      _ ≤ Config.lenMax := (Nat.sub_le ..).trans hs.len
  · rw [Nat.add_sub_cancel' hj, BitVec.zero_add] at passes
    rw [scanSource, passes]
    rfl

/-- A failing read ends the pass and counts nothing (R131, 20_memory.md R62). -/
theorem countByte_fails {n : Count} {s : State} (h : SourceFailsAfter 0 s) : countByte n s = .raise .ioError s := by
  rw [countByte, h.read, Run.andThen_raise]

/-- A source that fails at `f` fails after the bytes up to `f`, or at once where RP is past it (20_memory.md R62). -/
theorem sourceFailsAfter_of_srcFail {s : State} {f : Count} (hf : s.srcFail = some f) (h : max s.rp.toNat f.toNat < s.src.length) :
    SourceFailsAfter (max s.rp.toNat f.toNat - s.rp.toNat) s :=
  ⟨by omega, f, hf, by omega⟩

/-- RP moved on to a position ahead of it. -/
theorem rp_add_sub {s : State} {k : Nat} (h : s.rp.toNat ≤ k) : s.rp + BitVec.ofNat 64 (k - s.rp.toNat) = BitVec.ofNat 64 k := by
  calc s.rp + BitVec.ofNat 64 (k - s.rp.toNat)
      = BitVec.ofNat 64 (s.rp.toNat + (k - s.rp.toNat)) := by rw [BitVec.ofNat_add, BitVec.ofNat_toNat, BitVec.setWidth_eq]
    _ = BitVec.ofNat 64 k := by rw [Nat.add_sub_cancel' h]

/-- Settles O15: the passes take every byte, the counts do not wrap, and what they sum to follows from the counts. -/
theorem fcScanCounts : Obligations.FcScanCounts := by
  intro s hs hg
  obtain ⟨f, tallies, scan⟩ := scanSource_passes hs hg
  rw [← length_sourceRest, List.take_length] at tallies
  rw [advance_all s hs, Nat.sub_self] at scan
  have hleft : srcLeft s < 2 ^ 64 := ((Nat.sub_le ..).trans hs.len).trans_lt (by decide)
  have atEnd : (BitVec.ofNat 64 s.src.length).toNat = s.src.length := toNat_ofNat_of_lt (hs.len.trans_lt (by decide))
  refine ⟨f, ?_, tallies, tallies.sum.trans (length_sourceRest s), toNat_ofNat_of_lt hleft, tallies.length_nonzero⟩
  rw [whileSrc, if_pos (srcEof_iff.2 atEnd), Run.andThen_ok] at scan
  exact congrArg finish scan

/-- Settles O16: the passes take the bytes before the failing one, and the next pass raises. -/
theorem fcScanStopsAtFailingByte : Obligations.FcScanStopsAtFailingByte := by
  intro s f hs hf k hk
  have fails : SourceFailsAfter (k - s.rp.toNat) s := sourceFailsAfter_of_srcFail hf hk
  obtain ⟨c, tallies, scan⟩ := scanSource_passes hs fails.gives
  refine ⟨c, ?_, tallies⟩
  have here : SourceFailsAfter 0 { advance (k - s.rp.toNat) s with freq := c } := fails.after (m := 0) hs
  have notEof : srcEof { advance (k - s.rp.toNat) s with freq := c } = false :=
    SourceFailsAfter.not_eof (s := advance (k - s.rp.toNat) s) here (fails.gives.streamsOk hs)
  obtain ⟨m, left⟩ : ∃ m, srcLeft s - (k - s.rp.toNat) = m + 1 :=
    Nat.exists_eq_succ_of_ne_zero (by have := fails.1; simp only [srcLeft]; omega)
  rw [left, whileSrc, if_neg (by rw [notEof]; decide), countByte_fails here, Run.andThen_raise, Run.andThen_raise] at scan
  refine (congrArg finish scan).trans ?_
  rw [finish_raise, ← rp_add_sub (k := k) (le_max_left ..)]
  rfl

end Sys2Proof.Machine
end

section
/-! The order of nodes and the commands PQ_CLR, PQ_INS and PQ_EXT under the invariant (41_priority_queue.md R142 to R148), with the obligations HeapOrderStrictTotal, PqClrEmpties, PqInsEntersLeaf, PqExtRemovesLeast and PqExtSeesLiveSetOnly. -/

namespace Sys2Proof.Machine

/-! The order (R142). -/

/-- `nodeLess` of two nodes that hold values compares their keys. -/
theorem nodeLess_iff {s : State} {i j : NodeIx} {x y : TreeNode} (hx : nodeOf s i.toNat = some x) (hy : nodeOf s j.toNat = some y) :
    nodeLess s i j = true ↔ keyRank x < keyRank y := by
  simp only [nodeLess, hx, hy, keyLess_iff]

/-- Two different live nodes have different keys (10_state.md R36). -/
theorem QueueOk.keyRank_ne {s : State} (h : QueueOk s) {i j : NodeIx} (hi : i ∈ liveNodes s) (hj : j ∈ liveNodes s) (hij : i ≠ j)
    {x y : TreeNode} (hx : nodeOf s i.toNat = some x) (hy : nodeOf s j.toNat = some y) : keyRank x ≠ keyRank y := by
  have htb := h.tbOf_ne hi hj hij
  simp only [tbOf, hx, hy, Option.map_some, Option.getD_some] at htb
  have := x.tb.isLt
  have := y.tb.isLt
  simp only [keyRank]
  omega

/-- Settles O17: keys are compared as numbers, and those of two live nodes differ. -/
theorem heapOrderStrictTotal : Obligations.HeapOrderStrictTotal := by
  refine ⟨fun x y => ?_, fun s hs i hi j hj hij => ?_⟩
  · simp only [keyLess, Bool.or_eq_true, Bool.and_eq_true, decide_eq_true_eq, BitVec.lt_def]
  · obtain ⟨x, hx⟩ := Option.isSome_iff_exists.1 (hs.queue.ready.node_isSome hi)
    obtain ⟨y, hy⟩ := Option.isSome_iff_exists.1 (hs.queue.ready.node_isSome hj)
    have hne := hs.queue.keyRank_ne hi hj hij hx hy
    rw [← Bool.not_eq_true, nodeLess_iff hx hy, nodeLess_iff hy hx]
    omega

/-! PQ_CLR (R145). -/

/-- Settles O18: PQ_CLR is one write of these registers, an empty INS reads 0, and TREE_V is off where ROOT is NIL. -/
theorem pqClrEmpties : Obligations.PqClrEmpties := by
  intro s t
  refine ⟨rfl, insOf_pqClear s, ?_⟩
  rw [getLsbD_readReg_status]
  rfl

/-! PQ_INS (R146). -/

/-- Settles O19: in the two cases of the command's precondition. -/
theorem pqInsEntersLeaf : Obligations.PqInsEntersLeaf := by
  intro s n hs
  refine ⟨fun hbad => congrArg finish (pqInsert_bad hbad), fun hn hfree => ?_⟩
  obtain ⟨t, hrun, hq, hframe, hN, hnode, hins, hlive⟩ := pqInsert_ok hs.queue hn hfree
  refine ⟨t, congrArg finish hrun, hframe, ?_, hnode, fun b => ?_, hlive, hq.heap.heap⟩
  · rw [hframe]; exact hN
  · rw [hins b]
    by_cases hb : b = n <;> simp [hb]

/-! PQ_EXT (R147). -/

/-- A live node's index is not NIL: the arena ends below it (10_state.md R37). -/
theorem QueueOk.ne_nil_of_live {s : State} (h : QueueOk s) {i : NodeIx} (hi : i ∈ liveNodes s) : i ≠ Config.nil := by
  rintro rfl
  have hlt : 511 < s.nodeNext.toNat := h.heap.index _ hi
  have hcap : s.nodeNext.toNat ≤ 511 := h.tree.high
  omega

/-- PQ_EXT on an empty heap: RES and EMPTY say so. -/
theorem execPqExt_empty {s : State} (h : s.heapN = 0#9) : execPqExt s = .next { s with res := Config.nil, empty := true } := by
  rw [execPqExt, pqExtract, heapExtract_empty h]
  rfl

/-- What PQ_EXT does to a heap that is not empty: `m`, the least live node, is live no longer. -/
structure Extracted (s t : State) (m : NodeIx) : Prop where
  frame : t = { s with heap := t.heap, heapN := s.heapN - 1#9, res := m, empty := false }
  heapN : t.heapN.toNat + 1 = s.heapN.toNat
  live : (liveNodes s).Perm (m :: liveNodes t)
  least : LeastOf s m (liveNodes s)
  heap : HeapProperty t

theorem Extracted.mem_before {s t : State} {m : NodeIx} (h : Extracted s t m) : m ∈ liveNodes s :=
  h.live.symm.subset (List.mem_cons_self ..)

theorem execPqExt_live {s : State} (h : QueueOk s) (hN : s.heapN ≠ 0#9) : ∃ m t, execPqExt s = .next t ∧ Extracted s t m := by
  have hpos : 0 < s.heapN.toNat := Nat.pos_of_ne_zero fun e => hN (BitVec.eq_of_toNat_eq e)
  obtain ⟨m, t, hrun, hq, hframe, hN1, hlive, hleast⟩ := heapExtract_queue h hpos
  have hm : m ≠ Config.nil := h.ne_nil_of_live (hlive.symm.subset (List.mem_cons_self ..))
  refine ⟨m, { t with res := m, empty := false }, ?_, ?_, ?_, hlive, hleast, hq.heap.heap⟩
  · rw [execPqExt, pqExtract, hrun, Run.andThen_ok, decide_eq_false hm, finish_ok]
  · rw [hframe]
  · show t.heapN.toNat + 1 = _
    rw [hframe]
    show (s.heapN - 1#9).toNat + 1 = _
    omega

/-- Settles O20: the node extracted is least among the live nodes, so it is less than every other one. -/
theorem pqExtRemovesLeast : Obligations.PqExtRemovesLeast := by
  intro s hs
  refine ⟨execPqExt_empty, fun hN => ?_⟩
  obtain ⟨m, t, hrun, hx⟩ := execPqExt_live hs.queue hN
  refine ⟨m, t, hrun, hx.frame, hx.heapN, hx.live, fun j hj => ?_, hx.heap⟩
  have hmj : m ≠ j := fun e =>
    (List.nodup_cons.1 (hx.live.nodup_iff.1 hs.queue.live_nodup)).1 (e ▸ hj)
  have hjs : j ∈ liveNodes s := hx.live.symm.subset (List.mem_cons_of_mem _ hj)
  exact nodeLess_of_least hs.queue hx.mem_before hjs hjs hmj hx.least

/-! What PQ_EXT returns (R148). -/

/-- To be the least of some nodes depends on their cells alone. -/
theorem LeastOf.congr {s u : State} {i : NodeIx} {l l' : List NodeIx} (h : LeastOf u i l') (hi : nodeOf s i.toNat = nodeOf u i.toNat)
    (hl : ∀ j ∈ l, j ∈ l') (hn : ∀ j ∈ l, nodeOf s j.toNat = nodeOf u j.toNat) : LeastOf s i l := fun j hj x y hx hy =>
  h j (hl j hj) x y (hi.symm.trans hx) ((hn j hj).symm.trans hy)

/-- Settles O21: the least node of the live set is one node, whatever the layout. -/
theorem pqExtSeesLiveSetOnly : Obligations.PqExtSeesLiveSetOnly := by
  intro s u hs hu hlive hnode
  have hN : s.heapN = u.heapN := BitVec.eq_of_toNat_eq (by simpa using hlive.length_eq)
  by_cases h0 : s.heapN = 0#9
  · exact ⟨_, _, execPqExt_empty h0, execPqExt_empty (hN ▸ h0), rfl, rfl, hlive⟩
  · obtain ⟨m, t, hrun, hx⟩ := execPqExt_live hs.queue h0
    obtain ⟨k, v, hrun', hx'⟩ := execPqExt_live hu.queue (hN ▸ h0)
    have hk : k ∈ liveNodes s := hlive.symm.subset hx'.mem_before
    obtain rfl : m = k := least_unique hs.queue (fun _ hi => hi) hx.mem_before hk hx.least
      (hx'.least.congr (hnode k hk) (fun _ hj => hlive.subset hj) hnode)
    refine ⟨t, v, hrun, hrun', ?_, ?_, ?_⟩
    · rw [hx.frame, hx'.frame]
    · rw [hx.frame, hx'.frame]
    · exact (List.perm_cons m).1 (hx.live.symm.trans (hlive.trans hx'.live))

end Sys2Proof.Machine
end

section
/-! Which heap cells the heap's procedures write, from any state whose HEAP is canonical (41_priority_queue.md R143, R144). Unlike `Rearranged`, nothing is asked of the live nodes. -/

namespace Sys2Proof.Machine

/-! What a part gives where it does not stop. -/

/-- A part that ends normally meets `P` with its value and state, one that raises meets `Q`. Says nothing of a stop. -/
def Run.Gives {α : Type} (r : Run α) (P : α → State → Prop) (Q : State → Prop := fun _ => False) : Prop :=
  match r with
  | .ok a t => P a t
  | .raise _ t => Q t
  | .stop _ => True

theorem Run.Gives.mono {α : Type} {r : Run α} {P P' : α → State → Prop} {Q Q' : State → Prop} (h : r.Gives P Q)
    (hP : ∀ a t, P a t → P' a t) (hQ : ∀ t, Q t → Q' t) : r.Gives P' Q' := by
  cases r with
  | ok a t => exact hP a t h
  | raise k t => exact hQ t h
  | stop e => trivial

theorem Run.Gives.andThen {α β : Type} {r : Run α} {f : α → State → Run β} {P : α → State → Prop} {P' : β → State → Prop}
    {Q : State → Prop} (h : r.Gives P Q) (hf : ∀ a t, P a t → (f a t).Gives P' Q) : (r.andThen f).Gives P' Q := by
  cases r with
  | ok a t => exact hf a t h
  | raise k t => exact h
  | stop e => trivial

/-- What a part gives, and what it leaves whatever its ending. -/
theorem Run.Gives.and_leaves {α : Type} {r : Run α} {P : α → State → Prop} {Q R : State → Prop} (h : r.Gives P Q) (hR : r.Leaves R) :
    r.Gives (fun a t => P a t ∧ R t) Q := by
  cases r with
  | ok a t => exact ⟨h, hR⟩
  | raise k t => exact h
  | stop e => trivial

theorem Run.Gives.leaves {α : Type} {r : Run α} {P : State → Prop} (h : r.Gives (fun _ => P) P) : r.Leaves P := by
  cases r with
  | ok a t => exact h
  | raise k t => exact h
  | stop e => trivial

/-- Where a command whose parts raise nothing gives a next state, they gave it. -/
theorem finish_gives {r : Run Unit} {P : Unit → State → Prop} {t : State} (h : r.Gives P) (ht : finish r = .next t) : P () t := by
  rcases finish_eq_next.1 ht with rfl | ⟨k, u, rfl, rfl⟩
  · exact h
  · exact h.elim

/-- A command that raises gives the state it raised in, with ERR set (R318). -/
theorem finish_raised {r : Run Unit} {k : ErrKind} {s t : State} (hr : r = .raise k s) (ht : finish r = .next t) : enterFault k s = t := by
  rw [hr] at ht
  exact Host.Outcome.next.inj ht

/-- A part that begins with a read of a cell goes on in the same state, or stops. -/
theorem Run.Gives.read {α β : Type} {m : MemName} {i : Nat} {v : Option α} {s : State} {f : α → State → Run β} {P : β → State → Prop}
    {Q : State → Prop} (hf : ∀ a, (f a s).Gives P Q) : ((cellValue m i v s).andThen f).Gives P Q := by
  cases v with
  | none => trivial
  | some a => exact hf a

/-! The heap's procedures (R143, R144). -/

/-- `t` is `s` with `m` live nodes and with heap cells below `n` written. -/
structure HeapWithin (n : Nat) (m : BitVec 9) (s t : State) : Prop where
  frame : t = { s with heap := t.heap, heapN := m }
  wf : cellsWf none Config.heapCap t.heap = true
  above : ∀ k, n ≤ k → heapOf t k = heapOf s k

theorem HeapWithin.trans {n : Nat} {m m' : BitVec 9} {s t u : State} (h : HeapWithin n m s t) (h' : HeapWithin n m' t u) :
    HeapWithin n m' s u :=
  ⟨by rw [h'.frame, h.frame], h'.wf, fun k hk => (h'.above k hk).trans (h.above k hk)⟩

theorem HeapWithin.refl {n : Nat} {s : State} (hw : cellsWf none Config.heapCap s.heap = true) : HeapWithin n s.heapN s s :=
  ⟨rfl, hw, fun _ _ => rfl⟩

theorem HeapWithin.heapN_eq {n : Nat} {m : BitVec 9} {s t : State} (h : HeapWithin n m s t) : t.heapN = m := by rw [h.frame]

theorem lessAt_gives (p q : Nat) (s : State) : (lessAt p q s).Gives fun _ t => t = s :=
  .read fun _ => .read fun _ => .read fun _ => .read fun _ => rfl

theorem smallerOf_gives (c m : Nat) (s : State) :
    (smallerOf c m s).Gives fun a t => t = s ∧ (a = m ∨ a = c ∧ c < s.heapN.toNat) := by
  unfold smallerOf
  split
  · rename_i hc
    refine (lessAt_gives c m s).andThen ?_
    rintro b _ rfl
    cases b
    · exact ⟨rfl, .inl rfl⟩
    · exact ⟨rfl, .inr ⟨rfl, hc⟩⟩
  · exact ⟨rfl, .inl rfl⟩

theorem setHeap_gives {n k : Nat} (v : NodeIx) {s : State} (hw : cellsWf none Config.heapCap s.heap = true) (hk : k < n) :
    (setHeap k v s).Gives fun _ t => HeapWithin n s.heapN s t ∧ k < Config.heapCap := by
  unfold setHeap
  split
  · rename_i hcap
    exact ⟨⟨rfl, cellsWf_writeCell _ hcap hw, fun j hj => readCell_writeCell_other _ (by omega) hw⟩, hcap⟩
  · trivial

theorem swapHeap_gives {n p q : Nat} {s : State} (hw : cellsWf none Config.heapCap s.heap = true) (hp : p < n) (hq : q < n) :
    (swapHeap p q s).Gives fun _ t => HeapWithin n s.heapN s t := by
  refine .read fun i => .read fun j => ?_
  refine (setHeap_gives j hw hp).andThen fun _ t ⟨ht, _⟩ => (setHeap_gives i ht.wf hq).mono (fun _ u ⟨hu, _⟩ => ?_) fun _ => id
  exact ht.trans (ht.heapN_eq ▸ hu)

/-- The sift-up writes no cell above its starting position (R143). -/
theorem siftUp_gives {n : Nat} (fuel k : Nat) {s : State} (hw : cellsWf none Config.heapCap s.heap = true) (hk : k < n) :
    (siftUp fuel k s).Gives fun _ t => HeapWithin n s.heapN s t := by
  induction fuel generalizing k s with
  | zero => exact .refl hw
  | succ fuel ih =>
    rw [siftUp]
    split
    · exact .refl hw
    · refine (lessAt_gives ..).andThen ?_
      rintro b _ rfl
      cases b
      · exact .refl hw
      · refine (swapHeap_gives hw hk (by omega)).andThen fun _ t ht => (ih _ ht.wf (by omega)).mono (fun _ u hu => ?_) fun _ => id
        exact ht.trans (ht.heapN_eq ▸ hu)

/-- The sift-down writes live positions only (R144). -/
theorem siftDown_gives {n : Nat} (fuel k : Nat) {s : State} (hw : cellsWf none Config.heapCap s.heap = true) (hn : s.heapN.toNat ≤ n) :
    (siftDown fuel k s).Gives fun _ t => HeapWithin n s.heapN s t := by
  induction fuel generalizing k s with
  | zero => exact .refl hw
  | succ fuel ih =>
    rw [siftDown]
    refine (smallerOf_gives ..).andThen ?_
    rintro a _ ⟨rfl, ha⟩
    refine (smallerOf_gives ..).andThen ?_
    rintro b s ⟨rfl, hb⟩
    split
    · exact .refl hw
    · have hb' : k < b ∧ b < n := by omega
      refine (swapHeap_gives hw (by omega) hb'.2).andThen fun _ t ht => ?_
      refine (ih b ht.wf (by rw [ht.heapN_eq]; exact hn)).mono (fun _ u hu => ?_) fun _ => id
      exact ht.trans (ht.heapN_eq ▸ hu)

/-- HeapInsert writes no cell above the one it appends (R143). -/
theorem heapInsert_gives {n : Nat} (i : NodeIx) {s : State} (hw : cellsWf none Config.heapCap s.heap = true) (hn : s.heapN.toNat < n) :
    (heapInsert i s).Gives fun _ t => HeapWithin n (s.heapN + 1#9) s t ∧ t.heapN.toNat = s.heapN.toNat + 1 := by
  refine (setHeap_gives i hw hn).andThen fun _ t ⟨ht, hcap⟩ => ?_
  have hone : HeapWithin n (s.heapN + 1#9) s { t with heapN := t.heapN + 1#9 } := ⟨by rw [ht.frame], ht.wf, ht.above⟩
  refine (siftUp_gives _ _ hone.wf hn).mono (fun _ u hu => ?_) fun _ => id
  have hall := hone.trans (hone.heapN_eq ▸ hu)
  refine ⟨hall, ?_⟩
  have : s.heapN.toNat < 256 := hcap
  rw [hall.heapN_eq, BitVec.toNat_add]
  simp
  omega

/-- HeapExtract writes live positions only (R144). -/
theorem heapExtract_gives {n : Nat} {s : State} (hw : cellsWf none Config.heapCap s.heap = true) (hn : s.heapN.toNat ≤ n) :
    (heapExtract s).Gives fun _ t => HeapWithin n t.heapN s t ∧ t.heapN.toNat = s.heapN.toNat - 1 := by
  unfold heapExtract
  split
  · rename_i h0
    exact ⟨.refl hw, by rw [h0]; rfl⟩
  · rename_i h0
    have hpos : 0 < s.heapN.toNat := Nat.pos_of_ne_zero fun e => h0 (BitVec.eq_of_toNat_eq e)
    refine .read fun m => ?_
    refine (swapHeap_gives hw (show 0 < n by omega) (show s.heapN.toNat - 1 < n by omega)).andThen fun _ t ht => ?_
    have hN : (s.heapN - 1#9).toNat = s.heapN.toNat - 1 := by
      rw [BitVec.toNat_sub_of_le (by rw [BitVec.le_def]; exact hpos)]
      rfl
    have hone : HeapWithin n (s.heapN - 1#9) s { t with heapN := t.heapN - 1#9 } := ⟨by rw [ht.frame], ht.wf, ht.above⟩
    refine (siftDown_gives (n := n) _ _ hone.wf (by rw [hone.heapN_eq]; omega)).andThen fun _ u hu => ?_
    have hall := hone.trans (hone.heapN_eq ▸ hu)
    exact ⟨hall.heapN_eq ▸ hall, by rw [hall.heapN_eq]; exact hN⟩

end Sys2Proof.Machine
end

section
/-! Which cells of NODE, INS and HEAP the queue and the tree builder write, from any state with canonical memories (41_priority_queue.md R146; 42_tree_builder.md R161, R162). -/

namespace Sys2Proof.Machine

/-! PQ_INS and the insertion loop of TB_BUILD (R146, R162). -/

/-- The cells PQ_INS `n` leaves alone where it does not raise. -/
structure LeafEntered (n : Nat) (s t : State) : Prop where
  heapN : t.heapN.toNat = s.heapN.toNat + 1
  node : ∀ i, i ≠ n → nodeOf t i = nodeOf s i
  ins : ∀ b, b ≠ n → insOf t b = insOf s b
  heap : ∀ k, s.heapN.toNat < k → heapOf t k = heapOf s k

theorem setNode_gives (i : Nat) (v : TreeNode) (s : State) :
    (setNode i v s).Gives fun _ t => t = { s with node := writeCell none s.node i (some v) } ∧ i < Config.nodeCap := by
  unfold setNode
  split
  · exact ⟨rfl, ‹_›⟩
  · trivial

theorem pqInsert_gives {n : Nat} {s : State} (hm : memoriesWf s = true) (hn : ¬ (255 < n ∨ insOf s n = true)) :
    (pqInsert n s).Gives fun _ t => LeafEntered n s t := by
  obtain ⟨-, wins, wnode, wheap, -, -⟩ := memoriesWf_iff.1 hm
  rw [pqInsert, if_neg hn]
  refine (setNode_gives ..).andThen ?_
  rintro _ _ ⟨rfl, -⟩
  refine (heapInsert_gives (n := s.heapN.toNat + 1) _ (by exact wheap) (by exact Nat.lt_succ_self _)).mono (fun _ t ht => ?_) fun _ => id
  obtain ⟨hwithin, hN⟩ := ht
  refine ⟨hN, fun i hi => ?_, fun b hb => ?_, hwithin.above⟩
  · rw [nodeOf, hwithin.frame]
    exact readCell_writeCell_other _ hi wnode
  · rw [insOf, hwithin.frame]
    exact readCell_writeCell_other _ hb wins

/-- What the insertion loop leaves alone: the heap's cells that are not live after it, and the internal nodes. -/
structure LeavesEntered (s t : State) : Prop where
  heapN : s.heapN.toNat ≤ t.heapN.toNat
  node : ∀ i, 256 ≤ i → nodeOf t i = nodeOf s i
  heap : ∀ k, t.heapN.toNat ≤ k → heapOf t k = heapOf s k

theorem LeavesEntered.refl (s : State) : LeavesEntered s s := ⟨Nat.le_refl _, fun _ _ => rfl, fun _ _ => rfl⟩

theorem LeavesEntered.trans {s t u : State} (h : LeavesEntered s t) (h' : LeavesEntered t u) : LeavesEntered s u :=
  ⟨h.heapN.trans h'.heapN, fun i hi => (h'.node i hi).trans (h.node i hi),
    fun k hk => (h'.heap k hk).trans (h.heap k (h'.heapN.trans hk))⟩

theorem LeafEntered.leaves {n : Nat} {s t : State} (h : LeafEntered n s t) (hn : n ≤ 255) : LeavesEntered s t :=
  ⟨by rw [h.heapN]; exact Nat.le_succ _, fun i hi => h.node i (by omega), fun k hk => h.heap k (by rw [h.heapN] at hk; exact hk)⟩

theorem insertLeaves_gives (bs : List Nat) {s : State} (hm : memoriesWf s = true) :
    (insertLeaves bs s).Gives (fun _ t => LeavesEntered s t) (LeavesEntered s) := by
  induction bs generalizing s with
  | nil => exact .refl s
  | cons b bs ih =>
    rw [insertLeaves]
    split
    · exact ih hm
    · by_cases hbad : 255 < b ∨ insOf s b = true
      · rw [pqInsert_bad hbad]
        exact .refl s
      · have hfirst := (pqInsert_gives hm hbad).and_leaves (pqInsert_frame b s)
        refine (hfirst.mono (fun _ _ => id) fun _ => False.elim).andThen fun _ t ⟨hleaf, hframe⟩ => ?_
        have hone : LeavesEntered s t := hleaf.leaves (by omega)
        exact (ih (hframe.2 hm)).mono (fun _ _ hu => hone.trans hu) fun _ hu => hone.trans hu

/-! TB_MERGE and the merge loop of TB_BUILD (R161, R162). -/

/-- The cells a TB_MERGE leaves alone where it does not raise. -/
structure ParentMade (s t : State) : Prop where
  heapN : t.heapN.toNat ≤ s.heapN.toNat
  nodeNext : t.nodeNext.toNat = s.nodeNext.toNat + 1
  node : ∀ i, i ≠ s.nodeNext.toNat → nodeOf t i = nodeOf s i
  heap : ∀ k, s.heapN.toNat ≤ k → heapOf t k = heapOf s k

theorem mergeStep_gives {s : State} (hm : memoriesWf s = true) (hN : 2 ≤ s.heapN.toNat) :
    (mergeStep s).Gives fun _ t => ParentMade s t := by
  obtain ⟨-, -, wnode, wheap, -, -⟩ := memoriesWf_iff.1 hm
  rw [mergeStep, if_neg (by omega)]
  refine (heapExtract_gives wheap (Nat.le_refl _)).andThen fun a t ⟨ht, hNt⟩ => ?_
  refine (heapExtract_gives ht.wf (show t.heapN.toNat ≤ s.heapN.toNat by omega)).andThen fun b u ⟨hu, hNu⟩ => ?_
  refine .read fun x => .read fun y => ?_
  have hboth := ht.trans hu
  have hnode : u.node = s.node := by rw [hboth.frame]
  have hnext : u.nodeNext = s.nodeNext := by rw [hboth.frame]
  refine (setNode_gives ..).andThen ?_
  rintro _ _ ⟨rfl, hcap⟩
  refine (heapInsert_gives (n := s.heapN.toNat) _ (by exact hboth.wf) (by show u.heapN.toNat < _; omega)).andThen fun _ v hv => ?_
  obtain ⟨hwithin, hNv⟩ := hv
  refine ⟨?_, ?_, fun i hi => ?_, fun k hk => (hwithin.above k hk).trans (hboth.above k hk)⟩
  · show v.heapN.toNat ≤ _
    rw [hNv]
    show u.heapN.toNat + 1 ≤ _
    omega
  · have hlt : u.nodeNext.toNat < 511 := hcap
    show v.nodeNext.toNat = _
    rw [hwithin.frame, ← hnext]
    show (u.nodeNext + 1#10).toNat = _
    rw [BitVec.toNat_add]
    simp
    omega
  · show nodeOf v i = _
    rw [nodeOf, hwithin.frame]
    show readCell none (writeCell none u.node u.nodeNext.toNat _) i = _
    rw [hnode, hnext]
    exact readCell_writeCell_other _ hi wnode

/-- What the merge loop leaves alone: the heap's cells that are not live before it, and the nodes that are not allocated after it. -/
structure ParentsMade (s t : State) : Prop where
  wf : memoriesWf t = true
  heapN : t.heapN.toNat ≤ s.heapN.toNat
  nodeNext : s.nodeNext.toNat ≤ t.nodeNext.toNat
  node : ∀ i, t.nodeNext.toNat ≤ i → nodeOf t i = nodeOf s i
  heap : ∀ k, s.heapN.toNat ≤ k → heapOf t k = heapOf s k

theorem ParentsMade.refl {s : State} (hm : memoriesWf s = true) : ParentsMade s s :=
  ⟨hm, Nat.le_refl _, Nat.le_refl _, fun _ _ => rfl, fun _ _ => rfl⟩

theorem ParentsMade.trans {s t u : State} (h : ParentsMade s t) (h' : ParentsMade t u) : ParentsMade s u :=
  ⟨h'.wf, h'.heapN.trans h.heapN, h.nodeNext.trans h'.nodeNext, fun i hi => (h'.node i hi).trans (h.node i (h'.nodeNext.trans hi)),
    fun k hk => (h'.heap k (h.heapN.trans hk)).trans (h.heap k hk)⟩

theorem ParentMade.parents {s t : State} (h : ParentMade s t) (hm : memoriesWf t = true) : ParentsMade s t :=
  ⟨hm, h.heapN, by rw [h.nodeNext]; exact Nat.le_succ _, fun i hi => h.node i (by rw [h.nodeNext] at hi; omega), h.heap⟩

theorem mergeAll_gives (n : Nat) {s : State} (hm : memoriesWf s = true) : (mergeAll n s).Gives fun _ t => ParentsMade s t := by
  induction n generalizing s with
  | zero => exact .refl hm
  | succ n ih =>
    rw [mergeAll]
    split
    · rename_i hN
      refine ((mergeStep_gives hm hN).and_leaves (mergeStep_frame s)).andThen fun _ t ⟨hmade, hframe⟩ => ?_
      exact (ih (hframe.2 hm)).mono (fun _ u hu => (hmade.parents (hframe.2 hm)).trans hu) fun _ => id
    · exact .refl hm

/-- TB_BUILD (R162) writes no internal node from the new NODE_NEXT on, and no heap cell but one for each used symbol. -/
theorem buildTree_gives {s : State} (hm : memoriesWf s = true) (hu : usedSymbols s ≠ 0) :
    (buildTree s).Gives fun _ t =>
      (∀ i, 256 ≤ i → t.nodeNext.toNat ≤ i → nodeOf t i = nodeOf s i) ∧ ∀ k, usedSymbols s ≤ k → heapOf t k = heapOf s k := by
  obtain ⟨u, hrun, hqu, -, hNu, -⟩ := insertLeaves_forest hm
  have hentered := insertLeaves_gives (List.range Config.nsym) (pqClear_ok hm).memories
  rw [hrun] at hentered
  rw [buildTree, if_neg (mt freqEmpty_iff.1 hu), hrun, Run.andThen_ok]
  refine (mergeAll_gives _ hqu.memories).andThen fun _ v hv => ?_
  refine (heapExtract_gives (memoriesWf_iff.1 hv.wf).2.2.2.1 hv.heapN).andThen fun m w ⟨hw, _⟩ => ⟨fun i hi hnext => ?_, fun k hk => ?_⟩
  · have hnext' : v.nodeNext.toNat ≤ i := by
      rw [show v.nodeNext = w.nodeNext by rw [hw.frame]]
      exact hnext
    calc nodeOf w i = nodeOf v i := by rw [nodeOf, nodeOf, hw.frame]
      _ = nodeOf u i := hv.node i hnext'
      _ = nodeOf s i := hentered.node i hi
  · have hk' : u.heapN.toNat ≤ k := hNu ▸ hk
    calc heapOf w k = heapOf v k := hw.above k hk'
      _ = heapOf u k := hv.heap k hk'
      _ = heapOf s k := hentered.heap k hk'

end Sys2Proof.Machine
end

section
/-! Which cells of TRIE DT_BUILD writes (46_decode_trie.md R251 to R253), and the obligation CellFootprint put together from what each command writes. -/

namespace Sys2Proof.Machine

/-! DT_BUILD (R251 to R253). -/

/-- A trie in canonical form whose allocated nodes have allocated children. -/
structure TrieReady (s : State) : Prop where
  ok : TrieOk s
  wf : cellsWf none Config.trieCap s.trie = true

/-- The trie of `t` is that of `s` with nodes added and changed among the allocated ones. -/
structure TrieGrown (s t : State) : Prop where
  ready : TrieReady t
  count : s.trieN.toNat ≤ t.trieN.toNat
  above : ∀ i, t.trieN.toNat ≤ i → trieOf t i = trieOf s i

theorem TrieGrown.refl {s : State} (h : TrieReady s) : TrieGrown s s := ⟨h, Nat.le_refl _, fun _ _ => rfl⟩

theorem TrieGrown.trans {s t u : State} (h : TrieGrown s t) (h' : TrieGrown t u) : TrieGrown s u :=
  ⟨h'.ready, h.count.trans h'.count, fun i hi => (h'.above i hi).trans (h.above i (h'.count.trans hi))⟩

theorem childOk_mono {s t : State} (h : s.trieN.toNat ≤ t.trieN.toNat) {i : TrieIx} (hi : childOk s i = true) : childOk t i = true := by
  simp only [childOk, Bool.or_eq_true, decide_eq_true_eq] at hi ⊢
  exact hi.imp_right fun hlt => hlt.trans_le h

/-- Both children of a cell are TNIL or allocated. -/
def ChildrenOk (s : State) (c : TrieNode) : Prop := childOk s c.c0 = true ∧ childOk s c.c1 = true

theorem trieCellOk_iff {s : State} {i : Nat} : trieCellOk s i = true ↔ ∃ c, trieOf s i = some c ∧ ChildrenOk s c := by
  unfold trieCellOk ChildrenOk
  cases trieOf s i <;> simp

/-- A cell written among the first `trieN` ones, of a trie whose count may rise by the cell. -/
theorem TrieGrown.of_write {s t : State} {i : Nat} {c : TrieNode} (h : TrieReady s) (ht : t.trie = writeCell none s.trie i (some c))
    (hcap : t.trieN.toNat ≤ Config.trieCap) (hi : i < t.trieN.toNat) (hcount : s.trieN.toNat ≤ t.trieN.toNat)
    (hnew : ∀ j < t.trieN.toNat, j ≠ i → j < s.trieN.toNat) (hc : ChildrenOk t c) : TrieGrown s t := by
  have hcell : ∀ j, trieOf t j = if j = i then some c else trieOf s j := fun j => by
    rw [trieOf, ht]
    exact readCell_writeCell _ _ _ h.wf
  refine ⟨⟨⟨hcap, fun j hj => trieCellOk_iff.2 ?_⟩, ?_⟩, hcount, fun j hj => by rw [hcell, if_neg (by omega)]⟩
  · by_cases hji : j = i
    · exact ⟨c, by rw [hcell, if_pos hji], hc⟩
    · obtain ⟨d, hd, h0, h1⟩ := trieCellOk_iff.1 (h.ok.cells j (hnew j hj hji))
      exact ⟨d, by rw [hcell, if_neg hji]; exact hd, childOk_mono hcount h0, childOk_mono hcount h1⟩
  · rw [ht]
    exact cellsWf_writeCell _ (hi.trans_le hcap) h.wf

theorem setTrie_gives {s : State} (h : TrieReady s) {i : Nat} (hi : i < s.trieN.toNat) {c : TrieNode} (hc : ChildrenOk s c) {Q : State → Prop} :
    (setTrie i c s).Gives (fun _ t => TrieGrown s t ∧ t.trieN = s.trieN) Q := by
  unfold setTrie
  split
  · exact ⟨.of_write h rfl h.ok.cap hi (Nat.le_refl _) (fun _ hj _ => hj) hc, rfl⟩
  · trivial

/-- TrieNew adds the node it returns (R251). -/
theorem trieNew_gives {s : State} (h : TrieReady s) {Q : State → Prop} :
    (trieNew s).Gives (fun i t => TrieGrown s t ∧ i.toNat < t.trieN.toNat) Q := by
  unfold trieNew setTrie
  split
  · rename_i hcap
    have hlt : s.trieN.toNat < 65281 := hcap
    have hnext : (s.trieN + 1#17).toNat = s.trieN.toNat + 1 := by
      rw [BitVec.toNat_add]
      simp
      omega
    have hix : (s.trieN.setWidth 16).toNat = s.trieN.toNat := by
      simp
      omega
    rw [Run.andThen_ok]
    refine ⟨.of_write (i := s.trieN.toNat) h rfl ?_ ?_ ?_ (fun j hj hne => ?_) ⟨rfl, rfl⟩, ?_⟩ <;> dsimp only at *
    · rw [hnext]; exact hcap
    · omega
    · omega
    · omega
    · omega
  · trivial

theorem childrenOk_withChild {s : State} {c : TrieNode} (hc : ChildrenOk s c) {i : TrieIx} (hi : i.toNat < s.trieN.toNat) (bit : Bool) :
    ChildrenOk s (withChild bit i c) := by
  have : childOk s i = true := by simp [childOk, hi]
  cases bit
  · exact ⟨this, hc.2⟩
  · exact ⟨hc.1, this⟩

theorem ChildrenOk.childOf_lt {s : State} {c : TrieNode} (hc : ChildrenOk s c) {bit : Bool} (h : childOf bit c ≠ Config.tnil) :
    (childOf bit c).toNat < s.trieN.toNat := by
  have : childOk s (childOf bit c) = true := by cases bit <;> simp [childOf, hc.1, hc.2]
  simpa [childOk, h] using this

/-- A command's read of an allocated node. -/
theorem trieAt_gives {s : State} (h : TrieReady s) {i : TrieIx} (hi : i.toNat < s.trieN.toNat) {Q : State → Prop} :
    (trieAt i s).Gives (fun c t => t = s ∧ ChildrenOk s c) Q := by
  obtain ⟨c, hcell, hc⟩ := trieCellOk_iff.1 (h.ok.cells _ hi)
  rw [trieAt, hcell]
  exact ⟨rfl, hc⟩

/-- A step of TrieAdd's loop writes allocated nodes and the new one only (R252). -/
theorem trieStep_gives (bit : Bool) {cur : TrieIx} {s : State} (h : TrieReady s) (hcur : cur.toNat < s.trieN.toNat) :
    (trieStep bit cur s).Gives (fun i t => TrieGrown s t ∧ i.toNat < t.trieN.toNat) (TrieGrown s) := by
  refine (trieAt_gives h hcur).andThen ?_
  rintro c _ ⟨rfl, hc⟩
  split
  · exact .refl h
  · split
    · refine (trieNew_gives h).andThen fun i t ⟨ht, hi⟩ => ?_
      have hc' : ChildrenOk t c := ⟨childOk_mono ht.count hc.1, childOk_mono ht.count hc.2⟩
      refine (setTrie_gives ht.ready (hcur.trans_le ht.count) (childrenOk_withChild hc' hi bit)).andThen fun _ u ⟨hu, hN⟩ => ?_
      exact ⟨ht.trans hu, by rw [hN]; exact hi⟩
    · rename_i hchild
      exact ⟨.refl h, hc.childOf_lt hchild⟩

theorem trieWalk_gives (bits : Code) {cur : TrieIx} {s : State} (h : TrieReady s) (hcur : cur.toNat < s.trieN.toNat) :
    (trieWalk bits cur s).Gives (fun i t => TrieGrown s t ∧ i.toNat < t.trieN.toNat) (TrieGrown s) := by
  induction bits generalizing cur s with
  | nil => exact ⟨.refl h, hcur⟩
  | cons bit bits ih =>
    refine (trieStep_gives bit h hcur).andThen fun i t ⟨ht, hi⟩ => ?_
    exact (ih ht.ready hi).mono (fun _ _ hu => ⟨ht.trans hu.1, hu.2⟩) fun _ hu => ht.trans hu

theorem trieMark_gives (sym : Byte) {cur : TrieIx} {s : State} (h : TrieReady s) (hcur : cur.toNat < s.trieN.toNat) :
    (trieMark sym cur s).Gives (fun _ t => TrieGrown s t) (TrieGrown s) := by
  refine (trieAt_gives h hcur).andThen ?_
  rintro c _ ⟨rfl, hc⟩
  split
  · exact .refl h
  · split
    · exact .refl h
    · exact (setTrie_gives h hcur (c := { c with leaf := true, sym := sym }) hc).mono (fun _ _ ht => ht.1) fun _ => id

/-- TrieAdd for the symbols of a list, in a trie that has its root (R252, R253). -/
theorem trieAddAll_gives (bs : List Nat) (p : Nat × Nat) {s : State} (h : TrieReady s) (hroot : 0 < s.trieN.toNat) :
    (trieAddAll bs p s).Gives (fun _ t => TrieGrown s t) (TrieGrown s) := by
  induction bs generalizing p s with
  | nil => exact .refl h
  | cons b bs ih =>
    rw [trieAddAll]
    split
    · exact ih p h hroot
    · rename_i code _
      refine ((trieWalk_gives code (cur := 0#16) h hroot).andThen fun cur t ⟨ht, hcur⟩ =>
        (trieMark_gives _ ht.ready hcur).mono (fun _ _ hu => ht.trans hu) fun _ hu => ht.trans hu).andThen fun _ t ht => ?_
      exact (ih _ ht.ready (hroot.trans_le ht.count)).mono (fun _ _ hu => ht.trans hu) fun _ hu => ht.trans hu

/-- DT_BUILD (R253) writes no cell from the new TRIE_N on, whatever its ending. -/
theorem buildTrie_leaves {s : State} (hw : cellsWf none Config.trieCap s.trie = true) :
    (buildTrie s).Leaves fun t => ∀ i, t.trieN.toNat ≤ i → trieOf t i = trieOf s i := by
  have hready : TrieReady { s with trieN := 0#17, decOne := 0#9 } := ⟨trieOk_of_empty rfl, hw⟩
  refine Run.Gives.leaves ((trieNew_gives hready).andThen fun root t ⟨ht, hroot⟩ => ?_)
  have hadded := trieAddAll_gives (List.range Config.nsym) (0, 0) ht.ready (Nat.zero_lt_of_lt hroot)
  refine (hadded.mono (fun _ _ hu => ht.trans hu) fun _ hu => (ht.trans hu).above).andThen fun p u hu => ?_
  split
  · exact hu.above
  · exact hu.above

/-! The commands. -/

/-- Settles O51: command by command, from what its parts write. -/
theorem cellFootprint : Obligations.CellFootprint := by
  intro s t hm
  obtain ⟨-, -, -, wheap, -, wtrie⟩ := memoriesWf_iff.1 hm
  refine ⟨fun n h => ?_, fun h => ?_, fun h => ?_, fun h => ?_, fun h => ?_⟩
  · by_cases hbad : 255 < n ∨ insOf s n = true
    · obtain rfl : enterFault .badCommand s = t := finish_raised (pqInsert_bad hbad) h
      exact ⟨fun _ _ => ⟨rfl, rfl⟩, fun _ _ => rfl⟩
    · have hleaf := finish_gives (pqInsert_gives hm hbad) h
      exact ⟨fun i hi => ⟨hleaf.node i hi, hleaf.ins i hi⟩, hleaf.heap⟩
  · have hext : (pqExtract s).Gives fun _ u => ∀ k, s.heapN.toNat ≤ k → heapOf u k = heapOf s k :=
      (heapExtract_gives wheap (Nat.le_refl _)).andThen fun _ _ hu => hu.1.above
    exact finish_gives hext h
  · rcases Nat.lt_or_ge s.heapN.toNat 2 with hN | hN
    · obtain rfl : enterFault .badCommand s = t := finish_raised (mergeStep_bad hN) h
      exact ⟨fun _ _ => rfl, fun _ _ => rfl⟩
    · have hmade := finish_gives (mergeStep_gives hm hN) h
      exact ⟨hmade.node, hmade.heap⟩
  · by_cases hu : usedSymbols s = 0
    · obtain rfl : enterFault .badCommand s = t := finish_raised (buildTree_bad hu) h
      exact ⟨fun _ _ _ => rfl, fun _ _ _ => rfl, fun _ _ => rfl⟩
    · obtain ⟨u, hrun, -, -, -, -, -, -, hleaf, -⟩ := buildTree_ok hm hu
      obtain rfl : u = t := Host.Outcome.next.inj ((congrArg finish hrun).symm.trans h)
      exact ⟨fun i hi h0 => by rw [hleaf i hi, if_neg (not_not_intro h0)], finish_gives (buildTree_gives hm hu) h⟩
  · exact finish_leaves (buildTrie_leaves wtrie) (fun _ _ hu => hu) h

end Sys2Proof.Machine
end

section
/-! The TreeBuilder's commands TB_MERGE and TB_BUILD under the invariant (42_tree_builder.md R161 to R164), with the obligations TbMergeJoinsTwoLeast, TbBuildBuildsTree and TreeAndTableAreFunctionsOfFreq. -/

namespace Sys2Proof.Machine

/-! TB_MERGE (R161). -/

/-- The order in which a merge extracts: the first node is less than the second, and the second less than every other (R142, R161). -/
theorem Merged.in_order {s t : State} {a b : NodeIx} {x y : TreeNode} {rest : List NodeIx} (hs : QueueOk s) (hm : Merged s t a b x y rest) :
    nodeLess s a b = true ∧ ∀ j ∈ rest, nodeLess s b j = true := by
  have live : ∀ i ∈ a :: b :: rest, i ∈ liveNodes s := fun i hi => hm.before.symm.subset hi
  have distinct := hm.before.nodup_iff.1 hs.live_nodup
  simp only [List.nodup_cons, List.mem_cons, not_or] at distinct
  obtain ⟨⟨hab, -⟩, hb, -⟩ := distinct
  have la : a ∈ liveNodes s := live a (by simp)
  have lb : b ∈ liveNodes s := live b (by simp)
  refine ⟨nodeLess_of_least hs la lb lb hab hm.least, fun j hj => ?_⟩
  exact nodeLess_of_least hs lb (live j (by simp [hj])) (List.mem_cons_of_mem _ hj) (fun e => hb (e ▸ hj)) hm.next

/-- Settles O22: in the two cases of the command's precondition; what it does to two live nodes is `Merged`. -/
theorem tbMergeJoinsTwoLeast : Obligations.TbMergeJoinsTwoLeast := by
  intro s hs
  refine ⟨fun hN => congrArg finish (mergeStep_bad hN), fun hN => ?_⟩
  obtain ⟨t, a, b, x, y, rest, hrun, hq, hm⟩ := mergeStep_ok hs.queue hN
  obtain ⟨hab, hbrest⟩ := hm.in_order hs.queue
  have hres : t.res = s.nodeNext.setWidth 9 := by rw [hm.frame]
  refine ⟨t, a, b, x, y, rest, congrArg finish hrun, hres ▸ hm.frame, hres ▸ hm.parent, ?_, ?_, hm.before, hab, hbrest, hm.left, hm.right,
    hm.node, hres ▸ hm.after, hq.heap.heap⟩
  · rw [hm.frame]; exact hm.nodeNext
  · rw [hm.frame]
    have := hm.heapN
    show (s.heapN - 1#9).toNat + 1 = _
    omega

/-! TB_BUILD (R162, R163). -/

/-- Settles O23: the tree `buildTree_ok` describes has `k - 1` internal nodes, which bounds every depth, and for `k = 1` its root is the used byte. -/
theorem tbBuildBuildsTree : Obligations.TbBuildBuildsTree := by
  intro s hs
  refine ⟨fun hu => congrArg finish (buildTree_bad hu), fun hu => ?_⟩
  obtain ⟨t, hrun, hq, hframe, hnext, hroot, hlast, hins, -, hsum, hcover, hsingle, honly⟩ := buildTree_ok hs.memories hu
  refine ⟨t, congrArg finish hrun, buildTree_commands hs.memories hu hrun, hframe, hnext, fun hone => ?_, hlast, hins, hsum,
    fun b hb hf => ?_, fun b hb path hp => ⟨honly b hb path hp, ?_⟩⟩
  · have hleaf : t.root.toNat < 256 := by omega
    refine ⟨hleaf, honly _ hleaf [] ?_⟩
    rw [followTree_nil, BitVec.ofNat_toNat, BitVec.setWidth_eq]
  · obtain ⟨path, hp⟩ := hcover b hb hf
    exact ⟨path, hp, fun q hq => hsingle b hb q path hq hp⟩
  · have := followTree_length hq.tree hroot hp
    omega

/-! The tree and the code table as functions of FREQ (R164). -/

theorem usedSymbols_congr {s u : State} (h : ∀ b < 256, freqOf s b = freqOf u b) : usedSymbols s = usedSymbols u :=
  congrArg List.length (List.filter_congr fun b hb => by rw [h b (List.mem_range.1 hb)])

/-- On a tree with one path to each byte, the codes CG_GEN records are exactly the paths (R181). -/
theorem generateCodes_paths {s : State} (ht : TreeOk s) (h1 : 256 ≤ s.root.toNat) (h2 : s.root ≠ Config.nil)
    (hone : ∀ b < 256, ∀ p q, followTree s s.root p = some (BitVec.ofNat 9 b) → followTree s s.root q = some (BitVec.ofNat 9 b) → p = q) :
    ∃ t, generateCodes s = .ok () t ∧ CtWf t ∧
      ∀ b code, ctOf t b = some code ↔ b < 256 ∧ followTree s s.root code = some (BitVec.ofNat 9 b) := by
  obtain ⟨t, hrun, -, hw, hcode, hcover⟩ := generateCodes_ok ht h1 h2
  refine ⟨t, hrun, hw, fun b code => ⟨fun hc => ?_, fun ⟨hb, hp⟩ => ?_⟩⟩
  · obtain ⟨hb, -, -, hp⟩ := hcode b code hc
    exact ⟨hb, hp⟩
  · obtain ⟨c, hc⟩ := Option.isSome_iff_exists.1 (hcover b hb code hp)
    obtain ⟨-, -, -, hp'⟩ := hcode b c hc
    rw [hc, hone b hb c code hp' hp]

/-- CG_GEN from two states with one tree, in which each byte has one path, makes one table. -/
theorem generateCodes_alike {s u : State} (hs : TreeOk s) (hu : TreeOk u) (hroot : s.root = u.root) (hlt : s.root.toNat < s.nodeNext.toNat)
    (hnode : ∀ i < s.nodeNext.toNat, 256 ≤ i → nodeOf u i = nodeOf s i)
    (hone : ∀ b < 256, ∀ p q, followTree s s.root p = some (BitVec.ofNat 9 b) → followTree s s.root q = some (BitVec.ofNat 9 b) → p = q) :
    ∃ t v, generateCodes s = .ok () t ∧ generateCodes u = .ok () v ∧ t.ct = v.ct := by
  rcases Nat.lt_or_ge s.root.toNat 256 with hl | hl
  · exact ⟨_, _, generateCodes_single hl, generateCodes_single (hroot ▸ hl), by rw [hroot]⟩
  · have hnil := hs.root_ne_nil hlt
    have hpath (p : Code) : followTree u u.root p = followTree s s.root p := hroot ▸ followTree_congr hs hnode hlt p
    obtain ⟨t, ht, hwt, hct⟩ := generateCodes_paths hs hl hnil hone
    obtain ⟨v, hv, hwv, hcv⟩ := generateCodes_paths hu (hroot ▸ hl) (hroot ▸ hnil) (by simpa only [hpath] using hone)
    refine ⟨t, v, ht, hv, cells_ext hwt hwv fun b => Option.ext fun code => ?_⟩
    exact (hct b code).trans (hpath code ▸ (hcv b code).symm)

/-- Settles O24: TB_BUILD makes one tree of equal counts, and CG_GEN one table of one tree. -/
theorem treeAndTableAreFunctionsOfFreq : Obligations.TreeAndTableAreFunctionsOfFreq := by
  intro s u hs hu hfreq hne
  obtain ⟨t, ht, hqt, -, -, hlt, -, -, -, -, -, hone, -⟩ := buildTree_ok hs.memories hne
  obtain ⟨v, hv, hqv, -⟩ := buildTree_ok hu.memories (usedSymbols_congr hfreq ▸ hne)
  obtain ⟨hroot, hnext, hnode⟩ := buildTree_alike hs.memories hu.memories hfreq hne ht hv
  obtain ⟨t', v', ht', hv', hct⟩ := generateCodes_alike hqt.tree hqv.tree hroot hlt
    (fun i hi hinner => (hnode i hi fun hleaf => absurd hleaf (Nat.not_lt.2 hinner)).symm) hone
  exact ⟨t, v, t', v', congrArg finish ht, congrArg finish hv, congrArg finish ht', congrArg finish hv', hroot, hnext, hnode, hct⟩

end Sys2Proof.Machine
end

section
/-! The command CG_GEN under the invariant (43_code_table_generator.md R181 to R183), with the obligations CgGenRecordsPaths and CgGenCodesPrefixFree. -/

namespace Sys2Proof.Machine

/-- Settles O25: the cases are those of the root: NIL, a leaf, and an internal node, from which every recorded code is a path; so a byte with one path can only have that one. -/
theorem cgGenRecordsPaths : Obligations.CgGenRecordsPaths := by
  intro s hs
  refine ⟨fun hnil => congrArg finish (generateCodes_bad hnil), fun hleaf => ?_, fun hinner hnil => ?_⟩
  · exact ⟨_, congrArg finish (generateCodes_single hleaf), rfl, fun b => ctOf_singleton s s.root.toNat b [false]⟩
  · obtain ⟨t, hrun, hframe, -, hcode, hcover⟩ := generateCodes_ok hs.tree hinner hnil
    refine ⟨t, congrArg finish hrun, hframe, hcode, fun b hb code hp honly => ?_⟩
    obtain ⟨c, hc⟩ := Option.isSome_iff_exists.1 (hcover b hb code hp)
    obtain ⟨-, -, -, hpath⟩ := hcode b c hc
    rw [hc, honly c hpath]

/-- Settles O26: CG_GEN without a tree ends in a fault, and the codes of a tree are prefix-free. -/
theorem cgGenCodesPrefixFree : Obligations.CgGenCodesPrefixFree := by
  intro s t hs _ hrun herr
  by_cases hroot : s.root = Config.nil
  · obtain rfl : enterFault .badCommand s = t := finish_raised (generateCodes_bad hroot) hrun
    cases herr
  · obtain ⟨u, hu, made⟩ := generateCodes_codesOfTree hs.tree hroot
    obtain rfl : u = t := Host.Outcome.next.inj ((congrArg finish hu).symm.trans hrun)
    exact made.free

end Sys2Proof.Machine
end

section
/-! The table writers (44_code_table_codec.md R191 to R194, R199 to R201), with the obligations CtWrAppendsTable, CtWrxAppendsText, FourByteHeaderRefusesLargeSize, WritersStopAtSinkLimit and TableFileSize. -/

namespace Sys2Proof.Machine

/-! What a writer writes. -/

/-- Every size fits a header but one of 2^32 or more a header of 4 bytes (R191, R199). -/
theorem sizeTooBig_false {w : Nat} {s : State} (h : w = 4 → s.origSize.toNat < 2 ^ 32) : sizeTooBig w s = false :=
  decide_eq_false fun ⟨hw, hbig⟩ => absurd (h hw) (Nat.not_lt.2 hbig)

theorem writeTable_of_fits {w : Nat} {s : State} (h : w = 4 → s.origSize.toNat < 2 ^ 32) :
    writeTable w s = snkWriteAll (tableBytes w s) s := by
  rw [writeTable, sizeTooBig_false h, if_neg Bool.false_ne_true]

theorem writeTableText_of_fits {w : Nat} {s : State} (h : w = 4 → s.origSize.toNat < 2 ^ 32) :
    writeTableText w s = snkWriteAll (tableText w s) s := by
  rw [writeTableText, sizeTooBig_false h, if_neg Bool.false_ne_true]

/-- The commands that write the sink from the state alone, each with the bytes it writes (R191, R199; 45_bit_packer.md R231). -/
def writers (s : State) : List (Instr × List Byte) :=
  [(.ctWr4, tableBytes 4 s), (.ctWr8, tableBytes 8 s), (.ctWrx4, tableText 4 s), (.ctWrx8, tableText 8 s), (.cfWrh, le 8 s.origSize)]

/-- A writer whose header holds the size writes its bytes one after another. -/
theorem exec_writer {s : State} {i : Instr} {file : List Byte} (h : (i, file) ∈ writers s)
    (hsize : i = .ctWr4 ∨ i = .ctWrx4 → s.origSize.toNat < 2 ^ 32) : exec i s = finish (snkWriteAll file s) := by
  simp only [writers, List.mem_cons, Prod.mk.injEq, List.not_mem_nil, or_false] at h
  rcases h with ⟨rfl, rfl⟩ | ⟨rfl, rfl⟩ | ⟨rfl, rfl⟩ | ⟨rfl, rfl⟩ | ⟨rfl, rfl⟩
  · exact congrArg finish (writeTable_of_fits fun _ => hsize (.inl rfl))
  · exact congrArg finish (writeTable_of_fits (w := 8) nofun)
  · exact congrArg finish (writeTableText_of_fits fun _ => hsize (.inr rfl))
  · exact congrArg finish (writeTableText_of_fits (w := 8) nofun)
  · rfl

theorem hexLine_ne_nil (bs : List Byte) : hexLine bs ≠ [] := by
  match bs with
  | [] => exact List.cons_ne_nil _ _
  | [_] => exact List.cons_ne_nil _ _
  | _ :: _ :: _ => exact List.cons_ne_nil _ _

/-- Every writer writes at least one byte: its header has some. -/
theorem writers_ne_nil {s : State} {i : Instr} {file : List Byte} (h : (i, file) ∈ writers s) : file ≠ [] := by
  have header (w : Nat) (hw : 0 < w) : le w s.origSize ≠ [] := List.ne_nil_of_length_pos (by rwa [length_le])
  simp only [writers, List.mem_cons, Prod.mk.injEq, List.not_mem_nil, or_false] at h
  rcases h with ⟨-, rfl⟩ | ⟨-, rfl⟩ | ⟨-, rfl⟩ | ⟨-, rfl⟩ | ⟨-, rfl⟩
  · exact List.append_ne_nil_of_left_ne_nil (header 4 (by decide)) _
  · exact List.append_ne_nil_of_left_ne_nil (header 8 (by decide)) _
  · exact List.append_ne_nil_of_left_ne_nil (hexLine_ne_nil _) _
  · exact List.append_ne_nil_of_left_ne_nil (hexLine_ne_nil _) _
  · exact header 8 (by decide)

/-- A writer appends its bytes to a sink that takes them. -/
theorem exec_writer_appends {s : State} {i : Instr} {file : List Byte} (h : (i, file) ∈ writers s)
    (hsize : i = .ctWr4 ∨ i = .ctWrx4 → s.origSize.toNat < 2 ^ 32) (hk : SinkTakes file.length s) :
    exec i s = .next { s with snk := s.snk ++ file } :=
  (exec_writer h hsize).trans (congrArg finish (snkWriteAll_ok hk))

/-- The text of a table, its lines one after another (R199). -/
theorem tableText_eq_flatten (w : Nat) (s : State) : tableText w s = hexLine (le w s.origSize) ++
    ((List.range 256).filterMap fun b => (ctOf s b).map fun code => hexLine (record b code)).flatten := by
  rw [tableText, records, List.flatMap_def, List.map_filterMap]
  simp only [Option.map_map, Function.comp_def, Config.nsym]

/-- Settles O28: the bytes are those of `tableBytes`, and the sink takes them. -/
theorem ctWrAppendsTable : Obligations.CtWrAppendsTable := by
  intro s i w h hsize file hk
  have written : tableBytes w s = file := rfl
  rw [← written] at hk ⊢
  simp only [List.mem_cons, Prod.mk.injEq, List.not_mem_nil, or_false] at h
  rcases h with ⟨rfl, rfl⟩ | ⟨rfl, rfl⟩
  · exact exec_writer_appends (by simp [writers]) (fun _ => hsize rfl) hk
  · exact exec_writer_appends (by simp [writers]) nofun hk

/-- Settles O29: the lines are those of `tableText`, and the sink takes them. -/
theorem ctWrxAppendsText : Obligations.CtWrxAppendsText := by
  intro s i w h hsize text hk
  have written : tableText w s = text := tableText_eq_flatten w s
  rw [← written] at hk ⊢
  simp only [List.mem_cons, Prod.mk.injEq, List.not_mem_nil, or_false] at h
  rcases h with ⟨rfl, rfl⟩ | ⟨rfl, rfl⟩
  · exact exec_writer_appends (by simp [writers]) (fun _ => hsize rfl) hk
  · exact exec_writer_appends (by simp [writers]) nofun hk

/-- Settles O30: the size is looked at before the first byte is written. -/
theorem fourByteHeaderRefusesLargeSize : Obligations.FourByteHeaderRefusesLargeSize := by
  intro s hbig
  have tooBig : sizeTooBig 4 s = true := decide_eq_true ⟨rfl, hbig⟩
  exact ⟨congrArg finish (if_pos tooBig), congrArg finish (if_pos tooBig)⟩

/-- Settles O31: every writer is a sequence of SnkWrites, of at least one byte. -/
theorem writersStopAtSinkLimit : Obligations.WritersStopAtSinkLimit := by
  intro s m i file h hsize hm hshort
  exact (exec_writer h hsize).trans (congrArg finish (snkWriteAll_raise hm (writers_ne_nil h) hshort))

/-! How much a writer writes (R194). -/

/-- The bytes of the record of a CT cell: none for an absent code (R102). -/
def recordSize (cell : Option Code) : Nat :=
  match cell with
  | some code => 2 + ceil8 code.length
  | none => 0

@[simp] theorem length_record (b : Nat) (code : Code) : (record b code).length = recordSize (some code) := by
  simp only [record, recordSize, List.length_cons, length_packbits]
  omega

/-- The records of some symbols have as many bytes as each record together. -/
theorem length_flatten_records (s : State) (bs : List Nat) :
    ((bs.filterMap fun b => (ctOf s b).map (record b)).flatten).length = (bs.map fun b => recordSize (ctOf s b)).sum := by
  induction bs with
  | nil => rfl
  | cons b bs ih =>
    cases hc : ctOf s b with
    | none => simp [hc, ih, recordSize]
    | some code => simp [hc, ih]

theorem length_tableBytes (w : Nat) (s : State) :
    (tableBytes w s).length = w + ((List.range 256).map fun b => recordSize (ctOf s b)).sum := by
  rw [tableBytes, List.length_append, length_le, records, length_flatten_records, Config.nsym]

/-- The longest record is that of a code of 255 bits (R39). -/
theorem recordSize_le {cell : Option Code} (h : codeOk cell = true) : recordSize cell ≤ 34 := by
  cases cell with
  | none => exact Nat.zero_le _
  | some code =>
    have := codeOk_some.1 h
    simp only [recordSize, ceil8]
    omega

theorem length_tableBytes_le {w : Nat} {s : State} (h : CodesOk s) : (tableBytes w s).length ≤ w + 256 * 34 := by
  have records_le : ((List.range 256).map fun b => recordSize (ctOf s b)).sum ≤ _ • 34 :=
    List.sum_le_card_nsmul _ 34 fun n hn => by
      obtain ⟨b, hb, rfl⟩ := List.mem_map.1 hn
      exact recordSize_le (h b (List.mem_range.1 hb))
  rw [List.length_map, List.length_range, smul_eq_mul] at records_le
  rw [length_tableBytes]
  exact Nat.add_le_add_left records_le w

/-- Settles O32: `recordSize` is the number the statement gives each symbol, at most 34, so that 8 + 256 * 34 = 8712 is the bound. -/
theorem tableFileSize : Obligations.TableFileSize := by
  intro s w h
  refine ⟨length_tableBytes w s, fun hw => ?_⟩
  have := length_tableBytes_le (w := w) h
  omega

end Sys2Proof.Machine
end

section
/-! The table readers (44_code_table_codec.md R195 to R205), with the obligations CtRdReadsRecords, CtRdRefusesBadRecords, CtRdxReadsLines, CtRdxRefusesBadLines and TableRoundTrip. -/

namespace Sys2Proof.Machine

/-! The loop of a reader, once it has accepted the header and some records. -/

/-- A loop at the end of the source is done. -/
theorem whileSrc_at_end {α : Type} {body : α → State → Run α} {s : State} (h : srcEof s = true) (n : Nat) (a : α) :
    whileSrc body n a s = .ok a s := by
  cases n with
  | zero => rw [whileSrc, if_pos h]
  | succ n => rw [whileSrc, if_pos h]

/-- A loop whose next pass raises. -/
theorem whileSrc_raise {α : Type} {body : α → State → Run α} {s t : State} {n : Nat} {a : α} {k : ErrKind} (hn : 0 < n)
    (h : srcEof s = false) (hb : body a s = .raise k t) : whileSrc body n a s = .raise k t := by
  obtain ⟨n, rfl⟩ := Nat.exists_eq_succ_of_ne_zero (Nat.ne_of_gt hn)
  rw [whileSrc, if_neg (by rw [h]; decide), hb, Run.andThen_raise]

/-- The state of a reader that has consumed `n` bytes, the header and records that give CT the cells `c`. -/
def accepted (n : Nat) (header : List Byte) (c : Cells (Option Code)) (s : State) : State :=
  { advance n s with origSize := fromLe header, ct := c }

theorem advance_accepted (n m : Nat) (header : List Byte) (c : Cells (Option Code)) (s : State) :
    advance m (accepted n header c s) = accepted (n + m) header c s :=
  congrArg (fun u => { u with origSize := fromLe header, ct := c }) (advance_advance n m s)

/-- A reader has consumed `n` bytes, the header and the records, and goes on with its loop over the `left` bytes that follow. -/
def GoesOn (reader : Run Unit) (body : Unit → State → Run Unit) (s : State) (n : Nat) (header : List Byte) (recs : List RawRecord)
    (left : Nat) : Prop :=
  ∃ c m, reader = whileSrc body m () (accepted n header c s) ∧ left ≤ m ∧ cellsWf none Config.nsym c = true ∧
    ∀ b, readCell none c b = recordedCode recs b

section
variable {s : State} {text rest header : List Byte} {recs : List RawRecord} {reader : Run Unit} {body : Unit → State → Run Unit}

theorem streamsOk_accepted {n : Nat} (hs : StreamsOk s) (hg : SourceGives n s) (header : List Byte) (c : Cells (Option Code)) :
    StreamsOk (accepted n header c s) :=
  ⟨(hg.streamsOk hs).pos, hs.len⟩

theorem sourceRest_accepted (hs : StreamsOk s) (hg : SourceGives text.length s) (hr : sourceRest s = text ++ rest) (header : List Byte)
    (c : Cells (Option Code)) : sourceRest (accepted text.length header c s) = rest := by
  refine (hg.rest hs).trans ?_
  rw [hr, List.drop_left]

theorem SourceGives.accepted {n m : Nat} (hg : SourceGives (n + m) s) (hs : StreamsOk s) (header : List Byte) (c : Cells (Option Code)) :
    SourceGives m (accepted n header c s) :=
  hg.gives hs

theorem SourceFailsAfter.accepted {n m : Nat} (hf : SourceFailsAfter (n + m) s) (hs : StreamsOk s) (header : List Byte)
    (c : Cells (Option Code)) : SourceFailsAfter m (accepted n header c s) :=
  hf.after hs

/-- The byte that fails is one of those left. -/
theorem SourceFailsAfter.rest_ne_nil {j : Nat} (hf : SourceFailsAfter (text.length + j) s) (hr : sourceRest s = text ++ rest) : rest ≠ [] := by
  rintro rfl
  have left := congrArg List.length hr
  have := hf.1
  rw [List.append_nil, length_sourceRest, srcLeft] at left
  omega

/-- With nothing left, the reader is done. -/
theorem GoesOn.completes (h : GoesOn reader body s text.length header recs 0) (hs : StreamsOk s) (hg : SourceGives text.length s)
    (hr : sourceRest s = text) :
    ∃ c, reader = .ok () { s with origSize := fromLe header, rp := BitVec.ofNat 64 s.src.length, ct := c } ∧
      cellsWf none Config.nsym c = true ∧ ∀ b, readCell none c b = recordedCode recs b := by
  obtain ⟨c, m, hrun, -, hw, hc⟩ := h
  have atEnd : srcEof (accepted text.length header c s) = true :=
    (eof_iff_rest (streamsOk_accepted hs hg header c)).2 (sourceRest_accepted hs hg (by rwa [List.append_nil]) header c)
  have hn : text.length = srcLeft s := by rw [← hr, length_sourceRest]
  refine ⟨c, ?_, hw, hc⟩
  rw [hrun, whileSrc_at_end atEnd, accepted, hn, advance_all s hs]

/-- Where something is left that the next pass refuses after `j` bytes of it, the reader stops with what it has accepted. -/
theorem GoesOn.stops {k : ErrKind} {j : Nat} (h : GoesOn reader body s text.length header recs rest.length) (hs : StreamsOk s)
    (hg : SourceGives text.length s) (hr : sourceRest s = text ++ rest) (hne : rest ≠ [])
    (hbad : ∀ c, HoldsRecords (accepted text.length header c s) recs →
      body () (accepted text.length header c s) = .raise k (advance j (accepted text.length header c s))) :
    ∃ t, finish reader = .next t ∧
      t = { s with err := some k, origSize := fromLe header, ct := t.ct, rp := s.rp + BitVec.ofNat 64 (text.length + j) } ∧
      HoldsRecords t recs := by
  obtain ⟨c, m, hrun, hm, -, hc⟩ := h
  have notEnd : srcEof (accepted text.length header c s) = false := by
    rw [← Bool.not_eq_true, eof_iff_rest (streamsOk_accepted hs hg header c), sourceRest_accepted hs hg hr]
    exact hne
  refine ⟨enterFault k (accepted (text.length + j) header c s), ?_, rfl, hc⟩
  rw [hrun, whileSrc_raise ((List.length_pos_iff.2 hne).trans_le hm) notEnd (hbad c hc), finish_raise, advance_accepted]

end

/-! The binary readers (R195 to R198). -/

/-- CT_RD4 and CT_RD8 run `RdTable` with their width (R196, R197). -/
theorem exec_tableReader {i : Instr} {w : Nat} (h : (i, w) ∈ [(Instr.ctRd4, 4), (Instr.ctRd8, 8)]) (s : State) :
    exec i s = finish (readTable w s) := by
  simp only [List.mem_cons, Prod.mk.injEq, List.not_mem_nil, or_false] at h
  rcases h with ⟨rfl, rfl⟩ | ⟨rfl, rfl⟩
  · rfl
  · rfl

/-- `RdTable(w)` on a header and records with distinct symbols, and nothing else (R195). -/
theorem readTable_ok {s : State} {header : List Byte} {recs : List RawRecord} (hs : StreamsOk s) (hg : SourceGives (srcLeft s) s)
    (hok : ∀ r ∈ recs, r.ok = true) (hnd : (recs.map RawRecord.sym).Nodup) (hr : sourceRest s = header ++ recs.flatMap RawRecord.bytes) :
    ∃ c, readTable header.length s = .ok () { s with origSize := fromLe header, rp := BitVec.ofNat 64 s.src.length, ct := c } ∧
      cellsWf none Config.nsym c = true ∧ ∀ b, readCell none c b = recordedCode recs b := by
  rw [← length_sourceRest, hr] at hg
  have loop : GoesOn (readTable header.length s) readRecord s (header ++ recs.flatMap RawRecord.bytes).length header recs 0 :=
    readTable_records (rest := []) hs hg rfl hok hnd (by rw [hr, List.append_nil])
  exact loop.completes hs hg hr

/-- Where taking the header raises, nothing else of `RdTable(w)` runs. -/
theorem readTable_header_raises {w : Nat} {s t : State} {k : ErrKind}
    (h : srcTake .malformedTable w { s with ct := [] } = .raise k t) : readTable w s = .raise k t := by
  rw [readTable, h, Run.andThen_raise]

/-- Settles O33: `readTable_ok`. -/
theorem ctRdReadsRecords : Obligations.CtRdReadsRecords := by
  intro s i w header recs hi hs hg hw hok hnd hr
  subst hw
  obtain ⟨c, hrun, -, hc⟩ := readTable_ok hs hg hok hnd hr
  exact ⟨_, (exec_tableReader hi s).trans (congrArg finish hrun), rfl, hc⟩

/-- Settles O34: the header is taken whole or not at all, and after good records the loop's next pass is `readRecord_bad` or `readRecord_fails`. -/
theorem ctRdRefusesBadRecords : Obligations.CtRdRefusesBadRecords := by
  intro s i w hi hs
  have hs' : StreamsOk { s with ct := [] } := ⟨hs.pos, hs.len⟩
  rw [exec_tableReader hi s]
  refine ⟨fun hshort hg => ?_, fun n hn hf => ?_, ?_⟩
  · have ended := readTable_header_raises (srcTake_short (k := .malformedTable) hs' hg hshort)
    rw [advance_all _ hs'] at ended
    exact congrArg finish ended
  · exact congrArg finish (readTable_header_raises (srcTake_fails (k := .malformedTable) hs' hf hn))
  intro header recs hw hok hnd text
  refine ⟨fun tail n hr hb hg => ?_, fun part more hr hp hf => ?_⟩
  · have hg1 : SourceGives text.length s := hg.le (Nat.le_add_right _ _)
    have loop : GoesOn (readTable w s) readRecord s text.length header recs tail.length := readTable_records hs hg1 hw hok hnd hr
    refine loop.stops hs hg1 hr (by rintro rfl; cases hb) fun c hc => ?_
    exact readRecord_bad (streamsOk_accepted hs hg1 header c) (hg.accepted hs header c) hc (by rwa [sourceRest_accepted hs hg1 hr])
  · rw [List.length_append] at hf ⊢
    have hg1 : SourceGives text.length s := hf.gives.le (Nat.le_add_right _ _)
    have loop : GoesOn (readTable w s) readRecord s text.length header recs (part ++ more).length := readTable_records hs hg1 hw hok hnd hr
    refine loop.stops hs hg1 hr (hf.rest_ne_nil hr) fun c _ => ?_
    exact readRecord_fails (streamsOk_accepted hs hg1 header c) (hf.accepted hs header c) (sourceRest_accepted hs hg1 hr header c) hp

/-! The text reader (R202 to R204). -/

/-- `RdTableX()` on a header line and lines of records with distinct symbols, and nothing else (R203). -/
theorem readTableText_ok {s : State} {header : List Byte} {recs : List RawRecord} (hs : StreamsOk s) (hg : SourceGives (srcLeft s) s)
    (hw : header.length = 4 ∨ header.length = 8) (hok : ∀ r ∈ recs, r.ok = true) (hnd : (recs.map RawRecord.sym).Nodup)
    (hl : SpellsLines (header :: recs.map RawRecord.bytes) (sourceRest s)) :
    ∃ c, readTableText s = .ok () { s with origSize := fromLe header, rp := BitVec.ofNat 64 s.src.length, ct := c } ∧
      cellsWf none Config.nsym c = true ∧ ∀ b, readCell none c b = recordedCode recs b := by
  rw [← length_sourceRest] at hg
  have loop : GoesOn (readTableText s) readRecordLine s (sourceRest s).length header recs 0 :=
    readTableText_records (rest := []) hs hw hok hnd hl hg (List.append_nil _).symm
  exact loop.completes hs hg rfl

/-- A first line that raises; at the end of input RdLine raises what RdTableX does (R202, R203). -/
theorem readTableText_firstLine_raises {s t : State} {k : ErrKind} (h : readLine (srcLeft s) [] { s with ct := [] } = .raise k t) :
    readTableText s = .raise k t := by
  rw [readTableText]
  by_cases hE : srcEof s = true
  · have none_left : srcLeft s = 0 := by rw [srcLeft, srcEof_iff.1 hE, Nat.sub_self]
    rw [none_left, readLine] at h
    obtain ⟨rfl, rfl⟩ := Run.raise.inj ((if_pos hE).symm.trans h)
    exact if_pos hE
  · rw [if_neg hE, h, Run.andThen_raise]

/-- A line has bytes: the line feed at least (R107). -/
theorem SpellsLine.text_ne_nil {toks line : List Byte} (h : SpellsLine toks line) : line ≠ [] := by
  rintro rfl
  have := h.length
  have := List.length_pos_iff.2 h.ne_nil
  simp only [List.length_nil] at *
  omega

/-- A record line that is no record, or one of a symbol already read (R203). -/
theorem takeRecordLine_refused {s : State} {recs : List RawRecord} {toks : List Byte} (hc : HoldsRecords s recs)
    (h : ∀ r : RawRecord, r.ok = true → toks = r.bytes → r.sym ∈ recs.map RawRecord.sym) :
    takeRecordLine toks s = .raise .malformedTable s := by
  by_cases hrec : ∃ r : RawRecord, r.ok = true ∧ toks = r.bytes
  · obtain ⟨r, hok, rfl⟩ := hrec
    obtain ⟨h0, hl⟩ := RawRecord.ok_iff.1 hok
    obtain ⟨q, hq, hsym⟩ := List.mem_map.1 (h r hok rfl)
    have present : (ctOf s r.sym.toNat).isSome = true := by
      rw [hc, Option.isSome_iff_ne_none, ne_eq, recordedCode_none]
      exact fun absent => absent q hq (by rw [hsym])
    rw [RawRecord.bytes, takeRecordLine, if_neg h0, if_neg (not_not_intro hl), addRecord, if_pos present]
  · exact takeRecordLine_bad fun r hok htoks => hrec ⟨r, hok, htoks⟩

/-- Settles O35: `readTableText_ok`. -/
theorem ctRdxReadsLines : Obligations.CtRdxReadsLines := by
  intro s header recs hs hg hw hok hnd hl
  obtain ⟨c, hrun, -, hc⟩ := readTableText_ok hs hg hw hok hnd hl
  exact ⟨_, congrArg finish hrun, rfl, hc⟩

/-- Settles O36: the first line and a line after good ones are refused by the same three laws of RdLine and of the record line. -/
theorem ctRdxRefusesBadLines : Obligations.CtRdxRefusesBadLines := by
  intro s hs
  have hs' : StreamsOk { s with ct := [] } := ⟨hs.pos, hs.len⟩
  refine ⟨fun toks start tail n hr hl hb hg => ?_, fun toks line rest hr hl h4 h8 hg => ?_, fun part more hr hp hf => ?_, ?_⟩
  · exact congrArg finish (readTableText_firstLine_raises (readLine_refused hs' hl hr hb hg))
  · exact congrArg finish ((readTableText_header hs hl hg hr).trans (if_pos ⟨h4, h8⟩))
  · exact congrArg finish (readTableText_firstLine_raises (readLine_interrupted hs' hp hr hf))
  intro header recs text hw hok hnd hl
  have loop {rest : List Byte} (hg : SourceGives text.length s) (hr : sourceRest s = text ++ rest) :
      GoesOn (readTableText s) readRecordLine s text.length header recs rest.length := readTableText_records hs hw hok hnd hl hg hr
  refine ⟨fun toks start tail n hr hne hstart hb hg => ?_, fun toks line rest hr hline hbad hg => ?_, fun part more hr hp hf => ?_⟩
  · have hg1 : SourceGives text.length s := hg.le (Nat.le_add_right _ _)
    refine (loop hg1 hr).stops hs hg1 hr hne fun c _ => ?_
    rw [readRecordLine, readLine_refused (streamsOk_accepted hs hg1 header c) hstart (sourceRest_accepted hs hg1 hr header c) hb
      (hg.accepted hs header c), Run.andThen_raise]
  · rw [List.length_append] at hg ⊢
    have hg1 : SourceGives text.length s := hg.le (Nat.le_add_right _ _)
    refine (loop hg1 hr).stops hs hg1 hr (List.append_ne_nil_of_left_ne_nil hline.text_ne_nil rest) fun c hc => ?_
    rw [readRecordLine_line (streamsOk_accepted hs hg1 header c) hline (hg.accepted hs header c) (sourceRest_accepted hs hg1 hr header c)]
    exact takeRecordLine_refused hc hbad
  · rw [List.length_append] at hf ⊢
    have hg1 : SourceGives text.length s := hf.gives.le (Nat.le_add_right _ _)
    refine (loop hg1 hr).stops hs hg1 hr (hf.rest_ne_nil hr) fun c _ => ?_
    rw [readRecordLine, readLine_interrupted (streamsOk_accepted hs hg1 header c) hp (sourceRest_accepted hs hg1 hr header c)
      (hf.accepted hs header c), Run.andThen_raise]

/-! What a writer wrote, read back (R205). -/

/-- A command that leaves ERR at 0 came to its end without a `raise` (R318). -/
theorem ok_of_finish_next {r : Run Unit} {t : State} (h : finish r = .next t) (herr : t.err = none) : r = .ok () t := by
  rcases finish_eq_next.1 h with hok | ⟨k, u, -, rfl⟩
  · exact hok
  · cases herr

/-- What a part has appended where it ended normally, if it can only append `file` there. -/
theorem Run.Ends.appended {r : Run Unit} {s t : State} {file bytes : List Byte} {Q : ErrKind → State → Prop} {S : Prop}
    (h : r.Ends (fun _ t => t = { s with snk := s.snk ++ file }) Q S) (hrun : r = .ok () t) (ht : t.snk = s.snk ++ bytes) :
    bytes = file := by
  rw [hrun] at h
  rw [show t = { s with snk := s.snk ++ file } from h] at ht
  exact (List.append_cancel_left ht).symm

/-- A header that holds the size gives it back (30_encoding.md R101). -/
theorem fromLe_le_of_fits {w : Nat} {s : State} (hw : w = 4 ∨ w = 8) (h : sizeTooBig w s = false) :
    fromLe (le w s.origSize) = s.origSize := by
  rcases hw with rfl | rfl
  · exact fromLe_le_four s.origSize (Nat.lt_of_not_le fun hbig => of_decide_eq_false h ⟨rfl, hbig⟩)
  · exact fromLe_le_eight s.origSize

/-- A writer that came to its end had a header that holds the size (R191). -/
theorem sizeTooBig_false_of_writeTable {w : Nat} {s t : State} (h : writeTable w s = .ok () t) : sizeTooBig w s = false := by
  rw [← Bool.not_eq_true]
  intro hbig
  rw [writeTable, if_pos hbig] at h
  cases h

/-- The same of the text form (R199). -/
theorem sizeTooBig_false_of_writeTableText {w : Nat} {s t : State} (h : writeTableText w s = .ok () t) : sizeTooBig w s = false := by
  rw [← Bool.not_eq_true]
  intro hbig
  rw [writeTableText, if_pos hbig] at h
  cases h

/-- A store that holds the records of CT is CT. -/
theorem eq_ct_of_rawRecords {s : State} (hs : Inv s) {c : Cells (Option Code)} (hw : cellsWf none Config.nsym c = true)
    (hc : ∀ b, readCell none c b = recordedCode (rawRecords s) b) : c = s.ct :=
  cells_ext hw hs.ctWf fun b => (hc b).trans (recordedCode_rawRecords hs.ctWf hs.codes b)

section
variable {s t u : State} {w : Nat} (hw : w = 4 ∨ w = 8) (hs : Inv s) (hu : StreamsOk u) (hg : SourceGives (srcLeft u) u)
  (ht : t.snk = s.snk ++ sourceRest u)
include hw hs hu hg ht

/-- The binary form read back (R205). -/
theorem readTable_writeTable (hrun : writeTable w s = .ok () t) :
    readTable w u = .ok () { u with origSize := s.origSize, ct := s.ct, rp := BitVec.ofNat 64 u.src.length } := by
  have written : sourceRest u = tableBytes w s := (writeTable_ends w s).appended hrun ht
  obtain ⟨c, hread, hwf, hc⟩ := readTable_ok hu hg (rawRecords_ok hs.codes) (rawRecords_nodup s) (written.trans (tableBytes_eq w s))
  rw [length_le, fromLe_le_of_fits hw (sizeTooBig_false_of_writeTable hrun), eq_ct_of_rawRecords hs hwf hc] at hread
  exact hread

/-- The text form read back (R205). -/
theorem readTableText_writeTableText (hrun : writeTableText w s = .ok () t) :
    readTableText u = .ok () { u with origSize := s.origSize, ct := s.ct, rp := BitVec.ofNat 64 u.src.length } := by
  have written : sourceRest u = tableText w s := (writeTableText_ends w s).appended hrun ht
  obtain ⟨c, hread, hwf, hc⟩ := readTableText_ok (header := le w s.origSize) hu hg (by rwa [length_le]) (rawRecords_ok hs.codes)
    (rawRecords_nodup s) (written ▸ spellsLines_tableText (by omega) s)
  rw [fromLe_le_of_fits hw (sizeTooBig_false_of_writeTableText hrun), eq_ct_of_rawRecords hs hwf hc] at hread
  exact hread

end

/-- Settles O37: each form read back, in its two widths. -/
theorem tableRoundTrip : Obligations.TableRoundTrip := by
  intro s t u wr rd hpair hs hu _ hrun herr ht hg
  simp only [List.mem_cons, Prod.mk.injEq, List.not_mem_nil, or_false] at hpair
  rcases hpair with ⟨rfl, rfl⟩ | ⟨rfl, rfl⟩ | ⟨rfl, rfl⟩ | ⟨rfl, rfl⟩
  · exact congrArg finish (readTable_writeTable (.inl rfl) hs hu.streams hg ht (ok_of_finish_next hrun herr))
  · exact congrArg finish (readTable_writeTable (.inr rfl) hs hu.streams hg ht (ok_of_finish_next hrun herr))
  · exact congrArg finish (readTableText_writeTableText (.inl rfl) hs hu.streams hg ht (ok_of_finish_next hrun herr))
  · exact congrArg finish (readTableText_writeTableText (.inr rfl) hs hu.streams hg ht (ok_of_finish_next hrun herr))

end Sys2Proof.Machine
end

section
/-! Where BP_ENC stops short of the end of its source (45_bit_packer.md R233, Faults), with the obligation BpEncStopsAtUnknownSymbol. -/

namespace Sys2Proof.Machine

/-! The packer between two passes. -/

/-- The state after the passes over `msg`: the bytes are read, the whole bytes of their code bits are in the sink. -/
def packed (msg : List Byte) (s : State) : State := { advance msg.length s with snk := s.snk ++ wholeBytes (codeBits s msg) }

theorem advance_packed (n : Nat) (msg : List Byte) (s : State) :
    advance n (packed msg s) = { advance (msg.length + n) s with snk := s.snk ++ wholeBytes (codeBits s msg) } :=
  congrArg (fun u => { u with snk := s.snk ++ wholeBytes (codeBits s msg) }) (advance_advance msg.length n s)

theorem length_snk_packed (msg : List Byte) (s : State) : (packed msg s).snk.length = s.snk.length + (codeBits s msg).length / 8 := by
  rw [packed, List.length_append, length_wholeBytes]

section
variable {s : State} {before after : List Byte}

theorem streamsOk_packed (hs : StreamsOk s) (hg : SourceGives before.length s) : StreamsOk (packed before s) :=
  ⟨(hg.streamsOk hs).pos, hs.len⟩

theorem sourceRest_packed (hs : StreamsOk s) (hg : SourceGives before.length s) (hr : sourceRest s = before ++ after) :
    sourceRest (packed before s) = after := by
  refine (hg.rest hs).trans ?_
  rw [hr, List.drop_left]

theorem SourceGives.packed {n : Nat} (hg : SourceGives (before.length + n) s) (hs : StreamsOk s) : SourceGives n (packed before s) :=
  hg.gives hs

theorem SourceFailsAfter.packed {n : Nat} (hf : SourceFailsAfter (before.length + n) s) (hs : StreamsOk s) :
    SourceFailsAfter n (packed before s) :=
  hf.after hs

/-- BP_ENC after the passes over bytes that have codes, whose whole bytes the sink takes. -/
theorem packSource_after (hs : StreamsOk s) (hg : SourceGives before.length s) (hr : sourceRest s = before ++ after)
    (he : Encodable s before) (hk : SinkTakes ((codeBits s before).length / 8) s) :
    packSource s = (whileSrc packSymbol after.length (restBits (codeBits s before)) (packed before s)).andThen flushRest := by
  have passes := packSymbols_ok before after.length (acc := []) hs hg hr he hk (by decide)
  rw [packSource, ← length_sourceRest, hr, List.length_append, passes]
  rfl

/-- A pass that raises ends BP_ENC with what the passes before it have written. -/
theorem packSource_raise {k : ErrKind} {t : State} (hs : StreamsOk s) (hg : SourceGives before.length s)
    (hr : sourceRest s = before ++ after) (he : Encodable s before) (hk : SinkTakes ((codeBits s before).length / 8) s) (hne : after ≠ [])
    (hb : packSymbol (restBits (codeBits s before)) (packed before s) = .raise k t) : packSource s = .raise k t := by
  have notEnd : srcEof (packed before s) = false := by
    rw [← Bool.not_eq_true, eof_iff_rest (streamsOk_packed hs hg), sourceRest_packed hs hg hr]
    exact hne
  rw [packSource_after hs hg hr he hk, whileSrc_raise (List.length_pos_iff.2 hne) notEnd hb, Run.andThen_raise]

end

/-! What ends a pass, and what ends the padded last write (R233). `packSymbol_unknown` is the pass over a byte without a code. -/

theorem packSymbol_fails {s : State} (h : SourceFailsAfter 0 s) (acc : List Bool) : packSymbol acc s = .raise .ioError s := by
  rw [packSymbol, h.read, Run.andThen_raise]

/-- A sink that does not take all the whole bytes a code completes gets as many as it takes (20_memory.md R63). -/
theorem packSymbol_full {acc : List Bool} {s : State} {b : Byte} {rest : List Byte} {code : Code} {m : Count} (hg : SourceGives 1 s)
    (hr : sourceRest s = b :: rest) (hb : ctOf s b.toNat = some code) (hm : s.snkLimit = some m)
    (hroom : m.toNat - s.snk.length < (acc ++ code).length / 8) :
    packSymbol acc s = .raise .ioError
      { advance 1 s with snk := s.snk ++ (wholeBytes (acc ++ code)).take (m.toNat - s.snk.length) } := by
  rw [packSymbol, hg.read hr, Run.andThen_ok, show ctOf (advance 1 s) b.toNat = some code from hb]
  exact flushBytes_raise (s := advance 1 s) (Nat.div_le_self _ _) hm hroom

theorem flushRest_full {acc : List Bool} {s : State} {m : Count} (ha : acc.length ≠ 0) (hm : s.snkLimit = some m)
    (hfull : m.toNat ≤ s.snk.length) : flushRest acc s = .raise .ioError s := by
  have full : snkFull s = true := decide_eq_true (by rwa [snkCap_limited hm])
  rw [flushRest, if_neg ha, snkWrite, if_pos full, snkEnd_limited (by rw [hm]; exact Option.some_ne_none m)]

/-- A sink with room for `n` bytes takes them. -/
theorem sinkTakes_of_le_room {n : Nat} {s : State} {m : Count} (hm : s.snkLimit = some m) (h : n ≤ m.toNat - s.snk.length) :
    SinkTakes n s := by
  rw [SinkTakes, snkCap_limited hm]
  omega

/-- The first packed bytes of `c ++ d`, up to the last whole one: the whole bytes of `c`, then as many as fit of those its other bits make with `d`. -/
theorem take_packbits_append {c d : List Bool} {n : Nat} (hc : c.length / 8 ≤ n) (hn : n ≤ (c ++ d).length / 8) :
    (packbits (c ++ d)).take n = wholeBytes c ++ (wholeBytes (restBits c ++ d)).take (n - c.length / 8) := by
  calc (packbits (c ++ d)).take n
    _ = (wholeBytes (c ++ d)).take n := by rw [wholeBytes, List.take_take, Nat.min_eq_left hn]
    _ = (wholeBytes c ++ wholeBytes (restBits c ++ d)).take n := by rw [wholeBytes_append]
    _ = _ := by rw [List.take_append, length_wholeBytes, List.take_of_length_le (by rwa [length_wholeBytes])]

/-! The four ways BP_ENC stops after bytes that have codes (R233). -/

section
variable {s : State} {before after : List Byte} (hs : StreamsOk s) (he : Encodable s before)
include hs he

/-- At a byte without a code. -/
theorem packSource_unknown {b : Byte} {rest : List Byte} (hr : sourceRest s = before ++ b :: rest) (hb : ctOf s b.toNat = none)
    (hg : SourceGives (before.length + 1) s) (hk : SinkTakes ((codeBits s before).length / 8) s) :
    packSource s =
      .raise .unknownSymbol { advance (before.length + 1) s with snk := s.snk ++ wholeBytes (codeBits s before) } := by
  have hg1 := hg.le (Nat.le_add_right _ 1)
  rw [packSource_raise hs hg1 hr he hk (List.cons_ne_nil _ _) (packSymbol_unknown (hg.packed hs) (sourceRest_packed hs hg1 hr) hb),
    advance_packed]

/-- At a failing byte. -/
theorem packSource_fails (hr : sourceRest s = before ++ after) (hf : SourceFailsAfter before.length s)
    (hk : SinkTakes ((codeBits s before).length / 8) s) : packSource s = .raise .ioError (packed before s) :=
  packSource_raise hs hf.gives hr he hk (SourceFailsAfter.rest_ne_nil (j := 0) hf hr)
    (packSymbol_fails (SourceFailsAfter.packed (n := 0) hf hs) _)

/-- In the sink, with more whole bytes in a byte's code than there is room for. -/
theorem packSource_full {b : Byte} {rest : List Byte} {code : Code} {m : Count} (hr : sourceRest s = before ++ b :: rest)
    (hb : ctOf s b.toNat = some code) (hg : SourceGives (before.length + 1) s) (hm : s.snkLimit = some m)
    (hle : (codeBits s before).length / 8 ≤ m.toNat - s.snk.length)
    (hlt : m.toNat - s.snk.length < (codeBits s before ++ code).length / 8) :
    packSource s = .raise .ioError
      { advance (before.length + 1) s with
        snk := s.snk ++ (packbits (codeBits s before ++ code)).take (m.toNat - s.snk.length) } := by
  have hg1 := hg.le (Nat.le_add_right _ 1)
  have hroom : m.toNat - (packed before s).snk.length = m.toNat - s.snk.length - (codeBits s before).length / 8 := by
    rw [length_snk_packed, Nat.sub_add_eq]
  have hfew : m.toNat - (packed before s).snk.length < (restBits (codeBits s before) ++ code).length / 8 := by
    rw [List.length_append] at hlt ⊢
    rw [hroom, length_restBits]
    omega
  have pass := packSymbol_full (hg.packed hs) (sourceRest_packed hs hg1 hr) hb hm hfew
  rw [hroom, advance_packed] at pass
  rw [packSource_raise hs hg1 hr he (sinkTakes_of_le_room hm hle) (List.cons_ne_nil _ _) pass, take_packbits_append hle hlt.le,
    ← List.append_assoc]
  rfl

/-- In the sink, with room for the whole bytes but not for the padded last one. -/
theorem packSource_padded_full {m : Count} (hr : sourceRest s = before ++ []) (hg : SourceGives before.length s) (hm : s.snkLimit = some m)
    (hrest : (codeBits s before).length % 8 ≠ 0) (hroom : m.toNat - s.snk.length = (codeBits s before).length / 8) :
    packSource s = .raise .ioError (packed before s) := by
  have hfull : m.toNat ≤ (packed before s).snk.length := by
    rw [length_snk_packed]
    exact Nat.sub_le_iff_le_add'.1 hroom.le
  have atEnd : srcEof (packed before s) = true := (eof_iff_rest (streamsOk_packed hs hg)).2 (sourceRest_packed hs hg hr)
  rw [packSource_after hs hg hr he (sinkTakes_of_le_room hm hroom.ge), whileSrc_at_end atEnd, Run.andThen_ok,
    flushRest_full (s := packed before s) (by rwa [length_restBits]) hm hfull]

end

/-- Settles O40: the four laws of `packSource`. -/
theorem bpEncStopsAtUnknownSymbol : Obligations.BpEncStopsAtUnknownSymbol := by
  intro s before after hs hr he bits out
  have hlen : out.length = bits.length / 8 := length_wholeBytes bits
  refine ⟨?unknown, ?fails, fun m hm => ⟨?full, ?padded⟩⟩
  case unknown =>
    rintro b rest rfl hb hg hk
    exact congrArg finish (packSource_unknown hs he hr hb hg (hlen ▸ hk))
  case fails => exact fun hf hk => congrArg finish (packSource_fails hs he hr hf (hlen ▸ hk))
  case full =>
    rintro b rest code rfl hb hg hle hlt
    exact congrArg finish (packSource_full hs he hr hb hg hm hle hlt)
  case padded =>
    rintro rfl hg hrest hroom
    exact congrArg finish (packSource_padded_full hs he hr hg hm hrest hroom)

end Sys2Proof.Machine
end

section
/-! The eight bytes CF_WRH appends (45_bit_packer.md R231; 30_encoding.md R111), with the obligation CfWrhAppendsHeader. -/

namespace Sys2Proof.Machine

/-- `le_n(v)` as slices of eight bits (00_scope.md R12). -/
theorem le_eq_slices (n : Nat) (v : Count) : le n v = (List.range n).map fun i => v.extractLsb' (8 * i) 8 :=
  List.map_congr_left fun _ _ => BitVec.setWidth_ushiftRight_eq_extractLsb

/-- Settles O38: CF_WRH is one of `writers`, and its bytes are the eight slices. -/
theorem cfWrhAppendsHeader : Obligations.CfWrhAppendsHeader := by
  intro s hk
  have appended := exec_writer_appends (s := s) (i := .cfWrh) (file := le 8 s.origSize) (by simp [writers]) nofun (by rwa [length_le])
  rw [le_eq_slices] at appended
  exact appended

end Sys2Proof.Machine
end

section
/-! DT_BUILD under the invariant (46_decode_trie.md R252 to R254), with the obligations DtBuildIffPrefixFree and DtBuildTrieShape. -/

namespace Sys2Proof.Machine

variable {s t : State}

theorem prefixFreeOn_range : PrefixFreeOn s (List.range 256) ↔ PrefixFree s := by
  simp only [PrefixFreeOn, PrefixFree, List.mem_range, Config.nsym]

/-- What DT_BUILD with prefix-free codes leads to (R253). -/
structure TrieBuilt (s t : State) : Prop where
  codes : ∃ paths leaves, Built s t (List.range 256) paths leaves
  frame : t = { s with trie := t.trie, trieN := t.trieN, decOne := t.decOne }
  one : t.decOne =
    if (codedSymbols s (List.range 256)).length = 1 then oneSymbol ((codedSymbols s (List.range 256)).getLastD 0) else 0#9
  free : PrefixFree s

/-- What DT_BUILD with codes that are not prefix-free leads to (R252, R253). -/
structure TrieRefused (s t : State) : Prop where
  frame : t = { s with err := some .ambiguousCode, trie := t.trie, trieN := t.trieN, decOne := 0#9 }
  rooted : 1 ≤ t.trieN.toNat
  clash : ¬ PrefixFree s

/-- DT_BUILD (R253) ends in one of these two, and PrefixFree says in which. -/
theorem exec_dtBuild (hs : Inv s) : ∃ t, exec .dtBuild s = .next t ∧ (TrieBuilt s t ∨ TrieRefused s t) := by
  obtain ⟨-, -, -, -, wct, wtrie⟩ := memoriesWf_iff.1 hs.memories
  obtain ⟨t, run, ⟨⟨paths, leaves, built⟩, ht⟩ | ⟨k, u, ⟨rfl, hu, ⟨_, _, spells⟩, clash⟩, rfl⟩⟩ :=
    finish_next_of_ends (buildTrie_ends wtrie hs.codes wct)
  · exact ⟨t, run, .inl
      ⟨⟨paths, leaves, built⟩, by rw [ht], congrArg State.decOne ht, prefixFreeOn_range.1 built.free⟩⟩
  · exact ⟨_, run, .inr ⟨by rw [hu]; rfl, spells.pos, mt prefixFreeOn_range.2 clash⟩⟩

/-- A single code is the last one added. -/
theorem codedSymbols_single {b : Nat} (hb : b < 256) (hn : ctCount s = 1) (hc : (ctOf s b).isSome = true) :
    codedSymbols s (List.range 256) = [b] := by
  obtain ⟨a, ha⟩ := List.length_eq_one_iff.1 (show (codedSymbols s (List.range 256)).length = 1 from hn)
  have hmem : b ∈ codedSymbols s (List.range 256) := List.mem_filter.2 ⟨List.mem_range.2 hb, hc⟩
  rw [ha] at hmem ⊢
  rw [List.mem_singleton.1 hmem]

theorem TrieBuilt.decOne_zero (h : TrieBuilt s t) (hn : ctCount s ≠ 1) : t.decOne = 0#9 := h.one.trans (if_neg hn)

theorem TrieBuilt.decOne_single (h : TrieBuilt s t) {b : Nat} (hb : b < 256) (hn : ctCount s = 1) (hc : (ctOf s b).isSome = true) :
    t.decOne = 0x100#9 ||| BitVec.ofNat 9 b := by
  rw [h.one, codedSymbols_single hb hn hc]
  rfl

/-- Settles O41: of the two endings of `exec_dtBuild` each contradicts the other's premise. -/
theorem dtBuildIffPrefixFree : Obligations.DtBuildIffPrefixFree := by
  intro s hs
  obtain ⟨t, run, built | refused⟩ := exec_dtBuild hs
  · refine ⟨fun _ => ?_, fun clash => absurd built.free clash⟩
    obtain ⟨paths, leaves, codes⟩ := built.codes
    exact ⟨t, run, built.frame, codes.spells.pos, fun b hb code hc => ⟨_, codes.follow hb hc, rfl, rfl⟩, built.decOne_zero,
      fun b hb => built.decOne_single hb⟩
  · exact ⟨fun free => absurd free refused.clash, fun _ => ⟨t, run, refused.frame, refused.rooted⟩⟩

/-- The nodes are the root and the distinct non-empty prefixes (R254). -/
theorem Built.count {l : List Nat} {paths prefixes : List Code} {leaves : Code → Option Byte} (h : Built s t l paths leaves)
    (hmem : ∀ q, q ∈ prefixes ↔ ∃ b ∈ l, ∃ code, ctOf s b = some code ∧ q <+: code) :
    t.trieN.toNat = 1 + (prefixes.filter (· ≠ [])).dedup.length := by
  have hroot : [] ∉ (prefixes.filter (· ≠ [])).dedup := by simp
  have hperm : paths.Perm ([] :: (prefixes.filter (· ≠ [])).dedup) := by
    refine (List.perm_ext_iff_of_nodup h.spells.nodup (List.nodup_cons.2 ⟨hroot, List.nodup_dedup _⟩)).2 fun q => ?_
    rw [h.mem, ← hmem, List.mem_cons, List.mem_dedup, List.mem_filter, decide_eq_true_eq]
    tauto
  rw [h.spells.count, hperm.length_eq, List.length_cons, Nat.add_comm]

/-- Settles O42: an ending without fault is a trie of the codes; its nodes are counted by their paths, and what leads to a leaf is a code. -/
theorem dtBuildTrieShape : Obligations.DtBuildTrieShape := by
  intro s t hs _ run noFault
  obtain ⟨u, hu, ending⟩ := exec_dtBuild hs
  obtain rfl : t = u := Host.Outcome.next.inj (run.symm.trans hu)
  obtain built | refused := ending
  · obtain ⟨paths, leaves, codes⟩ := built.codes
    refine ⟨codes.count fun q => ?_, fun code c hf hl => ?_⟩
    · rw [List.mem_flatMap]
      refine exists_congr fun b => and_congr_right fun _ => ?_
      cases ctOf s b <;> simp [List.mem_inits]
    · obtain ⟨hsym, hleft, hright⟩ := codes.follow_inv hf hl
      exact ⟨hleft, hright, hsym⟩
  · rw [refused.frame] at noFault
    cases noFault

end Sys2Proof.Machine
end

section
/-! One step of the machine: what each host action does, that it keeps the invariant, and the fault state (48_system.md R290 to R294; 60_exceptions.md R319), with the obligations StepKeepsInv, StepRunsDecodedCommand, ResetsGiveResetState, HostActionEffects, SystemCommands and FaultStateQuiescent. -/

namespace Sys2Proof.Machine

/-! The step. -/

theorem step_of_host {s : State} {a : HostAction} {rest : List HostAction} (h : s.host = a :: rest) :
    step s = perform a { s with host := rest } := by
  rw [step, takeAction, h]

theorem step_idle {s : State} (h : s.host = []) : step s = .next s := by
  rw [step, takeAction, h]

/-! What keeps the invariant. -/

/-- The invariant speaks of ERR, ORIG_SIZE, SRC_FAIL, SNK_LIMIT and the model's record nowhere, and of the streams in two parts only. -/
theorem Inv.of_onHost {s t : State} (h : Inv s) (ht : t = onHost s t) (hstreams : StreamsOk t) (hsink : t.snk.length ≤ Config.lenMax) :
    Inv t where
  memories := by rw [ht]; exact h.memories
  streams := hstreams
  heap := h.heap.congr (congrArg queueFields ht :)
  tree := h.tree.congr (congrArg queueFields ht :)
  codes := h.codes.congr (congrArg State.ct ht :)
  trie := h.trie.congr (congrArg State.trie ht :) (congrArg State.trieN ht :)
  sink := hsink
  host := by rw [ht]; exact h.host

/-- The next action taken from the list. -/
theorem Inv.take_host {s : State} {a : HostAction} {rest : List HostAction} (h : Inv s) (hs : s.host = a :: rest) :
    Inv { s with host := rest } ∧ actionOk a = true := by
  have hall := h.host
  rw [hs, List.all_cons, Bool.and_eq_true] at hall
  obtain ⟨ha, hrest⟩ := hall
  exact ⟨⟨h.memories, ⟨h.streams.pos, h.streams.len⟩, h.heap.congr rfl, h.tree.congr rfl, h.codes.congr rfl, h.trie.congr rfl rfl, h.sink, hrest⟩, ha⟩

/-- The outcome is a next state of the invariant or, where ERR = 0 and the sink is too long for the command `cmd`, the stop at the sink's end (log 9). -/
def KeepsInv (s : State) (cmd : Option Instr) (o : Host.Outcome State Fault Refusal) : Prop :=
  (∃ t, o = .next t ∧ Inv t) ∨ (s.err = none ∧ ∃ i ∈ cmd, ¬ SinkHolds i s) ∧ o = .fault .sinkTooLong

theorem exec_keepsInv (i : Instr) {s : State} (hs : Inv s) (he : s.err = none) : KeepsInv s (some i) (exec i s) := by
  rcases exec_completes i hs with ⟨t, ht⟩ | ⟨hlong, hstop⟩
  · exact .inl ⟨t, ht, exec_inv hs ht⟩
  · exact .inr ⟨⟨he, i, rfl, hlong⟩, hstop⟩

theorem KeepsInv.next {s t : State} {cmd : Option Instr} (h : Inv t) : KeepsInv s cmd (.next t) := .inl ⟨t, rfl, h⟩

theorem softReset_inv {s : State} (hs : Inv s) : Inv (softReset s) := exec_inv (i := .rst) hs rfl

/-- A write of CMD: a reset or nothing in the fault state, else a fault entry or a command (R94). -/
theorem writeCmd_keepsInv (w : CmdWord) {s : State} (hs : Inv s) : KeepsInv s (decode w).toOption (writeCmd w s) := by
  by_cases he : s.err = none
  · cases hw : decode w with
    | ok i =>
      rw [writeCmd_decoded he hw]
      exact exec_keepsInv i hs he
    | error e =>
      rw [writeCmd_refused he fun ⟨i, hi⟩ => by rw [hw] at hi; cases hi]
      exact .next (hs.of_onHost rfl ⟨hs.streams.pos, hs.streams.len⟩ hs.sink)
  · rw [writeCmd_faulted he]
    split
    · exact .next (softReset_inv hs)
    · exact .next hs

theorem writeSize_inv (v : Count) {s : State} (hs : Inv s) : Inv (writeSize v s) := by
  rw [writeSize_eq]
  split
  · exact hs.of_onHost rfl ⟨hs.streams.pos, hs.streams.len⟩ hs.sink
  · exact hs

/-- An attach a host may present (R41, R294). -/
theorem attachSource_of_le {bytes : List Byte} (h : bytes.length ≤ Config.lenMax) (f : Option Count) (s : State) :
    attachSource bytes f s = .next { s with src := bytes, srcFail := f, rp := 0#64 } := if_neg (Nat.not_lt.2 h)

/-- Every action a host may take keeps the invariant, but for the end of a sink too long (R294, R300). -/
theorem perform_keepsInv {a : HostAction} {s : State} (ha : actionOk a = true) (hs : Inv s) : KeepsInv s (commandOf a) (perform a s) := by
  cases a with
  | cmd w => exact writeCmd_keepsInv w hs
  | attach bytes f =>
    have hlen : bytes.length ≤ Config.lenMax := of_decide_eq_true ha
    rw [perform, attachSource_of_le hlen]
    exact .next (hs.of_onHost rfl ⟨Nat.zero_le _, hlen⟩ hs.sink)
  | limit n => exact .next (hs.of_onHost rfl ⟨hs.streams.pos, hs.streams.len⟩ hs.sink)
  | drain => exact .next (hs.of_onHost rfl ⟨hs.streams.pos, hs.streams.len⟩ (Nat.zero_le _))
  | size v => exact .next (writeSize_inv v hs)
  | read r => exact .next (hs.of_onHost rfl ⟨hs.streams.pos, hs.streams.len⟩ hs.sink)
  | write r v =>
    rw [perform, writeReg, commandOf]
    split
    · exact writeCmd_keepsInv _ hs
    · split
      · exact .next (writeSize_inv v hs)
      · exact .next hs
  | hardReset => exact .next (softReset_inv hs)

/-- What a command may append does not depend on the host's actions to come. -/
theorem sinkHolds_host (i : Instr) (s : State) (rest : List HostAction) : SinkHolds i { s with host := rest } ↔ SinkHolds i s := by
  cases i <;> exact Iff.rfl

/-- Settles O56: a step is the next action on the state without it, and that state meets the invariant. -/
theorem stepKeepsInv : Obligations.StepKeepsInv := by
  intro s hs
  cases hhost : s.host with
  | nil =>
    have kept : ∃ t, step s = .next t ∧ Inv t := ⟨s, step_idle hhost, hs⟩
    exact ⟨fun _ => kept, .inl kept⟩
  | cons a rest =>
    obtain ⟨hrest, ha⟩ := hs.take_host hhost
    rw [step_of_host hhost]
    rcases perform_keepsInv ha hrest with kept | ⟨⟨he, i, hi, hlong⟩, hstop⟩
    · exact ⟨fun _ => kept, .inl kept⟩
    · rw [sinkHolds_host] at hlong
      exact ⟨fun hholds => absurd (hholds he a (by rw [hhost]; rfl) i hi) hlong, .inr hstop⟩

/-- Settles O6: the step with a next action and without one, and the write of a word of a well-formed command. -/
theorem stepRunsDecodedCommand : Obligations.StepRunsDecodedCommand := by
  refine fun s rest => ⟨fun a h => step_of_host h, fun i hi he h => ?_, step_idle⟩
  rw [step_of_host h]
  exact writeCmd_decoded (s := { s with host := rest }) he (encodeDecodeRoundTrip i hi)

/-! What the host actions do. -/

/-- RST by its word, in the fault state and outside it (R94, R291). -/
theorem writeCmd_rstWord (s : State) : writeCmd rstWord s = .next (softReset s) := by
  by_cases he : s.err = none
  · exact writeCmd_decoded he (encodeDecodeRoundTrip .rst rfl)
  · exact (writeCmd_faulted he rstWord).trans (if_pos rfl)

/-- Settles O8: each of the three is `softReset`, and an empty memory reads as at reset. -/
theorem resetsGiveResetState : Obligations.ResetsGiveResetState :=
  fun s => ⟨rfl, writeCmd_rstWord s, rfl, fun _ => ⟨rfl, rfl, rfl, rfl, rfl, rfl⟩⟩

theorem attachSource_of_lt {bytes : List Byte} (h : bytes.length < 2 ^ 64) (f : Option Count) (s : State) :
    attachSource bytes f s = .next { s with src := bytes, srcFail := f, rp := 0#64 } := attachSource_of_le (Nat.le_sub_one_of_lt h) f s

/-- Settles O13: action by action. -/
theorem hostActionEffects : Obligations.HostActionEffects := fun s =>
  ⟨fun _ => rfl, fun _ f h => attachSource_of_lt h f s, fun _ => rfl, rfl, fun v => congrArg Host.Outcome.next (writeSize_eq v s), fun _ => rfl⟩

/-- Settles O14: by definition. -/
theorem systemCommands : Obligations.SystemCommands := fun _ => ⟨rfl, rfl⟩

/-! The fault state (R319). -/

section
variable {s : State} (he : s.err ≠ none)
include he

/-- In the fault state every word but RST is ignored. -/
theorem writeCmd_ignored {w : CmdWord} (hw : w ≠ rstWord) : writeCmd w s = .next s := (writeCmd_faulted he w).trans (if_neg hw)

theorem writeSize_ignored (v : Count) : writeSize v s = s := (writeSize_eq v s).trans (if_neg he)

/-- No action but a reset changes ERR. -/
theorem perform_err_of_faulted {a : HostAction} {t : State} (ha : resets a = false) (h : perform a s = .next t) : t.err = s.err := by
  cases a with
  | cmd w =>
    rw [perform, writeCmd_ignored he (of_decide_eq_false ha)] at h
    cases h; rfl
  | attach bytes f =>
    rw [perform, attachSource] at h
    split at h
    · cases h
    · cases h; rfl
  | limit n => cases h; rfl
  | drain => cases h; rfl
  | size v => cases h; exact writeSize_err v s
  | read r => cases h; rfl
  | write r v =>
    have hrst : ¬ (r = 0 ∧ v.setWidth 32 = rstWord) := of_decide_eq_false ha
    rw [perform, writeReg] at h
    split at h
    · rw [writeCmd_ignored he fun hw => hrst ⟨‹_›, hw⟩] at h
      cases h; rfl
    · split at h
      · cases h; exact writeSize_err v s
      · cases h; rfl
  | hardReset => cases ha

end

/-- Settles O7: the words and sizes are ignored, and the other actions do not look at ERR. -/
theorem faultStateQuiescent : Obligations.FaultStateQuiescent := fun s he =>
  ⟨fun _ hw => writeCmd_ignored he hw, fun v => congrArg Host.Outcome.next (writeSize_ignored he v),
    fun _ _ => perform_err_of_faulted he, fun _ => rfl, fun _ f h => attachSource_of_lt h f s, rfl⟩

end Sys2Proof.Machine
end

section
/-! What a command raises, from any state (60_exceptions.md R310 to R318), with the obligations CommandsRaiseOnlyTheirKinds and BadCommandChangesNothingElse. Unlike in `Run.Ends`, nothing is asked of where a part stops. -/

namespace Sys2Proof.Machine

variable {α β : Type} {ks : List ErrKind}

/-! What a part raises. -/

/-- A part raises no kind but these. Says nothing of a normal end or a stop. -/
def Run.RaisesOnly (r : Run α) (ks : List ErrKind) : Prop :=
  match r with
  | .raise k _ => k ∈ ks
  | .ok _ _ => True
  | .stop _ => True

theorem Run.RaisesOnly.andThen {r : Run α} {f : α → State → Run β} (h : r.RaisesOnly ks) (hf : ∀ a t, (f a t).RaisesOnly ks) :
    (r.andThen f).RaisesOnly ks := by
  cases r with
  | ok a t => exact hf a t
  | raise k t => exact h
  | stop e => trivial

/-- A part that gives something and raises nothing, and what follows on what it gives. -/
theorem Run.Gives.andThen_raises {r : Run α} {f : α → State → Run β} {P : α → State → Prop} (h : r.Gives P)
    (hf : ∀ a t, P a t → (f a t).RaisesOnly ks) : (r.andThen f).RaisesOnly ks := by
  cases r with
  | ok a t => exact hf a t h
  | raise k t => exact h.elim
  | stop e => trivial

/-- The read of a cell raises nothing (R46). -/
theorem cellValue_raises (m : MemName) (i : Nat) (v : Option α) (s : State) : (cellValue m i v s).RaisesOnly ks := by
  cases v <;> trivial

/-! The queue and the tree: nothing but the tests the commands begin with (R146, R161, R162, R181). -/

theorem setHeap_raises (k : Nat) (v : NodeIx) (s : State) : (setHeap k v s).RaisesOnly ks := by
  unfold setHeap; split <;> trivial

theorem setNode_raises (i : Nat) (v : TreeNode) (s : State) : (setNode i v s).RaisesOnly ks := by
  unfold setNode; split <;> trivial

theorem lessAt_raises (p q : Nat) (s : State) : (lessAt p q s).RaisesOnly ks :=
  (cellValue_raises ..).andThen fun _ _ => (cellValue_raises ..).andThen fun _ _ => (cellValue_raises ..).andThen fun _ _ =>
    (cellValue_raises ..).andThen fun _ _ => trivial

theorem swapHeap_raises (p q : Nat) (s : State) : (swapHeap p q s).RaisesOnly ks :=
  (cellValue_raises ..).andThen fun _ _ => (cellValue_raises ..).andThen fun _ _ => (setHeap_raises ..).andThen fun _ _ => setHeap_raises ..

theorem siftUp_raises (n k : Nat) (s : State) : (siftUp n k s).RaisesOnly ks := by
  induction n generalizing k s with
  | zero => trivial
  | succ n ih =>
    rw [siftUp]
    split
    · trivial
    · refine (lessAt_raises ..).andThen fun b t => ?_
      split
      · exact (swapHeap_raises ..).andThen fun _ u => ih _ u
      · trivial

theorem smallerOf_raises (c m : Nat) (s : State) : (smallerOf c m s).RaisesOnly ks := by
  unfold smallerOf; split
  · exact (lessAt_raises ..).andThen fun _ _ => trivial
  · trivial

theorem siftDown_raises (n k : Nat) (s : State) : (siftDown n k s).RaisesOnly ks := by
  induction n generalizing k s with
  | zero => trivial
  | succ n ih =>
    rw [siftDown]
    refine (smallerOf_raises ..).andThen fun _ _ => (smallerOf_raises ..).andThen fun m u => ?_
    split
    · trivial
    · exact (swapHeap_raises ..).andThen fun _ v => ih _ v

theorem heapInsert_raises (i : NodeIx) (s : State) : (heapInsert i s).RaisesOnly ks :=
  (setHeap_raises ..).andThen fun _ _ => siftUp_raises ..

theorem heapExtract_raises (s : State) : (heapExtract s).RaisesOnly ks := by
  unfold heapExtract; split
  · trivial
  · exact (cellValue_raises ..).andThen fun _ _ => (swapHeap_raises ..).andThen fun _ _ => (siftDown_raises ..).andThen fun _ _ => trivial

theorem pqExtract_raises (s : State) : (pqExtract s).RaisesOnly ks := (heapExtract_raises s).andThen fun _ _ => trivial

/-- PQ_INS past its test raises nothing, and marks its symbol (R146). -/
theorem pqInsert_marks {n : Nat} {s : State} (h : ¬ (255 < n ∨ insOf s n = true)) :
    (pqInsert n s).Gives fun _ t => t.ins = writeCell false s.ins n true := by
  rw [pqInsert, if_neg h, setNode]
  split
  · rw [Run.andThen_ok]
    let u : State := { s with node := writeCell none s.node n (some (leafNode n s)), ins := writeCell false s.ins n true }
    have hframe : (heapInsert (BitVec.ofNat 9 n) u).Leaves (Only onQueue u) := heapInsert_frame _ u
    have hsilent : (heapInsert (BitVec.ofNat 9 n) u).RaisesOnly [] := heapInsert_raises ..
    show (heapInsert (BitVec.ofNat 9 n) u).Gives _
    cases hrun : heapInsert (BitVec.ofNat 9 n) u with
    | ok a t => rw [hrun] at hframe; exact (congrArg State.ins hframe.1 :)
    | raise k t => rw [hrun] at hsilent; exact (List.not_mem_nil hsilent).elim
    | stop e => trivial
  · trivial

/-- The leaves of distinct symbols that are not marked yet (R162). -/
theorem insertLeaves_raises {bs : List Nat} {s : State} (hnd : bs.Nodup) (hw : cellsWf false Config.nsym s.ins = true)
    (hb : ∀ b ∈ bs, b < Config.nsym ∧ insOf s b = false) : (insertLeaves bs s).RaisesOnly ks := by
  induction bs generalizing s with
  | nil => trivial
  | cons b bs ih =>
    obtain ⟨hnot, hnd⟩ := List.nodup_cons.1 hnd
    obtain ⟨hlt, hfree⟩ := hb b (List.mem_cons_self ..)
    rw [insertLeaves]
    split
    · exact ih hnd hw fun c hc => hb c (List.mem_cons_of_mem _ hc)
    · have hgood : ¬ (255 < b ∨ insOf s b = true) := by rw [hfree]; simp only [Config.nsym] at hlt; simp; omega
      refine (pqInsert_marks hgood).andThen_raises fun _ t ht => ih hnd (by rw [ht]; exact cellsWf_writeCell _ hlt hw) fun c hc => ?_
      obtain ⟨hlt', hfree'⟩ := hb c (List.mem_cons_of_mem _ hc)
      refine ⟨hlt', ?_⟩
      rw [insOf, ht, readCell_writeCell_other true (fun e : c = b => hnot (e ▸ hc)) hw]
      exact hfree'

/-- TB_MERGE with two live nodes (R161). -/
theorem mergeStep_raises {s : State} (h : ¬ s.heapN.toNat < 2) : (mergeStep s).RaisesOnly ks := by
  rw [mergeStep, if_neg h]
  exact (heapExtract_raises _).andThen fun _ _ => (heapExtract_raises _).andThen fun _ _ => (cellValue_raises ..).andThen fun _ _ =>
    (cellValue_raises ..).andThen fun _ _ => (setNode_raises ..).andThen fun _ _ => (heapInsert_raises ..).andThen fun _ _ => trivial

theorem mergeAll_raises (n : Nat) (s : State) : (mergeAll n s).RaisesOnly ks := by
  induction n generalizing s with
  | zero => trivial
  | succ n ih =>
    rw [mergeAll]
    split
    · exact (mergeStep_raises (by omega)).andThen fun _ t => ih t
    · trivial

/-- The walk down the tree makes no test (R181). -/
theorem walkTree_raises (n : Nat) (i : NodeIx) (path : Code) (s : State) : (walkTree n i path s).RaisesOnly ks := by
  induction n generalizing i path s with
  | zero => rw [walkTree]; split <;> trivial
  | succ n ih =>
    rw [walkTree]; split
    · trivial
    · exact (cellValue_raises ..).andThen fun c t => (ih _ _ t).andThen fun _ u => ih _ _ u

/-! The streams (20_memory.md R62, R63). -/

section
variable (hio : .ioError ∈ ks)
include hio

theorem srcRead_raises (s : State) : (srcRead s).RaisesOnly ks := by
  unfold srcRead; split
  · trivial
  · split
    · exact hio
    · trivial

theorem snkEnd_raises (s : State) : (snkEnd s).RaisesOnly ks := by
  unfold snkEnd; split
  · trivial
  · exact hio

theorem snkWrite_raises (b : Byte) (s : State) : (snkWrite b s).RaisesOnly ks := by
  unfold snkWrite; split
  · exact snkEnd_raises hio s
  · trivial

theorem snkWriteAll_raises (bs : List Byte) (s : State) : (snkWriteAll bs s).RaisesOnly ks := by
  induction bs generalizing s with
  | nil => trivial
  | cons b bs ih => exact (snkWrite_raises hio b s).andThen fun _ t => ih t

theorem srcTake_raises {k : ErrKind} (hk : k ∈ ks) (n : Nat) (s : State) : (srcTake k n s).RaisesOnly ks := by
  induction n generalizing s with
  | zero => trivial
  | succ n ih =>
    rw [srcTake]; split
    · exact hk
    · exact (srcRead_raises hio s).andThen fun b t => (ih t).andThen fun _ _ => trivial

omit hio in
theorem whileSrc_raises {body : α → State → Run α} (hb : ∀ a s, (body a s).RaisesOnly ks) (n : Nat) (a : α) (s : State) :
    (whileSrc body n a s).RaisesOnly ks := by
  induction n generalizing a s with
  | zero => rw [whileSrc]; split <;> trivial
  | succ n ih =>
    rw [whileSrc]; split
    · trivial
    · exact (hb a s).andThen fun a t => ih a t

theorem countByte_raises (n : Count) (s : State) : (countByte n s).RaisesOnly ks := (srcRead_raises hio s).andThen fun _ _ => trivial

/-- FC_SCAN (R131). -/
theorem scanSource_raises (s : State) : (scanSource s).RaisesOnly ks :=
  (whileSrc_raises (countByte_raises hio) ..).andThen fun _ _ => trivial

/-- CF_RDH (R266). -/
theorem readHeader_raises (ht : .truncatedInput ∈ ks) (s : State) : (readHeader s).RaisesOnly ks :=
  (srcTake_raises hio ht ..).andThen fun _ _ => trivial

/-! The table readers (R195 to R204). -/

section
variable (hm : .malformedTable ∈ ks)
include hm

omit hio in
theorem addRecord_raises (sym : Byte) (code : Code) (s : State) : (addRecord sym code s).RaisesOnly ks := by
  unfold addRecord; split
  · exact hm
  · trivial

theorem readRecord_raises (u : Unit) (s : State) : (readRecord u s).RaisesOnly ks := by
  refine (srcRead_raises hio s).andThen fun sym s => ?_
  split
  · exact hm
  · refine (srcRead_raises hio s).andThen fun len s => ?_
    split
    · exact hm
    · split
      · exact hm
      · exact (srcTake_raises hio hm ..).andThen fun bytes s => addRecord_raises hm ..

theorem readTable_raises (w : Nat) (s : State) : (readTable w s).RaisesOnly ks :=
  (srcTake_raises hio hm ..).andThen fun _ _ => whileSrc_raises (readRecord_raises hio hm) ..

theorem readDigit_raises (s : State) : (readDigit s).RaisesOnly ks := by
  unfold readDigit; split
  · exact hm
  · refine (srcRead_raises hio s).andThen fun c s => ?_
    split
    · trivial
    · exact hm

theorem readLine_raises (n : Nat) (toks : List Byte) (s : State) : (readLine n toks s).RaisesOnly ks := by
  induction n generalizing toks s with
  | zero =>
    rw [readLine]; split
    · exact hm
    · trivial
  | succ n ih =>
    refine (readDigit_raises hio hm s).andThen fun h s => (readDigit_raises hio hm s).andThen fun l s => ?_
    split
    · exact hm
    · refine (srcRead_raises hio s).andThen fun c s => ?_
      split
      · trivial
      · split
        · exact ih _ s
        · exact hm

omit hio in
theorem takeRecordLine_raises (toks : List Byte) (s : State) : (takeRecordLine toks s).RaisesOnly ks := by
  unfold takeRecordLine; split
  · split
    · exact hm
    · split
      · exact hm
      · exact addRecord_raises hm ..
  · exact hm

theorem readTableText_raises (s : State) : (readTableText s).RaisesOnly ks := by
  unfold readTableText; split
  · exact hm
  · refine (readLine_raises hio hm ..).andThen fun toks s => ?_
    split
    · exact hm
    · exact whileSrc_raises (fun _ s => (readLine_raises hio hm ..).andThen fun toks s => takeRecordLine_raises hm toks s) ..

end

/-! The packer and the decoder (R233, R268 to R272). -/

theorem flushBytes_raises (n : Nat) (acc : List Bool) (s : State) : (flushBytes n acc s).RaisesOnly ks := by
  induction n generalizing acc s with
  | zero => trivial
  | succ n ih =>
    rw [flushBytes]; split
    · exact (snkWrite_raises hio _ s).andThen fun _ t => ih _ t
    · trivial

theorem packSource_raises (hu : .unknownSymbol ∈ ks) (s : State) : (packSource s).RaisesOnly ks := by
  refine (whileSrc_raises (fun acc t => (srcRead_raises hio t).andThen fun b t => ?_) ..).andThen fun acc t => ?_
  · split
    · exact hu
    · exact flushBytes_raises hio ..
  · unfold flushRest; split
    · trivial
    · exact snkWrite_raises hio _ t

theorem repeatSymbol_raises (sym : Byte) (s : State) : (repeatSymbol sym s).RaisesOnly ks := by
  unfold repeatSymbol; dsimp only; split
  · exact snkEnd_raises hio _
  · trivial

theorem emitSymbol_raises (sym : Byte) (s : State) : (emitSymbol sym s).RaisesOnly ks := (snkWrite_raises hio sym s).andThen fun _ _ => trivial

theorem sdBit_raises (hc : .corruptStream ∈ ks) (bit : Bool) (s : State) : (sdBit bit s).RaisesOnly ks := by
  refine (cellValue_raises ..).andThen fun c s => ?_
  split
  · exact hc
  · refine (cellValue_raises ..).andThen fun d s => ?_
    split
    · exact (emitSymbol_raises hio d.sym s).andThen fun _ _ => trivial
    · trivial

theorem sdBits_raises (hc : .corruptStream ∈ ks) (bits : List Bool) (s : State) : (sdBits bits s).RaisesOnly ks := by
  induction bits generalizing s with
  | nil => trivial
  | cons bit bits ih =>
    refine (sdBit_raises hio hc bit s).andThen fun _ t => ?_
    split
    · trivial
    · exact ih t

theorem sdLoop_raises (hc : .corruptStream ∈ ks) (ht : .truncatedInput ∈ ks) (n : Nat) (s : State) : (sdLoop n s).RaisesOnly ks := by
  induction n generalizing s with
  | zero =>
    rw [sdLoop]; split
    · exact ht
    · trivial
  | succ n ih =>
    rw [sdLoop]; split
    · exact ht
    · refine (srcRead_raises hio s).andThen fun b s => (sdBits_raises hio hc _ s).andThen fun _ s => ?_
      split
      · trivial
      · exact ih s

end

/-! The trie (R251 to R253). -/

theorem setTrie_raises (i : Nat) (v : TrieNode) (s : State) : (setTrie i v s).RaisesOnly ks := by
  unfold setTrie; split <;> trivial

theorem trieNew_raises (s : State) : (trieNew s).RaisesOnly ks := (setTrie_raises ..).andThen fun _ _ => trivial

section
variable (ha : .ambiguousCode ∈ ks)
include ha

theorem trieWalk_raises (code : Code) (cur : TrieIx) (s : State) : (trieWalk code cur s).RaisesOnly ks := by
  induction code generalizing cur s with
  | nil => trivial
  | cons bit bits ih =>
    refine Run.RaisesOnly.andThen ((cellValue_raises ..).andThen fun c s => ?_) fun cur t => ih cur t
    split
    · exact ha
    · split
      · exact (trieNew_raises s).andThen fun _ _ => (setTrie_raises ..).andThen fun _ _ => trivial
      · trivial

theorem trieMark_raises (sym : Byte) (cur : TrieIx) (s : State) : (trieMark sym cur s).RaisesOnly ks := by
  refine (cellValue_raises ..).andThen fun c s => ?_
  split
  · exact ha
  · split
    · exact ha
    · exact setTrie_raises ..

theorem trieAddAll_raises (bs : List Nat) (p : Nat × Nat) (s : State) : (trieAddAll bs p s).RaisesOnly ks := by
  induction bs generalizing p s with
  | nil => trivial
  | cons b bs ih =>
    rw [trieAddAll]; split
    · exact ih p s
    · exact ((trieWalk_raises ha ..).andThen fun cur t => trieMark_raises ha _ cur t).andThen fun _ t => ih _ t

theorem buildTrie_raises (s : State) : (buildTrie s).RaisesOnly ks :=
  (trieNew_raises _).andThen fun _ _ => (trieAddAll_raises ha ..).andThen fun _ _ => trivial

end

/-! The commands. -/

/-- What a command can raise, and that BadCommand is raised in the state the command began in (R317). -/
def Run.Blames (r : Run α) (ks : List ErrKind) (s : State) : Prop :=
  match r with
  | .raise k t => k ∈ ks ∧ (k = .badCommand → t = s)
  | .ok _ _ => True
  | .stop _ => True

theorem Run.RaisesOnly.blames {r : Run α} (h : r.RaisesOnly ks) (hks : .badCommand ∉ ks) (s : State) : r.Blames ks s := by
  cases r with
  | ok a t => trivial
  | raise k t => exact ⟨h, fun hk => absurd (hk ▸ h) hks⟩
  | stop e => trivial

/-- A command that begins with a test for BadCommand and raises other kinds after it. -/
theorem Run.RaisesOnly.guarded {r : Run α} {p : Prop} [Decidable p] {s : State} (h : ¬ p → r.RaisesOnly ks) (hks : .badCommand ∉ ks) :
    (if p then .raise .badCommand s else r).Blames (.badCommand :: ks) s := by
  split
  · exact ⟨List.mem_cons_self .., fun _ => rfl⟩
  · cases r with
    | ok a t => trivial
    | raise k t => exact ⟨List.mem_cons_of_mem _ (h ‹_›), fun hk => absurd (hk ▸ h ‹_›) hks⟩
    | stop e => trivial

/-- How a command that began in `s` with ERR = 0 can leave ERR: at 0, or by entering the fault state (R318). -/
def Leads (ks : List ErrKind) (s t : State) : Prop := t.err = none ∨ ∃ k ∈ ks, ∃ u, t = enterFault k u ∧ (k = .badCommand → u = s)

/-- No part of a command writes ERR, so it holds what fault entry puts there. -/
theorem finish_leads {f : State → State → State} {r : Run Unit} {s t : State} (hframe : r.Leaves (Only f s)) (hr : r.Blames ks s)
    (he : s.err = none) (h : finish r = .next t) (hf : ∀ u, (f s u).err = s.err := by intros; rfl) : Leads ks s t := by
  rcases finish_eq_next.1 h with rfl | ⟨k, u, rfl, rfl⟩
  · exact .inl ((congrArg State.err hframe.1).trans ((hf t).trans he))
  · obtain ⟨hk, hbad⟩ := hr
    exact .inr ⟨k, hk, u, rfl, hbad⟩

/-- TB_BUILD past its test raises nothing: the symbols it enters are distinct, and no leaf is marked in a cleared queue (R162). -/
theorem buildTree_blames (s : State) : (buildTree s).Blames [.badCommand] s := by
  refine Run.RaisesOnly.guarded (fun _ => ?_) List.not_mem_nil
  refine (insertLeaves_raises List.nodup_range rfl fun b hb => ⟨List.mem_range.1 hb, rfl⟩).andThen fun _ t => ?_
  exact (mergeAll_raises _ t).andThen fun _ u => (heapExtract_raises u).andThen fun _ _ => trivial

theorem pqInsert_blames (n : Nat) (s : State) : (pqInsert n s).Blames [.badCommand] s :=
  Run.RaisesOnly.guarded (fun _ => (setNode_raises ..).andThen fun _ _ => heapInsert_raises ..) List.not_mem_nil

theorem mergeStep_blames (s : State) : (mergeStep s).Blames [.badCommand] s :=
  Run.RaisesOnly.guarded (fun h => by have := mergeStep_raises (ks := []) h; rwa [mergeStep, if_neg h] at this) List.not_mem_nil

theorem generateCodes_blames (s : State) : (generateCodes s).Blames [.badCommand] s := by
  refine Run.RaisesOnly.guarded (fun _ => ?_) List.not_mem_nil
  split
  · trivial
  · exact walkTree_raises ..

theorem writeTable_blames (s : State) : (writeTable 4 s).Blames [.badCommand, .ioError] s :=
  Run.RaisesOnly.guarded (fun _ => snkWriteAll_raises (by decide) ..) (by decide)

theorem writeTableText_blames (s : State) : (writeTableText 4 s).Blames [.badCommand, .ioError] s :=
  Run.RaisesOnly.guarded (fun _ => snkWriteAll_raises (by decide) ..) (by decide)

theorem runDecoder_blames (s : State) : (runDecoder s).Blames [.badCommand, .corruptStream, .truncatedInput, .ioError] s := by
  refine Run.RaisesOnly.guarded (fun _ => ?_) (by decide)
  dsimp only
  split
  · trivial
  · split
    · exact repeatSymbol_raises (by decide) ..
    · exact sdLoop_raises (by decide) (by decide) (by decide) ..

/-- Every command leaves ERR at 0 or raises one of its kinds, BadCommand before it has written anything (R310 to R317). -/
theorem exec_leads {i : Instr} {s t : State} (he : s.err = none) (h : exec i s = .next t) : Leads (mayRaise i) s t := by
  cases i with
  | nop => cases h; exact .inl he
  | rst => cases h; exact .inl rfl
  | rwd => cases h; exact .inl he
  | pqClr => cases h; exact .inl he
  | fcScan => exact finish_leads (scanSource_frame s) ((scanSource_raises (by decide) s).blames (by decide) s) he h
  | pqIns n => exact finish_leads (pqInsert_frame n s) (pqInsert_blames n s) he h
  | pqExt => exact finish_leads (pqExtract_frame s) ((pqExtract_raises s).blames (by decide) s) he h
  | tbMerge => exact finish_leads (mergeStep_frame s) (mergeStep_blames s) he h
  | tbBuild => exact finish_leads (buildTree_frame s) (buildTree_blames s) he h
  | cgGen => exact finish_leads (generateCodes_frame s) (generateCodes_blames s) he h
  | ctWr4 => exact finish_leads (writeTable_frame 4 s) (writeTable_blames s) he h
  | ctWrx4 => exact finish_leads (writeTableText_frame 4 s) (writeTableText_blames s) he h
  | ctWr8 =>
    rw [show exec .ctWr8 s = finish (snkWriteAll (tableBytes 8 s) s) from congrArg finish (writeTable_of_fits nofun)] at h
    exact finish_leads (snkWriteAll_frame _ s) ((snkWriteAll_raises (by decide) _ s).blames (by decide) s) he h
  | ctWrx8 =>
    rw [show exec .ctWrx8 s = finish (snkWriteAll (tableText 8 s) s) from congrArg finish (writeTableText_of_fits nofun)] at h
    exact finish_leads (snkWriteAll_frame _ s) ((snkWriteAll_raises (by decide) _ s).blames (by decide) s) he h
  | cfWrh => exact finish_leads (snkWriteAll_frame _ s) ((snkWriteAll_raises (by decide) _ s).blames (by decide) s) he h
  | ctRd4 => exact finish_leads (readTable_frame 4 s) ((readTable_raises (by decide) (by decide) 4 s).blames (by decide) s) he h
  | ctRd8 => exact finish_leads (readTable_frame 8 s) ((readTable_raises (by decide) (by decide) 8 s).blames (by decide) s) he h
  | ctRdx => exact finish_leads (readTableText_frame s) ((readTableText_raises (by decide) (by decide) s).blames (by decide) s) he h
  | bpEnc => exact finish_leads (packSource_frame s) ((packSource_raises (by decide) (by decide) s).blames (by decide) s) he h
  | dtBuild => exact finish_leads (buildTrie_frame s) ((buildTrie_raises (by decide) s).blames (by decide) s) he h
  | cfRdh => exact finish_leads (readHeader_frame s) ((readHeader_raises (by decide) (by decide) s).blames (by decide) s) he h
  | sdRun => exact finish_leads (runDecoder_frame s) (runDecoder_blames s) he h

/-- Settles O48: a command that enters the fault state does so with one of its kinds. -/
theorem commandsRaiseOnlyTheirKinds : Obligations.CommandsRaiseOnlyTheirKinds := by
  intro i s t he h
  rcases exec_leads he h with hnone | ⟨k, hk, u, rfl, -⟩
  · exact .inl hnone
  · exact .inr ⟨k, hk, rfl⟩

/-- Settles O49: a word that is no command enters the fault state at once, and so does a command that raises BadCommand. -/
theorem badCommandChangesNothingElse : Obligations.BadCommandChangesNothingElse := by
  intro w s t he h hbad
  cases hw : decode w with
  | error e =>
    rw [writeCmd_refused he fun ⟨i, hi⟩ => by rw [hw] at hi; cases hi] at h
    cases h; rfl
  | ok i =>
    rw [writeCmd_decoded he hw] at h
    rcases exec_leads he h with hnone | ⟨k, -, u, rfl, hu⟩
    · rw [hnone] at hbad; cases hbad
    · obtain rfl : k = .badCommand := Option.some.inj hbad
      rw [hu rfl]; rfl

end Sys2Proof.Machine
end

section
/-! CF_RDH and the paths of SD_RUN (47_stream_decoder.md R266 to R274), with the obligations CfRdhReadsHeader, SdRunWithoutWalking, SdRunAppendsExactlyTarget, SdRunDecodesCodes and SdRunFaults. -/

namespace Sys2Proof.Machine

/-! CF_RDH (R266). -/

/-- One more byte below an integer: it is put under the bytes above it (R12). -/
theorem fromLe_cons {w : Nat} {x : BitVec w} {bs : List Byte} (b : Byte) (h : fromLe bs = x.setWidth 64) :
    fromLe (b :: bs) = (x ++ b).setWidth 64 := by
  rw [fromLe, h, BitVec.or_comm, BitVec.setWidth_append_eq_shiftLeft_setWidth_or]

/-- Eight bytes side by side, the first one lowest (R12). -/
theorem fromLe_eight (b0 b1 b2 b3 b4 b5 b6 b7 : Byte) :
    fromLe [b0, b1, b2, b3, b4, b5, b6, b7] = b7 ++ b6 ++ b5 ++ b4 ++ b3 ++ b2 ++ b1 ++ b0 := by
  have top : fromLe [b7] = b7.setWidth 64 := by simp [fromLe]
  exact (fromLe_cons b0 <| fromLe_cons b1 <| fromLe_cons b2 <| fromLe_cons b3 <| fromLe_cons b4 <| fromLe_cons b5 <|
    fromLe_cons b6 top).trans (BitVec.setWidth_eq _)

theorem eq_of_length_eight {bs : List Byte} (h : bs.length = 8) : ∃ b0 b1 b2 b3 b4 b5 b6 b7, bs = [b0, b1, b2, b3, b4, b5, b6, b7] := by
  match bs, h with
  | [b0, b1, b2, b3, b4, b5, b6, b7], _ => exact ⟨b0, b1, b2, b3, b4, b5, b6, b7, rfl⟩

/-- A header that is there goes to ORIG_SIZE. -/
theorem readHeader_ok {s : State} (hs : StreamsOk s) (hg : SourceGives 8 s) :
    readHeader s = .ok () { advance 8 s with origSize := fromLe ((sourceRest s).take 8) } := by
  rw [readHeader, Config.hdrC, hg.take hs, Run.andThen_ok]

/-- Where taking the header raises, ORIG_SIZE is not written. -/
theorem readHeader_raise {s t : State} {k : ErrKind} (h : srcTake .truncatedInput 8 s = .raise k t) : readHeader s = .raise k t := by
  rw [readHeader, Config.hdrC, h, Run.andThen_raise]

/-- Settles O43: the header is taken whole, ends early or fails. -/
theorem cfRdhReadsHeader : Obligations.CfRdhReadsHeader := by
  refine fun s hs => ⟨fun hg => ?_, fun hshort hg => ?_, fun f hf hin hnear => ?_⟩
  · have hlen : ((sourceRest s).take 8).length = 8 := by
      have := hg.1
      rw [List.length_take, length_sourceRest, srcLeft]
      omega
    obtain ⟨b0, b1, b2, b3, b4, b5, b6, b7, hbs⟩ := eq_of_length_eight hlen
    refine ⟨b0, b1, b2, b3, b4, b5, b6, b7, hbs, (congrArg finish (readHeader_ok hs hg)).trans ?_⟩
    rw [hbs, fromLe_eight]
    rfl
  · have ended := readHeader_raise (srcTake_short hs hg hshort)
    rw [advance_all s hs] at ended
    exact congrArg finish ended
  · have ended := readHeader_raise (srcTake_fails hs (sourceFailsAfter_of_srcFail hf hin) (by omega))
    rw [advance, rp_add_sub (le_max_left ..)] at ended
    exact congrArg finish ended

/-! Where SD_RUN does not walk (R270 to R272). -/

/-- The registers of a run that begins (R270). -/
def started (s : State) : State := { s with sdState := .walking, sdCur := 0#16, sdCnt := 0#64 }

theorem runDecoder_no_trie {s : State} (h : s.trieN = 0#17) : runDecoder s = .raise .badCommand s := if_pos h

theorem runDecoder_zero {s : State} (h : s.trieN ≠ 0#17) (h0 : s.origSize = 0#64) :
    runDecoder s = .ok () { started s with sdState := .done } := by
  rw [runDecoder, if_neg h]
  exact if_pos h0

theorem runDecoder_single {s : State} (h : s.trieN ≠ 0#17) (h0 : s.origSize ≠ 0#64) (hone : s.decOne.getLsbD 8 = true) :
    runDecoder s = repeatSymbol (decOneSym s) (started s) := by
  rw [runDecoder, if_neg h]
  exact (if_neg h0).trans (if_pos hone)

theorem runDecoder_walk {s : State} (h : s.trieN ≠ 0#17) (h0 : s.origSize ≠ 0#64) (hone : s.decOne.getLsbD 8 = false) :
    runDecoder s = sdLoop (srcLeft s) (started s) := by
  rw [runDecoder, if_neg h]
  exact (if_neg h0).trans (if_neg (by rw [decOneFlag]; exact ne_true_of_eq_false hone))

/-- DEC_ONE of a single pair (R34). -/
theorem decOne_flag_sym (sym : Byte) : (0x100#9 ||| sym.setWidth 9).getLsbD 8 = true ∧ (0x100#9 ||| sym.setWidth 9).extractLsb' 0 8 = sym := by
  have low : (sym.setWidth 9).extractLsb' 0 8 = sym := by ext i hi; simp [Nat.lt_succ_of_lt hi, BitVec.getLsbD_eq_getElem hi]
  refine ⟨by simp, ?_⟩
  rw [BitVec.extractLsb'_or, low, show (0x100#9).extractLsb' 0 8 = 0#8 by decide, BitVec.zero_or]

/-- The single symbol into a sink that takes all its copies (R272). -/
theorem repeatSymbol_ok {s : State} (sym : Byte) (hk : SinkTakes s.origSize.toNat s) :
    repeatSymbol sym s = .ok () { s with snk := s.snk ++ List.replicate s.origSize.toNat sym, sdCnt := s.origSize, sdState := .done } := by
  obtain ⟨-, hroom, -⟩ := snkRoom_spec s.origSize.toNat s
  rw [repeatSymbol, hroom hk, if_neg (Nat.lt_irrefl _), BitVec.ofNat_toNat, BitVec.setWidth_eq]

/-- The single symbol into a sink with a limit below its copies (R272, 20_memory.md R63). -/
theorem repeatSymbol_full {s : State} (sym : Byte) {m : Count} (hm : s.snkLimit = some m) (h : m.toNat < s.snk.length + s.origSize.toNat)
    (h0 : s.origSize ≠ 0#64) :
    repeatSymbol sym s = .raise .ioError
      { s with snk := s.snk ++ List.replicate (m.toNat - s.snk.length) sym, sdCnt := BitVec.ofNat 64 (m.toNat - s.snk.length) } := by
  have hpos : 0 < s.origSize.toNat := Nat.pos_of_ne_zero fun e => h0 (BitVec.eq_of_toNat_eq e)
  obtain ⟨-, -, hroom⟩ := snkRoom_spec s.origSize.toNat s
  rw [repeatSymbol, hroom m hm, Nat.min_eq_right (by omega), if_pos (by omega), snkEnd_limited (by simp [hm])]

/-- Settles O44: the three paths that read nothing, the last with a sink that takes the symbols and one that does not. -/
theorem sdRunWithoutWalking : Obligations.SdRunWithoutWalking := by
  refine fun s => ⟨fun h => congrArg finish (runDecoder_no_trie h), fun h h0 => congrArg finish (runDecoder_zero h h0),
    fun h h0 sym hone => ?_⟩
  obtain ⟨hflag, hsym⟩ := decOne_flag_sym sym
  have single : runDecoder s = repeatSymbol sym (started s) := by
    rw [runDecoder_single h h0 (by rw [hone]; exact hflag), decOneSym, hone, hsym]
  refine ⟨fun hk => ?_, fun m hm hfew => ?_⟩
  · exact congrArg finish (single.trans (repeatSymbol_ok sym hk))
  · exact congrArg finish (single.trans (repeatSymbol_full (s := started s) sym hm hfew h0))

/-! What SD_CNT counts (R274). -/

/-- The run wrote `out`, and SD_CNT counts it. -/
def Counted (s t : State) (out : List Byte) : Prop := t.snk = s.snk ++ out ∧ t.sdCnt.toNat = out.length

/-- A run is done with as many bytes as ORIG_SIZE says, or raises in WALKING with at most as many. -/
theorem runDecoder_counts {s : State} (hn : s.trieN ≠ 0#17) (hs : StreamsOk s) (ht : TrieOk s) :
    (runDecoder s).Ends
      (fun _ t => t.sdState = .done ∧ t.sdCur = 0#16 ∧ ∃ out, Counted s t out ∧ out.length = s.origSize.toNat)
      (fun _ t => t.sdState = .walking ∧ ∃ out, Counted s t out ∧ out.length ≤ s.origSize.toNat)
      (¬ SinkFits s.origSize.toNat s) := by
  have pos {n : Nat} {x : BitVec n} (h : x ≠ 0#n) : 0 < x.toNat := Nat.pos_of_ne_zero fun e => h (BitVec.eq_of_toNat_eq e)
  by_cases h0 : s.origSize = 0#64
  · rw [runDecoder_zero hn h0]
    exact ⟨rfl, rfl, [], ⟨(List.append_nil _).symm, rfl⟩, by rw [h0]; rfl⟩
  cases hone : s.decOne.getLsbD 8 with
  | true =>
    rw [runDecoder_single hn h0 hone]
    refine (repeatSymbol_ends _ (started s)).mono ?_ ?_
    · rintro - t rfl
      exact ⟨rfl, rfl, _, ⟨rfl, by rw [List.length_replicate]⟩, List.length_replicate ..⟩
    · rintro k t ⟨-, n, hlt, rfl⟩
      have hlt : n < s.origSize.toNat := hlt
      refine ⟨rfl, _, ⟨rfl, ?_⟩, (List.length_replicate ..).trans_le hlt.le⟩
      exact (toNat_ofNat_of_lt (hlt.trans s.origSize.isLt)).trans (List.length_replicate ..).symm
  | false =>
    rw [runDecoder_walk hn h0 hone]
    have walks : Walks (started s) s.snk := ⟨ht.congr rfl rfl, pos hn, ⟨[], (List.append_nil _).symm, rfl⟩, pos h0, rfl⟩
    refine (sdLoop_ends (srcLeft s) (s := started s) ⟨hs.pos, hs.len⟩ walks (Nat.le_refl _)).mono ?_ ?_
    · rintro - t ⟨-, -, hdone, hcur, hcnt, out, hsnk, hlen⟩
      exact ⟨hdone, hcur, out, ⟨hsnk, by rw [hcnt]; exact hlen⟩, hlen.symm⟩
    · rintro k t ⟨-, hframe, -, hw⟩
      obtain ⟨out, hsnk, hcnt⟩ := hw.counted
      have hsize : t.origSize = s.origSize := by rw [hframe]; rfl
      exact ⟨hw.walking, out, ⟨hsnk, hcnt⟩, by rw [← hcnt, ← hsize]; exact hw.room.le⟩

/-- Settles O46: the two endings of `runDecoder_counts`; only the second enters the fault state. -/
theorem sdRunAppendsExactlyTarget : Obligations.SdRunAppendsExactlyTarget := by
  intro s t hs he hn h
  have counts := runDecoder_counts hn hs.streams hs.trie
  have frame := runDecoder_frame s
  rcases finish_eq_next.1 h with hrun | ⟨k, u, hrun, rfl⟩
  · rw [hrun] at counts frame
    obtain ⟨hdone, hcur, out, ⟨hsnk, hcnt⟩, hlen⟩ := counts
    have herr : t.err = none := (congrArg State.err frame.1).trans he
    exact ⟨out, hsnk, hlen.le, hcnt, fun _ => ⟨hlen, hdone, hcur⟩, fun hne => absurd herr hne⟩
  · rw [hrun] at counts
    obtain ⟨hwalking, out, ⟨hsnk, hcnt⟩, hlen⟩ := counts
    exact ⟨out, hsnk, hlen, hcnt, nofun, fun _ => hwalking⟩

/-! The walk over codes (R268 to R270). -/

/-- The decoder after the symbols `out`, with SD_CUR on a node of the path that follows. -/
def walked (out : List Byte) (cur : TrieIx) (s : State) : State :=
  { s with sdState := .walking, sdCur := cur, sdCnt := BitVec.ofNat 64 out.length, snk := s.snk ++ out }

section
variable {s : State} {coder : Byte → Code} {out taken rest : List Byte} {path : Code} {cur : TrieIx} {c : TrieNode}

/-- The codes of fewer than ORIG_SIZE symbols and a path through nodes that are no leaves. -/
theorem sdBits_walked (more : List Bool) (hlt : out.length < s.origSize.toNat) (hd : TrieDecodes s coder out) (hk : SinkTakes out.length s)
    (hp : walkTrie s 0#16 path = some cur) (hc : trieOf s cur.toNat = some c) (hl : path ≠ [] → c.leaf = false) :
    sdBits (out.flatMap coder ++ path ++ more) (started s) = sdBits more (walked out cur s) := by
  have hcnt : (BitVec.ofNat 64 out.length).toNat = out.length := toNat_ofNat_of_lt (hlt.trans s.origSize.isLt)
  have hne : BitVec.ofNat 64 out.length ≠ s.origSize := fun e => by rw [e] at hcnt; omega
  rw [List.append_assoc, sdBits_symbols out _ (s := started s) rfl rfl ((Nat.zero_add _).trans_lt hlt) (trieDecodes_congr (s := s) (t := started s) rfl hd) hk,
    show (started s).sdCnt + BitVec.ofNat 64 out.length = BitVec.ofNat 64 out.length from BitVec.zero_add _]
  exact sdBits_walk more (s := walked out 0#16 s) nofun hne ((walkTrie_congr (s := s) (t := walked out 0#16 s) rfl _ _).trans hp) hc hl

section
variable (hs : StreamsOk s) (hn : s.trieN ≠ 0#17) (hone : s.decOne.getLsbD 8 = false) (hlt : out.length < s.origSize.toNat)
  (hd : TrieDecodes s coder out) (hk : SinkTakes out.length s) (hr : sourceRest s = taken ++ rest) (hg : SourceGives taken.length s)
include hs hn hone hlt hd hk hr hg

/-- SD_RUN over bytes whose bits are the codes of fewer than ORIG_SIZE symbols, a path and the rest `ys` of the last byte: what `ys` leads to, and the loop from there. -/
theorem runDecoder_bytes {ys : List Bool} (hp : walkTrie s 0#16 path = some cur) (hc : trieOf s cur.toNat = some c)
    (hl : path ≠ [] → c.leaf = false) (hb : taken.flatMap bitsOf = out.flatMap coder ++ path ++ ys) (hy : ys.length ≤ 8) :
    runDecoder s = ((sdBits ys (walked out cur s)).later taken.length).andThen fun _ t =>
      if t.sdState = .done then .ok () t else sdLoop rest.length t := by
  have h0 : s.origSize ≠ 0#64 := fun e => by rw [e] at hlt; exact Nat.not_lt_zero _ hlt
  have hwalk : sdBits (out.flatMap coder ++ path) (started s) = .ok () (walked out cur s) := by
    have := sdBits_walked [] hlt hd hk hp hc hl
    rwa [List.append_nil] at this
  rw [runDecoder_walk hn h0 hone, ← length_sourceRest, hr, List.length_append]
  exact sdLoop_bytes (s := started s) rest.length ⟨hs.pos, hs.len⟩ nofun hr hg hb hy hwalk nofun

/-- All bits used up and no symbol due: the loop goes on with the next byte. -/
theorem runDecoder_goes_on (hp : walkTrie s 0#16 path = some cur) (hc : trieOf s cur.toNat = some c)
    (hl : path ≠ [] → c.leaf = false) (hb : taken.flatMap bitsOf = out.flatMap coder ++ path) :
    runDecoder s = sdLoop rest.length (advance taken.length (walked out cur s)) := by
  rw [runDecoder_bytes hs hn hone hlt hd hk hr hg hp hc hl (ys := []) (by rwa [List.append_nil]) (Nat.zero_le _), sdBits, Run.later,
    Run.andThen_ok, if_neg (show (advance taken.length (walked out cur s)).sdState ≠ .done from nofun)]

/-- A path to a leaf within the last byte: its symbol goes to the sink (R268). -/
theorem runDecoder_emits {more : List Bool} (hp : walkTrie s 0#16 path = some cur) (hc : trieOf s cur.toNat = some c) (hne : path ≠ [])
    (hleaf : c.leaf = true) (hb : taken.flatMap bitsOf = out.flatMap coder ++ path ++ more) (hm : more.length < 8) :
    runDecoder s = (((emitSymbol c.sym (walked out cur s)).andThen fun _ t =>
        if (checkDone t).sdState = .done then .ok () (checkDone t) else sdBits more (checkDone t)).later taken.length).andThen fun _ t =>
      if t.sdState = .done then .ok () t else sdLoop rest.length t := by
  obtain ⟨init, bit, k, x, rfl, hk', hx, hxleaf, hnil, rfl⟩ := walkTrie_last hp hne
  rw [runDecoder_bytes hs hn hone hlt hd hk hr hg hk' hx (fun _ => hxleaf) (ys := bit :: more) (by rw [hb]; simp) hm]
  have hcnt : (BitVec.ofNat 64 out.length).toNat = out.length := toNat_ofNat_of_lt (hlt.trans s.origSize.isLt)
  have hsize : BitVec.ofNat 64 out.length ≠ s.origSize := fun e => by rw [e] at hcnt; omega
  have hstep : walkTrie (walked out k s) k [bit] = some (childOf bit x) := walkTrie_cons.2 ⟨x, hx, hxleaf, hnil, rfl⟩
  rw [show bit :: more = [bit] ++ more from rfl, sdBits_emit more (s := walked out k s) nofun hsize hstep hc (List.cons_ne_nil _ _) hleaf]
  rfl

end
end

/-- Settles O47: no byte, a failing byte, a missing edge and a full sink, each after the same walk. -/
theorem sdRunFaults : Obligations.SdRunFaults := by
  intro s coder out taken rest path cur c hs hn hone hlt hd hk hr hg hp hc bits faulted
  have hstreams : StreamsOk (advance taken.length (walked out cur s)) := ⟨(hg.streamsOk hs.streams).pos, hs.streams.len⟩
  have hrest : sourceRest (advance taken.length (walked out cur s)) = rest := by
    refine (hg.rest hs.streams).trans ?_
    rw [hr, List.drop_left]
  refine ⟨fun hb hl hnil => ?truncated, fun hb hl hf => ?failing, fun bit more hb hm hl hedge => ?noEdge, fun m more hb hm hne hleaf hlim hfull => ?full⟩
  case truncated =>
    subst hnil
    have run := runDecoder_goes_on hs.streams hn hone hlt hd hk hr hg hp hc hl hb
    rw [List.length_nil, sdLoop, if_pos ((eof_iff_rest hstreams).2 hrest)] at run
    exact congrArg finish run
  case failing =>
    have run := runDecoder_goes_on hs.streams hn hone hlt hd hk hr hg hp hc hl hb
    have here : SourceFailsAfter 0 (advance taken.length (walked out cur s)) := hf.after (m := 0) hs.streams
    obtain ⟨n, hlen⟩ := Nat.exists_eq_succ_of_ne_zero
      (List.length_pos_iff.2 (SourceFailsAfter.rest_ne_nil (j := 0) hf hr)).ne'
    rw [hlen, sdLoop, if_neg (by rw [here.not_eof hstreams]; decide), here.read, Run.andThen_raise] at run
    exact congrArg finish run
  case noEdge =>
    have run := runDecoder_bytes hs.streams hn hone hlt hd hk hr hg hp hc hl hb hm
    rw [sdBits, sdBit_missing (s := walked out cur s) hc hedge] at run
    exact congrArg finish run
  case full =>
    have run := runDecoder_emits hs.streams hn hone hlt hd hk hr hg hp hc hne hleaf hb hm
    rw [emitSymbol_full (s := walked out cur s) c.sym hlim (by rw [walked, List.length_append]; exact hfull)] at run
    exact congrArg finish run

/-- The last symbol goes out: the run is done, whatever bits are left (R268, R270). -/
theorem emit_last {s : State} {sym : Byte} {f : State → Run Unit} (h : s.sdCnt + 1#64 = s.origSize) (hk : SinkTakes 1 s) :
    ((emitSymbol sym s).andThen fun _ t => if (checkDone t).sdState = .done then .ok () (checkDone t) else f (checkDone t)) =
      .ok () { s with sdState := .done, sdCur := 0#16, sdCnt := s.sdCnt + 1#64, snk := s.snk ++ [sym] } := by
  have hdone : checkDone { s with sdCur := 0#16, sdCnt := s.sdCnt + 1#64, snk := s.snk ++ [sym], sdState := .walking } =
    { s with sdState := .done, sdCur := 0#16, sdCnt := s.sdCnt + 1#64, snk := s.snk ++ [sym] } := if_pos h
  rw [emitSymbol_ok sym hk, Run.andThen_ok, hdone, if_pos rfl]

/-- SD_RUN over the packed codes of ORIG_SIZE symbols (R268 to R270). -/
theorem runDecoder_decodes {s : State} {coder : Byte → Code} {msg rest : List Byte} (hs : StreamsOk s) (hn : s.trieN ≠ 0#17)
    (hone : s.decOne.getLsbD 8 = false) (hne : msg ≠ []) (hlen : msg.length = s.origSize.toNat) (hd : TrieDecodes s coder msg)
    (hr : sourceRest s = packbits (msg.flatMap coder) ++ rest) (hg : SourceGives (packbits (msg.flatMap coder)).length s)
    (hk : SinkTakes msg.length s) :
    runDecoder s = .ok () { advance (packbits (msg.flatMap coder)).length s with
      sdState := .done, sdCur := 0#16, sdCnt := s.origSize, snk := s.snk ++ msg } := by
  obtain ⟨out, b, rfl⟩ : ∃ out b, msg = out ++ [b] := ⟨_, _, (List.dropLast_append_getLast hne).symm⟩
  obtain ⟨hcode, c, hf, hleaf, rfl⟩ := hd b (by simp)
  obtain ⟨cur, hp, hc⟩ := Option.bind_eq_some_iff.1 hf
  rw [List.length_append, List.length_singleton] at hlen hk
  have hbits : (out ++ [c.sym]).flatMap coder = out.flatMap coder ++ coder c.sym := by simp
  have hpad := flatMap_bitsOf_packbits ((out ++ [c.sym]).flatMap coder)
  rw [hbits] at hpad hr hg ⊢
  have run := runDecoder_emits hs hn hone (by omega) (fun b hb => hd b (by simp [hb])) (hk.le (Nat.le_add_right ..)) hr hg hp hc hcode hleaf hpad
    (by rw [List.length_replicate, ceil8]; omega)
  have hroom : SinkTakes 1 (walked out cur s) := sinkTakes_append (s := s) hk
  have hcnt : BitVec.ofNat 64 out.length + 1#64 = s.origSize := by
    rw [BitVec.add_comm, ofNat_succ, hlen, BitVec.ofNat_toNat, BitVec.setWidth_eq]
  rw [emit_last hcnt hroom, Run.later, Run.andThen_ok, if_pos (by rfl)] at run
  rw [run, ← List.append_assoc, ← hcnt]
  rfl

/-- Settles O45: the last symbol is emitted within the last byte, and the run is done. -/
theorem sdRunDecodesCodes : Obligations.SdRunDecodesCodes := by
  intro s coder msg rest hs hn hone hne hlen hd bits hr hg hk
  exact congrArg finish (runDecoder_decodes hs.streams hn hone hne hlen hd hr hg hk)

end Sys2Proof.Machine
end

section
/-! The round trips (47_stream_decoder.md R275; 48_system.md R295 to R298), with the obligations DecoderInvertsPacker and FlowsRoundTrip. -/

namespace Sys2Proof.Machine

/-! A trie built from a code table, and the packed codes of that table (R275). -/

/-- Every code of the table leads from the root of the trie to its symbol's leaf (R252). -/
theorem TrieBuilt.trieDecodes {s t : State} (built : TrieBuilt s t) (hs : CodesOk s) {msg : List Byte} (he : Encodable s msg) :
    TrieDecodes t (codeOf s) msg := by
  intro b hb
  obtain ⟨paths, leaves, codes⟩ := built.codes
  obtain ⟨code, hc⟩ := Option.isSome_iff_exists.1 (he b hb)
  have hcode : codeOf s b = code := by rw [codeOf, hc, Option.getD_some]
  have hok := hs b.toNat b.isLt
  rw [hc, codeOk_some] at hok
  rw [hcode]
  refine ⟨List.ne_nil_of_length_pos hok.1, _, codes.follow b.isLt hc, rfl, ?_⟩
  rw [BitVec.ofNat_toNat, BitVec.setWidth_eq]

/-- A message in the one symbol a table has is that symbol again and again (R272). -/
theorem eq_replicate_of_single {s : State} (hn : ctCount s = 1) {b : Byte} {msg : List Byte} (he : Encodable s (b :: msg)) :
    b :: msg = List.replicate (b :: msg).length b := by
  refine List.eq_replicate_iff.2 ⟨rfl, fun c hc => BitVec.eq_of_toNat_eq ?_⟩
  have hb := codedSymbols_single b.isLt hn (he b (List.mem_cons_self ..))
  rw [codedSymbols_single c.isLt hn (he c hc)] at hb
  exact (List.cons.inj hb).1

/-- SD_RUN with the trie of a table gives a message back from its packed codes, whatever follows them (R275). -/
theorem TrieBuilt.decodes {s t u : State} (built : TrieBuilt s t) (hs : CodesOk s) {msg rest : List Byte} (he : Encodable s msg)
    (htrie : u.trie = t.trie) (hN : u.trieN = t.trieN) (hone : u.decOne = t.decOne) (hu : StreamsOk u)
    (hr : sourceRest u = packbits (codeBits s msg) ++ rest) (hg : SourceGives (packbits (codeBits s msg)).length u)
    (hlen : msg.length = u.origSize.toNat) (hk : SinkTakes msg.length u) :
    ∃ rp cnt, exec .sdRun u = .next { u with rp := rp, sdState := .done, sdCur := 0#16, sdCnt := cnt, snk := u.snk ++ msg } := by
  have hn : u.trieN ≠ 0#17 := fun e => by
    obtain ⟨paths, leaves, codes⟩ := built.codes
    have := codes.spells.pos
    rw [← hN, e] at this
    exact absurd this (by decide)
  have size : u.origSize = BitVec.ofNat 64 msg.length := by rw [hlen, BitVec.ofNat_toNat, BitVec.setWidth_eq]
  cases msg with
  | nil =>
    refine ⟨u.rp, 0#64, (congrArg finish (runDecoder_zero hn size)).trans ?_⟩
    rw [List.append_nil]
    rfl
  | cons b msg =>
    have h0 : u.origSize ≠ 0#64 := fun e => by rw [e] at hlen; cases hlen
    by_cases hsingle : ctCount s = 1
    · have hdec : u.decOne = 0x100#9 ||| b.setWidth 9 := by
        rw [hone, built.decOne_single b.isLt hsingle (he b (List.mem_cons_self ..)), BitVec.ofNat_toNat]
      obtain ⟨-, -, single⟩ := sdRunWithoutWalking u
      obtain ⟨run, -⟩ := single hn h0 b hdec
      refine ⟨u.rp, u.origSize, ?_⟩
      rw [run (hlen ▸ hk), eq_replicate_of_single hsingle he, hlen]
    · have hdec : u.decOne.getLsbD 8 = false := by rw [hone, built.decOne_zero hsingle]; rfl
      exact ⟨_, _, congrArg finish (runDecoder_decodes hu hn hdec (List.cons_ne_nil _ _) hlen
        (trieDecodes_congr htrie (built.trieDecodes hs he)) hr hg hk)⟩

/-- DT_BUILD without fault makes the trie of the table (R253). -/
theorem trieBuilt_of_exec {s t : State} (hs : Inv s) (h : exec .dtBuild s = .next t) (he : t.err = none) : TrieBuilt s t := by
  obtain ⟨u, hu, built | refused⟩ := exec_dtBuild hs
  · obtain rfl : t = u := Host.Outcome.next.inj (h.symm.trans hu)
    exact built
  · obtain rfl : t = u := Host.Outcome.next.inj (h.symm.trans hu)
    rw [refused.frame] at he
    cases he

/-- A source that never fails gives all it has. -/
theorem sourceGives_of_no_fail {s : State} {n : Nat} (hf : s.srcFail = none) (h : s.rp.toNat + n ≤ s.src.length) : SourceGives n s :=
  ⟨h, fun f hf' => by rw [hf] at hf'; cases hf'⟩

/-- Settles O58: the trie is that of the table, and the source holds the packed codes from its beginning on. -/
theorem decoderInvertsPacker : Obligations.DecoderInvertsPacker := by
  intro s t msg rest hs _ hbuild herr hmsg hlen hsize u hk
  have built := trieBuilt_of_exec hs hbuild herr
  have hu : StreamsOk u := ⟨Nat.zero_le _, Nat.le_sub_one_of_lt hlen⟩
  have hg : SourceGives (packbits (codeBits s msg)).length u :=
    sourceGives_of_no_fail rfl (by show 0 + _ ≤ (packbits (codeBits s msg) ++ rest).length; rw [List.length_append]; omega)
  obtain ⟨rp, cnt, run⟩ := built.decodes hs.codes hmsg (u := u) rfl rfl rfl hu rfl hg (toNat_ofNat_of_lt hsize).symm hk
  exact ⟨_, run, herr, rfl, rfl⟩

/-! What BP_ENC has written where it came to its end, whatever the sink takes (R233). -/

theorem snkWrite_gives (b : Byte) (s : State) : (snkWrite b s).Gives (fun _ t => t = { s with snk := s.snk ++ [b] }) fun _ => True := by
  cases h : snkWrite b s with
  | ok a t => exact (snkWrite_eq_ok.1 h).2
  | raise k t => trivial
  | stop e => trivial

theorem flushBytes_gives (n : Nat) {acc : List Bool} (s : State) (hn : acc.length / 8 ≤ n) :
    (flushBytes n acc s).Gives (fun a t => a = restBits acc ∧ t = { s with snk := s.snk ++ wholeBytes acc }) fun _ => True := by
  have short {s : State} {acc : List Bool} (h : acc.length < 8) : acc = restBits acc ∧ s = { s with snk := s.snk ++ wholeBytes acc } :=
    ⟨(restBits_of_short h).symm, by rw [wholeBytes_of_short h, List.append_nil]⟩
  induction n generalizing acc s with
  | zero => exact short (by omega)
  | succ n ih =>
    rw [flushBytes]
    split
    · rename_i h8
      refine (snkWrite_gives ..).andThen ?_
      rintro - _ rfl
      refine (ih _ (by rw [List.length_drop]; omega)).mono ?_ fun _ => id
      rintro a t ⟨rfl, rfl⟩
      rw [restBits_of_full h8, wholeBytes_of_full h8, List.append_assoc, List.singleton_append]
      exact ⟨rfl, rfl⟩
    · exact short (by omega)

/-- The packer's passes over all that is left of the source. -/
theorem packSymbols_gives (msg : List Byte) {acc : List Bool} {s : State} (hs : StreamsOk s) (hg : SourceGives msg.length s)
    (hr : sourceRest s = msg) (ha : acc.length < 8) :
    (whileSrc packSymbol msg.length acc s).Gives
      (fun a t => a = restBits (acc ++ codeBits s msg) ∧
        t = { advance msg.length s with snk := s.snk ++ wholeBytes (acc ++ codeBits s msg) }) fun _ => True := by
  induction msg generalizing s acc with
  | nil =>
    rw [whileSrc_at_end ((eof_iff_rest hs).2 hr), codeBits, List.flatMap_nil, List.append_nil, restBits_of_short ha, wholeBytes_of_short ha,
      List.append_nil, List.length_nil, advance_zero]
    exact ⟨rfl, rfl⟩
  | cons b msg ih =>
    have hg1 : SourceGives 1 s := hg.le (by simp)
    have hs1 : StreamsOk (advance 1 s) := hg1.streamsOk hs
    rw [List.length_cons, whileSrc, if_neg (by rw [hg1.not_eof (n := 0) hs]; decide), packSymbol, hg1.read hr, Run.andThen_ok]
    cases hc : ctOf (advance 1 s) b.toNat with
    | none => trivial
    | some code =>
      have hcode : codeOf s b = code := by rw [codeOf, show ctOf s b.toNat = some code from hc, Option.getD_some]
      refine (flushBytes_gives _ _ (Nat.div_le_self ..)).andThen ?_
      rintro _ _ ⟨rfl, rfl⟩
      have hu := codeBits_congr (s := s) (t := { advance 1 s with snk := s.snk ++ wholeBytes (acc ++ code) }) rfl msg
      refine (ih (s := { advance 1 s with snk := s.snk ++ wholeBytes (acc ++ code) }) ⟨hs1.pos, hs1.len⟩
        (SourceGives.gives (n := 1) (by rwa [Nat.add_comm]) hs) ((hg1.rest hs).trans (by rw [hr]; rfl))
        (by rw [length_restBits]; omega)).mono ?_ fun _ => id
      rintro _ _ ⟨rfl, rfl⟩
      rw [hu, codeBits_cons, hcode, ← List.append_assoc, restBits_append (acc ++ code), wholeBytes_append (acc ++ code), ← List.append_assoc,
        Nat.add_comm, ← advance_advance]
      exact ⟨rfl, rfl⟩

/-- BP_ENC at its end has appended the packed codes (R233). -/
theorem packSource_gives {s : State} (hs : StreamsOk s) (hg : SourceGives (srcLeft s) s) :
    (packSource s).Gives
      (fun _ t => t = { s with rp := BitVec.ofNat 64 s.src.length, snk := s.snk ++ packbits (codeBits s (sourceRest s)) }) fun _ => True := by
  have passes := packSymbols_gives (sourceRest s) (acc := []) hs (by rwa [length_sourceRest]) rfl (by decide)
  rw [length_sourceRest, List.nil_append, advance_all s hs] at passes
  refine passes.andThen ?_
  rintro _ _ ⟨rfl, rfl⟩
  have hsplit := packbits_eq (codeBits s (sourceRest s))
  generalize codeBits s (sourceRest s) = bits at hsplit ⊢
  rw [hsplit, flushRest]
  have hrest := length_restBits bits
  split
  · rename_i h0
    rw [List.length_eq_zero_iff.1 h0, packbits_nil, List.append_nil]
    rfl
  · rw [packbits_of_rest (by omega) (by omega), ← List.append_assoc]
    exact snkWrite_gives ..

/-- What a part gave where it ended normally. -/
theorem Run.Gives.of_ok {α : Type} {r : Run α} {P : α → State → Prop} {Q : State → Prop} {a : α} {t : State} (h : r.Gives P Q)
    (hr : r = .ok a t) : P a t := by
  rw [hr] at h
  exact h

/-! Sequences of host actions (R99). -/

/-- A sequence that ends with ERR = 0 had ERR = 0 after its first action. -/
theorem runActions_cons {a : HostAction} {rest : List HostAction} {s t : State} (h : runActions (a :: rest) s = .next t) (he : t.err = none) :
    ∃ u, perform a s = .next u ∧ u.err = none ∧ runActions rest u = .next t := by
  rw [runActions] at h
  split at h
  · rename_i u hu
    split at h
    · rename_i herr
      cases h
      rw [he] at herr
      cases herr
    · rename_i herr
      exact ⟨u, hu, by simpa using herr, h⟩
  · cases h
  · cases h

theorem runActions_of_next {a : HostAction} {rest : List HostAction} {s u : State} (h : perform a s = .next u) (he : u.err = none) :
    runActions (a :: rest) s = runActions rest u := by
  rw [runActions, h]
  simp [he]

/-- A command written to CMD with ERR = 0 runs (R94). -/
theorem perform_command {i : Instr} {s : State} (he : s.err = none) (hi : i.wellFormed = true := by rfl) :
    perform (command i) s = exec i s := writeCmd_decoded he (encodeDecodeRoundTrip i hi)

theorem perform_rst (s : State) : perform (command .rst) s = .next (softReset s) := writeCmd_rstWord s

theorem perform_attach {bytes : List Byte} (h : bytes.length < 2 ^ 64) (f : Option Count) (s : State) :
    perform (.attach bytes f) s = .next { s with src := bytes, srcFail := f, rp := 0#64 } := attachSource_of_lt h f s

/-! COMPRESS (R297). -/

/-- What the first half of COMPRESS leaves: the input in the source, its length in ORIG_SIZE, and a code for each of its bytes, none of which begins another. -/
structure Prepared (s x : State) (input : List Byte) : Prop where
  inv : Inv x
  src : x.src = input
  srcFail : x.srcFail = none
  size : x.origSize.toNat = input.length
  coded : Encodable x input
  free : PrefixFree x
  snk : x.snk = s.snk
  seen : x.seen = s.seen

theorem usedSymbols_ne_zero {s : State} {b : Byte} (h : freqOf s b.toNat ≠ 0#64) : usedSymbols s ≠ 0 :=
  (List.length_pos_of_mem (List.mem_filter.2 ⟨List.mem_range.2 b.isLt, decide_eq_true h⟩)).ne'

/-- FC_SCAN over a source that never fails: ORIG_SIZE is the number of its bytes, and each of them is counted (R131). -/
theorem execFcScan_counts {s x : State} (hs : StreamsOk s) (hf : s.srcFail = none) (h : exec .fcScan s = .next x) :
    x.origSize.toNat = (sourceRest s).length ∧ ∀ b ∈ sourceRest s, freqOf x b.toNat ≠ 0#64 := by
  obtain ⟨f, hrun, hcount, -, hsize, -⟩ := fcScanCounts s hs (sourceGives_of_no_fail hf (Nat.add_sub_cancel' hs.pos).le)
  obtain rfl := Host.Outcome.next.inj (hrun.symm.trans h)
  refine ⟨hsize.trans (length_sourceRest s).symm, fun b hb hzero => ?_⟩
  have hpos : 0 < (readCell 0#64 f b.toNat).toNat := by rw [hcount b]; exact List.count_pos_iff.2 hb
  rw [show readCell 0#64 f b.toNat = 0#64 from hzero] at hpos
  exact absurd hpos (by decide)

/-- FC_SCAN, TB_BUILD and CG_GEN over a source at its beginning. -/
theorem prepared_of_scan {s x y z : State} {input : List Byte} (hs : Inv s) (hne : input ≠ []) (hsrc : s.src = input) (hf : s.srcFail = none)
    (hrp : s.rp = 0#64) (hscan : exec .fcScan s = .next x) (hbuild : exec .tbBuild x = .next y) (hcodes : exec .cgGen y = .next z) :
    Prepared s z input := by
  have hx : Inv x := exec_inv hs hscan
  obtain ⟨hsize, hused⟩ := execFcScan_counts hs.streams hf hscan
  rw [sourceRest, hrp, hsrc, BitVec.toNat_zero, List.drop_zero] at hsize hused
  obtain ⟨b, hb⟩ := List.exists_mem_of_ne_nil _ hne
  obtain ⟨y', z', hy, hz, -, hcover, -, hfree⟩ := treeCodesCoverSymbols x hx (usedSymbols_ne_zero (hused b hb))
  obtain rfl := Host.Outcome.next.inj (hy.symm.trans hbuild)
  obtain rfl := Host.Outcome.next.inj (hz.symm.trans hcodes)
  have frame {α : Type} (f : State → α) (h1 : f x = f s) (h2 : f y' = f x) (h3 : f z' = f y') : f z' = f s := h3.trans (h2.trans h1)
  have scanned := (exec_only hscan).1
  have built := (exec_only hbuild).1
  have coded := (exec_only hcodes).1
  exact {
    inv := exec_inv (exec_inv hx hbuild) hcodes
    src := (frame State.src (congrArg State.src scanned :) (congrArg State.src built :) (congrArg State.src coded :)).trans hsrc
    srcFail := (frame State.srcFail (congrArg State.srcFail scanned :) (congrArg State.srcFail built :) (congrArg State.srcFail coded :)).trans hf
    size := by rw [coded, built]; exact hsize
    coded := fun b hb => by rw [hcover b.toNat b.isLt]; exact decide_eq_true (hused b hb)
    free := hfree
    snk := frame State.snk (congrArg State.snk scanned :) (congrArg State.snk built :) (congrArg State.snk coded :)
    seen := frame State.seen (congrArg State.seen scanned :) (congrArg State.seen built :) (congrArg State.seen coded :) }

/-- An attach that was not refused (R294; log 8). -/
theorem attachSource_next {bytes : List Byte} {f : Option Count} {s t : State} (h : attachSource bytes f s = .next t) :
    bytes.length ≤ Config.lenMax ∧ t = { s with src := bytes, srcFail := f, rp := 0#64 } := by
  rw [attachSource] at h
  split at h
  · cases h
  · exact ⟨Nat.le_of_not_lt ‹_›, (Host.Outcome.next.inj h).symm⟩

/-- The first half of COMPRESS, and what is left of it to do. -/
theorem compress_prepares {s t : State} {input : List Byte} {rest : List HostAction} (hs : Inv s) (hne : input ≠ [])
    (h : runActions (command .rst :: .attach input none :: command .fcScan :: command .tbBuild :: command .cgGen :: rest) s = .next t)
    (he : t.err = none) : ∃ x, Prepared s x input ∧ x.err = none ∧ runActions rest x = .next t := by
  obtain ⟨s1, reset, -, h1⟩ := runActions_cons h he
  obtain ⟨s2, attach, e2, h2⟩ := runActions_cons h1 he
  obtain ⟨s3, scan, e3, h3⟩ := runActions_cons h2 he
  obtain ⟨s4, build, e4, h4⟩ := runActions_cons h3 he
  obtain ⟨s5, codes, e5, h5⟩ := runActions_cons h4 he
  rw [perform_command e2] at scan
  rw [perform_command e3] at build
  rw [perform_command e4] at codes
  obtain rfl := Host.Outcome.next.inj ((perform_rst s).symm.trans reset)
  obtain ⟨hlen, hs2⟩ := attachSource_next attach
  have hinv : Inv s2 := (softReset_inv hs).of_onHost (by rw [hs2]; rfl) (by rw [hs2]; exact ⟨Nat.zero_le _, hlen⟩) (by rw [hs2]; exact hs.sink)
  have made := prepared_of_scan hinv hne (by rw [hs2]) (by rw [hs2]) (by rw [hs2]) scan build codes
  exact ⟨s5, ⟨made.inv, made.src, made.srcFail, made.size, made.coded, made.free, made.snk.trans (by rw [hs2]; rfl), made.seen.trans (by rw [hs2]; rfl)⟩,
    e5, h5⟩

/-- The compressed file: the header of 8 bytes and the packed codes (30_encoding.md R110 to R112). -/
def compressedFile (x : State) (input : List Byte) : List Byte := le 8 x.origSize ++ packbits (codeBits x input)

/-- A CF_WRH that ended without fault (R231). -/
theorem execCfWrh_appended {s t : State} (h : exec .cfWrh s = .next t) (he : t.err = none) : t = { s with snk := s.snk ++ le 8 s.origSize } := by
  have ends := snkWriteAll_ends (le 8 s.origSize) s
  rw [show snkWriteAll (le 8 s.origSize) s = .ok () t from ok_of_finish_next h he] at ends
  exact ends

/-- A BP_ENC that ended without fault, over a source that never fails (R233). -/
theorem execBpEnc_appended {s t : State} (hs : StreamsOk s) (hf : s.srcFail = none) (h : exec .bpEnc s = .next t) (he : t.err = none) :
    t = { s with rp := BitVec.ofNat 64 s.src.length, snk := s.snk ++ packbits (codeBits s (sourceRest s)) } :=
  (packSource_gives hs (sourceGives_of_no_fail hf (Nat.add_sub_cancel' hs.pos).le)).of_ok (ok_of_finish_next h he)

/-- A table writer that ended without fault (R191). -/
theorem writeTable_appended {w : Nat} {s t : State} (h : writeTable w s = .ok () t) : t = { s with snk := s.snk ++ tableBytes w s } := by
  have ends := writeTable_ends w s
  rw [h] at ends
  exact ends

/-- The second half of COMPRESS: a table file and a compressed file are drained. -/
theorem compress_drains {s x t : State} {input : List Byte} {wr : Instr} {w : Nat} (hwr : ∀ y, exec wr y = finish (writeTable w y))
    (hwf : wr.wellFormed = true) (hx : Prepared s x input) (hxe : x.err = none)
    (h : runActions [command wr, .drain, command .rwd, command .cfWrh, command .bpEnc, .drain] x = .next t) (he : t.err = none) :
    (∃ y, writeTable w x = .ok () y) ∧
      t.seen = x.seen ++ [.drained (x.snk ++ tableBytes w x), .drained (compressedFile x input)] := by
  obtain ⟨s1, write, e1, h1⟩ := runActions_cons h he
  obtain ⟨s2, drain, e2, h2⟩ := runActions_cons h1 he
  obtain ⟨s3, rewind, e3, h3⟩ := runActions_cons h2 he
  obtain ⟨s4, header, e4, h4⟩ := runActions_cons h3 he
  obtain ⟨s5, pack, e5, h5⟩ := runActions_cons h4 he
  obtain ⟨s6, last, -, h6⟩ := runActions_cons h5 he
  rw [perform_command hxe hwf, hwr] at write
  rw [perform_command e2] at rewind
  rw [perform_command e3] at header
  rw [perform_command e4] at pack
  have written := ok_of_finish_next write e1
  have hs3 : s3 = { x with rp := 0#64, snk := [], seen := x.seen ++ [.drained (x.snk ++ tableBytes w x)] } := by
    rw [← Host.Outcome.next.inj rewind, ← Host.Outcome.next.inj drain, writeTable_appended written]
  have hs4 := execCfWrh_appended header e4
  have hrest : sourceRest s4 = input := by rw [hs4, hs3]; exact hx.src
  have hs5 := execBpEnc_appended (by rw [hs4, hs3]; exact ⟨Nat.zero_le _, hx.inv.streams.len⟩) (by rw [hs4, hs3]; exact hx.srcFail) pack e5
  rw [hrest, codeBits_congr (s := x) (by rw [hs4, hs3])] at hs5
  refine ⟨⟨s1, written⟩, ?_⟩
  rw [← Host.Outcome.next.inj h6, ← Host.Outcome.next.inj last, hs5, hs4, hs3]
  exact List.append_assoc ..

/-! DECOMPRESS (R298). -/

/-- A source attached that never fails (R294). -/
def attached (bytes : List Byte) (s : State) : State := { s with src := bytes, srcFail := none, rp := 0#64 }

theorem sourceRest_attached (bytes : List Byte) (s : State) : sourceRest (attached bytes s) = bytes := rfl

theorem streamsOk_attached {bytes : List Byte} (h : bytes.length < 2 ^ 64) (s : State) : StreamsOk (attached bytes s) :=
  ⟨Nat.zero_le _, Nat.le_sub_one_of_lt h⟩

theorem sourceGives_attached {bytes : List Byte} {n : Nat} (h : n ≤ bytes.length) (s : State) : SourceGives n (attached bytes s) :=
  sourceGives_of_no_fail rfl ((Nat.zero_add n).trans_le h)

/-- What the first half of DECOMPRESS leaves of `u`: a trie built from the code table of `x`. -/
structure Loaded (x u v : State) : Prop where
  built : ∃ y, TrieBuilt y v ∧ CodesOk y ∧ y.ct = x.ct
  err : v.err = none
  snk : v.snk = u.snk
  snkLimit : v.snkLimit = u.snkLimit
  seen : v.seen = u.seen

/-- The first half of DECOMPRESS: the table is read back and its trie built. -/
theorem decompress_loads {x y u : State} {rd : Instr} {w : Nat} (hw : w = 4 ∨ w = 8) (hrd : ∀ v, exec rd v = finish (readTable w v))
    (hwf : rd.wellFormed = true) (hx : Inv x) (hwritten : writeTable w x = .ok () y) (hfree : PrefixFree x) (hu : Inv u)
    (htable : (tableBytes w x).length < 2 ^ 64) (rest : List HostAction) :
    ∃ v, Loaded x u v ∧
      runActions (command .rst :: .attach (tableBytes w x) none :: command rd :: command .dtBuild :: rest) u = runActions rest v := by
  let u2 : State := attached (tableBytes w x) (softReset u)
  let u3 : State := { u2 with origSize := x.origSize, ct := x.ct, rp := BitVec.ofNat 64 u2.src.length }
  have hu2 : Inv u2 := (softReset_inv hu).of_onHost rfl (streamsOk_attached htable _) hu.sink
  have hsnk : y.snk = x.snk ++ sourceRest u2 := congrArg State.snk (writeTable_appended hwritten)
  have hread : exec rd u2 = .next u3 :=
    (hrd u2).trans (congrArg finish (readTable_writeTable hw hx hu2.streams (sourceGives_attached (Nat.sub_le ..) _) hsnk hwritten))
  have hu3 : Inv u3 := exec_inv hu2 hread
  obtain ⟨v, hbuild, built | refused⟩ := exec_dtBuild hu3
  · have herr : v.err = none := by rw [built.frame]; rfl
    refine ⟨v, ⟨⟨u3, built, hu3.codes, rfl⟩, herr, by rw [built.frame]; rfl, by rw [built.frame]; rfl, by rw [built.frame]; rfl⟩, ?_⟩
    calc runActions (command .rst :: .attach (tableBytes w x) none :: command rd :: command .dtBuild :: rest) u
      _ = runActions (.attach (tableBytes w x) none :: command rd :: command .dtBuild :: rest) (softReset u) :=
        runActions_of_next (perform_rst u) rfl
      _ = runActions (command rd :: command .dtBuild :: rest) u2 := runActions_of_next (perform_attach htable none _) rfl
      _ = runActions (command .dtBuild :: rest) u3 := runActions_of_next ((perform_command (s := u2) rfl hwf).trans hread) rfl
      _ = runActions rest v := runActions_of_next ((perform_command (s := u3) rfl).trans hbuild) herr
  · exact absurd hfree refused.clash

/-- A file attached whose header of 8 bytes has been read. -/
def headed (n : Count) (body : List Byte) (s : State) : State := { advance 8 (attached (le 8 n ++ body) s) with origSize := n }

section
variable {n : Count} {body : List Byte} (h : (le 8 n ++ body).length < 2 ^ 64) (s : State)
include h

/-- CF_RDH on such a file (R266). -/
theorem execCfRdh_attached : exec .cfRdh (attached (le 8 n ++ body) s) = .next (headed n body s) := by
  have gives : SourceGives 8 (attached (le 8 n ++ body) s) := sourceGives_attached (by rw [List.length_append, length_le]; omega) s
  refine (congrArg finish (readHeader_ok (streamsOk_attached h s) gives)).trans ?_
  rw [sourceRest_attached, List.take_left' (length_le 8 n), fromLe_le_eight]
  rfl

/-- What follows the header is the source from there on. -/
theorem headed_source : StreamsOk (headed n body s) ∧ sourceRest (headed n body s) = body ∧ SourceGives body.length (headed n body s) := by
  have gives : SourceGives (8 + body.length) (attached (le 8 n ++ body) s) :=
    sourceGives_attached (by rw [List.length_append, length_le]) s
  have streams := streamsOk_attached h s
  have gives8 := gives.le (Nat.le_add_right ..)
  exact ⟨⟨(gives8.streamsOk streams).pos, streams.len⟩, (gives8.rest streams).trans (List.drop_left' (length_le 8 n)), gives.gives streams⟩

end

/-- The second half of DECOMPRESS: the header gives ORIG_SIZE back, and the packed codes the message. -/
theorem decompress_decodes {x u v : State} {input : List Byte} (hv : Loaded x u v) (hcoded : Encodable x input)
    (hsize : x.origSize.toNat = input.length) (hsnk : u.snk = []) (hlim : u.snkLimit = none)
    (hfile : (compressedFile x input).length < 2 ^ 64) :
    ∃ t, runActions [.attach (compressedFile x input) none, command .cfRdh, command .sdRun, .drain] v = .next t ∧ t.err = none ∧
      t.seen = u.seen ++ [.drained input] := by
  obtain ⟨y, built, hcodes, hct⟩ := hv.built
  let v1 : State := attached (compressedFile x input) v
  let v2 : State := headed x.origSize (packbits (codeBits x input)) v
  obtain ⟨hstreams, hrest, hgives⟩ : StreamsOk v2 ∧ _ := headed_source hfile v
  have hbits : codeBits y input = codeBits x input := codeBits_congr hct input
  have hcoded' : Encodable y input := by simpa only [Encodable, ctOf, hct] using hcoded
  have hroom : SinkTakes input.length v2 := by
    refine .inr ?_
    rw [snkCap_unlimited (s := v2) (hv.snkLimit.trans hlim), show v2.snk = [] from hv.snk.trans hsnk, List.length_nil, Nat.zero_add, ← hsize]
    exact Nat.le_sub_one_of_lt x.origSize.isLt
  obtain ⟨rp, cnt, hrun⟩ := built.decodes hcodes hcoded' (u := v2) (rest := []) rfl rfl rfl hstreams
    (by rw [hbits, List.append_nil]; exact hrest) (by rw [hbits]; exact hgives) hsize.symm hroom
  let v3 : State := { v2 with rp := rp, sdState := .done, sdCur := 0#16, sdCnt := cnt, snk := v2.snk ++ input }
  let v4 : State := { v3 with snk := [], seen := v3.seen ++ [.drained v3.snk] }
  refine ⟨v4, ?_, hv.err, ?_⟩
  · calc runActions [.attach (compressedFile x input) none, command .cfRdh, command .sdRun, .drain] v
      _ = runActions [command .cfRdh, command .sdRun, .drain] v1 := runActions_of_next (perform_attach hfile none v) hv.err
      _ = runActions [command .sdRun, .drain] v2 :=
        runActions_of_next ((perform_command (s := v1) hv.err).trans (execCfRdh_attached hfile v)) hv.err
      _ = runActions [.drain] v3 := runActions_of_next ((perform_command (s := v2) hv.err).trans hrun) hv.err
      _ = runActions [] v4 := runActions_of_next rfl hv.err
  · show v.seen ++ [.drained (v.snk ++ input)] = _
    rw [hv.seen, hv.snk, hsnk, List.nil_append]

/-- Settles O59: what COMPRESS drains is the table and the compressed file of one code table, and DECOMPRESS gives the message back from them. -/
theorem flowsRoundTrip : Obligations.FlowsRoundTrip := by
  intro input table file s t u wr rd hpair hne hs hsnk hrun herr hseen hu husnk hulim htable hfile
  obtain ⟨w, hw, hwr, hwrwf, hrd, hrdwf⟩ : ∃ w, (w = 4 ∨ w = 8) ∧ (∀ y, exec wr y = finish (writeTable w y)) ∧ wr.wellFormed = true ∧
      (∀ y, exec rd y = finish (readTable w y)) ∧ rd.wellFormed = true := by
    simp only [List.mem_cons, Prod.mk.injEq, List.not_mem_nil, or_false] at hpair
    rcases hpair with ⟨rfl, rfl⟩ | ⟨rfl, rfl⟩
    · exact ⟨4, .inl rfl, fun _ => rfl, rfl, fun _ => rfl, rfl⟩
    · exact ⟨8, .inr rfl, fun _ => rfl, rfl, fun _ => rfl, rfl⟩
  obtain ⟨x, hx, hxe, hrest⟩ := compress_prepares hs hne hrun herr
  obtain ⟨⟨y, hwritten⟩, drained⟩ := compress_drains hwr hwrwf hx hxe hrest herr
  rw [hseen, hx.seen, hx.snk, hsnk, List.nil_append, List.append_cancel_left_eq] at drained
  simp only [List.cons.injEq, Observation.drained.injEq, and_true] at drained
  obtain ⟨rfl, rfl⟩ := drained
  obtain ⟨v, hv, hloaded⟩ := decompress_loads hw hrd hrdwf hx.inv hwritten hx.free hu htable
    [.attach (compressedFile x input) none, command .cfRdh, command .sdRun, .drain]
  obtain ⟨r, hdecoded, hr, hrseen⟩ := decompress_decodes hv hx.coded hx.size husnk hulim hfile
  exact ⟨r, hloaded.trans hdecoded, hr, hrseen⟩

end Sys2Proof.Machine
end
